-- ==== Sys2Proof/Word.lean ====
section
/-! DEFINITION. The value types the spec names (`00_scope` R9): bytes, 16-bit words and
binary64 bit patterns. -/

namespace Sys2Proof

/-- `u8` (R9). -/
abbrev Byte := BitVec 8

/-- `u16`: CPU addresses and the program counter (R8). -/
abbrev Word := BitVec 16

/-- An IEEE-754 binary64 value, held as its 64-bit pattern (R1054, R1200). -/
abbrev Binary64 := BitVec 64

end Sys2Proof
end

