-- ==== Sys2Proof/Syntax.lean ====
section
/-! DEFINITION. The instructions as syntax: one constructor for each of the 151 documented rows of
the opcode table (`30_encoding` R305; the name is the mnemonic and the addressing mode), and
`illegal`, which carries the opcode byte, for the 105 rows whose mnemonic is ILLEGAL (R306).
An operand `b` is the byte at PC+1, an operand `w` the word `b1 | b2 << 8` (R300). -/

namespace Sys2Proof

inductive Instr where
  -- 40_load_store_transfer: loads, stores, transfers (R400-R411)
  | ldaImm (b : Byte)  -- 0xA9 LDA #
  | ldaZp (b : Byte)  -- 0xA5 LDA zp
  | ldaZpX (b : Byte)  -- 0xB5 LDA zp,X
  | ldaAbs (w : Word)  -- 0xAD LDA abs
  | ldaAbsX (w : Word)  -- 0xBD LDA abs,X
  | ldaAbsY (w : Word)  -- 0xB9 LDA abs,Y
  | ldaIndX (b : Byte)  -- 0xA1 LDA (zp,X)
  | ldaIndY (b : Byte)  -- 0xB1 LDA (zp),Y
  | ldxImm (b : Byte)  -- 0xA2 LDX #
  | ldxZp (b : Byte)  -- 0xA6 LDX zp
  | ldxZpY (b : Byte)  -- 0xB6 LDX zp,Y
  | ldxAbs (w : Word)  -- 0xAE LDX abs
  | ldxAbsY (w : Word)  -- 0xBE LDX abs,Y
  | ldyImm (b : Byte)  -- 0xA0 LDY #
  | ldyZp (b : Byte)  -- 0xA4 LDY zp
  | ldyZpX (b : Byte)  -- 0xB4 LDY zp,X
  | ldyAbs (w : Word)  -- 0xAC LDY abs
  | ldyAbsX (w : Word)  -- 0xBC LDY abs,X
  | staZp (b : Byte)  -- 0x85 STA zp
  | staZpX (b : Byte)  -- 0x95 STA zp,X
  | staAbs (w : Word)  -- 0x8D STA abs
  | staAbsX (w : Word)  -- 0x9D STA abs,X
  | staAbsY (w : Word)  -- 0x99 STA abs,Y
  | staIndX (b : Byte)  -- 0x81 STA (zp,X)
  | staIndY (b : Byte)  -- 0x91 STA (zp),Y
  | stxZp (b : Byte)  -- 0x86 STX zp
  | stxZpY (b : Byte)  -- 0x96 STX zp,Y
  | stxAbs (w : Word)  -- 0x8E STX abs
  | styZp (b : Byte)  -- 0x84 STY zp
  | styZpX (b : Byte)  -- 0x94 STY zp,X
  | styAbs (w : Word)  -- 0x8C STY abs
  | tax  -- 0xAA TAX impl
  | tay  -- 0xA8 TAY impl
  | txa  -- 0x8A TXA impl
  | tya  -- 0x98 TYA impl
  | tsx  -- 0xBA TSX impl
  | txs  -- 0x9A TXS impl
  -- 41_stack (R450-R453)
  | pha  -- 0x48 PHA impl
  | php  -- 0x08 PHP impl
  | pla  -- 0x68 PLA impl
  | plp  -- 0x28 PLP impl
  -- 42_arithmetic_logic (R500-R514)
  | adcImm (b : Byte)  -- 0x69 ADC #
  | adcZp (b : Byte)  -- 0x65 ADC zp
  | adcZpX (b : Byte)  -- 0x75 ADC zp,X
  | adcAbs (w : Word)  -- 0x6D ADC abs
  | adcAbsX (w : Word)  -- 0x7D ADC abs,X
  | adcAbsY (w : Word)  -- 0x79 ADC abs,Y
  | adcIndX (b : Byte)  -- 0x61 ADC (zp,X)
  | adcIndY (b : Byte)  -- 0x71 ADC (zp),Y
  | sbcImm (b : Byte)  -- 0xE9 SBC #
  | sbcZp (b : Byte)  -- 0xE5 SBC zp
  | sbcZpX (b : Byte)  -- 0xF5 SBC zp,X
  | sbcAbs (w : Word)  -- 0xED SBC abs
  | sbcAbsX (w : Word)  -- 0xFD SBC abs,X
  | sbcAbsY (w : Word)  -- 0xF9 SBC abs,Y
  | sbcIndX (b : Byte)  -- 0xE1 SBC (zp,X)
  | sbcIndY (b : Byte)  -- 0xF1 SBC (zp),Y
  | andImm (b : Byte)  -- 0x29 AND #
  | andZp (b : Byte)  -- 0x25 AND zp
  | andZpX (b : Byte)  -- 0x35 AND zp,X
  | andAbs (w : Word)  -- 0x2D AND abs
  | andAbsX (w : Word)  -- 0x3D AND abs,X
  | andAbsY (w : Word)  -- 0x39 AND abs,Y
  | andIndX (b : Byte)  -- 0x21 AND (zp,X)
  | andIndY (b : Byte)  -- 0x31 AND (zp),Y
  | oraImm (b : Byte)  -- 0x09 ORA #
  | oraZp (b : Byte)  -- 0x05 ORA zp
  | oraZpX (b : Byte)  -- 0x15 ORA zp,X
  | oraAbs (w : Word)  -- 0x0D ORA abs
  | oraAbsX (w : Word)  -- 0x1D ORA abs,X
  | oraAbsY (w : Word)  -- 0x19 ORA abs,Y
  | oraIndX (b : Byte)  -- 0x01 ORA (zp,X)
  | oraIndY (b : Byte)  -- 0x11 ORA (zp),Y
  | eorImm (b : Byte)  -- 0x49 EOR #
  | eorZp (b : Byte)  -- 0x45 EOR zp
  | eorZpX (b : Byte)  -- 0x55 EOR zp,X
  | eorAbs (w : Word)  -- 0x4D EOR abs
  | eorAbsX (w : Word)  -- 0x5D EOR abs,X
  | eorAbsY (w : Word)  -- 0x59 EOR abs,Y
  | eorIndX (b : Byte)  -- 0x41 EOR (zp,X)
  | eorIndY (b : Byte)  -- 0x51 EOR (zp),Y
  | bitZp (b : Byte)  -- 0x24 BIT zp
  | bitAbs (w : Word)  -- 0x2C BIT abs
  | cmpImm (b : Byte)  -- 0xC9 CMP #
  | cmpZp (b : Byte)  -- 0xC5 CMP zp
  | cmpZpX (b : Byte)  -- 0xD5 CMP zp,X
  | cmpAbs (w : Word)  -- 0xCD CMP abs
  | cmpAbsX (w : Word)  -- 0xDD CMP abs,X
  | cmpAbsY (w : Word)  -- 0xD9 CMP abs,Y
  | cmpIndX (b : Byte)  -- 0xC1 CMP (zp,X)
  | cmpIndY (b : Byte)  -- 0xD1 CMP (zp),Y
  | cpxImm (b : Byte)  -- 0xE0 CPX #
  | cpxZp (b : Byte)  -- 0xE4 CPX zp
  | cpxAbs (w : Word)  -- 0xEC CPX abs
  | cpyImm (b : Byte)  -- 0xC0 CPY #
  | cpyZp (b : Byte)  -- 0xC4 CPY zp
  | cpyAbs (w : Word)  -- 0xCC CPY abs
  | incZp (b : Byte)  -- 0xE6 INC zp
  | incZpX (b : Byte)  -- 0xF6 INC zp,X
  | incAbs (w : Word)  -- 0xEE INC abs
  | incAbsX (w : Word)  -- 0xFE INC abs,X
  | decZp (b : Byte)  -- 0xC6 DEC zp
  | decZpX (b : Byte)  -- 0xD6 DEC zp,X
  | decAbs (w : Word)  -- 0xCE DEC abs
  | decAbsX (w : Word)  -- 0xDE DEC abs,X
  | inx  -- 0xE8 INX impl
  | iny  -- 0xC8 INY impl
  | dex  -- 0xCA DEX impl
  | dey  -- 0x88 DEY impl
  -- 43_shift_rotate (R550-R553)
  | aslA  -- 0x0A ASL A
  | aslZp (b : Byte)  -- 0x06 ASL zp
  | aslZpX (b : Byte)  -- 0x16 ASL zp,X
  | aslAbs (w : Word)  -- 0x0E ASL abs
  | aslAbsX (w : Word)  -- 0x1E ASL abs,X
  | lsrA  -- 0x4A LSR A
  | lsrZp (b : Byte)  -- 0x46 LSR zp
  | lsrZpX (b : Byte)  -- 0x56 LSR zp,X
  | lsrAbs (w : Word)  -- 0x4E LSR abs
  | lsrAbsX (w : Word)  -- 0x5E LSR abs,X
  | rolA  -- 0x2A ROL A
  | rolZp (b : Byte)  -- 0x26 ROL zp
  | rolZpX (b : Byte)  -- 0x36 ROL zp,X
  | rolAbs (w : Word)  -- 0x2E ROL abs
  | rolAbsX (w : Word)  -- 0x3E ROL abs,X
  | rorA  -- 0x6A ROR A
  | rorZp (b : Byte)  -- 0x66 ROR zp
  | rorZpX (b : Byte)  -- 0x76 ROR zp,X
  | rorAbs (w : Word)  -- 0x6E ROR abs
  | rorAbsX (w : Word)  -- 0x7E ROR abs,X
  -- 44_control_transfer (R600-R611)
  | jmpAbs (w : Word)  -- 0x4C JMP abs
  | jmpInd (w : Word)  -- 0x6C JMP (abs)
  | jsr (w : Word)  -- 0x20 JSR abs
  | rts  -- 0x60 RTS impl
  | bcc (b : Byte)  -- 0x90 BCC rel
  | bcs (b : Byte)  -- 0xB0 BCS rel
  | beq (b : Byte)  -- 0xF0 BEQ rel
  | bmi (b : Byte)  -- 0x30 BMI rel
  | bne (b : Byte)  -- 0xD0 BNE rel
  | bpl (b : Byte)  -- 0x10 BPL rel
  | bvc (b : Byte)  -- 0x50 BVC rel
  | bvs (b : Byte)  -- 0x70 BVS rel
  -- 45_flags_system (R650-R660)
  | clc  -- 0x18 CLC impl
  | sec  -- 0x38 SEC impl
  | cli  -- 0x58 CLI impl
  | sei  -- 0x78 SEI impl
  | cld  -- 0xD8 CLD impl
  | sed  -- 0xF8 SED impl
  | clv  -- 0xB8 CLV impl
  | nop  -- 0xEA NOP impl
  | brk  -- 0x00 BRK impl
  | rti  -- 0x40 RTI impl
  | illegal (op : Byte)  -- the 105 bytes of R306
  deriving DecidableEq, Repr

/-- The eight addressing modes that name a byte of memory (R324-R329, R331, R332). -/
inductive AddrMode where
  | zp (b : Byte)
  | zpX (b : Byte)
  | zpY (b : Byte)
  | abs (w : Word)
  | absX (w : Word)
  | absY (w : Word)
  | indX (b : Byte)
  | indY (b : Byte)
  deriving DecidableEq, Repr

/-- Where a reading instruction takes its byte from: the immediate byte (R323) or memory. -/
inductive ReadMode where
  | imm (b : Byte)
  | mem (m : AddrMode)
  deriving DecidableEq, Repr

/-- The mnemonics that read one byte and change registers or flags. -/
inductive ReadOp where
  | lda | ldx | ldy | adc | sbc | and | ora | eor | bit | cmp | cpx | cpy
  deriving DecidableEq, Repr

/-- The mnemonics that store a register. -/
inductive StoreOp where
  | sta | stx | sty
  deriving DecidableEq, Repr

/-- The mnemonics that read, modify and write one byte. -/
inductive RmwOp where
  | asl | lsr | rol | ror | inc | dec
  deriving DecidableEq, Repr

/-- The eight branches (R604-R611). -/
inductive BranchOp where
  | bcc | bcs | beq | bmi | bne | bpl | bvc | bvs
  deriving DecidableEq, Repr

/-- The one-byte instructions that only move between, or change, registers and flags. -/
inductive RegOp where
  | tax | tay | txa | tya | tsx | txs | inx | iny | dex | dey
  | clc | sec | cli | sei | cld | sed | clv | nop
  deriving DecidableEq, Repr

/-- The one-byte instructions that use the stack. -/
inductive StackOp where
  | pha | php | pla | plp | rts | rti | brk
  deriving DecidableEq, Repr

/-- What a row of the opcode table says: its mnemonic and its addressing mode with its operand.
`Instr.row` (Decode.lean) reads it off an instruction; statements use it to speak of all rows of a
mnemonic at once. -/
inductive Row where
  | read (op : ReadOp) (m : ReadMode)
  | store (op : StoreOp) (m : AddrMode)
  | rmw (op : RmwOp) (m : AddrMode)
  | rmwA (op : RmwOp)
  | branch (op : BranchOp) (b : Byte)
  | reg (op : RegOp)
  | stack (op : StackOp)
  | jmp (w : Word)
  | jmpInd (w : Word)
  | jsr (w : Word)
  | illegal (op : Byte)
  deriving DecidableEq, Repr

end Sys2Proof
end

