-- ==== Sys2Proof/Decode.lean ====
section
/-! DEFINITION. The decoder and the encoder (`30_encoding` R300-R307): the opcode map of R304, total
over the 256 opcode bytes, the lengths of R301, and the words of an instruction. -/

namespace Sys2Proof

/-- `lo(w)` (R10). -/
def loByte (w : Word) : Byte := w.setWidth 8

/-- `hi(w)` (R10). -/
def hiByte (w : Word) : Byte := (w >>> 8).setWidth 8

/-- `hi << 8 | lo` (R10, R216). -/
def wordOf (hi lo : Byte) : Word := hi ++ lo

/-- One cell of the opcode map: the instruction, from zero, one or two operand bytes (R300). -/
inductive OpcodeEntry where
  | one (i : Instr)
  | two (f : Byte → Instr)
  | three (f : Word → Instr)
  | ill

/-- Row 0 of the map of R304. -/
def opcodeRow0 : List OpcodeEntry :=
  [.one .brk, .two .oraIndX, .ill, .ill,
   .ill, .two .oraZp, .two .aslZp, .ill,
   .one .php, .two .oraImm, .one .aslA, .ill,
   .ill, .three .oraAbs, .three .aslAbs, .ill]

/-- Row 1 of the map of R304. -/
def opcodeRow1 : List OpcodeEntry :=
  [.two .bpl, .two .oraIndY, .ill, .ill,
   .ill, .two .oraZpX, .two .aslZpX, .ill,
   .one .clc, .three .oraAbsY, .ill, .ill,
   .ill, .three .oraAbsX, .three .aslAbsX, .ill]

/-- Row 2 of the map of R304. -/
def opcodeRow2 : List OpcodeEntry :=
  [.three .jsr, .two .andIndX, .ill, .ill,
   .two .bitZp, .two .andZp, .two .rolZp, .ill,
   .one .plp, .two .andImm, .one .rolA, .ill,
   .three .bitAbs, .three .andAbs, .three .rolAbs, .ill]

/-- Row 3 of the map of R304. -/
def opcodeRow3 : List OpcodeEntry :=
  [.two .bmi, .two .andIndY, .ill, .ill,
   .ill, .two .andZpX, .two .rolZpX, .ill,
   .one .sec, .three .andAbsY, .ill, .ill,
   .ill, .three .andAbsX, .three .rolAbsX, .ill]

/-- Row 4 of the map of R304. -/
def opcodeRow4 : List OpcodeEntry :=
  [.one .rti, .two .eorIndX, .ill, .ill,
   .ill, .two .eorZp, .two .lsrZp, .ill,
   .one .pha, .two .eorImm, .one .lsrA, .ill,
   .three .jmpAbs, .three .eorAbs, .three .lsrAbs, .ill]

/-- Row 5 of the map of R304. -/
def opcodeRow5 : List OpcodeEntry :=
  [.two .bvc, .two .eorIndY, .ill, .ill,
   .ill, .two .eorZpX, .two .lsrZpX, .ill,
   .one .cli, .three .eorAbsY, .ill, .ill,
   .ill, .three .eorAbsX, .three .lsrAbsX, .ill]

/-- Row 6 of the map of R304. -/
def opcodeRow6 : List OpcodeEntry :=
  [.one .rts, .two .adcIndX, .ill, .ill,
   .ill, .two .adcZp, .two .rorZp, .ill,
   .one .pla, .two .adcImm, .one .rorA, .ill,
   .three .jmpInd, .three .adcAbs, .three .rorAbs, .ill]

/-- Row 7 of the map of R304. -/
def opcodeRow7 : List OpcodeEntry :=
  [.two .bvs, .two .adcIndY, .ill, .ill,
   .ill, .two .adcZpX, .two .rorZpX, .ill,
   .one .sei, .three .adcAbsY, .ill, .ill,
   .ill, .three .adcAbsX, .three .rorAbsX, .ill]

/-- Row 8 of the map of R304. -/
def opcodeRow8 : List OpcodeEntry :=
  [.ill, .two .staIndX, .ill, .ill,
   .two .styZp, .two .staZp, .two .stxZp, .ill,
   .one .dey, .ill, .one .txa, .ill,
   .three .styAbs, .three .staAbs, .three .stxAbs, .ill]

/-- Row 9 of the map of R304. -/
def opcodeRow9 : List OpcodeEntry :=
  [.two .bcc, .two .staIndY, .ill, .ill,
   .two .styZpX, .two .staZpX, .two .stxZpY, .ill,
   .one .tya, .three .staAbsY, .one .txs, .ill,
   .ill, .three .staAbsX, .ill, .ill]

/-- Row A of the map of R304. -/
def opcodeRowA : List OpcodeEntry :=
  [.two .ldyImm, .two .ldaIndX, .two .ldxImm, .ill,
   .two .ldyZp, .two .ldaZp, .two .ldxZp, .ill,
   .one .tay, .two .ldaImm, .one .tax, .ill,
   .three .ldyAbs, .three .ldaAbs, .three .ldxAbs, .ill]

/-- Row B of the map of R304. -/
def opcodeRowB : List OpcodeEntry :=
  [.two .bcs, .two .ldaIndY, .ill, .ill,
   .two .ldyZpX, .two .ldaZpX, .two .ldxZpY, .ill,
   .one .clv, .three .ldaAbsY, .one .tsx, .ill,
   .three .ldyAbsX, .three .ldaAbsX, .three .ldxAbsY, .ill]

/-- Row C of the map of R304. -/
def opcodeRowC : List OpcodeEntry :=
  [.two .cpyImm, .two .cmpIndX, .ill, .ill,
   .two .cpyZp, .two .cmpZp, .two .decZp, .ill,
   .one .iny, .two .cmpImm, .one .dex, .ill,
   .three .cpyAbs, .three .cmpAbs, .three .decAbs, .ill]

/-- Row D of the map of R304. -/
def opcodeRowD : List OpcodeEntry :=
  [.two .bne, .two .cmpIndY, .ill, .ill,
   .ill, .two .cmpZpX, .two .decZpX, .ill,
   .one .cld, .three .cmpAbsY, .ill, .ill,
   .ill, .three .cmpAbsX, .three .decAbsX, .ill]

/-- Row E of the map of R304. -/
def opcodeRowE : List OpcodeEntry :=
  [.two .cpxImm, .two .sbcIndX, .ill, .ill,
   .two .cpxZp, .two .sbcZp, .two .incZp, .ill,
   .one .inx, .two .sbcImm, .one .nop, .ill,
   .three .cpxAbs, .three .sbcAbs, .three .incAbs, .ill]

/-- Row F of the map of R304. -/
def opcodeRowF : List OpcodeEntry :=
  [.two .beq, .two .sbcIndY, .ill, .ill,
   .ill, .two .sbcZpX, .two .incZpX, .ill,
   .one .sed, .three .sbcAbsY, .ill, .ill,
   .ill, .three .sbcAbsX, .three .incAbsX, .ill]

/-- The opcode map of R304, 256 cells in order of the opcode byte. -/
def opcodeMap : List OpcodeEntry :=
  opcodeRow0 ++ opcodeRow1 ++ opcodeRow2 ++ opcodeRow3 ++ opcodeRow4 ++ opcodeRow5 ++ opcodeRow6 ++
  opcodeRow7 ++ opcodeRow8 ++ opcodeRow9 ++ opcodeRowA ++ opcodeRowB ++ opcodeRowC ++ opcodeRowD ++
  opcodeRowE ++ opcodeRowF

/-- The cell of an opcode byte. -/
def opcodeEntry (op : Byte) : OpcodeEntry := opcodeMap.getD op.toNat .ill

/-- The length in bytes that the opcode byte alone decides (R301). -/
def opcodeLength (op : Byte) : Nat :=
  match opcodeEntry op with
  | .one _ => 1
  | .two _ => 2
  | .three _ => 3
  | .ill => 1

/-- The instruction that an opcode byte and its operand bytes make. Operand bytes beyond the length
are ignored, so the function is total (R302). -/
def decodeBytes (op b1 b2 : Byte) : Instr :=
  match opcodeEntry op with
  | .one i => i
  | .two f => f b1
  | .three f => f (wordOf b2 b1)
  | .ill => .illegal op

/-- Why a list of bytes gives no instruction. Every opcode byte decodes (R302), so only the end of
the list can stop the decoder. -/
inductive DecodeError where
  /-- no opcode byte -/
  | noOpcode
  /-- fewer operand bytes than the opcode's length needs -/
  | missingOperand (op : Byte)
  deriving DecidableEq, Repr

/-- Decode one instruction from the front of a list of bytes, and give the rest. -/
def decode : List Byte → Except DecodeError (Instr × List Byte)
  | [] => .error .noOpcode
  | op :: rest =>
    match opcodeLength op, rest with
    | 1, _ => .ok (decodeBytes op 0 0, rest)
    | 2, b1 :: rest' => .ok (decodeBytes op b1 0, rest')
    | 3, b1 :: b2 :: rest' => .ok (decodeBytes op b1 b2, rest')
    | _, _ => .error (.missingOperand op)

/-- The bytes of an instruction, from the opcode column of R305. -/
def encode : Instr → List Byte
  | .ldaImm b => [0xA9, b]
  | .ldaZp b => [0xA5, b]
  | .ldaZpX b => [0xB5, b]
  | .ldaAbs w => [0xAD, loByte w, hiByte w]
  | .ldaAbsX w => [0xBD, loByte w, hiByte w]
  | .ldaAbsY w => [0xB9, loByte w, hiByte w]
  | .ldaIndX b => [0xA1, b]
  | .ldaIndY b => [0xB1, b]
  | .ldxImm b => [0xA2, b]
  | .ldxZp b => [0xA6, b]
  | .ldxZpY b => [0xB6, b]
  | .ldxAbs w => [0xAE, loByte w, hiByte w]
  | .ldxAbsY w => [0xBE, loByte w, hiByte w]
  | .ldyImm b => [0xA0, b]
  | .ldyZp b => [0xA4, b]
  | .ldyZpX b => [0xB4, b]
  | .ldyAbs w => [0xAC, loByte w, hiByte w]
  | .ldyAbsX w => [0xBC, loByte w, hiByte w]
  | .staZp b => [0x85, b]
  | .staZpX b => [0x95, b]
  | .staAbs w => [0x8D, loByte w, hiByte w]
  | .staAbsX w => [0x9D, loByte w, hiByte w]
  | .staAbsY w => [0x99, loByte w, hiByte w]
  | .staIndX b => [0x81, b]
  | .staIndY b => [0x91, b]
  | .stxZp b => [0x86, b]
  | .stxZpY b => [0x96, b]
  | .stxAbs w => [0x8E, loByte w, hiByte w]
  | .styZp b => [0x84, b]
  | .styZpX b => [0x94, b]
  | .styAbs w => [0x8C, loByte w, hiByte w]
  | .tax => [0xAA]
  | .tay => [0xA8]
  | .txa => [0x8A]
  | .tya => [0x98]
  | .tsx => [0xBA]
  | .txs => [0x9A]
  | .pha => [0x48]
  | .php => [0x08]
  | .pla => [0x68]
  | .plp => [0x28]
  | .adcImm b => [0x69, b]
  | .adcZp b => [0x65, b]
  | .adcZpX b => [0x75, b]
  | .adcAbs w => [0x6D, loByte w, hiByte w]
  | .adcAbsX w => [0x7D, loByte w, hiByte w]
  | .adcAbsY w => [0x79, loByte w, hiByte w]
  | .adcIndX b => [0x61, b]
  | .adcIndY b => [0x71, b]
  | .sbcImm b => [0xE9, b]
  | .sbcZp b => [0xE5, b]
  | .sbcZpX b => [0xF5, b]
  | .sbcAbs w => [0xED, loByte w, hiByte w]
  | .sbcAbsX w => [0xFD, loByte w, hiByte w]
  | .sbcAbsY w => [0xF9, loByte w, hiByte w]
  | .sbcIndX b => [0xE1, b]
  | .sbcIndY b => [0xF1, b]
  | .andImm b => [0x29, b]
  | .andZp b => [0x25, b]
  | .andZpX b => [0x35, b]
  | .andAbs w => [0x2D, loByte w, hiByte w]
  | .andAbsX w => [0x3D, loByte w, hiByte w]
  | .andAbsY w => [0x39, loByte w, hiByte w]
  | .andIndX b => [0x21, b]
  | .andIndY b => [0x31, b]
  | .oraImm b => [0x09, b]
  | .oraZp b => [0x05, b]
  | .oraZpX b => [0x15, b]
  | .oraAbs w => [0x0D, loByte w, hiByte w]
  | .oraAbsX w => [0x1D, loByte w, hiByte w]
  | .oraAbsY w => [0x19, loByte w, hiByte w]
  | .oraIndX b => [0x01, b]
  | .oraIndY b => [0x11, b]
  | .eorImm b => [0x49, b]
  | .eorZp b => [0x45, b]
  | .eorZpX b => [0x55, b]
  | .eorAbs w => [0x4D, loByte w, hiByte w]
  | .eorAbsX w => [0x5D, loByte w, hiByte w]
  | .eorAbsY w => [0x59, loByte w, hiByte w]
  | .eorIndX b => [0x41, b]
  | .eorIndY b => [0x51, b]
  | .bitZp b => [0x24, b]
  | .bitAbs w => [0x2C, loByte w, hiByte w]
  | .cmpImm b => [0xC9, b]
  | .cmpZp b => [0xC5, b]
  | .cmpZpX b => [0xD5, b]
  | .cmpAbs w => [0xCD, loByte w, hiByte w]
  | .cmpAbsX w => [0xDD, loByte w, hiByte w]
  | .cmpAbsY w => [0xD9, loByte w, hiByte w]
  | .cmpIndX b => [0xC1, b]
  | .cmpIndY b => [0xD1, b]
  | .cpxImm b => [0xE0, b]
  | .cpxZp b => [0xE4, b]
  | .cpxAbs w => [0xEC, loByte w, hiByte w]
  | .cpyImm b => [0xC0, b]
  | .cpyZp b => [0xC4, b]
  | .cpyAbs w => [0xCC, loByte w, hiByte w]
  | .incZp b => [0xE6, b]
  | .incZpX b => [0xF6, b]
  | .incAbs w => [0xEE, loByte w, hiByte w]
  | .incAbsX w => [0xFE, loByte w, hiByte w]
  | .decZp b => [0xC6, b]
  | .decZpX b => [0xD6, b]
  | .decAbs w => [0xCE, loByte w, hiByte w]
  | .decAbsX w => [0xDE, loByte w, hiByte w]
  | .inx => [0xE8]
  | .iny => [0xC8]
  | .dex => [0xCA]
  | .dey => [0x88]
  | .aslA => [0x0A]
  | .aslZp b => [0x06, b]
  | .aslZpX b => [0x16, b]
  | .aslAbs w => [0x0E, loByte w, hiByte w]
  | .aslAbsX w => [0x1E, loByte w, hiByte w]
  | .lsrA => [0x4A]
  | .lsrZp b => [0x46, b]
  | .lsrZpX b => [0x56, b]
  | .lsrAbs w => [0x4E, loByte w, hiByte w]
  | .lsrAbsX w => [0x5E, loByte w, hiByte w]
  | .rolA => [0x2A]
  | .rolZp b => [0x26, b]
  | .rolZpX b => [0x36, b]
  | .rolAbs w => [0x2E, loByte w, hiByte w]
  | .rolAbsX w => [0x3E, loByte w, hiByte w]
  | .rorA => [0x6A]
  | .rorZp b => [0x66, b]
  | .rorZpX b => [0x76, b]
  | .rorAbs w => [0x6E, loByte w, hiByte w]
  | .rorAbsX w => [0x7E, loByte w, hiByte w]
  | .jmpAbs w => [0x4C, loByte w, hiByte w]
  | .jmpInd w => [0x6C, loByte w, hiByte w]
  | .jsr w => [0x20, loByte w, hiByte w]
  | .rts => [0x60]
  | .bcc b => [0x90, b]
  | .bcs b => [0xB0, b]
  | .beq b => [0xF0, b]
  | .bmi b => [0x30, b]
  | .bne b => [0xD0, b]
  | .bpl b => [0x10, b]
  | .bvc b => [0x50, b]
  | .bvs b => [0x70, b]
  | .clc => [0x18]
  | .sec => [0x38]
  | .cli => [0x58]
  | .sei => [0x78]
  | .cld => [0xD8]
  | .sed => [0xF8]
  | .clv => [0xB8]
  | .nop => [0xEA]
  | .brk => [0x00]
  | .rti => [0x40]
  | .illegal op => [op]

/-- The mnemonic and addressing mode of an instruction, as its row of R305 gives them. -/
def Instr.row : Instr → Row
  | .ldaImm b => .read .lda (.imm b)
  | .ldaZp b => .read .lda (.mem (.zp b))
  | .ldaZpX b => .read .lda (.mem (.zpX b))
  | .ldaAbs w => .read .lda (.mem (.abs w))
  | .ldaAbsX w => .read .lda (.mem (.absX w))
  | .ldaAbsY w => .read .lda (.mem (.absY w))
  | .ldaIndX b => .read .lda (.mem (.indX b))
  | .ldaIndY b => .read .lda (.mem (.indY b))
  | .ldxImm b => .read .ldx (.imm b)
  | .ldxZp b => .read .ldx (.mem (.zp b))
  | .ldxZpY b => .read .ldx (.mem (.zpY b))
  | .ldxAbs w => .read .ldx (.mem (.abs w))
  | .ldxAbsY w => .read .ldx (.mem (.absY w))
  | .ldyImm b => .read .ldy (.imm b)
  | .ldyZp b => .read .ldy (.mem (.zp b))
  | .ldyZpX b => .read .ldy (.mem (.zpX b))
  | .ldyAbs w => .read .ldy (.mem (.abs w))
  | .ldyAbsX w => .read .ldy (.mem (.absX w))
  | .staZp b => .store .sta (.zp b)
  | .staZpX b => .store .sta (.zpX b)
  | .staAbs w => .store .sta (.abs w)
  | .staAbsX w => .store .sta (.absX w)
  | .staAbsY w => .store .sta (.absY w)
  | .staIndX b => .store .sta (.indX b)
  | .staIndY b => .store .sta (.indY b)
  | .stxZp b => .store .stx (.zp b)
  | .stxZpY b => .store .stx (.zpY b)
  | .stxAbs w => .store .stx (.abs w)
  | .styZp b => .store .sty (.zp b)
  | .styZpX b => .store .sty (.zpX b)
  | .styAbs w => .store .sty (.abs w)
  | .tax => .reg .tax
  | .tay => .reg .tay
  | .txa => .reg .txa
  | .tya => .reg .tya
  | .tsx => .reg .tsx
  | .txs => .reg .txs
  | .pha => .stack .pha
  | .php => .stack .php
  | .pla => .stack .pla
  | .plp => .stack .plp
  | .adcImm b => .read .adc (.imm b)
  | .adcZp b => .read .adc (.mem (.zp b))
  | .adcZpX b => .read .adc (.mem (.zpX b))
  | .adcAbs w => .read .adc (.mem (.abs w))
  | .adcAbsX w => .read .adc (.mem (.absX w))
  | .adcAbsY w => .read .adc (.mem (.absY w))
  | .adcIndX b => .read .adc (.mem (.indX b))
  | .adcIndY b => .read .adc (.mem (.indY b))
  | .sbcImm b => .read .sbc (.imm b)
  | .sbcZp b => .read .sbc (.mem (.zp b))
  | .sbcZpX b => .read .sbc (.mem (.zpX b))
  | .sbcAbs w => .read .sbc (.mem (.abs w))
  | .sbcAbsX w => .read .sbc (.mem (.absX w))
  | .sbcAbsY w => .read .sbc (.mem (.absY w))
  | .sbcIndX b => .read .sbc (.mem (.indX b))
  | .sbcIndY b => .read .sbc (.mem (.indY b))
  | .andImm b => .read .and (.imm b)
  | .andZp b => .read .and (.mem (.zp b))
  | .andZpX b => .read .and (.mem (.zpX b))
  | .andAbs w => .read .and (.mem (.abs w))
  | .andAbsX w => .read .and (.mem (.absX w))
  | .andAbsY w => .read .and (.mem (.absY w))
  | .andIndX b => .read .and (.mem (.indX b))
  | .andIndY b => .read .and (.mem (.indY b))
  | .oraImm b => .read .ora (.imm b)
  | .oraZp b => .read .ora (.mem (.zp b))
  | .oraZpX b => .read .ora (.mem (.zpX b))
  | .oraAbs w => .read .ora (.mem (.abs w))
  | .oraAbsX w => .read .ora (.mem (.absX w))
  | .oraAbsY w => .read .ora (.mem (.absY w))
  | .oraIndX b => .read .ora (.mem (.indX b))
  | .oraIndY b => .read .ora (.mem (.indY b))
  | .eorImm b => .read .eor (.imm b)
  | .eorZp b => .read .eor (.mem (.zp b))
  | .eorZpX b => .read .eor (.mem (.zpX b))
  | .eorAbs w => .read .eor (.mem (.abs w))
  | .eorAbsX w => .read .eor (.mem (.absX w))
  | .eorAbsY w => .read .eor (.mem (.absY w))
  | .eorIndX b => .read .eor (.mem (.indX b))
  | .eorIndY b => .read .eor (.mem (.indY b))
  | .bitZp b => .read .bit (.mem (.zp b))
  | .bitAbs w => .read .bit (.mem (.abs w))
  | .cmpImm b => .read .cmp (.imm b)
  | .cmpZp b => .read .cmp (.mem (.zp b))
  | .cmpZpX b => .read .cmp (.mem (.zpX b))
  | .cmpAbs w => .read .cmp (.mem (.abs w))
  | .cmpAbsX w => .read .cmp (.mem (.absX w))
  | .cmpAbsY w => .read .cmp (.mem (.absY w))
  | .cmpIndX b => .read .cmp (.mem (.indX b))
  | .cmpIndY b => .read .cmp (.mem (.indY b))
  | .cpxImm b => .read .cpx (.imm b)
  | .cpxZp b => .read .cpx (.mem (.zp b))
  | .cpxAbs w => .read .cpx (.mem (.abs w))
  | .cpyImm b => .read .cpy (.imm b)
  | .cpyZp b => .read .cpy (.mem (.zp b))
  | .cpyAbs w => .read .cpy (.mem (.abs w))
  | .incZp b => .rmw .inc (.zp b)
  | .incZpX b => .rmw .inc (.zpX b)
  | .incAbs w => .rmw .inc (.abs w)
  | .incAbsX w => .rmw .inc (.absX w)
  | .decZp b => .rmw .dec (.zp b)
  | .decZpX b => .rmw .dec (.zpX b)
  | .decAbs w => .rmw .dec (.abs w)
  | .decAbsX w => .rmw .dec (.absX w)
  | .inx => .reg .inx
  | .iny => .reg .iny
  | .dex => .reg .dex
  | .dey => .reg .dey
  | .aslA => .rmwA .asl
  | .aslZp b => .rmw .asl (.zp b)
  | .aslZpX b => .rmw .asl (.zpX b)
  | .aslAbs w => .rmw .asl (.abs w)
  | .aslAbsX w => .rmw .asl (.absX w)
  | .lsrA => .rmwA .lsr
  | .lsrZp b => .rmw .lsr (.zp b)
  | .lsrZpX b => .rmw .lsr (.zpX b)
  | .lsrAbs w => .rmw .lsr (.abs w)
  | .lsrAbsX w => .rmw .lsr (.absX w)
  | .rolA => .rmwA .rol
  | .rolZp b => .rmw .rol (.zp b)
  | .rolZpX b => .rmw .rol (.zpX b)
  | .rolAbs w => .rmw .rol (.abs w)
  | .rolAbsX w => .rmw .rol (.absX w)
  | .rorA => .rmwA .ror
  | .rorZp b => .rmw .ror (.zp b)
  | .rorZpX b => .rmw .ror (.zpX b)
  | .rorAbs w => .rmw .ror (.abs w)
  | .rorAbsX w => .rmw .ror (.absX w)
  | .jmpAbs w => .jmp w
  | .jmpInd w => .jmpInd w
  | .jsr w => .jsr w
  | .rts => .stack .rts
  | .bcc b => .branch .bcc b
  | .bcs b => .branch .bcs b
  | .beq b => .branch .beq b
  | .bmi b => .branch .bmi b
  | .bne b => .branch .bne b
  | .bpl b => .branch .bpl b
  | .bvc b => .branch .bvc b
  | .bvs b => .branch .bvs b
  | .clc => .reg .clc
  | .sec => .reg .sec
  | .cli => .reg .cli
  | .sei => .reg .sei
  | .cld => .reg .cld
  | .sed => .reg .sed
  | .clv => .reg .clv
  | .nop => .reg .nop
  | .brk => .stack .brk
  | .rti => .stack .rti
  | .illegal op => .illegal op

/-- The `k`-th byte of a table word: bit 0 of the word is bit 0 of the first byte. -/
def tableByte (nbits w k : Nat) : Byte := BitVec.ofNat 8 ((w % 2 ^ nbits) >>> (8 * k))

/-- The instruction the decoder reads from a table word: three bytes, those above `nbits` zero. -/
def decodeTableWord (nbits w : Nat) : Option Instr :=
  match decode [tableByte nbits w 0, tableByte nbits w 1, tableByte nbits w 2] with
  | .ok (i, _) => some i
  | .error _ => none

end Sys2Proof
end

