-- ==== Sys2Proof/Config.lean ====
section
/-! DEFINITION. What a session fixes (`00_scope` R8): the parameters with a default are the
structure `Params`, held in State so that every statement holds for all their values; the OPEN
parameters and the two free values are constants with no body, so nothing can be proved of their
values. -/

namespace Sys2Proof

/-- `ILLEGAL_OPCODE_MODE` (R8, D5). -/
inductive IllegalOpcodeMode where
  | fallback
  | fault
  deriving DecidableEq, Repr

/-- The session parameters that have a default (R8), and two fields of the model's own. No rule of
the machine changes them. -/
structure Params where
  /-- `ILLEGAL_OPCODE_MODE` -/
  illegalOpcodeMode : IllegalOpcodeMode
  /-- `NMI_DELAY`, in PPU ticks -/
  nmiDelay : Nat
  /-- `DMC_DMA_STALL`, in CPU cycles -/
  dmcDmaStall : Nat
  /-- `PRG_RAM_PRESENT` -/
  prgRamPresent : Bool
  /-- `MMC1_RESET_CLEARS_CHR_MODE` -/
  mmc1ResetClearsChrMode : Bool
  /-- Not of R8 but the model's own (log 27): whether a triangle channel whose length is 0 puts out 0,
  as R1036 says of every channel, or holds `TRI[seq]`, as R1039 says. -/
  triangleSilentAtLengthZero : Bool
  /-- Not of R8 but the model's own (log 28): whether an NMI edge while an NMI is pending is merged into
  it, as R703, R114 and R1104 say, or starts a countdown when none runs, as R1103 writes it. -/
  pendingNmiMergesEdge : Bool
  deriving DecidableEq, Repr

/-- The defaults of the table of R8; the model's own fields are DESIGN CHOICE (logs 27, 28). -/
def Params.default : Params where
  illegalOpcodeMode := .fallback
  nmiDelay := 2
  dmcDmaStall := 4
  prgRamPresent := true
  mmc1ResetClearsChrMode := false
  triangleSilentAtLengthZero := false
  pendingNmiMergesEdge := true

/-- An RGB colour of the output picture (R866). -/
structure Rgb where
  r : Byte
  g : Byte
  b : Byte
  deriving DecidableEq, Repr, Inhabited

namespace Config

/-- `MASTER_PALETTE`, OPEN (D33): the colour of each of the 64 palette entries. -/
opaque masterPalette : BitVec 6 → Rgb

/-- `EMPHASIS`, OPEN (D33): the effect of the three emphasis bits on a colour. -/
opaque emphasis : BitVec 3 → Rgb → Rgb

/-- `LPF_ALPHA_NORMAL`, OPEN (D48); its bound (0, 1] is kept by `lpfAlpha` (Machine/Mixer.lean). -/
opaque lpfAlphaNormal : Binary64

/-- `LPF_ALPHA_HQ`, OPEN (D48); its bound (0, 1] is kept by `lpfAlpha` (Machine/Mixer.lean). -/
opaque lpfAlphaHq : Binary64

/-- `REWIND_CAPACITY`, OPEN (D53); the machine uses `max 1` of it, the bound of R1213. -/
opaque rewindCapacity : Nat

/-- `REWIND_INTERVAL`, OPEN (D53); the machine uses `max 1` of it, the bound of R1213. -/
opaque rewindInterval : Nat

/-- Free value (log 6): the physical page each logical nametable has while NO cartridge is loaded.
R821 takes the arrangement from the cartridge and states none without one. -/
opaque nametablePageWithoutCartridge : BitVec 2 → BitVec 2

/-- Free value (log 11): the volume a NaN argument sets. R1225 clamps an argument to [0, 1] and
states no clamp of a NaN; the bound is kept by `clampVolume` (Machine/HostInterface.lean). -/
opaque nanVolume : Binary64 → Binary64

end Config

end Sys2Proof
end

