-- ==== Sys2Proof/Machine/State.lean ====
section
/-! DEFINITION. The machine state (`10_state` R100): CPU, bus, PPU, APU, mapper, scheduler, the
session parameters, and the outputs the host takes. Plain data throughout. -/

namespace Sys2Proof.Machine

/-- One memory array: (address, byte) cells, addresses strictly rising, no cell of 0x00, which is
what an unlisted address reads as (the zero fill of D16; log 26). -/
abbrev Memory := List Host.Cell

/-! ### CPU -/

/-- The CPU state (R101). -/
structure Cpu where
  /-- accumulator (R102) -/
  a : Byte
  /-- index register X (R103) -/
  x : Byte
  /-- index register Y (R103) -/
  y : Byte
  /-- stack pointer into page 1 (R104) -/
  sp : Byte
  /-- program counter (R105) -/
  pc : Word
  /-- status byte N V 1 0 D I Z C, in its stored form (R106, R107) -/
  p : Byte
  /-- CPU cycle counter (R110) -/
  cycles : BitVec 32
  /-- an NMI not yet serviced (R114) -/
  nmiPending : Bool
  /-- sticky record of an illegal opcode (R111) -/
  illegalSeen : Bool
  /-- count of illegal opcodes (R111) -/
  illegalCount : BitVec 32
  deriving DecidableEq, Repr

/-! ### Bus -/

/-- The bus state (R201). -/
structure Bus where
  /-- CPU RAM, 2048 bytes -/
  ram : Memory
  /-- the last byte transferred on the CPU bus (R212) -/
  openBus : Byte
  /-- controller strobe (R219) -/
  ctrlStrobe : Bool
  /-- controller shift register of port 1 -/
  ctrlShift0 : Byte
  /-- controller shift register of port 2 -/
  ctrlShift1 : Byte
  /-- the host's button mask of port 1 (R1221) -/
  ctrlButtons0 : Byte
  /-- the host's button mask of port 2 (R1221) -/
  ctrlButtons1 : Byte
  /-- DMA stall cycles not yet charged (R218, R1102) -/
  stall : BitVec 32
  deriving DecidableEq, Repr

/-! ### PPU -/

/-- Sprite height in lines, 8 or 16 (R861). -/
inductive SpriteHeight where
  | h8
  | h16
  deriving DecidableEq, Repr

/-- A sprite found for a line (R800, R861). -/
structure SpriteEntry where
  index : BitVec 6
  y : Byte
  tile : Byte
  attr : Byte
  xpos : Byte
  row : BitVec 4
  height : SpriteHeight
  deriving DecidableEq, Repr

/-- The PPU state (R800). -/
structure Ppu where
  /-- PPUCTRL (R833) -/
  ctrl : Byte
  /-- PPUMASK (R834) -/
  mask : Byte
  /-- PPUSTATUS bit 7 -/
  vblank : Bool
  /-- PPUSTATUS bit 6 -/
  s0hit : Bool
  /-- PPUSTATUS bit 5 -/
  ovf : Bool
  /-- OAM address (R835) -/
  oamaddr : Byte
  /-- sprite table, 256 bytes -/
  oam : Memory
  /-- current VRAM address -/
  v : BitVec 15
  /-- temporary VRAM address -/
  t : BitVec 15
  /-- fine X scroll -/
  x : BitVec 3
  /-- write toggle of PPUSCROLL and PPUADDR -/
  w : Bool
  /-- PPUDATA read buffer (R838) -/
  readBuffer : Byte
  /-- PPU register open-bus latch (R841) -/
  ioLatch : Byte
  /-- nametable RAM is 4096 bytes (four-screen) rather than 2048 (R821, R930) -/
  ntFour : Bool
  /-- nametable RAM -/
  ntRam : Memory
  /-- palette RAM, 32 entries of 6 bits (R822) -/
  palette : Memory
  /-- current line, 0..261 -/
  scanline : Nat
  /-- current dot within the line, 0..340 -/
  cycle : Nat
  /-- completed frames -/
  frame : BitVec 32
  /-- an NMI edge the scheduler has not taken (R842) -/
  nmiEdge : Bool
  /-- background scroll latched for the next line (R854) -/
  lineV : BitVec 15
  /-- fine X latched for the next line (R854) -/
  lineX : BitVec 3
  /-- sprites found for the next line, at most 8 (R861) -/
  sprNext : List SpriteEntry
  /-- sprites of the current line, at most 8 (R862) -/
  sprCur : List SpriteEntry
  deriving DecidableEq, Repr

/-! ### APU -/

/-- Volume and envelope of a pulse or noise channel (R1001, R1003, R1034). -/
structure Envelope where
  /-- length-counter halt, and envelope loop -/
  halt : Bool
  constVol : Bool
  /-- constant volume, or envelope period -/
  vol : BitVec 4
  start : Bool
  div : BitVec 4
  decay : BitVec 4
  deriving DecidableEq, Repr

/-- Sweep unit of a pulse channel (R1001, R1035). -/
structure Sweep where
  en : Bool
  period : BitVec 3
  neg : Bool
  shift : BitVec 3
  reload : Bool
  div : BitVec 3
  deriving DecidableEq, Repr

/-- A pulse channel (R1001). -/
structure Pulse where
  enabled : Bool
  duty : BitVec 2
  env : Envelope
  sweep : Sweep
  timerPeriod : BitVec 11
  timer : BitVec 11
  seq : BitVec 3
  length : Byte
  deriving DecidableEq, Repr

/-- The triangle channel (R1002). -/
structure Triangle where
  enabled : Bool
  /-- length halt, and linear-counter control -/
  control : Bool
  linReloadVal : BitVec 7
  lin : BitVec 7
  linReload : Bool
  timerPeriod : BitVec 11
  timer : BitVec 11
  seq : BitVec 5
  length : Byte
  deriving DecidableEq, Repr

/-- The noise channel (R1003). -/
structure Noise where
  enabled : Bool
  env : Envelope
  mode : Bool
  periodIdx : BitVec 4
  timer : BitVec 12
  lfsr : BitVec 15
  length : Byte
  deriving DecidableEq, Repr

/-- The delta-modulation channel (R1004). -/
structure Dmc where
  irqEn : Bool
  loop : Bool
  rateIdx : BitVec 4
  timer : BitVec 9
  /-- output level, 0..127 -/
  level : BitVec 7
  startAddr : Word
  /-- sample length in bytes, 1..4081 -/
  sampleLen : BitVec 16
  curAddr : Word
  /-- bytes left, 0..4081 -/
  remaining : BitVec 16
  buffer : Byte
  bufferEmpty : Bool
  shift : Byte
  /-- bits left of the shifter, 1..8 -/
  bitsLeft : Nat
  silence : Bool
  dmaRequest : Bool
  deriving DecidableEq, Repr

/-- Mixer settings and filter state (R1005); the volumes are reals in [0, 1]. -/
structure Mixer where
  volP1 : Binary64
  volP2 : Binary64
  volT : Binary64
  volN : Binary64
  volD : Binary64
  master : Binary64
  lpfEnabled : Bool
  lpfHq : Bool
  lpfY : Binary64
  deriving DecidableEq, Repr

/-- The APU state (R1000). -/
structure Apu where
  p1 : Pulse
  p2 : Pulse
  tri : Triangle
  noise : Noise
  dmc : Dmc
  /-- frame sequencer mode: false four-step, true five-step -/
  fsMode : Bool
  fsInhibit : Bool
  fsCounter : BitVec 16
  frameIrq : Bool
  dmcIrq : Bool
  /-- alternates every tick; pulse timers run when it is 1 -/
  parity : Bool
  mixer : Mixer
  deriving DecidableEq, Repr

/-! ### Mapper -/

/-- Header byte 6 bit 0 (R900). -/
inductive HeaderMirror where
  | horizontal
  | vertical
  deriving DecidableEq, Repr

/-- The registers of the serial-shift variant (R900). -/
structure SerialRegs where
  shift : BitVec 5
  /-- serial write counter, 0..4 -/
  count : Nat
  control : BitVec 5
  chr0 : BitVec 5
  chr1 : BitVec 5
  prg : BitVec 5
  deriving DecidableEq, Repr

/-- The mapper variant: id 0 has no registers, id 1 has the serial ones (R900). -/
inductive Mapper where
  | fixedBank
  | serialShift (r : SerialRegs)
  deriving DecidableEq, Repr

/-- The mapper state while a ROM is loaded (R900). -/
structure Cartridge where
  mapper : Mapper
  /-- number of 16 KiB PRG banks, header byte 4 -/
  nprg : Byte
  /-- number of 8 KiB CHR-ROM banks, header byte 5; 0 means 8 KiB of CHR-RAM -/
  nchr : Byte
  prgRom : Memory
  chr : Memory
  /-- 8192 bytes when PRG_RAM_PRESENT, else nothing -/
  prgRam : Memory
  hdrMirror : HeaderMirror
  fourScreen : Bool
  battery : Bool
  deriving DecidableEq, Repr

/-! ### Scheduler -/

/-- The scheduler state (R1100). -/
structure Sched where
  nmiCountdown : Byte
  totalCycles : BitVec 64
  deriving DecidableEq, Repr

/-! ### Outputs and host-side state -/

/-- A pixel of the picture: colour index and emphasis bits (R865). -/
structure Pixel where
  colour : BitVec 6
  emphasis : BitVec 3
  deriving DecidableEq, Repr

/-- The pixels drawn so far, by line and then by column, both rising; a pixel that is not listed
has not been drawn into the current buffer (log 8). -/
abbrev Picture := List (Nat × List (Nat × Pixel))

/-- Output pixel formats (R1223). -/
inductive PixelFormat where
  | rgb565
  | rgb888
  | rgba8888
  deriving DecidableEq, Repr

/-- What the machine gives the host and the host's own switches; no machine rule reads it
(R866, R1053, R1208, R1213, R1223). -/
structure HostSide where
  picture : Picture
  fbFormat : PixelFormat
  fbPitch : Nat
  /-- the buffer is the core's own rather than the caller's -/
  fbOwned : Bool
  /-- the sample stream, newest first (log 10) -/
  samples : List Binary64
  rewindOn : Bool
  /-- saved states, newest first (R1213) -/
  rewindRing : List (List Byte)
  deriving DecidableEq, Repr

/-! ### The whole machine -/

/-- The machine state (R100), with the session parameters (R8) and the outputs. -/
structure State where
  cpu : Cpu
  bus : Bus
  ppu : Ppu
  apu : Apu
  /-- present only while a ROM is loaded (R900) -/
  cart : Option Cartridge
  sched : Sched
  params : Params
  host : HostSide
  deriving DecidableEq, Repr

/-- Why the machine stops with a fault. -/
inductive Fault where
  /-- Raised by `illegal` under ILLEGAL_OPCODE_MODE = Fault only (R660, R701): the opcode byte and
  the PC it was fetched from. The spec's own stop, so it is safe. -/
  | illegalOpcode (op : Byte) (pc : Word)
  deriving DecidableEq, Repr

/-- Why an instruction has no meaning. -/
inductive Refusal where
  /-- Raised by `exec`'s arm of an instruction that has no meaning yet; no arm does. Safe. -/
  | notModelled (mnemonic : String)
  deriving DecidableEq, Repr

/-- What an instruction or a step answers. -/
abbrev Result := Host.Outcome State Fault Refusal

/-! ### Values at session creation and after reset -/

/-- R116. -/
def Cpu.reset : Cpu where
  a := 0
  x := 0
  y := 0
  sp := 0xFF
  pc := 0
  p := 0x24
  cycles := 0
  nmiPending := false
  illegalSeen := false
  illegalCount := 0

/-- R201. -/
def Bus.reset : Bus where
  ram := []
  openBus := 0
  ctrlStrobe := false
  ctrlShift0 := 0
  ctrlShift1 := 0
  ctrlButtons0 := 0
  ctrlButtons1 := 0
  stall := 0

/-- R802. -/
def Ppu.reset : Ppu where
  ctrl := 0
  mask := 0
  vblank := false
  s0hit := false
  ovf := false
  oamaddr := 0
  oam := []
  v := 0
  t := 0
  x := 0
  w := false
  readBuffer := 0
  ioLatch := 0
  ntFour := false
  ntRam := []
  palette := []
  scanline := 0
  cycle := 0
  frame := 0
  nmiEdge := false
  lineV := 0
  lineX := 0
  sprNext := []
  sprCur := []

/-- R1006: every field 0. -/
def Envelope.reset : Envelope where
  halt := false
  constVol := false
  vol := 0
  start := false
  div := 0
  decay := 0

/-- R1006: every field 0. -/
def Sweep.reset : Sweep where
  en := false
  period := 0
  neg := false
  shift := 0
  reload := false
  div := 0

/-- R1006: every field 0. -/
def Pulse.reset : Pulse where
  enabled := false
  duty := 0
  env := .reset
  sweep := .reset
  timerPeriod := 0
  timer := 0
  seq := 0
  length := 0

/-- R1006: every field 0. -/
def Triangle.reset : Triangle where
  enabled := false
  control := false
  linReloadVal := 0
  lin := 0
  linReload := false
  timerPeriod := 0
  timer := 0
  seq := 0
  length := 0

/-- R1006: every field 0 except `lfsr = 1`. -/
def Noise.reset : Noise where
  enabled := false
  env := .reset
  mode := false
  periodIdx := 0
  timer := 0
  lfsr := 1
  length := 0

/-- R1006: `buffer_empty = 1`, `bits_left = 8`, `silence = 1`, `sample_len = 1`,
`start_addr = cur_addr = 0xC000`, the rest 0. -/
def Dmc.reset : Dmc where
  irqEn := false
  loop := false
  rateIdx := 0
  timer := 0
  level := 0
  startAddr := 0xC000
  sampleLen := 1
  curAddr := 0xC000
  remaining := 0
  buffer := 0
  bufferEmpty := true
  shift := 0
  bitsLeft := 8
  silence := true
  dmaRequest := false

/-- R1006: at creation volumes 1 (the binary64 pattern of 1.0), filter off, normal mode. -/
def Mixer.create : Mixer where
  volP1 := 0x3FF0000000000000
  volP2 := 0x3FF0000000000000
  volT := 0x3FF0000000000000
  volN := 0x3FF0000000000000
  volD := 0x3FF0000000000000
  master := 0x3FF0000000000000
  lpfEnabled := false
  lpfHq := false
  lpfY := 0

/-- R1006, at session creation. -/
def Apu.create : Apu where
  p1 := .reset
  p2 := .reset
  tri := .reset
  noise := .reset
  dmc := .reset
  fsMode := false
  fsInhibit := false
  fsCounter := 0
  frameIrq := false
  dmcIrq := false
  parity := false
  mixer := .create

/-- R1101. -/
def Sched.reset : Sched where
  nmiCountdown := 0
  totalCycles := 0

/-- R1301: the internal RGBA8888 buffer of pitch 256 * 4, nothing drawn, no sample, rewind off. -/
def HostSide.create : HostSide where
  picture := []
  fbFormat := .rgba8888
  fbPitch := 1024
  fbOwned := true
  samples := []
  rewindOn := false
  rewindRing := []

/-- The machine right after reset: `create_session()` (R1301) and then `reset()` (R1300), with no
ROM loaded. `reset()` reads its vector as the open-bus latch 0x00 twice, so PC is 0x0000 and the
two operations give this one state (log 1). -/
def State.reset : State where
  cpu := .reset
  bus := .reset
  ppu := .reset
  apu := .create
  cart := none
  sched := .reset
  params := .default
  host := .create

end Sys2Proof.Machine
end

