-- ==== Sys2Proof/Machine/Float64.lean ====
section
/-! DEFINITION. The binary64 arithmetic of the mixer and the filter (`63_apu` R1054): each operation
is computed exactly and rounded once, to nearest, ties to even. A finite value is an integer
multiple of 2^-1074, the smallest step of the format, so the exact results are integers or ratios
of integers. No operand of the machine is infinite or a NaN (R1054). -/

namespace Sys2Proof.Machine

/-- The sign bit. -/
def f64Neg (b : Binary64) : Bool := b.getLsbD 63

/-- The exponent field. -/
def f64Exp (b : Binary64) : Nat := ((b >>> 52).setWidth 11).toNat

/-- The fraction field. -/
def f64Frac (b : Binary64) : Nat := (b.setWidth 52).toNat

/-- Neither infinite nor a NaN. -/
def f64Finite (b : Binary64) : Bool := f64Exp b != 2047

/-- The number of smallest steps in 1.0. -/
def f64One : Nat := 2 ^ 1074

/-- The magnitude of a finite value, in smallest steps. -/
def f64Mag (b : Binary64) : Nat :=
  if f64Exp b = 0 then f64Frac b else (2 ^ 52 + f64Frac b) * 2 ^ (f64Exp b - 1)

/-- The signed value of a finite pattern, in smallest steps. -/
def f64Int (b : Binary64) : Int := if f64Neg b then -(f64Mag b : Int) else (f64Mag b : Int)

/-- Round half to even: the integer nearest to `num / den`. -/
def roundHalfEven (num den : Nat) : Nat :=
  let q := num / den
  let r := num % den
  if den < 2 * r ∨ (2 * r = den ∧ q % 2 = 1) then q + 1 else q

/-- The binary64 nearest to `± num / den` smallest steps. The exponent grows by one for every bit
the integer part has above 53; adding the rounded significand to the exponent field gives the
pattern, a carry out of the significand included. -/
def f64Round (neg : Bool) (num den : Nat) : Binary64 :=
  let e := (num / den).log2 - 52
  let m := roundHalfEven num (den * 2 ^ e)
  let bits := min (e * 2 ^ 52 + m) (2047 * 2 ^ 52)
  BitVec.ofNat 64 (bits + if neg then 2 ^ 63 else 0)

/-- Addition; an exact zero is +0 unless both operands are negative. -/
def f64Add (a b : Binary64) : Binary64 :=
  let x := f64Int a + f64Int b
  let neg := if x = 0 then f64Neg a && f64Neg b else decide (x < 0)
  f64Round neg x.natAbs 1

/-- Subtraction. -/
def f64Sub (a b : Binary64) : Binary64 := f64Add a (b ^^^ (1#64 <<< 63))

/-- Multiplication. -/
def f64Mul (a b : Binary64) : Binary64 :=
  f64Round (f64Neg a ^^ f64Neg b) (f64Mag a * f64Mag b) f64One

/-- Division by a non-zero value. -/
def f64Div (a b : Binary64) : Binary64 :=
  f64Round (f64Neg a ^^ f64Neg b) (f64Mag a * f64One) (f64Mag b)

/-- The binary64 of a natural number. -/
def f64OfNat (n : Nat) : Binary64 := f64Round false (n * f64One) 1

/-- The floor of a value that is not negative. -/
def f64Floor (b : Binary64) : Nat := f64Mag b / f64One

/-- The value lies in [0, 1] (the volumes of R1005). -/
def f64InUnit (b : Binary64) : Bool :=
  f64Finite b && decide (0 ≤ f64Int b) && decide (f64Int b ≤ f64One)

end Sys2Proof.Machine
end

