-- ==== Sys2Proof/Machine/Mixer.lean ====
section
/-! DEFINITION. The mixer and the low-pass filter (`63_apu` R1050-R1054), and the quantisation of
samples (R1053). -/

namespace Sys2Proof.Machine

/-- `pulse_table[n]` = 95.52 / (8128.0 / n + 100.0), 0.0 at 0 (R1050). -/
def pulseTable (n : Nat) : Binary64 :=
  if n = 0 then 0
  else f64Div 0x4057E147AE147AE1 (f64Add (f64Div 0x40BFC00000000000 (f64OfNat n)) 0x4059000000000000)

/-- `tnd_table[n]` = 163.67 / (24329.0 / n + 100.0), 0.0 at 0 (R1050). -/
def tndTable (n : Nat) : Binary64 :=
  if n = 0 then 0
  else f64Div 0x40647570A3D70A3D (f64Add (f64Div 0x40D7C24000000000 (f64OfNat n)) 0x4059000000000000)

/-- The pulse index `ip` of R1051. -/
def pulseIndex (m : Mixer) (p1 p2 : Nat) : Nat :=
  min 30 (f64Floor (f64Add (f64Mul m.volP1 (f64OfNat p1)) (f64Mul m.volP2 (f64OfNat p2))))

/-- The triangle, noise and DMC index `it` of R1051. -/
def tndIndex (m : Mixer) (t n d : Nat) : Nat :=
  min 202
    (f64Floor
      (f64Add
        (f64Add (f64Mul (f64Mul (f64OfNat 3) m.volT) (f64OfNat t))
          (f64Mul (f64Mul (f64OfNat 2) m.volN) (f64OfNat n)))
        (f64Mul m.volD (f64OfNat d))))

/-- `mix(p1, p2, t, n, d)` (R1051). -/
def mix (m : Mixer) (p1 p2 t n d : Nat) : Binary64 :=
  f64Mul m.master (f64Add (pulseTable (pulseIndex m p1 p2)) (tndTable (tndIndex m t n d)))

/-- The filter coefficient (R1052): the OPEN parameter, kept to its stated range (0, 1]. -/
def lpfAlpha (hq : Bool) : Binary64 :=
  let a := if hq then Config.lpfAlphaHq else Config.lpfAlphaNormal
  if f64InUnit a ∧ f64Mag a ≠ 0 then a else 0x3FF0000000000000

/-- `y + α · (x − y)` (R1052). -/
def lpfNext (hq : Bool) (x y : Binary64) : Binary64 := f64Add y (f64Mul (lpfAlpha hq) (f64Sub x y))

/-- The sample emitted for a mixed value (R1052). -/
def filterSample (m : Mixer) (x : Binary64) : Binary64 :=
  if m.lpfEnabled then lpfNext m.lpfHq x m.lpfY else x

/-- The filter state after a mixed value (R1052): unchanged while the filter is off. -/
def filterMixer (m : Mixer) (x : Binary64) : Mixer :=
  if m.lpfEnabled then { m with lpfY := lpfNext m.lpfHq x m.lpfY } else m

/-- `clamp(round_half_even(s · 32767), −32768, 32767)` (R1053), as its 16-bit pattern. -/
def quantise (s : Binary64) : BitVec 16 :=
  let x := f64Mul s 0x40DFFFC000000000
  let k : Int := roundHalfEven (f64Mag x) f64One
  BitVec.ofInt 16 (max (-32768) (min 32767 (if f64Neg x then -k else k)))

end Sys2Proof.Machine
end

