-- ==== Sys2Proof/Machine/Apu.lean ====
section
/-! DEFINITION. The audio unit: tables (`63_apu` R1007-R1009), registers (R1010-R1031), the tick with
its frame sequencer, channel timers and outputs (R1032-R1041), and the DMC (R1042-R1045). -/

namespace Sys2Proof.Machine

/-! ### Tables -/

/-- `LEN` (R1007). -/
def lengthTable : List Byte :=
  [10, 254, 20, 2, 40, 4, 80, 6, 160, 8, 60, 10, 14, 12, 26, 14,
   12, 16, 24, 18, 48, 20, 96, 22, 192, 24, 72, 26, 16, 28, 32, 30]

/-- `LEN[d >> 3]`. -/
def lengthOf (d : Byte) : Byte := lengthTable.getD (d >>> 3).toNat 0

/-- `DUTY[duty]` (R1008). -/
def dutyRow (duty : BitVec 2) : List Bool :=
  match duty.toNat with
  | 0 => [false, true, false, false, false, false, false, false]
  | 1 => [false, true, true, false, false, false, false, false]
  | 2 => [false, true, true, true, true, false, false, false]
  | _ => [true, false, false, true, true, true, true, true]

/-- `DUTY[duty][seq]`. -/
def dutyBit (duty : BitVec 2) (seq : BitVec 3) : Bool := (dutyRow duty).getD seq.toNat false

/-- `TRI[seq]` (R1008): down from 15 to 0, then up again. -/
def triangleLevel (seq : BitVec 5) : Nat := if seq.toNat ≤ 15 then 15 - seq.toNat else seq.toNat - 16

/-- `NOISE` (R1009). -/
def noiseTable : List Nat := [4, 8, 16, 32, 64, 96, 128, 160, 202, 254, 380, 508, 762, 1016, 2034, 4068]

/-- `DMC_RATE` (R1009). -/
def dmcRateTable : List Nat := [428, 380, 340, 320, 286, 254, 226, 214, 190, 160, 142, 128, 106, 84, 72, 54]

/-- `NOISE[i]`. -/
def noisePeriod (i : BitVec 4) : Nat := noiseTable.getD i.toNat 0

/-- `DMC_RATE[i]`. -/
def dmcRate (i : BitVec 4) : Nat := dmcRateTable.getD i.toNat 0

/-! ### Envelope, sweep, length and linear counters -/

/-- `envelope(c)` (R1034). -/
def clockEnvelope (e : Envelope) : Envelope :=
  if e.start then { e with start := false, decay := 15, div := e.vol }
  else if e.div = 0 then
    { e with
      div := e.vol
      decay := if e.decay ≠ 0 then e.decay - 1 else if e.halt then 15 else e.decay }
  else { e with div := e.div - 1 }

/-- `volume(c)` (R1034). -/
def volume (e : Envelope) : Nat := if e.constVol then e.vol.toNat else e.decay.toNat

/-- Which pulse channel: pulse 1 subtracts one more when it sweeps down (R1035). -/
inductive PulseIndex where
  | one
  | two
  deriving DecidableEq, Repr

/-- `target(c, k)` (R1035); natural subtraction stops at 0. -/
def sweepTarget (k : PulseIndex) (c : Pulse) : Nat :=
  let period := c.timerPeriod.toNat
  let ch := period / 2 ^ c.sweep.shift.toNat
  if c.sweep.neg then period - ch - (match k with | .one => 1 | .two => 0) else period + ch

/-- `muted(c, k)` (R1035). -/
def muted (k : PulseIndex) (c : Pulse) : Bool :=
  decide (c.timerPeriod.toNat < 8) || decide (0x7FF < sweepTarget k c)

/-- The period after `sweep(c, k)` (R1035). -/
def sweptPeriod (k : PulseIndex) (c : Pulse) : BitVec 11 :=
  if c.sweep.div = 0 ∧ c.sweep.en ∧ c.sweep.shift ≠ 0 ∧ !muted k c then
    BitVec.ofNat 11 (sweepTarget k c)
  else c.timerPeriod

/-- The sweep divider after `sweep(c, k)` (R1035). -/
def clockSweepDiv (w : Sweep) : Sweep :=
  if w.div = 0 ∨ w.reload then { w with div := w.period, reload := false }
  else { w with div := w.div - 1 }

/-- `sweep(c, k)` (R1035). -/
def clockSweep (k : PulseIndex) (c : Pulse) : Pulse :=
  { c with timerPeriod := sweptPeriod k c, sweep := clockSweepDiv c.sweep }

/-- The length counter (R1036). -/
def clockLength (halt : Bool) (len : Byte) : Byte := if !halt ∧ len ≠ 0 then len - 1 else len

/-- The triangle's linear counter (R1037). -/
def clockLinear (c : Triangle) : Triangle :=
  { c with
    lin := if c.linReload then c.linReloadVal else if c.lin ≠ 0 then c.lin - 1 else c.lin
    linReload := if c.control then c.linReload else false }

/-- `quarter_frame()` (R1033). -/
def quarterFrame (u : Apu) : Apu :=
  { u with
    p1 := { u.p1 with env := clockEnvelope u.p1.env }
    p2 := { u.p2 with env := clockEnvelope u.p2.env }
    noise := { u.noise with env := clockEnvelope u.noise.env }
    tri := clockLinear u.tri }

/-- `half_frame()` (R1033): the length counters, then the sweeps. -/
def halfFrame (u : Apu) : Apu :=
  { u with
    p1 := clockSweep .one { u.p1 with length := clockLength u.p1.env.halt u.p1.length }
    p2 := clockSweep .two { u.p2 with length := clockLength u.p2.env.halt u.p2.length }
    tri := { u.tri with length := clockLength u.tri.control u.tri.length }
    noise := { u.noise with length := clockLength u.noise.env.halt u.noise.length } }

/-! ### The DMC -/

/-- `update_dma_request()` (R1043). -/
def updateDmaRequest (d : Dmc) : Dmc :=
  { d with dmaRequest := d.bufferEmpty && decide (d.remaining ≠ 0) }

/-- The level after one output bit (R1042, R1045). -/
def dmcLevelNext (d : Dmc) : BitVec 7 :=
  if d.silence then d.level
  else if d.shift.getLsbD 0 then if d.level.toNat ≤ 125 then d.level + 2 else d.level
  else if 2 ≤ d.level.toNat then d.level - 2 else d.level

/-- `clock()` (R1042). -/
def dmcClock (d : Dmc) : Dmc :=
  let d := { d with level := dmcLevelNext d, shift := d.shift >>> 1, bitsLeft := d.bitsLeft - 1 }
  let d :=
    if d.bitsLeft = 0 then
      if d.bufferEmpty then { d with bitsLeft := 8, silence := true }
      else { d with bitsLeft := 8, silence := false, shift := d.buffer, bufferEmpty := true }
    else d
  updateDmaRequest d

/-- `dmc_timer()` (R1042). -/
def dmcTimer (d : Dmc) : Dmc :=
  if d.timer = 0 then dmcClock { d with timer := BitVec.ofNat 9 (dmcRate d.rateIdx - 1) }
  else { d with timer := d.timer - 1 }

/-- `dma_complete(b)` (R1044): the channel. With 0 bytes left, which only a loaded state can have while a
request stands (R1210), R9 leaves `remaining - 1` open; it wraps to 0xFFFF here (DESIGN CHOICE,
log 34). -/
def dmcReceive (b : Byte) (d : Dmc) : Dmc :=
  let d :=
    { d with
      buffer := b
      bufferEmpty := false
      dmaRequest := false
      curAddr := if d.curAddr = 0xFFFF then 0x8000 else d.curAddr + 1
      remaining := d.remaining - 1 }
  if d.remaining = 0 ∧ d.loop then { d with curAddr := d.startAddr, remaining := d.sampleLen } else d

/-- `dma_complete(b)` (R1043, R1044): the end of a sample that does not loop raises the DMC IRQ when
it is enabled. -/
def dmaComplete (b : Byte) (u : Apu) : Apu :=
  { u with
    dmc := dmcReceive b u.dmc
    dmcIrq := u.dmcIrq || (decide (u.dmc.remaining = 1) && !u.dmc.loop && u.dmc.irqEn) }

/-! ### Registers -/

/-- $4000 / $4004 (R1010). -/
def pulseWrite0 (d : Byte) (c : Pulse) : Pulse :=
  { c with
    duty := (d >>> 6).setWidth 2
    env := { c.env with halt := d.getLsbD 5, constVol := d.getLsbD 4, vol := d.setWidth 4 } }

/-- $4001 / $4005 (R1011). -/
def pulseWrite1 (d : Byte) (c : Pulse) : Pulse :=
  { c with
    sweep :=
      { c.sweep with
        en := d.getLsbD 7
        period := (d >>> 4).setWidth 3
        neg := d.getLsbD 3
        shift := d.setWidth 3
        reload := true } }

/-- A timer period with its low byte replaced (R1012, R1016). -/
def periodLow (d : Byte) (period : BitVec 11) : BitVec 11 := (period &&& 0x700) ||| d.setWidth 11

/-- A timer period with its high three bits replaced (R1013, R1017). -/
def periodHigh (d : Byte) (period : BitVec 11) : BitVec 11 :=
  (period &&& 0x0FF) ||| ((d.setWidth 11 &&& 7) <<< 8)

/-- $4002 / $4006 (R1012). -/
def pulseWrite2 (d : Byte) (c : Pulse) : Pulse := { c with timerPeriod := periodLow d c.timerPeriod }

/-- $4003 / $4007 (R1013). How far the `if enabled` of R1013 reaches is not stated; it covers the length
alone here (DESIGN CHOICE, log 35). -/
def pulseWrite3 (d : Byte) (c : Pulse) : Pulse :=
  { c with
    timerPeriod := periodHigh d c.timerPeriod
    length := if c.enabled then lengthOf d else c.length
    seq := 0
    env := { c.env with start := true } }

/-- $4008 (R1014). -/
def triangleWrite0 (d : Byte) (c : Triangle) : Triangle :=
  { c with control := d.getLsbD 7, linReloadVal := d.setWidth 7 }

/-- $400A (R1016). -/
def triangleWrite2 (d : Byte) (c : Triangle) : Triangle :=
  { c with timerPeriod := periodLow d c.timerPeriod }

/-- $400B (R1017). The `if enabled` covers the length alone (DESIGN CHOICE, log 35). -/
def triangleWrite3 (d : Byte) (c : Triangle) : Triangle :=
  { c with
    timerPeriod := periodHigh d c.timerPeriod
    length := if c.enabled then lengthOf d else c.length
    linReload := true }

/-- $400C (R1018). -/
def noiseWrite0 (d : Byte) (c : Noise) : Noise :=
  { c with env := { c.env with halt := d.getLsbD 5, constVol := d.getLsbD 4, vol := d.setWidth 4 } }

/-- $400E (R1019). -/
def noiseWrite2 (d : Byte) (c : Noise) : Noise :=
  { c with mode := d.getLsbD 7, periodIdx := d.setWidth 4 }

/-- $400F (R1020). The `if enabled` covers the length alone (DESIGN CHOICE, log 35). -/
def noiseWrite3 (d : Byte) (c : Noise) : Noise :=
  { c with
    length := if c.enabled then lengthOf d else c.length
    env := { c.env with start := true } }

/-- $4010 (R1022): clearing the enable clears the IRQ. -/
def dmcWrite0 (d : Byte) (u : Apu) : Apu :=
  { u with
    dmc := { u.dmc with irqEn := d.getLsbD 7, loop := d.getLsbD 6, rateIdx := d.setWidth 4 }
    dmcIrq := if d.getLsbD 7 then u.dmcIrq else false }

/-- $4011 (R1023). -/
def dmcWrite1 (d : Byte) (c : Dmc) : Dmc := { c with level := d.setWidth 7 }

/-- $4012 (R1024). -/
def dmcWrite2 (d : Byte) (c : Dmc) : Dmc := { c with startAddr := 0xC000 + 64 * d.setWidth 16 }

/-- $4013 (R1025). -/
def dmcWrite3 (d : Byte) (c : Dmc) : Dmc := { c with sampleLen := 16 * d.setWidth 16 + 1 }

/-- `APU.read_status()` (R1029): the value; bit 5 reads 0. -/
def apuStatus (u : Apu) : Byte :=
  (if u.dmcIrq then 0x80 else 0) ||| (if u.frameIrq then 0x40 else 0) |||
    (if u.dmc.remaining ≠ 0 then 0x10 else 0) ||| (if u.noise.length ≠ 0 then 0x08 else 0) |||
    (if u.tri.length ≠ 0 then 0x04 else 0) ||| (if u.p2.length ≠ 0 then 0x02 else 0) |||
    (if u.p1.length ≠ 0 then 0x01 else 0)

/-- `APU.read_status()` (R1029): the read acknowledges the frame IRQ. -/
def apuReadStatus (u : Apu) : Byte × Apu := (apuStatus u, { u with frameIrq := false })

/-- The DMC side of a $4015 write (R1030). -/
def dmcEnable (on : Bool) (d : Dmc) : Dmc :=
  updateDmaRequest
    (if !on then { d with remaining := 0 }
     else if d.remaining = 0 then { d with curAddr := d.startAddr, remaining := d.sampleLen }
     else d)

/-- `write_status(d)` (R1030). -/
def apuWriteStatus (d : Byte) (u : Apu) : Apu :=
  { u with
    p1 := { u.p1 with enabled := d.getLsbD 0, length := if d.getLsbD 0 then u.p1.length else 0 }
    p2 := { u.p2 with enabled := d.getLsbD 1, length := if d.getLsbD 1 then u.p2.length else 0 }
    tri := { u.tri with enabled := d.getLsbD 2, length := if d.getLsbD 2 then u.tri.length else 0 }
    noise :=
      { u.noise with enabled := d.getLsbD 3, length := if d.getLsbD 3 then u.noise.length else 0 }
    dmc := dmcEnable (d.getLsbD 4) u.dmc
    dmcIrq := false }

/-- `write_frame(d)` (R1031). -/
def apuWriteFrame (d : Byte) (u : Apu) : Apu :=
  let u :=
    { u with
      fsMode := d.getLsbD 7
      fsInhibit := d.getLsbD 6
      frameIrq := if d.getLsbD 6 then false else u.frameIrq
      fsCounter := 0 }
  if d.getLsbD 7 then halfFrame (quarterFrame u) else u

/-- `APU.write(a, d)` (R1027, R1028); 0x4009 and 0x400D are unused (R1015). -/
def apuWrite (a : Word) (d : Byte) (u : Apu) : Apu :=
  match a.toNat with
  | 0x4000 => { u with p1 := pulseWrite0 d u.p1 }
  | 0x4001 => { u with p1 := pulseWrite1 d u.p1 }
  | 0x4002 => { u with p1 := pulseWrite2 d u.p1 }
  | 0x4003 => { u with p1 := pulseWrite3 d u.p1 }
  | 0x4004 => { u with p2 := pulseWrite0 d u.p2 }
  | 0x4005 => { u with p2 := pulseWrite1 d u.p2 }
  | 0x4006 => { u with p2 := pulseWrite2 d u.p2 }
  | 0x4007 => { u with p2 := pulseWrite3 d u.p2 }
  | 0x4008 => { u with tri := triangleWrite0 d u.tri }
  | 0x400A => { u with tri := triangleWrite2 d u.tri }
  | 0x400B => { u with tri := triangleWrite3 d u.tri }
  | 0x400C => { u with noise := noiseWrite0 d u.noise }
  | 0x400E => { u with noise := noiseWrite2 d u.noise }
  | 0x400F => { u with noise := noiseWrite3 d u.noise }
  | 0x4010 => dmcWrite0 d u
  | 0x4011 => { u with dmc := dmcWrite1 d u.dmc }
  | 0x4012 => { u with dmc := dmcWrite2 d u.dmc }
  | 0x4013 => { u with dmc := dmcWrite3 d u.dmc }
  | 0x4015 => apuWriteStatus d u
  | 0x4017 => apuWriteFrame d u
  | _ => u

/-- `irq_line` (`10_state` R115, R1041). -/
def irqLine (u : Apu) : Bool := u.frameIrq || u.dmcIrq

/-! ### The tick -/

/-- The four-step sequence at a counter value (R1033). -/
def fourStep (n : Nat) (u : Apu) : Apu :=
  let u := if n = 7457 ∨ n = 22371 then quarterFrame u else u
  let u := if n = 14913 ∨ n = 29829 then halfFrame (quarterFrame u) else u
  let u := if n = 29829 ∧ !u.fsInhibit then { u with frameIrq := true } else u
  if n = 29830 then { u with fsCounter := 0 } else u

/-- The five-step sequence at a counter value (R1033). -/
def fiveStep (n : Nat) (u : Apu) : Apu :=
  let u := if n = 7457 ∨ n = 22371 then quarterFrame u else u
  let u := if n = 14913 ∨ n = 37281 then halfFrame (quarterFrame u) else u
  if n = 37282 then { u with fsCounter := 0 } else u

/-- `frame_sequencer_step()` (R1033). -/
def frameSequencerStep (u : Apu) : Apu :=
  let u := { u with fsCounter := u.fsCounter + 1 }
  if u.fsMode then fiveStep u.fsCounter.toNat u else fourStep u.fsCounter.toNat u

/-- `triangle_timer()` (R1039). -/
def triangleTimer (c : Triangle) : Triangle :=
  if c.timer = 0 then
    { c with
      timer := c.timerPeriod
      seq := if c.length ≠ 0 ∧ c.lin ≠ 0 then c.seq + 1 else c.seq }
  else { c with timer := c.timer - 1 }

/-- `pulse_timer(c)` (R1038). -/
def pulseTimer (c : Pulse) : Pulse :=
  if c.timer = 0 then { c with timer := c.timerPeriod, seq := c.seq - 1 }
  else { c with timer := c.timer - 1 }

/-- The shift of the noise register (R1040). -/
def lfsrNext (mode : Bool) (lfsr : BitVec 15) : BitVec 15 :=
  let fb := lfsr.getLsbD 0 ^^ (if mode then lfsr.getLsbD 6 else lfsr.getLsbD 1)
  (lfsr >>> 1) ||| (if fb then 0x4000 else 0)

/-- `noise_timer()` (R1040). -/
def noiseTimer (c : Noise) : Noise :=
  if c.timer = 0 then
    { c with timer := BitVec.ofNat 12 (noisePeriod c.periodIdx - 1), lfsr := lfsrNext c.mode c.lfsr }
  else { c with timer := c.timer - 1 }

/-- `out_pk` (R1038). -/
def pulseOut (k : PulseIndex) (c : Pulse) : Nat :=
  if c.length = 0 ∨ !dutyBit c.duty c.seq ∨ muted k c then 0 else volume c.env

/-- `out_t`: `TRI[seq]` (R1039), but for a length of 0, where R1036 says 0 and R1039 says the level
is held; `silent` tells which (DESIGN CHOICE, log 27). -/
def triangleOut (silent : Bool) (c : Triangle) : Nat :=
  if silent ∧ c.length = 0 then 0 else triangleLevel c.seq

/-- `out_n` (R1040). -/
def noiseOut (c : Noise) : Nat := if c.length = 0 ∨ c.lfsr.getLsbD 0 then 0 else volume c.env

/-- The mixed value of the five outputs (R1032, R1051). -/
def mixedOutput (silent : Bool) (u : Apu) : Binary64 :=
  mix u.mixer (pulseOut .one u.p1) (pulseOut .two u.p2) (triangleOut silent u.tri) (noiseOut u.noise)
    u.dmc.level.toNat

/-- The channels' part of `tick()`, in the order of R1032, up to the sample. -/
def apuAdvance (u : Apu) : Apu :=
  let u := frameSequencerStep u
  { u with
    tri := triangleTimer u.tri
    p1 := if u.parity then pulseTimer u.p1 else u.p1
    p2 := if u.parity then pulseTimer u.p2 else u.p2
    noise := noiseTimer u.noise
    dmc := dmcTimer u.dmc
    parity := !u.parity }

/-- `APU.tick()` (R1032): the APU after it and the sample it emits (R1051-R1053); `silent` is the
field of log 27. -/
def apuTick (silent : Bool) (u : Apu) : Apu × Binary64 :=
  let u := apuAdvance u
  let x := mixedOutput silent u
  ({ u with mixer := filterMixer u.mixer x }, filterSample u.mixer x)

/-- `APU.reset()` (R1006): the volumes and the filter switches are kept, the filter state is not. -/
def apuReset (u : Apu) : Apu :=
  { Apu.create with mixer := { u.mixer with lpfY := 0 } }

end Sys2Proof.Machine
end

