-- ==== Sys2Proof/Machine/Memory.lean ====
section
/-! DEFINITION. Sparse arrays: lists of (key, value) with keys strictly rising. `Memory` is the byte
case, where an unlisted address reads as 0x00 (D16) and no 0x00 is listed. -/

namespace Sys2Proof.Machine

/-- The value listed for a key. -/
def lookupKey {β : Type} : List (Nat × β) → Nat → Option β
  | [], _ => none
  | (k, v) :: rest, a => if k = a then some v else lookupKey rest a

/-- List a value for a key, in its place. -/
def insertKey {β : Type} (a : Nat) (v : β) : List (Nat × β) → List (Nat × β)
  | [] => [(a, v)]
  | (k, w) :: rest =>
    if k = a then (a, v) :: rest
    else if a < k then (a, v) :: (k, w) :: rest
    else (k, w) :: insertKey a v rest

/-- Take a key out of the list. -/
def eraseKey {β : Type} (a : Nat) : List (Nat × β) → List (Nat × β)
  | [] => []
  | (k, w) :: rest => if k = a then eraseKey a rest else (k, w) :: eraseKey a rest

/-- The byte an array holds at an address; 0x00 where none is listed. -/
def memGet (m : Memory) (a : Nat) : Byte := (lookupKey m a).getD 0

/-- Store a byte; storing 0x00 takes the cell out, so that equal arrays are equal lists. -/
def memSet (m : Memory) (a : Nat) (v : Byte) : Memory :=
  if v = 0 then eraseKey a m else insertKey a v m

/-- The array holding a list of bytes from an address on. -/
def memOfBytesFrom : Nat → List Byte → Memory
  | _, [] => []
  | a, b :: rest => if b = 0 then memOfBytesFrom (a + 1) rest else (a, b) :: memOfBytesFrom (a + 1) rest

/-- The array holding a list of bytes from address 0 on. -/
def memOfBytes (bs : List Byte) : Memory := memOfBytesFrom 0 bs

/-- The first `n` bytes of an array. -/
def memBytes (m : Memory) (n : Nat) : List Byte := (List.range n).map (memGet m)

/-- The canonical form: addresses strictly rising, no 0x00 listed. -/
abbrev Memory.wf (m : Memory) : Prop :=
  (m.map Prod.fst).Pairwise (· < ·) ∧ ∀ c ∈ m, c.2 ≠ 0

/-- Every listed address is below the array's size. -/
abbrev Memory.within (n : Nat) (m : Memory) : Prop := ∀ c ∈ m, c.1 < n

/-- Draw a pixel: line `l`, column `x` (R865). -/
def drawPixel (l x : Nat) (px : Pixel) (pic : Picture) : Picture :=
  insertKey l (insertKey x px ((lookupKey pic l).getD [])) pic

/-- The pixel drawn at line `l`, column `x`, if any (R867). -/
def pixelOf (pic : Picture) (l x : Nat) : Option Pixel :=
  (lookupKey pic l).bind fun line => lookupKey line x

end Sys2Proof.Machine
end

