-- ==== Sys2Proof/Machine/Mapper.lean ====
section
/-! DEFINITION. The cartridge mapper (`62_mapper` R900-R926): the fixed-bank variant (id 0) and the
serial-shift variant (id 1), as the CPU bus and the PPU see them. -/

namespace Sys2Proof.Machine

/-- `n16`: 16 KiB PRG banks present (R900). -/
def prgBanks (c : Cartridge) : Nat := c.nprg.toNat

/-- `|chr|`: 8192 bytes of CHR-RAM when the header counts no CHR-ROM (R900, R930). -/
def chrSize (c : Cartridge) : Nat := if c.nchr = 0 then 8192 else 8192 * c.nchr.toNat

/-- `chr_is_ram` (R900). -/
def chrIsRam (c : Cartridge) : Bool := c.nchr == 0

/-- `n4`: 4 KiB CHR banks present (R900). -/
def chrBanks (c : Cartridge) : Nat := chrSize c / 4096

/-- The 16 KiB bank the serial variant shows at an address (R922, R923). -/
def serialPrgBank (r : SerialRegs) (n16 : Nat) (high : Bool) : Nat :=
  let b := (r.prg &&& 0x0F).toNat
  match ((r.control >>> 2) &&& 3).toNat with
  | 2 => if high then b % n16 else 0
  | 3 => if high then n16 - 1 else b % n16
  | _ => ((r.prg &&& 0x0E).toNat + if high then 1 else 0) % n16

/-- The PRG-ROM offset of a CPU address 0x8000..0xFFFF (R910, R923). -/
def prgOffset (c : Cartridge) (a : Word) : Nat :=
  match c.mapper with
  | .fixedBank => (a.toNat - 0x8000) % (16384 * prgBanks c)
  | .serialShift r => serialPrgBank r (prgBanks c) (decide (0xC000 ≤ a.toNat)) * 16384 + a.toNat % 0x4000

/-- `read_prg` (R910, R923). -/
def prgRead (c : Cartridge) (a : Word) : Byte := memGet c.prgRom (prgOffset c a)

/-- The 4 KiB bank the serial variant shows in a pattern table (R922, R924). -/
def serialChrBank (r : SerialRegs) (n4 : Nat) (high : Bool) : Nat :=
  if r.control.getLsbD 4 then (if high then r.chr1 else r.chr0).toNat % n4
  else ((r.chr0 &&& 0x1E).toNat + if high then 1 else 0) % n4

/-- `chr_offset` of a PPU address below 0x2000 (R912, R924). -/
def chrOffset (c : Cartridge) (a : Nat) : Nat :=
  match c.mapper with
  | .fixedBank => a % chrSize c
  | .serialShift r => serialChrBank r (chrBanks c) (decide (0x1000 ≤ a)) * 4096 + a % 0x1000

/-- `read_chr` (R904); with no cartridge the pattern range reads 0 (R907). -/
def chrRead (cart : Option Cartridge) (a : Nat) : Byte :=
  match cart with
  | none => 0
  | some c => memGet c.chr (chrOffset c a)

/-- `write_chr` (R904): only CHR-RAM is written. -/
def chrWrite (cart : Option Cartridge) (a : Nat) (d : Byte) : Option Cartridge :=
  match cart with
  | none => none
  | some c => some (if chrIsRam c then { c with chr := memSet c.chr (chrOffset c a) d } else c)

/-- The reset write of the serial protocol, bit 7 set (R920, D40). -/
def serialReset (clearChrMode : Bool) (r : SerialRegs) : SerialRegs :=
  let control := r.control ||| 0x0C
  { r with
    shift := 0
    count := 0
    control := if clearChrMode then control &&& 0x0F else control }

/-- The register the fifth write of the serial protocol loads, by address bits 14:13 (R921). -/
def serialLoad (a : Word) (v : BitVec 5) (r : SerialRegs) : SerialRegs :=
  match ((a >>> 13) &&& 3).toNat with
  | 0 => { r with control := v }
  | 1 => { r with chr0 := v }
  | 2 => { r with chr1 := v }
  | _ => { r with prg := v }

/-- One data write of the serial protocol, least significant bit first (R920). -/
def serialShiftIn (a : Word) (d : Byte) (r : SerialRegs) : SerialRegs :=
  let v : BitVec 5 := (r.shift >>> 1) ||| ((d.setWidth 5 &&& 1) <<< 4)
  if r.count + 1 = 5 then { serialLoad a v r with shift := 0, count := 0 }
  else { r with shift := v, count := r.count + 1 }

/-- `write_prg` (R911, R920). -/
def prgWrite (params : Params) (c : Cartridge) (a : Word) (d : Byte) : Cartridge :=
  match c.mapper with
  | .fixedBank => c
  | .serialShift r =>
    { c with
      mapper := .serialShift
        (if d.getLsbD 7 then serialReset params.mmc1ResetClearsChrMode r else serialShiftIn a d r) }

/-- `ram_enabled()` (R903, R925). -/
def prgRamEnabled (params : Params) (c : Cartridge) : Bool :=
  params.prgRamPresent &&
    match c.mapper with
    | .fixedBank => true
    | .serialShift r => !r.prg.getLsbD 4

/-- `Mapper.cpu_read` of an address 0x4020..0xFFFF (R903); `none` leaves the open-bus latch. -/
def mapperRead (params : Params) (cart : Option Cartridge) (a : Word) : Option Byte :=
  match cart with
  | none => none
  | some c =>
    if a.toNat ≤ 0x5FFF then none
    else if a.toNat ≤ 0x7FFF then
      if prgRamEnabled params c then some (memGet c.prgRam (a.toNat - 0x6000)) else none
    else some (prgRead c a)

/-- `Mapper.cpu_write` of an address 0x4020..0xFFFF (R903). -/
def mapperWrite (params : Params) (cart : Option Cartridge) (a : Word) (d : Byte) :
    Option Cartridge :=
  match cart with
  | none => none
  | some c =>
    some
      (if a.toNat ≤ 0x5FFF then c
       else if a.toNat ≤ 0x7FFF then
         if prgRamEnabled params c then { c with prgRam := memSet c.prgRam (a.toNat - 0x6000) d }
         else c
       else prgWrite params c a d)

/-- The physical nametable page of a logical table while a cartridge is loaded (R821, R905). -/
def cartNametablePage (c : Cartridge) (n : BitVec 2) : BitVec 2 :=
  if c.fourScreen then n
  else
    match c.mapper with
    | .fixedBank =>
      match c.hdrMirror with
      | .horizontal => n >>> 1
      | .vertical => n &&& 1
    | .serialShift r =>
      match (r.control &&& 3).toNat with
      | 0 => 0
      | 1 => 1
      | 2 => n &&& 1
      | _ => n >>> 1

/-- The physical nametable page of a logical table (R821). With no cartridge loaded the spec states
no arrangement: the free value of Config (log 6). -/
def nametablePage (cart : Option Cartridge) (n : BitVec 2) : BitVec 2 :=
  match cart with
  | none => Config.nametablePageWithoutCartridge n
  | some c => cartNametablePage c n

end Sys2Proof.Machine
end

