-- ==== Sys2Proof/Machine/Ppu.lean ====
section
/-! DEFINITION. The picture processor: its memory (`61_ppu` R820-R823), its CPU-visible registers
(R829-R843), and the scanline/cycle state machine without the picture (R810-R815, R850-R855,
R861, R862). The picture is Machine/Render.lean. -/

namespace Sys2Proof.Machine

/-! ### Memory -/

/-- The `nt_ram` index of an address 0x2000..0x3EFF (R821). The page is kept inside the RAM there
is: four pages when four-screen, two otherwise. -/
def ntIndex (cart : Option Cartridge) (p : Ppu) (a : Nat) : Nat :=
  let a' := (a - 0x2000) % 0x1000
  let page := nametablePage cart (BitVec.ofNat 2 (a' / 0x400)) &&& if p.ntFour then 3 else 1
  page.toNat * 0x400 + a' % 0x400

/-- The palette index of an address, the four sprite mirrors folded (R822). -/
def paletteIndex (a : Nat) : Nat :=
  let i := a % 0x20
  if i = 0x10 ∨ i = 0x14 ∨ i = 0x18 ∨ i = 0x1C then i - 0x10 else i

/-- `palette_read` (R822). -/
def paletteRead (p : Ppu) (a : Nat) : Byte := memGet p.palette (paletteIndex a)

/-- `ppu_read` (R820, R823). -/
def ppuRead (cart : Option Cartridge) (p : Ppu) (a : BitVec 14) : Byte :=
  if a.toNat < 0x2000 then chrRead cart a.toNat
  else if a.toNat < 0x3F00 then memGet p.ntRam (ntIndex cart p a.toNat)
  else paletteRead p a.toNat

/-- The cartridge after `ppu_write`: CHR-RAM may have changed (R823). -/
def ppuWriteCart (cart : Option Cartridge) (a : BitVec 14) (d : Byte) : Option Cartridge :=
  if a.toNat < 0x2000 then chrWrite cart a.toNat d else cart

/-- The PPU after `ppu_write`: nametable or palette RAM may have changed (R821-R823). -/
def ppuWriteMem (cart : Option Cartridge) (p : Ppu) (a : BitVec 14) (d : Byte) : Ppu :=
  if a.toNat < 0x2000 then p
  else if a.toNat < 0x3F00 then { p with ntRam := memSet p.ntRam (ntIndex cart p a.toNat) d }
  else { p with palette := memSet p.palette (paletteIndex a.toNat) (d &&& 0x3F) }

/-! ### Registers -/

/-- The increment of `v` after a PPUDATA access (R840). -/
def vramStep (p : Ppu) : BitVec 15 := if p.ctrl.getLsbD 2 then 32 else 1

/-- `(vblank << 7) | (s0hit << 6) | (ovf << 5) | (io_latch & 0x1F)` (R832). -/
def ppuStatus (p : Ppu) : Byte :=
  (if p.vblank then 0x80 else 0) ||| (if p.s0hit then 0x40 else 0) ||| (if p.ovf then 0x20 else 0) |||
    (p.ioLatch &&& 0x1F)

/-- PPUSTATUS read (R832). -/
def readStatus (p : Ppu) : Byte × Ppu :=
  (ppuStatus p, { p with vblank := false, w := false, ioLatch := ppuStatus p })

/-- OAMDATA read (R836): attribute bytes read without bits 4:2. -/
def readOamData (p : Ppu) : Byte × Ppu :=
  let r := memGet p.oam p.oamaddr.toNat
  let r := if p.oamaddr.toNat % 4 = 2 then r &&& 0xE3 else r
  (r, { p with ioLatch := r })

/-- PPUDATA read (R838): buffered below 0x3F00, direct from the palette above. -/
def readData (cart : Option Cartridge) (p : Ppu) : Byte × Ppu :=
  let a : BitVec 14 := p.v.setWidth 14
  let r := if a.toNat < 0x3F00 then p.readBuffer
    else (p.ioLatch &&& 0xC0) ||| (ppuRead cart p a &&& 0x3F)
  let buffer := if a.toNat < 0x3F00 then ppuRead cart p a else ppuRead cart p (a - 0x1000)
  (r, { p with readBuffer := buffer, v := p.v + vramStep p, ioLatch := r })

/-- `cpu_read(r)` (R830, R841). -/
def ppuRegRead (cart : Option Cartridge) (r : BitVec 3) (p : Ppu) : Byte × Ppu :=
  match r.toNat with
  | 2 => readStatus p
  | 4 => readOamData p
  | 7 => readData cart p
  | _ => (p.ioLatch, p)

/-- PPUCTRL write (R833, R842). -/
def writeCtrl (d : Byte) (p : Ppu) : Ppu :=
  { p with
    ctrl := d
    t := (p.t &&& ~~~0x0C00#15) ||| ((d.setWidth 15 &&& 0x03) <<< 10)
    nmiEdge := p.nmiEdge || (!p.ctrl.getLsbD 7 && d.getLsbD 7 && p.vblank) }

/-- OAMDATA write (R836). -/
def writeOamData (d : Byte) (p : Ppu) : Ppu :=
  { p with oam := memSet p.oam p.oamaddr.toNat d, oamaddr := p.oamaddr + 1 }

/-- PPUSCROLL write (R837). -/
def writeScroll (d : Byte) (p : Ppu) : Ppu :=
  if p.w then
    { p with
      t := (p.t &&& ~~~0x73E0#15) ||| ((d.setWidth 15 &&& 0x07) <<< 12) |||
        (((d >>> 3).setWidth 15) <<< 5)
      w := false }
  else
    { p with
      t := (p.t &&& ~~~0x001F#15) ||| (d >>> 3).setWidth 15
      x := d.setWidth 3
      w := true }

/-- PPUADDR write (R839). -/
def writeAddr (d : Byte) (p : Ppu) : Ppu :=
  if p.w then
    let t := (p.t &&& 0x7F00) ||| d.setWidth 15
    { p with t := t, v := t, w := false }
  else
    { p with t := (p.t &&& 0x00FF) ||| ((d.setWidth 15 &&& 0x3F) <<< 8), w := true }

/-- PPUDATA write (R838), the PPU side. -/
def writeData (cart : Option Cartridge) (d : Byte) (p : Ppu) : Ppu :=
  let p' := ppuWriteMem cart p (p.v.setWidth 14) d
  { p' with v := p.v + vramStep p }

/-- The PPU after `cpu_write(r, d)` (R831). -/
def ppuRegWrite (cart : Option Cartridge) (r : BitVec 3) (d : Byte) (p : Ppu) : Ppu :=
  let p := { p with ioLatch := d }
  match r.toNat with
  | 0 => writeCtrl d p
  | 1 => { p with mask := d }
  | 3 => { p with oamaddr := d }
  | 4 => writeOamData d p
  | 5 => writeScroll d p
  | 6 => writeAddr d p
  | 7 => writeData cart d p
  | _ => p

/-- The cartridge after `cpu_write(r, d)`: only PPUDATA reaches it (R831, R838). -/
def ppuRegWriteCart (cart : Option Cartridge) (r : BitVec 3) (d : Byte) (p : Ppu) :
    Option Cartridge :=
  if r = 7 then ppuWriteCart cart (p.v.setWidth 14) d else cart

/-! ### The dot -/

/-- The rendering predicate (R801). -/
def rendering (p : Ppu) : Bool := p.mask.getLsbD 3 || p.mask.getLsbD 4

/-- `inc_coarse_x()` (R851). -/
def incCoarseX (v : BitVec 15) : BitVec 15 :=
  if v &&& 0x001F = 31 then (v &&& ~~~0x001F#15) ^^^ 0x0400 else v + 1

/-- `inc_y()` (R852). -/
def incY (v : BitVec 15) : BitVec 15 :=
  if v &&& 0x7000 ≠ 0x7000 then v + 0x1000
  else
    let v := v &&& ~~~0x7000#15
    let y := (v &&& 0x03E0) >>> 5
    if y = 29 then ((v ^^^ 0x0800) &&& ~~~0x03E0#15)
    else if y = 31 then (v &&& ~~~0x03E0#15)
    else (v &&& ~~~0x03E0#15) ||| ((y + 1) <<< 5)

/-- The horizontal bits of `v` from `t` (R853). -/
def copyHorizontal (v t : BitVec 15) : BitVec 15 := (v &&& ~~~0x041F#15) ||| (t &&& 0x041F)

/-- The vertical bits of `v` from `t` (R853). -/
def copyVertical (v t : BitVec 15) : BitVec 15 := (v &&& ~~~0x7BE0#15) ||| (t &&& 0x7BE0)

/-- VBlank set at (241, 1), with the NMI edge (R812, R813). -/
def dotVblankSet (p : Ppu) : Ppu :=
  if p.scanline = 241 ∧ p.cycle = 1 then
    { p with vblank := true, nmiEdge := p.nmiEdge || p.ctrl.getLsbD 7 }
  else p

/-- The pre-render clear at (261, 1) (R812, R814). -/
def dotPreRender (p : Ppu) : Ppu :=
  if p.scanline = 261 ∧ p.cycle = 1 then { p with vblank := false, s0hit := false, ovf := false }
  else p

/-- The lines on which the address registers move: 0..239 and 261 (R812). -/
def renderLine (p : Ppu) : Bool := rendering p && (decide (p.scanline ≤ 239) || decide (p.scanline = 261))

/-- Coarse X increments (R812, R851). -/
def dotIncX (p : Ppu) : Ppu :=
  if renderLine p ∧ ((1 ≤ p.cycle ∧ p.cycle ≤ 256 ∧ p.cycle % 8 = 0) ∨ p.cycle = 328 ∨ p.cycle = 336) then
    { p with v := incCoarseX p.v }
  else p

/-- Y increment at dot 256 (R812, R852). -/
def dotIncY (p : Ppu) : Ppu :=
  if renderLine p ∧ p.cycle = 256 then { p with v := incY p.v } else p

/-- Horizontal copy and OAMADDR clear at dot 257 (R812, R853, R855). -/
def dotCopyX (p : Ppu) : Ppu :=
  if renderLine p ∧ p.cycle = 257 then { p with v := copyHorizontal p.v p.t, oamaddr := 0 } else p

/-- Vertical copy at dots 280..304 of line 261 (R812, R853). -/
def dotCopyY (p : Ppu) : Ppu :=
  if renderLine p ∧ p.scanline = 261 ∧ 280 ≤ p.cycle ∧ p.cycle ≤ 304 then
    { p with v := copyVertical p.v p.t }
  else p

/-- Sprite height of PPUCTRL bit 5 (R829). -/
def spriteHeight (p : Ppu) : SpriteHeight := if p.ctrl.getLsbD 5 then .h16 else .h8

/-- 8 or 16 lines. -/
def heightLines : SpriteHeight → Nat
  | .h8 => 8
  | .h16 => 16

/-- The entry of OAM sprite `i` if line `L` + 1 shows it: `row = L - y` lies in `0..h-1` (R861). -/
def spriteInRange (oam : Memory) (h : SpriteHeight) (L i : Nat) : Option SpriteEntry :=
  let y := memGet oam (4 * i)
  if y.toNat ≤ L ∧ L - y.toNat < heightLines h then
    some
      { index := BitVec.ofNat 6 i
        y := y
        tile := memGet oam (4 * i + 1)
        attr := memGet oam (4 * i + 2)
        xpos := memGet oam (4 * i + 3)
        row := BitVec.ofNat 4 (L - y.toNat)
        height := h }
  else none

/-- The sprites in range among `i .. i + n - 1`, in OAM order (R861). -/
def spritesFrom (oam : Memory) (h : SpriteHeight) (L : Nat) : Nat → Nat → List SpriteEntry
  | 0, _ => []
  | n + 1, i =>
    match spriteInRange oam h L i with
    | some e => e :: spritesFrom oam h L n (i + 1)
    | none => spritesFrom oam h L n (i + 1)

/-- `evaluate_sprites(L)` (R861): the first eight in range, overflow exactly when a ninth is. -/
def evaluateSprites (p : Ppu) : Ppu :=
  let found := spritesFrom p.oam (spriteHeight p) p.scanline 64 0
  { p with sprNext := p.sprNext ++ found.take 8, ovf := p.ovf || decide (8 < found.length) }

/-- Sprite evaluation at dot 257 of a visible line (R812, R861). -/
def dotEvaluate (p : Ppu) : Ppu :=
  if rendering p ∧ p.scanline ≤ 239 ∧ p.cycle = 257 then evaluateSprites p else p

/-- The line latch at dot 320 (R812, R854). -/
def dotLatch (p : Ppu) : Ppu :=
  if p.cycle = 320 then { p with lineV := p.v, lineX := p.x } else p

/-- The sprite lists move on at dot 340 (R812, R862). -/
def dotSprites (p : Ppu) : Ppu :=
  if p.cycle = 340 then { p with sprCur := p.sprNext, sprNext := [] } else p

/-- The dot's work after the pixel, in the order of R812. -/
def dotAfterPixel (p : Ppu) : Ppu :=
  dotSprites (dotLatch (dotEvaluate (dotCopyY (dotCopyX (dotIncY (dotIncX p))))))

/-- `advance()` (R810, R811). -/
def ppuAdvance (p : Ppu) : Ppu :=
  if p.cycle + 1 ≤ 340 then { p with cycle := p.cycle + 1 }
  else if p.scanline + 1 ≤ 261 then { p with cycle := 0, scanline := p.scanline + 1 }
  else { p with cycle := 0, scanline := 0, frame := p.frame + 1 }

/-- `PPU.reset()` (R802): every field but the three memories (and the size of the nametable RAM). -/
def ppuReset (p : Ppu) : Ppu :=
  { Ppu.reset with oam := p.oam, ntRam := p.ntRam, ntFour := p.ntFour, palette := p.palette }

end Sys2Proof.Machine
end

