-- ==== Sys2Proof/Machine/Render.lean ====
section
/-! DEFINITION. The picture: background and sprite pixels, sprite-0 hit, the priority multiplexer
(`61_ppu` R860, R863-R866), and the PPU tick that draws it (R810, R812). -/

namespace Sys2Proof.Machine

/-- Bit `b` of two pattern bytes as a pixel value 0..3 (R860, R863). -/
def patternPixel (lo hi : Byte) (b : Nat) : BitVec 2 :=
  (if hi.getLsbD b then 2 else 0) ||| (if lo.getLsbD b then 1 else 0)

/-- The background address arithmetic of R860: the scroll position `s` of a pixel. -/
def bgScroll (p : Ppu) (px : Nat) : Nat := (p.lineV &&& 0x1F).toNat * 8 + p.lineX.toNat + px

/-- The logical nametable of a background pixel (R860): the horizontal bit flips past column 31. -/
def bgTable (p : Ppu) (col : Nat) : Nat :=
  let nth := (if p.lineV.getLsbD 10 then 1 else 0) + col / 32
  (if p.lineV.getLsbD 11 then 2 else 0) + nth % 2

/-- `bg(px)` (R860): the pixel value and its palette. -/
def bgPixel (cart : Option Cartridge) (p : Ppu) (px : Nat) : BitVec 2 × BitVec 2 :=
  if !p.mask.getLsbD 3 ∨ (px < 8 ∧ !p.mask.getLsbD 1) then (0, 0)
  else
    let s := bgScroll p px
    let col := (s / 8) % 64
    let n := bgTable p col
    let cx := col % 32
    let cy := ((p.lineV >>> 5) &&& 0x1F).toNat
    let fy := ((p.lineV >>> 12) &&& 7).toNat
    let tile := ppuRead cart p (BitVec.ofNat 14 (0x2000 + n * 0x400 + cy * 32 + cx))
    let at' := ppuRead cart p (BitVec.ofNat 14 (0x23C0 + n * 0x400 + cy / 4 * 8 + cx / 4))
    let pal : BitVec 2 := (at' >>> (cy % 4 / 2 * 4 + cx % 4 / 2 * 2)).setWidth 2
    let base := (if p.ctrl.getLsbD 4 then 0x1000 else 0) + tile.toNat * 16 + fy
    let lo := ppuRead cart p (BitVec.ofNat 14 base)
    let hi := ppuRead cart p (BitVec.ofNat 14 (base + 8))
    (patternPixel lo hi (7 - s % 8), pal)

/-- The pattern row of a sprite entry, flipped vertically by attribute bit 7 (R863). An entry of height
8 with a row of 8..15, which only a loaded state can hold (R1210), is outside what R863 covers: its
flip would be a row below 0, and the subtraction here stops at 0 (DESIGN CHOICE, log 29). -/
def spriteRow (e : SpriteEntry) : Nat :=
  if e.attr.getLsbD 7 then heightLines e.height - 1 - e.row.toNat else e.row.toNat

/-- The pattern address of a sprite entry's row (R863). -/
def spritePatternAddr (p : Ppu) (e : SpriteEntry) : Nat :=
  match e.height with
  | .h8 => (if p.ctrl.getLsbD 3 then 0x1000 else 0) + e.tile.toNat * 16 + spriteRow e
  | .h16 =>
    let tl := (e.tile &&& 0xFE).toNat + if 8 ≤ spriteRow e then 1 else 0
    (if e.tile.getLsbD 0 then 0x1000 else 0) + tl * 16 + spriteRow e % 8

/-- `sprite_pixel(e, px)` (R863). -/
def spritePixel (cart : Option Cartridge) (p : Ppu) (e : SpriteEntry) (px : Nat) : BitVec 2 :=
  if e.xpos.toNat ≤ px ∧ px - e.xpos.toNat < 8 then
    let dx := px - e.xpos.toNat
    let a := spritePatternAddr p e
    let lo := ppuRead cart p (BitVec.ofNat 14 a)
    let hi := ppuRead cart p (BitVec.ofNat 14 (a + 8))
    patternPixel lo hi (if e.attr.getLsbD 6 then dx else 7 - dx)
  else 0

/-- The sprite pixel shown: value, palette, behind the background (R863). -/
structure SpritePixel where
  value : BitVec 2
  pal : BitVec 2
  behind : Bool
  deriving DecidableEq, Repr

/-- The first opaque sprite of a list at a pixel (R863). -/
def firstOpaque (cart : Option Cartridge) (p : Ppu) (px : Nat) : List SpriteEntry → Option SpritePixel
  | [] => none
  | e :: rest =>
    if spritePixel cart p e px ≠ 0 then
      some { value := spritePixel cart p e px, pal := e.attr.setWidth 2, behind := e.attr.getLsbD 5 }
    else firstOpaque cart p px rest

/-- `sp(px)` (R863). -/
def spPixel (cart : Option Cartridge) (p : Ppu) (px : Nat) : Option SpritePixel :=
  if !p.mask.getLsbD 4 ∨ (px < 8 ∧ !p.mask.getLsbD 2) then none
  else firstOpaque cart p px p.sprCur

/-- The conditions of a sprite-0 hit at a pixel (R864). -/
def sprite0Hits (cart : Option Cartridge) (p : Ppu) (px : Nat) : Bool :=
  p.sprCur.any (fun e => e.index == 0 && spritePixel cart p e px != 0) &&
    (bgPixel cart p px).1 != 0 && p.mask.getLsbD 3 && p.mask.getLsbD 4 &&
    (decide (8 ≤ px) || (p.mask.getLsbD 1 && p.mask.getLsbD 2)) && decide (px ≠ 255)

/-- The palette address of a pixel (R865). -/
def pixelPaletteAddr (cart : Option Cartridge) (p : Ppu) (px : Nat) : Nat :=
  let (b, bp) := bgPixel cart p px
  if !rendering p then 0x3F00
  else
    match spPixel cart p px with
    | none => if b = 0 then 0x3F00 else 0x3F00 + 4 * bp.toNat + b.toNat
    | some s =>
      if b = 0 ∨ !s.behind then 0x3F10 + 4 * s.pal.toNat + s.value.toNat
      else 0x3F00 + 4 * bp.toNat + b.toNat

/-- The pixel drawn (R865): greyscale of mask bit 0, emphasis of mask bits 7:5. -/
def pixelValue (cart : Option Cartridge) (p : Ppu) (px : Nat) : Pixel :=
  let idx : BitVec 6 := (paletteRead p (pixelPaletteAddr cart p px)).setWidth 6
  { colour := if p.mask.getLsbD 0 then idx &&& 0x30 else idx
    emphasis := (p.mask >>> 5).setWidth 3 }

/-- The dot draws a pixel: lines 0..239, dots 1..256 (R812). -/
def visibleDot (p : Ppu) : Bool :=
  decide (p.scanline ≤ 239) && decide (1 ≤ p.cycle) && decide (p.cycle ≤ 256)

/-- The sprite-0 test of a visible dot (R812, R864, R865). -/
def dotPixel (cart : Option Cartridge) (p : Ppu) : Ppu :=
  if visibleDot p then { p with s0hit := p.s0hit || sprite0Hits cart p (p.cycle - 1) } else p

/-- `dot(sl, c)` (R812). -/
def ppuDot (cart : Option Cartridge) (p : Ppu) : Ppu :=
  dotAfterPixel (dotPixel cart (dotPreRender (dotVblankSet p)))

/-- `tick()` (R810). -/
def ppuTick (cart : Option Cartridge) (p : Ppu) : Ppu := ppuAdvance (ppuDot cart p)

/-- The picture after the dot of the PPU's coordinate (R865). The pixel depends on nothing that the
dot's earlier work changes: that work falls on lines 241 and 261 only. -/
def ppuDraw (cart : Option Cartridge) (p : Ppu) (pic : Picture) : Picture :=
  if visibleDot p then drawPixel p.scanline (p.cycle - 1) (pixelValue cart p (p.cycle - 1)) pic
  else pic

end Sys2Proof.Machine
end

