-- ==== Sys2Proof/Machine/Ops.lean ====
section
/-! DEFINITION. The named operations over memory and registers: the one-byte bus read and write
(`20_memory` R210-R219), the register writes, the stack primitives (`10_state` R112, R113), taking
an interrupt and returning from one (`60_exceptions` R704-R710, `45_flags_system` R658, R659), and
the console reset (`70_reset_and_hazards` R1300). -/

namespace Sys2Proof.Machine

/-! ### Registers -/

/-- `A <- v` (R102). -/
def setA (v : Byte) (s : State) : State := { s with cpu := { s.cpu with a := v } }

/-- `X <- v` (R103). -/
def setX (v : Byte) (s : State) : State := { s with cpu := { s.cpu with x := v } }

/-- `Y <- v` (R103). -/
def setY (v : Byte) (s : State) : State := { s with cpu := { s.cpu with y := v } }

/-- `SP <- v` (R104). -/
def setSP (v : Byte) (s : State) : State := { s with cpu := { s.cpu with sp := v } }

/-- `PC <- v` (R105). -/
def setPC (v : Word) (s : State) : State := { s with cpu := { s.cpu with pc := v } }

/-- The stored form of a status byte: bit 5 is 1 and bit 4 is 0 (R107). -/
def storedP (v : Byte) : Byte := (v &&& 0xCF) ||| 0x20

/-- A write of all of P (R107). -/
def setP (v : Byte) (s : State) : State := { s with cpu := { s.cpu with p := storedP v } }

/-- A write of flags of P that leaves its bits 5 and 4 alone (R106, R109). -/
def setFlags (p : Byte) (s : State) : State := { s with cpu := { s.cpu with p := p } }

/-- `cycles <- (cycles + n) mod 2^32` (R110). -/
def addCycles (n : Nat) (s : State) : State :=
  { s with cpu := { s.cpu with cycles := s.cpu.cycles + BitVec.ofNat 32 n } }

/-! ### Controller ports -/

/-- `ctrl_write(v)` (R219). -/
def ctrlWrite (v : Byte) (b : Bus) : Bus :=
  let new := v.getLsbD 0
  if b.ctrlStrobe || new then
    { b with ctrlShift0 := b.ctrlButtons0, ctrlShift1 := b.ctrlButtons1, ctrlStrobe := new }
  else { b with ctrlStrobe := new }

/-- `ctrl_read(0)` (R219): the value. -/
def ctrlValue0 (b : Bus) : Byte :=
  0x40 ||| ((if b.ctrlStrobe then b.ctrlButtons0 else b.ctrlShift0) &&& 1)

/-- `ctrl_read(1)` (R219): the value. -/
def ctrlValue1 (b : Bus) : Byte :=
  0x40 ||| ((if b.ctrlStrobe then b.ctrlButtons1 else b.ctrlShift1) &&& 1)

/-- `ctrl_read(0)` (R219): the shift. -/
def ctrlShiftOut0 (b : Bus) : Bus :=
  if b.ctrlStrobe then b else { b with ctrlShift0 := (b.ctrlShift0 >>> 1) ||| 0x80 }

/-- `ctrl_read(1)` (R219): the shift. -/
def ctrlShiftOut1 (b : Bus) : Bus :=
  if b.ctrlStrobe then b else { b with ctrlShift1 := (b.ctrlShift1 >>> 1) ||| 0x80 }

/-! ### The bus -/

/-- The device a CPU address selects (R202). -/
inductive Device where
  | ram
  | ppu
  | apu
  | oamDma
  | apuStatus
  | ctrl0
  | ctrl1
  | absent
  | mapper
  deriving DecidableEq, Repr

/-- The address map of R202. -/
def deviceOf (a : Word) : Device :=
  let n := a.toNat
  if n ≤ 0x1FFF then .ram
  else if n ≤ 0x3FFF then .ppu
  else if n ≤ 0x4013 then .apu
  else if n = 0x4014 then .oamDma
  else if n = 0x4015 then .apuStatus
  else if n = 0x4016 then .ctrl0
  else if n = 0x4017 then .ctrl1
  else if n ≤ 0x401F then .absent
  else .mapper

/-- The RAM cell of an address below 0x2000: the mirrors folded (R202). -/
def ramIndex (a : Word) : Nat := a.toNat % 0x800

/-- The value a bus read gives (R210), before the latch is updated. -/
def readValue (a : Word) (s : State) : Byte :=
  match deviceOf a with
  | .ram => memGet s.bus.ram (ramIndex a)
  | .ppu => (ppuRegRead s.cart (a.setWidth 3) s.ppu).1
  | .apuStatus => apuStatus s.apu
  | .ctrl0 => ctrlValue0 s.bus
  | .ctrl1 => ctrlValue1 s.bus
  | .mapper => (mapperRead s.params s.cart a).getD s.bus.openBus
  | .apu => s.bus.openBus
  | .oamDma => s.bus.openBus
  | .absent => s.bus.openBus

/-- The side effect of a bus read on the device read (R210, R214). -/
def readEffect (a : Word) (s : State) : State :=
  match deviceOf a with
  | .ppu => { s with ppu := (ppuRegRead s.cart (a.setWidth 3) s.ppu).2 }
  | .apuStatus => { s with apu := (apuReadStatus s.apu).2 }
  | .ctrl0 => { s with bus := ctrlShiftOut0 s.bus }
  | .ctrl1 => { s with bus := ctrlShiftOut1 s.bus }
  | .ram => s
  | .mapper => s
  | .apu => s
  | .oamDma => s
  | .absent => s

/-- `open_bus <- v` (R212). -/
def latchBus (v : Byte) (s : State) : State := { s with bus := { s.bus with openBus := v } }

/-- `MemRead(a)` (R210): the byte read, and the state after the read. -/
def memRead (a : Word) (s : State) : Byte × State :=
  (readValue a s, latchBus (readValue a s) (readEffect a s))

/-- The copies of `oam_dma(d)` still to make (R218): `n` bytes, the first of them number `i`. -/
def oamDmaCopy (d : Byte) : Nat → Nat → State → State
  | 0, _, s => s
  | n + 1, i, s =>
    let r := memRead (wordOf d (BitVec.ofNat 8 i)) s
    oamDmaCopy d n (i + 1)
      { r.2 with
        ppu := { r.2.ppu with oam := memSet r.2.ppu.oam (r.2.ppu.oamaddr + BitVec.ofNat 8 i).toNat r.1 } }

/-- `oam_dma(d)` (R218): 256 bus reads into OAM, and 513 stall cycles. -/
def oamDma (d : Byte) (s : State) : State :=
  let s := oamDmaCopy d 256 0 s
  { s with bus := { s.bus with stall := s.bus.stall + 513 } }

/-- The effect of a bus write on the device written (R211, R215). -/
def writeEffect (a : Word) (v : Byte) (s : State) : State :=
  match deviceOf a with
  | .ram => { s with bus := { s.bus with ram := memSet s.bus.ram (ramIndex a) v } }
  | .ppu =>
    { s with
      ppu := ppuRegWrite s.cart (a.setWidth 3) v s.ppu
      cart := ppuRegWriteCart s.cart (a.setWidth 3) v s.ppu }
  | .apu => { s with apu := apuWrite a v s.apu }
  | .apuStatus => { s with apu := apuWrite a v s.apu }
  | .ctrl1 => { s with apu := apuWrite a v s.apu }
  | .oamDma => oamDma v s
  | .ctrl0 => { s with bus := ctrlWrite v s.bus }
  | .absent => s
  | .mapper => { s with cart := mapperWrite s.params s.cart a v }

/-- `MemWrite(a, v)` (R211): the latch first, then the device. -/
def memWrite (a : Word) (v : Byte) (s : State) : State := writeEffect a v (latchBus v s)

/-- `MemRead(lo) | MemRead(hi) << 8`: two one-byte reads, the low byte's first (R213, R216). -/
def memReadPair (lo hi : Word) (s : State) : Word × State :=
  let l := memRead lo s
  let h := memRead hi l.2
  (wordOf h.1 l.1, h.2)

/-- `MemRead16(a)` (R10). -/
def memRead16 (a : Word) (s : State) : Word × State := memReadPair a (a + 1) s

/-! ### The stack -/

/-- The CPU address of a stack byte: page 1 (R104). -/
def stackAddr (sp : Byte) : Word := wordOf 1 sp

/-- `push(v)` (R112). -/
def push (v : Byte) (s : State) : State := setSP (s.cpu.sp - 1) (memWrite (stackAddr s.cpu.sp) v s)

/-- `pull()` (R113). -/
def pull (s : State) : Byte × State :=
  memRead (stackAddr (s.cpu.sp + 1)) (setSP (s.cpu.sp + 1) s)

/-- A 16-bit value is pushed high byte first (R113). -/
def pushWord (w : Word) (s : State) : State := push (loByte w) (push (hiByte w) s)

/-- A 16-bit value is pulled low byte first (R113). -/
def pullWord (s : State) : Word × State :=
  let l := pull s
  let h := pull l.2
  (wordOf h.1 l.1, h.2)

/-! ### Interrupts -/

/-- `Ppush(b)` (R108): the pushed form of P, bit 4 set for PHP and BRK only. -/
def pushedP (b : Bool) (p : Byte) : Byte := (p &&& 0xCF) ||| 0x20 ||| (if b then 0x10 else 0)

/-- The NMI vector (R203). -/
def nmiVector : Word := 0xFFFA

/-- The reset vector (R203). -/
def resetVector : Word := 0xFFFC

/-- The IRQ and BRK vector (R203). -/
def irqVector : Word := 0xFFFE

/-- P with the interrupt-disable flag set. -/
def withI (p : Byte) : Byte := p ||| 0x04

/-- Taking an interrupt, shared by BRK, NMI and IRQ (R658, R704, R705, R709): push the return
address, high byte first, and the pushed form of P; set I; take PC from the vector, read through
the bus at the moment of entry. No other register and no other flag changes. -/
def enterInterrupt (vector ret : Word) (b : Bool) (s : State) : State :=
  let s := push (pushedP b s.cpu.p) (pushWord ret s)
  let s := setFlags (withI s.cpu.p) s
  let v := memRead16 vector s
  setPC v.1 v.2

/-- Returning from an interrupt (R659, R710): pull P, whose bits 5 and 4 are ignored, then PC. -/
def returnFromInterrupt (s : State) : State :=
  let p := pull s
  let w := pullWord (setP p.1 p.2)
  setPC w.1 w.2

/-- `service_nmi()` (R704). -/
def serviceNmi (s : State) : State :=
  let s := enterInterrupt nmiVector s.cpu.pc false s
  addCycles 7 { s with cpu := { s.cpu with nmiPending := false } }

/-- `service_irq()` (R705). -/
def serviceIrq (s : State) : State := addCycles 7 (enterInterrupt irqVector s.cpu.pc false s)

/-! ### Reset -/

/-- `reset()` (R1300): PPU, APU, stall, countdown, SP, I, cycles and the pending NMI; then PC from
the reset vector, read through the bus. -/
def consoleReset (s : State) : State :=
  let s :=
    { s with
      ppu := ppuReset s.ppu
      apu := apuReset s.apu
      bus := { s.bus with stall := 0 }
      sched := { s.sched with nmiCountdown := 0 }
      cpu := { s.cpu with sp := 0xFF, p := storedP (withI s.cpu.p), cycles := 0, nmiPending := false } }
  let v := memRead16 resetVector s
  setPC v.1 v.2

end Sys2Proof.Machine
end

