-- ==== Sys2Proof/Machine/Flags.lean ====
section
/-! DEFINITION. The flags of P (`10_state` R106, R109) and every flag computation: NZ (`00_scope` R10),
ADC and SBC (`42_arithmetic_logic` R500, R501, R520), BIT (R505), compare (R523), the shifts and
rotates (`43_shift_rotate` R550-R553), INC and DEC (R509, R510). -/

namespace Sys2Proof.Machine

/-- `P.C` -/
def flagC (p : Byte) : Bool := p.getLsbD 0

/-- `P.Z` -/
def flagZ (p : Byte) : Bool := p.getLsbD 1

/-- `P.I` -/
def flagI (p : Byte) : Bool := p.getLsbD 2

/-- `P.D` -/
def flagD (p : Byte) : Bool := p.getLsbD 3

/-- `P.V` -/
def flagV (p : Byte) : Bool := p.getLsbD 6

/-- `P.N` -/
def flagN (p : Byte) : Bool := p.getLsbD 7

/-- `P.C <- b` -/
def withC (b : Bool) (p : Byte) : Byte := (p &&& 0xFE) ||| if b then 0x01 else 0

/-- `P.Z <- b` -/
def withZ (b : Bool) (p : Byte) : Byte := (p &&& 0xFD) ||| if b then 0x02 else 0

/-- `P.I <- b` -/
def withIFlag (b : Bool) (p : Byte) : Byte := (p &&& 0xFB) ||| if b then 0x04 else 0

/-- `P.D <- b` -/
def withD (b : Bool) (p : Byte) : Byte := (p &&& 0xF7) ||| if b then 0x08 else 0

/-- `P.V <- b` -/
def withV (b : Bool) (p : Byte) : Byte := (p &&& 0xBF) ||| if b then 0x40 else 0

/-- `P.N <- b` -/
def withN (b : Bool) (p : Byte) : Byte := (p &&& 0x7F) ||| if b then 0x80 else 0

/-- `NZ(v)` (R10). -/
def withNZ (v p : Byte) : Byte := withZ (v == 0) (withN (v.getLsbD 7) p)

/-- A flag as the number 0 or 1. -/
def bitNat (b : Bool) : Nat := if b then 1 else 0

/-- The sum `A + M + P.C` as a natural number (R500). -/
def adcSum (a m p : Byte) : Nat := a.toNat + m.toNat + bitNat (flagC p)

/-- The result of ADC (R500). -/
def adcResult (a m p : Byte) : Byte := BitVec.ofNat 8 (adcSum a m p)

/-- P after ADC (R500): C the carry out, V the signed overflow, N and Z of the result. -/
def adcFlags (a m p : Byte) : Byte :=
  let r := adcResult a m p
  withNZ r (withV (((a ^^^ r) &&& (m ^^^ r)) &&& 0x80 != 0) (withC (decide (256 ≤ adcSum a m p)) p))

/-- The result of SBC (R501): ADC of the complement. -/
def sbcResult (a m p : Byte) : Byte := adcResult a (m ^^^ 0xFF) p

/-- P after SBC (R501). -/
def sbcFlags (a m p : Byte) : Byte := adcFlags a (m ^^^ 0xFF) p

/-- P after a compare of register R with M (R523): V is unchanged. -/
def compareFlags (r m p : Byte) : Byte :=
  withN ((r - m).getLsbD 7) (withZ (r == m) (withC (decide (m.toNat ≤ r.toNat)) p))

/-- P after BIT (R505): Z of A & M, N and V copied from M. -/
def bitFlags (a m p : Byte) : Byte :=
  withV (m.getLsbD 6) (withN (m.getLsbD 7) (withZ (a &&& m == 0) p))

/-- ASL (R550): result and P. -/
def aslOp (v p : Byte) : Byte × Byte :=
  let r := v <<< 1
  (r, withNZ r (withC (v.getLsbD 7) p))

/-- LSR (R551): result and P. -/
def lsrOp (v p : Byte) : Byte × Byte :=
  let r := v >>> 1
  (r, withNZ r (withC (v.getLsbD 0) p))

/-- ROL (R552): result and P. -/
def rolOp (v p : Byte) : Byte × Byte :=
  let r := (v <<< 1) ||| if flagC p then 0x01 else 0
  (r, withNZ r (withC (v.getLsbD 7) p))

/-- ROR (R553): result and P. -/
def rorOp (v p : Byte) : Byte × Byte :=
  let r := (v >>> 1) ||| if flagC p then 0x80 else 0
  (r, withNZ r (withC (v.getLsbD 0) p))

/-- INC (R509): result and P. -/
def incOp (v p : Byte) : Byte × Byte := (v + 1, withNZ (v + 1) p)

/-- DEC (R510): result and P. -/
def decOp (v p : Byte) : Byte × Byte := (v + 255, withNZ (v + 255) p)

/-- `NZ(v)` on the machine's P. -/
def setNZ (v : Byte) (s : State) : State := setFlags (withNZ v s.cpu.p) s

end Sys2Proof.Machine
end

