-- ==== Sys2Proof/Machine/Operands.lean ====
section
/-! DEFINITION. The addressing modes (`30_encoding` R321-R335) and the frames every instruction of a
kind shares: read, store, read-modify-write, register, branch. `exec` starts after the opcode and
operand bytes have been fetched (R11), with PC still the address of the opcode (R105). -/

namespace Sys2Proof.Machine

/-- Two addresses lie in different pages (R328, R603). -/
def pageDiffers (a b : Word) : Bool := hiByte a != hiByte b

/-- A resolved operand address: `ea`, `crossed`, and the state after the pointer reads. -/
structure Resolved where
  ea : Word
  crossed : Bool
  state : State
  deriving DecidableEq, Repr

/-- The effective address of an addressing mode (R324-R329, R331, R332). -/
def resolve (m : AddrMode) (s : State) : Resolved :=
  match m with
  | .zp b => { ea := b.setWidth 16, crossed := false, state := s }
  | .zpX b => { ea := (b + s.cpu.x).setWidth 16, crossed := false, state := s }
  | .zpY b => { ea := (b + s.cpu.y).setWidth 16, crossed := false, state := s }
  | .abs w => { ea := w, crossed := false, state := s }
  | .absX w =>
    let ea := w + s.cpu.x.setWidth 16
    { ea := ea, crossed := pageDiffers w ea, state := s }
  | .absY w =>
    let ea := w + s.cpu.y.setWidth 16
    { ea := ea, crossed := pageDiffers w ea, state := s }
  | .indX b =>
    let p := b + s.cpu.x
    let r := memReadPair (p.setWidth 16) ((p + 1).setWidth 16) s
    { ea := r.1, crossed := false, state := r.2 }
  | .indY b =>
    let r := memReadPair (b.setWidth 16) ((b + 1).setWidth 16) s
    let ea := r.1 + s.cpu.y.setWidth 16
    { ea := ea, crossed := pageDiffers r.1 ea, state := r.2 }

/-- The length of an instruction with a memory mode (R301). -/
def modeLength : AddrMode → Nat
  | .zp _ => 2
  | .zpX _ => 2
  | .zpY _ => 2
  | .abs _ => 3
  | .absX _ => 3
  | .absY _ => 3
  | .indX _ => 2
  | .indY _ => 2

/-- The length of a reading instruction (R301). -/
def readLength : ReadMode → Nat
  | .imm _ => 2
  | .mem m => modeLength m

/-- The operand byte, whether a page was crossed, and the state after the reads. -/
structure Operand where
  value : Byte
  crossed : Bool
  state : State
  deriving DecidableEq, Repr

/-- `v <- (mode == imm) ? operand : MemRead(ea)` (R323, R400). -/
def readOperand (m : ReadMode) (s : State) : Operand :=
  match m with
  | .imm b => { value := b, crossed := false, state := s }
  | .mem am =>
    let r := resolve am s
    let v := memRead r.ea r.state
    { value := v.1, crossed := r.crossed, state := v.2 }

/-- The end of an instruction that does not write PC: `PC <- PCnext` and its cycles (R105, R320). -/
def retire (len cycles : Nat) (s : State) : State :=
  addCycles cycles (setPC (s.cpu.pc + BitVec.ofNat 16 len) s)

/-- A reading instruction: the operand, the effect `f`, and one more cycle on a page crossing
(R330, R335). -/
def readInstr (m : ReadMode) (base : Nat) (f : Byte → State → State) (s : State) : Result :=
  let r := readOperand m s
  .next (retire (readLength m) (base + bitNat r.crossed) (f r.value r.state))

/-- A storing instruction: one write, no read of `ea`, no page penalty (R330, R335, R403). -/
def storeInstr (m : AddrMode) (base : Nat) (v : Byte) (s : State) : Result :=
  let r := resolve m s
  .next (retire (modeLength m) base (memWrite r.ea v r.state))

/-- A read-modify-write instruction on memory: one read, one write, then P (R330, `43_shift_rotate`
common form). `f` maps the byte and P to the result and the new P. -/
def rmwInstr (m : AddrMode) (base : Nat) (f : Byte → Byte → Byte × Byte) (s : State) : Result :=
  let r := resolve m s
  let v := memRead r.ea r.state
  let o := f v.1 s.cpu.p
  .next (retire (modeLength m) base (setFlags o.2 (memWrite r.ea o.1 v.2)))

/-- A read-modify-write instruction on A (R322): two cycles in every row of R305. -/
def accInstr (f : Byte → Byte → Byte × Byte) (s : State) : Result :=
  let o := f s.cpu.a s.cpu.p
  .next (retire 1 2 (setFlags o.2 (setA o.1 s)))

/-- An implied instruction that changes registers or flags only: one byte, two cycles in every row
of R305 (R321). -/
def regInstr (f : State → State) (s : State) : Result := .next (retire 1 2 (f s))

/-- The target of a branch: PCnext plus the signed offset, modulo 65536 (R334). -/
def branchTarget (b : Byte) (pc : Word) : Word := pc + 2 + b.signExtend 16

/-- `branch(cond)` with its cycles: 2 not taken, 3 taken in the page of PCnext, 4 taken to another
page (R603). -/
def branchInstr (cond : Bool) (b : Byte) (s : State) : Result :=
  let next := s.cpu.pc + 2
  let target := branchTarget b s.cpu.pc
  if cond then .next (addCycles (3 + bitNat (pageDiffers target next)) (setPC target s))
  else .next (addCycles 2 (setPC next s))

end Sys2Proof.Machine
end

