-- ==== Sys2Proof/Machine/Arith.lean ====
section
/-! DEFINITION. Arithmetic, logic, compare, increment and decrement (`42_arithmetic_logic` R500-R514). -/

namespace Sys2Proof.Machine

/-- ADC (R500): D is read by nothing here. -/
def opAdc (m : Byte) (s : State) : State :=
  setFlags (adcFlags s.cpu.a m s.cpu.p) (setA (adcResult s.cpu.a m s.cpu.p) s)

/-- SBC (R501). -/
def opSbc (m : Byte) (s : State) : State :=
  setFlags (sbcFlags s.cpu.a m s.cpu.p) (setA (sbcResult s.cpu.a m s.cpu.p) s)

/-- `A <- A & M; NZ(A)` (R502). -/
def opAnd (m : Byte) (s : State) : State := setNZ (s.cpu.a &&& m) (setA (s.cpu.a &&& m) s)

/-- `A <- A | M; NZ(A)` (R503). -/
def opOra (m : Byte) (s : State) : State := setNZ (s.cpu.a ||| m) (setA (s.cpu.a ||| m) s)

/-- `A <- A ^ M; NZ(A)` (R504). -/
def opEor (m : Byte) (s : State) : State := setNZ (s.cpu.a ^^^ m) (setA (s.cpu.a ^^^ m) s)

/-- BIT (R505). -/
def opBit (m : Byte) (s : State) : State := setFlags (bitFlags s.cpu.a m s.cpu.p) s

/-- CMP (R506, R523). -/
def opCmp (m : Byte) (s : State) : State := setFlags (compareFlags s.cpu.a m s.cpu.p) s

/-- CPX (R507, R523). -/
def opCpx (m : Byte) (s : State) : State := setFlags (compareFlags s.cpu.x m s.cpu.p) s

/-- CPY (R508, R523). -/
def opCpy (m : Byte) (s : State) : State := setFlags (compareFlags s.cpu.y m s.cpu.p) s

/-- R500; 0x69, #: 2 bytes, 2 cycles. -/
def execAdcImm (b : Byte) (s : State) : Result := readInstr (.imm b) 2 opAdc s

/-- R500; 0x65, zp: 2 bytes, 3 cycles. -/
def execAdcZp (b : Byte) (s : State) : Result := readInstr (.mem (.zp b)) 3 opAdc s

/-- R500; 0x75, zp,X: 2 bytes, 4 cycles. -/
def execAdcZpX (b : Byte) (s : State) : Result := readInstr (.mem (.zpX b)) 4 opAdc s

/-- R500; 0x6D, abs: 3 bytes, 4 cycles. -/
def execAdcAbs (w : Word) (s : State) : Result := readInstr (.mem (.abs w)) 4 opAdc s

/-- R500; 0x7D, abs,X: 3 bytes, 4 cycles, +1 on a page crossing. -/
def execAdcAbsX (w : Word) (s : State) : Result := readInstr (.mem (.absX w)) 4 opAdc s

/-- R500; 0x79, abs,Y: 3 bytes, 4 cycles, +1 on a page crossing. -/
def execAdcAbsY (w : Word) (s : State) : Result := readInstr (.mem (.absY w)) 4 opAdc s

/-- R500; 0x61, (zp,X): 2 bytes, 6 cycles. -/
def execAdcIndX (b : Byte) (s : State) : Result := readInstr (.mem (.indX b)) 6 opAdc s

/-- R500; 0x71, (zp),Y: 2 bytes, 5 cycles, +1 on a page crossing. -/
def execAdcIndY (b : Byte) (s : State) : Result := readInstr (.mem (.indY b)) 5 opAdc s

/-- R501; 0xE9, #: 2 bytes, 2 cycles. -/
def execSbcImm (b : Byte) (s : State) : Result := readInstr (.imm b) 2 opSbc s

/-- R501; 0xE5, zp: 2 bytes, 3 cycles. -/
def execSbcZp (b : Byte) (s : State) : Result := readInstr (.mem (.zp b)) 3 opSbc s

/-- R501; 0xF5, zp,X: 2 bytes, 4 cycles. -/
def execSbcZpX (b : Byte) (s : State) : Result := readInstr (.mem (.zpX b)) 4 opSbc s

/-- R501; 0xED, abs: 3 bytes, 4 cycles. -/
def execSbcAbs (w : Word) (s : State) : Result := readInstr (.mem (.abs w)) 4 opSbc s

/-- R501; 0xFD, abs,X: 3 bytes, 4 cycles, +1 on a page crossing. -/
def execSbcAbsX (w : Word) (s : State) : Result := readInstr (.mem (.absX w)) 4 opSbc s

/-- R501; 0xF9, abs,Y: 3 bytes, 4 cycles, +1 on a page crossing. -/
def execSbcAbsY (w : Word) (s : State) : Result := readInstr (.mem (.absY w)) 4 opSbc s

/-- R501; 0xE1, (zp,X): 2 bytes, 6 cycles. -/
def execSbcIndX (b : Byte) (s : State) : Result := readInstr (.mem (.indX b)) 6 opSbc s

/-- R501; 0xF1, (zp),Y: 2 bytes, 5 cycles, +1 on a page crossing. -/
def execSbcIndY (b : Byte) (s : State) : Result := readInstr (.mem (.indY b)) 5 opSbc s

/-- R502; 0x29, #: 2 bytes, 2 cycles. -/
def execAndImm (b : Byte) (s : State) : Result := readInstr (.imm b) 2 opAnd s

/-- R502; 0x25, zp: 2 bytes, 3 cycles. -/
def execAndZp (b : Byte) (s : State) : Result := readInstr (.mem (.zp b)) 3 opAnd s

/-- R502; 0x35, zp,X: 2 bytes, 4 cycles. -/
def execAndZpX (b : Byte) (s : State) : Result := readInstr (.mem (.zpX b)) 4 opAnd s

/-- R502; 0x2D, abs: 3 bytes, 4 cycles. -/
def execAndAbs (w : Word) (s : State) : Result := readInstr (.mem (.abs w)) 4 opAnd s

/-- R502; 0x3D, abs,X: 3 bytes, 4 cycles, +1 on a page crossing. -/
def execAndAbsX (w : Word) (s : State) : Result := readInstr (.mem (.absX w)) 4 opAnd s

/-- R502; 0x39, abs,Y: 3 bytes, 4 cycles, +1 on a page crossing. -/
def execAndAbsY (w : Word) (s : State) : Result := readInstr (.mem (.absY w)) 4 opAnd s

/-- R502; 0x21, (zp,X): 2 bytes, 6 cycles. -/
def execAndIndX (b : Byte) (s : State) : Result := readInstr (.mem (.indX b)) 6 opAnd s

/-- R502; 0x31, (zp),Y: 2 bytes, 5 cycles, +1 on a page crossing. -/
def execAndIndY (b : Byte) (s : State) : Result := readInstr (.mem (.indY b)) 5 opAnd s

/-- R503; 0x09, #: 2 bytes, 2 cycles. -/
def execOraImm (b : Byte) (s : State) : Result := readInstr (.imm b) 2 opOra s

/-- R503; 0x05, zp: 2 bytes, 3 cycles. -/
def execOraZp (b : Byte) (s : State) : Result := readInstr (.mem (.zp b)) 3 opOra s

/-- R503; 0x15, zp,X: 2 bytes, 4 cycles. -/
def execOraZpX (b : Byte) (s : State) : Result := readInstr (.mem (.zpX b)) 4 opOra s

/-- R503; 0x0D, abs: 3 bytes, 4 cycles. -/
def execOraAbs (w : Word) (s : State) : Result := readInstr (.mem (.abs w)) 4 opOra s

/-- R503; 0x1D, abs,X: 3 bytes, 4 cycles, +1 on a page crossing. -/
def execOraAbsX (w : Word) (s : State) : Result := readInstr (.mem (.absX w)) 4 opOra s

/-- R503; 0x19, abs,Y: 3 bytes, 4 cycles, +1 on a page crossing. -/
def execOraAbsY (w : Word) (s : State) : Result := readInstr (.mem (.absY w)) 4 opOra s

/-- R503; 0x01, (zp,X): 2 bytes, 6 cycles. -/
def execOraIndX (b : Byte) (s : State) : Result := readInstr (.mem (.indX b)) 6 opOra s

/-- R503; 0x11, (zp),Y: 2 bytes, 5 cycles, +1 on a page crossing. -/
def execOraIndY (b : Byte) (s : State) : Result := readInstr (.mem (.indY b)) 5 opOra s

/-- R504; 0x49, #: 2 bytes, 2 cycles. -/
def execEorImm (b : Byte) (s : State) : Result := readInstr (.imm b) 2 opEor s

/-- R504; 0x45, zp: 2 bytes, 3 cycles. -/
def execEorZp (b : Byte) (s : State) : Result := readInstr (.mem (.zp b)) 3 opEor s

/-- R504; 0x55, zp,X: 2 bytes, 4 cycles. -/
def execEorZpX (b : Byte) (s : State) : Result := readInstr (.mem (.zpX b)) 4 opEor s

/-- R504; 0x4D, abs: 3 bytes, 4 cycles. -/
def execEorAbs (w : Word) (s : State) : Result := readInstr (.mem (.abs w)) 4 opEor s

/-- R504; 0x5D, abs,X: 3 bytes, 4 cycles, +1 on a page crossing. -/
def execEorAbsX (w : Word) (s : State) : Result := readInstr (.mem (.absX w)) 4 opEor s

/-- R504; 0x59, abs,Y: 3 bytes, 4 cycles, +1 on a page crossing. -/
def execEorAbsY (w : Word) (s : State) : Result := readInstr (.mem (.absY w)) 4 opEor s

/-- R504; 0x41, (zp,X): 2 bytes, 6 cycles. -/
def execEorIndX (b : Byte) (s : State) : Result := readInstr (.mem (.indX b)) 6 opEor s

/-- R504; 0x51, (zp),Y: 2 bytes, 5 cycles, +1 on a page crossing. -/
def execEorIndY (b : Byte) (s : State) : Result := readInstr (.mem (.indY b)) 5 opEor s

/-- R505; 0x24, zp: 2 bytes, 3 cycles. -/
def execBitZp (b : Byte) (s : State) : Result := readInstr (.mem (.zp b)) 3 opBit s

/-- R505; 0x2C, abs: 3 bytes, 4 cycles. -/
def execBitAbs (w : Word) (s : State) : Result := readInstr (.mem (.abs w)) 4 opBit s

/-- R506; 0xC9, #: 2 bytes, 2 cycles. -/
def execCmpImm (b : Byte) (s : State) : Result := readInstr (.imm b) 2 opCmp s

/-- R506; 0xC5, zp: 2 bytes, 3 cycles. -/
def execCmpZp (b : Byte) (s : State) : Result := readInstr (.mem (.zp b)) 3 opCmp s

/-- R506; 0xD5, zp,X: 2 bytes, 4 cycles. -/
def execCmpZpX (b : Byte) (s : State) : Result := readInstr (.mem (.zpX b)) 4 opCmp s

/-- R506; 0xCD, abs: 3 bytes, 4 cycles. -/
def execCmpAbs (w : Word) (s : State) : Result := readInstr (.mem (.abs w)) 4 opCmp s

/-- R506; 0xDD, abs,X: 3 bytes, 4 cycles, +1 on a page crossing. -/
def execCmpAbsX (w : Word) (s : State) : Result := readInstr (.mem (.absX w)) 4 opCmp s

/-- R506; 0xD9, abs,Y: 3 bytes, 4 cycles, +1 on a page crossing. -/
def execCmpAbsY (w : Word) (s : State) : Result := readInstr (.mem (.absY w)) 4 opCmp s

/-- R506; 0xC1, (zp,X): 2 bytes, 6 cycles. -/
def execCmpIndX (b : Byte) (s : State) : Result := readInstr (.mem (.indX b)) 6 opCmp s

/-- R506; 0xD1, (zp),Y: 2 bytes, 5 cycles, +1 on a page crossing. -/
def execCmpIndY (b : Byte) (s : State) : Result := readInstr (.mem (.indY b)) 5 opCmp s

/-- R507; 0xE0, #: 2 bytes, 2 cycles. -/
def execCpxImm (b : Byte) (s : State) : Result := readInstr (.imm b) 2 opCpx s

/-- R507; 0xE4, zp: 2 bytes, 3 cycles. -/
def execCpxZp (b : Byte) (s : State) : Result := readInstr (.mem (.zp b)) 3 opCpx s

/-- R507; 0xEC, abs: 3 bytes, 4 cycles. -/
def execCpxAbs (w : Word) (s : State) : Result := readInstr (.mem (.abs w)) 4 opCpx s

/-- R508; 0xC0, #: 2 bytes, 2 cycles. -/
def execCpyImm (b : Byte) (s : State) : Result := readInstr (.imm b) 2 opCpy s

/-- R508; 0xC4, zp: 2 bytes, 3 cycles. -/
def execCpyZp (b : Byte) (s : State) : Result := readInstr (.mem (.zp b)) 3 opCpy s

/-- R508; 0xCC, abs: 3 bytes, 4 cycles. -/
def execCpyAbs (w : Word) (s : State) : Result := readInstr (.mem (.abs w)) 4 opCpy s

/-- R509; 0xE6, zp: 2 bytes, 5 cycles. -/
def execIncZp (b : Byte) (s : State) : Result := rmwInstr (.zp b) 5 incOp s

/-- R509; 0xF6, zp,X: 2 bytes, 6 cycles. -/
def execIncZpX (b : Byte) (s : State) : Result := rmwInstr (.zpX b) 6 incOp s

/-- R509; 0xEE, abs: 3 bytes, 6 cycles. -/
def execIncAbs (w : Word) (s : State) : Result := rmwInstr (.abs w) 6 incOp s

/-- R509; 0xFE, abs,X: 3 bytes, 7 cycles. -/
def execIncAbsX (w : Word) (s : State) : Result := rmwInstr (.absX w) 7 incOp s

/-- R510; 0xC6, zp: 2 bytes, 5 cycles. -/
def execDecZp (b : Byte) (s : State) : Result := rmwInstr (.zp b) 5 decOp s

/-- R510; 0xD6, zp,X: 2 bytes, 6 cycles. -/
def execDecZpX (b : Byte) (s : State) : Result := rmwInstr (.zpX b) 6 decOp s

/-- R510; 0xCE, abs: 3 bytes, 6 cycles. -/
def execDecAbs (w : Word) (s : State) : Result := rmwInstr (.abs w) 6 decOp s

/-- R510; 0xDE, abs,X: 3 bytes, 7 cycles. -/
def execDecAbsX (w : Word) (s : State) : Result := rmwInstr (.absX w) 7 decOp s

/-- R511; 0xE8, impl: 1 byte, 2 cycles. -/
def execInx (s : State) : Result := regInstr (fun s => setNZ (s.cpu.x + 1) (setX (s.cpu.x + 1) s)) s

/-- R512; 0xC8, impl: 1 byte, 2 cycles. -/
def execIny (s : State) : Result := regInstr (fun s => setNZ (s.cpu.y + 1) (setY (s.cpu.y + 1) s)) s

/-- R513; 0xCA, impl: 1 byte, 2 cycles. -/
def execDex (s : State) : Result := regInstr (fun s => setNZ (s.cpu.x + 255) (setX (s.cpu.x + 255) s)) s

/-- R514; 0x88, impl: 1 byte, 2 cycles. -/
def execDey (s : State) : Result := regInstr (fun s => setNZ (s.cpu.y + 255) (setY (s.cpu.y + 255) s)) s

end Sys2Proof.Machine
end

