-- ==== Sys2Proof/Machine/Control.lean ====
section
/-! DEFINITION. Jumps, calls, returns and branches (`44_control_transfer` R600-R612). -/

namespace Sys2Proof.Machine

/-- The target of JMP (abs): the high byte comes from the same page as the low byte (R333). -/
def jumpTarget (ptr : Word) (s : State) : Word × State :=
  memReadPair ptr (wordOf (hiByte ptr) (loByte ptr + 1)) s

/-- R600; 0x4C, abs: 3 bytes, 3 cycles. -/
def execJmpAbs (w : Word) (s : State) : Result := .next (addCycles 3 (setPC w s))

/-- R600; 0x6C, (abs): 3 bytes, 5 cycles. -/
def execJmpInd (w : Word) (s : State) : Result :=
  let r := jumpTarget w s
  .next (addCycles 5 (setPC r.1 r.2))

/-- R601; 0x20, abs: 3 bytes, 6 cycles The return address pushed is PC + 2,
the address of the instruction's last byte. -/
def execJsr (w : Word) (s : State) : Result := .next (addCycles 6 (setPC w (pushWord (s.cpu.pc + 2) s)))

/-- R602; 0x60, impl: 1 byte, 6 cycles. -/
def execRts (s : State) : Result :=
  let r := pullWord s
  .next (addCycles 6 (setPC (r.1 + 1) r.2))

/-- R604, R603; 0x90, rel: 2 bytes, 2 cycles, +1 taken, +1 more to another page. -/
def execBcc (b : Byte) (s : State) : Result := branchInstr (!flagC s.cpu.p) b s

/-- R605, R603; 0xB0, rel: 2 bytes, 2 cycles, +1 taken, +1 more to another page. -/
def execBcs (b : Byte) (s : State) : Result := branchInstr (flagC s.cpu.p) b s

/-- R606, R603; 0xF0, rel: 2 bytes, 2 cycles, +1 taken, +1 more to another page. -/
def execBeq (b : Byte) (s : State) : Result := branchInstr (flagZ s.cpu.p) b s

/-- R607, R603; 0x30, rel: 2 bytes, 2 cycles, +1 taken, +1 more to another page. -/
def execBmi (b : Byte) (s : State) : Result := branchInstr (flagN s.cpu.p) b s

/-- R608, R603; 0xD0, rel: 2 bytes, 2 cycles, +1 taken, +1 more to another page. -/
def execBne (b : Byte) (s : State) : Result := branchInstr (!flagZ s.cpu.p) b s

/-- R609, R603; 0x10, rel: 2 bytes, 2 cycles, +1 taken, +1 more to another page. -/
def execBpl (b : Byte) (s : State) : Result := branchInstr (!flagN s.cpu.p) b s

/-- R610, R603; 0x50, rel: 2 bytes, 2 cycles, +1 taken, +1 more to another page. -/
def execBvc (b : Byte) (s : State) : Result := branchInstr (!flagV s.cpu.p) b s

/-- R611, R603; 0x70, rel: 2 bytes, 2 cycles, +1 taken, +1 more to another page. -/
def execBvs (b : Byte) (s : State) : Result := branchInstr (flagV s.cpu.p) b s

end Sys2Proof.Machine
end

