-- ==== Sys2Proof/Machine/FlagsSystem.lean ====
section
/-! DEFINITION. Flag instructions, NOP, BRK, RTI and the illegal-opcode fallback (`45_flags_system` R650-R660). -/

namespace Sys2Proof.Machine

/-- R650; 0x18, impl: 1 byte, 2 cycles. -/
def execClc (s : State) : Result := regInstr (fun s => setFlags (withC false s.cpu.p) s) s

/-- R651; 0x38, impl: 1 byte, 2 cycles. -/
def execSec (s : State) : Result := regInstr (fun s => setFlags (withC true s.cpu.p) s) s

/-- R652; 0x58, impl: 1 byte, 2 cycles. -/
def execCli (s : State) : Result := regInstr (fun s => setFlags (withIFlag false s.cpu.p) s) s

/-- R653; 0x78, impl: 1 byte, 2 cycles. -/
def execSei (s : State) : Result := regInstr (fun s => setFlags (withIFlag true s.cpu.p) s) s

/-- R654; 0xD8, impl: 1 byte, 2 cycles. -/
def execCld (s : State) : Result := regInstr (fun s => setFlags (withD false s.cpu.p) s) s

/-- R655; 0xF8, impl: 1 byte, 2 cycles. -/
def execSed (s : State) : Result := regInstr (fun s => setFlags (withD true s.cpu.p) s) s

/-- R656; 0xB8, impl: 1 byte, 2 cycles. -/
def execClv (s : State) : Result := regInstr (fun s => setFlags (withV false s.cpu.p) s) s

/-- R657; 0xEA, impl: 1 byte, 2 cycles. -/
def execNop (s : State) : Result := regInstr (fun s => s) s

/-- R658; 0x00, impl: 1 byte, 7 cycles The return address skips
the padding byte, which is not fetched; the pushed P has B = 1. -/
def execBrk (s : State) : Result := .next (addCycles 7 (enterInterrupt irqVector (s.cpu.pc + 2) true s))

/-- R659; 0x40, impl: 1 byte, 6 cycles. -/
def execRti (s : State) : Result := .next (addCycles 6 (returnFromInterrupt s))

/-- The record of an illegal opcode (R111, R660). -/
def recordIllegal (s : State) : State :=
  { s with cpu := { s.cpu with illegalSeen := true, illegalCount := s.cpu.illegalCount + 1 } }

/-- R660: under Fallback a recorded no-op of 1 byte and 1 cycle; under Fault the fault of R701. -/
def execIllegal (op : Byte) (s : State) : Result :=
  match s.params.illegalOpcodeMode with
  | .fallback => .next (retire 1 1 (recordIllegal s))
  | .fault => .fault (.illegalOpcode op s.cpu.pc)

end Sys2Proof.Machine
end

