-- ==== Sys2Proof/Machine/LoadStore.lean ====
section
/-! DEFINITION. Loads, stores and register transfers (`40_load_store_transfer` R400-R411). -/

namespace Sys2Proof.Machine

/-- `A <- v; NZ(v)` (R400). -/
def opLda (v : Byte) (s : State) : State := setNZ v (setA v s)

/-- `X <- v; NZ(v)` (R401). -/
def opLdx (v : Byte) (s : State) : State := setNZ v (setX v s)

/-- `Y <- v; NZ(v)` (R402). -/
def opLdy (v : Byte) (s : State) : State := setNZ v (setY v s)

/-- R400; 0xA9, #: 2 bytes, 2 cycles. -/
def execLdaImm (b : Byte) (s : State) : Result := readInstr (.imm b) 2 opLda s

/-- R400; 0xA5, zp: 2 bytes, 3 cycles. -/
def execLdaZp (b : Byte) (s : State) : Result := readInstr (.mem (.zp b)) 3 opLda s

/-- R400; 0xB5, zp,X: 2 bytes, 4 cycles. -/
def execLdaZpX (b : Byte) (s : State) : Result := readInstr (.mem (.zpX b)) 4 opLda s

/-- R400; 0xAD, abs: 3 bytes, 4 cycles. -/
def execLdaAbs (w : Word) (s : State) : Result := readInstr (.mem (.abs w)) 4 opLda s

/-- R400; 0xBD, abs,X: 3 bytes, 4 cycles, +1 on a page crossing. -/
def execLdaAbsX (w : Word) (s : State) : Result := readInstr (.mem (.absX w)) 4 opLda s

/-- R400; 0xB9, abs,Y: 3 bytes, 4 cycles, +1 on a page crossing. -/
def execLdaAbsY (w : Word) (s : State) : Result := readInstr (.mem (.absY w)) 4 opLda s

/-- R400; 0xA1, (zp,X): 2 bytes, 6 cycles. -/
def execLdaIndX (b : Byte) (s : State) : Result := readInstr (.mem (.indX b)) 6 opLda s

/-- R400; 0xB1, (zp),Y: 2 bytes, 5 cycles, +1 on a page crossing. -/
def execLdaIndY (b : Byte) (s : State) : Result := readInstr (.mem (.indY b)) 5 opLda s

/-- R401; 0xA2, #: 2 bytes, 2 cycles. -/
def execLdxImm (b : Byte) (s : State) : Result := readInstr (.imm b) 2 opLdx s

/-- R401; 0xA6, zp: 2 bytes, 3 cycles. -/
def execLdxZp (b : Byte) (s : State) : Result := readInstr (.mem (.zp b)) 3 opLdx s

/-- R401; 0xB6, zp,Y: 2 bytes, 4 cycles. -/
def execLdxZpY (b : Byte) (s : State) : Result := readInstr (.mem (.zpY b)) 4 opLdx s

/-- R401; 0xAE, abs: 3 bytes, 4 cycles. -/
def execLdxAbs (w : Word) (s : State) : Result := readInstr (.mem (.abs w)) 4 opLdx s

/-- R401; 0xBE, abs,Y: 3 bytes, 4 cycles, +1 on a page crossing. -/
def execLdxAbsY (w : Word) (s : State) : Result := readInstr (.mem (.absY w)) 4 opLdx s

/-- R402; 0xA0, #: 2 bytes, 2 cycles. -/
def execLdyImm (b : Byte) (s : State) : Result := readInstr (.imm b) 2 opLdy s

/-- R402; 0xA4, zp: 2 bytes, 3 cycles. -/
def execLdyZp (b : Byte) (s : State) : Result := readInstr (.mem (.zp b)) 3 opLdy s

/-- R402; 0xB4, zp,X: 2 bytes, 4 cycles. -/
def execLdyZpX (b : Byte) (s : State) : Result := readInstr (.mem (.zpX b)) 4 opLdy s

/-- R402; 0xAC, abs: 3 bytes, 4 cycles. -/
def execLdyAbs (w : Word) (s : State) : Result := readInstr (.mem (.abs w)) 4 opLdy s

/-- R402; 0xBC, abs,X: 3 bytes, 4 cycles, +1 on a page crossing. -/
def execLdyAbsX (w : Word) (s : State) : Result := readInstr (.mem (.absX w)) 4 opLdy s

/-- R403; 0x85, zp: 2 bytes, 3 cycles. -/
def execStaZp (b : Byte) (s : State) : Result := storeInstr (.zp b) 3 s.cpu.a s

/-- R403; 0x95, zp,X: 2 bytes, 4 cycles. -/
def execStaZpX (b : Byte) (s : State) : Result := storeInstr (.zpX b) 4 s.cpu.a s

/-- R403; 0x8D, abs: 3 bytes, 4 cycles. -/
def execStaAbs (w : Word) (s : State) : Result := storeInstr (.abs w) 4 s.cpu.a s

/-- R403; 0x9D, abs,X: 3 bytes, 5 cycles. -/
def execStaAbsX (w : Word) (s : State) : Result := storeInstr (.absX w) 5 s.cpu.a s

/-- R403; 0x99, abs,Y: 3 bytes, 5 cycles. -/
def execStaAbsY (w : Word) (s : State) : Result := storeInstr (.absY w) 5 s.cpu.a s

/-- R403; 0x81, (zp,X): 2 bytes, 6 cycles. -/
def execStaIndX (b : Byte) (s : State) : Result := storeInstr (.indX b) 6 s.cpu.a s

/-- R403; 0x91, (zp),Y: 2 bytes, 6 cycles. -/
def execStaIndY (b : Byte) (s : State) : Result := storeInstr (.indY b) 6 s.cpu.a s

/-- R404; 0x86, zp: 2 bytes, 3 cycles. -/
def execStxZp (b : Byte) (s : State) : Result := storeInstr (.zp b) 3 s.cpu.x s

/-- R404; 0x96, zp,Y: 2 bytes, 4 cycles. -/
def execStxZpY (b : Byte) (s : State) : Result := storeInstr (.zpY b) 4 s.cpu.x s

/-- R404; 0x8E, abs: 3 bytes, 4 cycles. -/
def execStxAbs (w : Word) (s : State) : Result := storeInstr (.abs w) 4 s.cpu.x s

/-- R405; 0x84, zp: 2 bytes, 3 cycles. -/
def execStyZp (b : Byte) (s : State) : Result := storeInstr (.zp b) 3 s.cpu.y s

/-- R405; 0x94, zp,X: 2 bytes, 4 cycles. -/
def execStyZpX (b : Byte) (s : State) : Result := storeInstr (.zpX b) 4 s.cpu.y s

/-- R405; 0x8C, abs: 3 bytes, 4 cycles. -/
def execStyAbs (w : Word) (s : State) : Result := storeInstr (.abs w) 4 s.cpu.y s

/-- R406; 0xAA, impl: 1 byte, 2 cycles. -/
def execTax (s : State) : Result := regInstr (fun s => opLdx s.cpu.a s) s

/-- R407; 0xA8, impl: 1 byte, 2 cycles. -/
def execTay (s : State) : Result := regInstr (fun s => opLdy s.cpu.a s) s

/-- R408; 0x8A, impl: 1 byte, 2 cycles. -/
def execTxa (s : State) : Result := regInstr (fun s => opLda s.cpu.x s) s

/-- R409; 0x98, impl: 1 byte, 2 cycles. -/
def execTya (s : State) : Result := regInstr (fun s => opLda s.cpu.y s) s

/-- R410; 0xBA, impl: 1 byte, 2 cycles. -/
def execTsx (s : State) : Result := regInstr (fun s => opLdx s.cpu.sp s) s

/-- R411; 0x9A, impl: 1 byte, 2 cycles. -/
def execTxs (s : State) : Result := regInstr (fun s => setSP s.cpu.x s) s

end Sys2Proof.Machine
end

