-- ==== Sys2Proof/Machine/Shift.lean ====
section
/-! DEFINITION. Shifts and rotates (`43_shift_rotate` R550-R553). -/

namespace Sys2Proof.Machine

/-- R550; 0x0A, A: 1 byte, 2 cycles. -/
def execAslA (s : State) : Result := accInstr aslOp s

/-- R550; 0x06, zp: 2 bytes, 5 cycles. -/
def execAslZp (b : Byte) (s : State) : Result := rmwInstr (.zp b) 5 aslOp s

/-- R550; 0x16, zp,X: 2 bytes, 6 cycles. -/
def execAslZpX (b : Byte) (s : State) : Result := rmwInstr (.zpX b) 6 aslOp s

/-- R550; 0x0E, abs: 3 bytes, 6 cycles. -/
def execAslAbs (w : Word) (s : State) : Result := rmwInstr (.abs w) 6 aslOp s

/-- R550; 0x1E, abs,X: 3 bytes, 7 cycles. -/
def execAslAbsX (w : Word) (s : State) : Result := rmwInstr (.absX w) 7 aslOp s

/-- R551; 0x4A, A: 1 byte, 2 cycles. -/
def execLsrA (s : State) : Result := accInstr lsrOp s

/-- R551; 0x46, zp: 2 bytes, 5 cycles. -/
def execLsrZp (b : Byte) (s : State) : Result := rmwInstr (.zp b) 5 lsrOp s

/-- R551; 0x56, zp,X: 2 bytes, 6 cycles. -/
def execLsrZpX (b : Byte) (s : State) : Result := rmwInstr (.zpX b) 6 lsrOp s

/-- R551; 0x4E, abs: 3 bytes, 6 cycles. -/
def execLsrAbs (w : Word) (s : State) : Result := rmwInstr (.abs w) 6 lsrOp s

/-- R551; 0x5E, abs,X: 3 bytes, 7 cycles. -/
def execLsrAbsX (w : Word) (s : State) : Result := rmwInstr (.absX w) 7 lsrOp s

/-- R552; 0x2A, A: 1 byte, 2 cycles. -/
def execRolA (s : State) : Result := accInstr rolOp s

/-- R552; 0x26, zp: 2 bytes, 5 cycles. -/
def execRolZp (b : Byte) (s : State) : Result := rmwInstr (.zp b) 5 rolOp s

/-- R552; 0x36, zp,X: 2 bytes, 6 cycles. -/
def execRolZpX (b : Byte) (s : State) : Result := rmwInstr (.zpX b) 6 rolOp s

/-- R552; 0x2E, abs: 3 bytes, 6 cycles. -/
def execRolAbs (w : Word) (s : State) : Result := rmwInstr (.abs w) 6 rolOp s

/-- R552; 0x3E, abs,X: 3 bytes, 7 cycles. -/
def execRolAbsX (w : Word) (s : State) : Result := rmwInstr (.absX w) 7 rolOp s

/-- R553; 0x6A, A: 1 byte, 2 cycles. -/
def execRorA (s : State) : Result := accInstr rorOp s

/-- R553; 0x66, zp: 2 bytes, 5 cycles. -/
def execRorZp (b : Byte) (s : State) : Result := rmwInstr (.zp b) 5 rorOp s

/-- R553; 0x76, zp,X: 2 bytes, 6 cycles. -/
def execRorZpX (b : Byte) (s : State) : Result := rmwInstr (.zpX b) 6 rorOp s

/-- R553; 0x6E, abs: 3 bytes, 6 cycles. -/
def execRorAbs (w : Word) (s : State) : Result := rmwInstr (.abs w) 6 rorOp s

/-- R553; 0x7E, abs,X: 3 bytes, 7 cycles. -/
def execRorAbsX (w : Word) (s : State) : Result := rmwInstr (.absX w) 7 rorOp s

end Sys2Proof.Machine
end

