-- ==== Sys2Proof/Machine/Stack.lean ====
section
/-! DEFINITION. Stack instructions (`41_stack` R450-R453). -/

namespace Sys2Proof.Machine

/-- R450; 0x48, impl: 1 byte, 3 cycles. -/
def execPha (s : State) : Result := .next (retire 1 3 (push s.cpu.a s))

/-- R451; 0x08, impl: 1 byte, 3 cycles. -/
def execPhp (s : State) : Result := .next (retire 1 3 (push (pushedP true s.cpu.p) s))

/-- R452; 0x68, impl: 1 byte, 4 cycles. -/
def execPla (s : State) : Result :=
  let r := pull s
  .next (retire 1 4 (setNZ r.1 (setA r.1 r.2)))

/-- R453; 0x28, impl: 1 byte, 4 cycles. -/
def execPlp (s : State) : Result :=
  let r := pull s
  .next (retire 1 4 (setP r.1 r.2))

end Sys2Proof.Machine
end

