-- ==== Sys2Proof/Machine/SaveState.lean ====
section
/-! DEFINITION. The state serializer (`65_savestate_host` R1200-R1213): `save`, `load` with its checks
in their order, and the rewind ring. -/

namespace Sys2Proof.Machine

/-! ### Fields (R1200) -/

/-- `n` bytes of a number, least significant first. -/
def putNat : Nat → Nat → List Byte
  | 0, _ => []
  | n + 1, v => BitVec.ofNat 8 v :: putNat n (v / 256)

/-- A field of width `w` in `n` bytes. -/
def putBV {w : Nat} (n : Nat) (v : BitVec w) : List Byte := putNat n v.toNat

/-- A bit in one byte. -/
def putBit (b : Bool) : List Byte := [if b then 1 else 0]

/-- A reader of fields: it takes bytes from the front, or fails on a value outside its range. -/
abbrev Get := StateT (List Byte) Option

/-- The first `n` bytes. -/
def getBytes (n : Nat) : Get (List Byte) := fun bs =>
  if n ≤ bs.length then some (bs.take n, bs.drop n) else none

/-- A number of `n` bytes, least significant first. -/
def getNat : Nat → Get Nat
  | 0 => fun bs => some (0, bs)
  | n + 1 => fun
    | [] => none
    | b :: bs => (getNat n bs).map fun r => (b.toNat + 256 * r.1, r.2)

/-- A field of width `w` in `n` bytes; a value of 2^w or more is out of range (R1210). -/
def getBV (w n : Nat) : Get (BitVec w) := fun bs =>
  (getNat n bs).bind fun r => if r.1 < 2 ^ w then some (BitVec.ofNat w r.1, r.2) else none

/-- A bit: 0 or 1 (R1210). -/
def getBit : Get Bool := fun bs => (getNat 1 bs).bind fun r => if r.1 < 2 then some (r.1 == 1, r.2) else none

/-- A number of `n` bytes inside an explicit bound (R1204, R1205, R1210). -/
def getIn (n lo hi : Nat) : Get Nat := fun bs =>
  (getNat n bs).bind fun r => if lo ≤ r.1 ∧ r.1 ≤ hi then some r else none

/-- An array of `n` bytes, each at most `max`. -/
def getMem (n : Nat) (max : Byte) : Get Memory := fun bs =>
  (getBytes n bs).bind fun r =>
    if r.1.all (fun b => decide (b.toNat ≤ max.toNat)) then some (memOfBytes r.1, r.2) else none

/-- Fail unless a condition holds. -/
def check (ok : Bool) : Get Unit := fun bs => if ok then some ((), bs) else none

/-! ### Regions -/

/-- CPU0 (R1202). -/
def putCpu (c : Cpu) : List Byte :=
  putBV 1 c.a ++ putBV 1 c.x ++ putBV 1 c.y ++ putBV 1 c.sp ++ putBV 2 c.pc ++ putBV 1 c.p ++
    putBV 4 c.cycles ++ putBit c.nmiPending ++ putBit c.illegalSeen ++ putBV 4 c.illegalCount

/-- CPU0 (R1202): P must be in its stored form (log 12). -/
def getCpu : Get Cpu := do
  let a ← getBV 8 1
  let x ← getBV 8 1
  let y ← getBV 8 1
  let sp ← getBV 8 1
  let pc ← getBV 16 2
  let p ← getBV 8 1
  check (storedP p == p)
  let cycles ← getBV 32 4
  let nmiPending ← getBit
  let illegalSeen ← getBit
  let illegalCount ← getBV 32 4
  return { a, x, y, sp, pc, p, cycles, nmiPending, illegalSeen, illegalCount }

/-- BUS0 (R1203). -/
def putBus (b : Bus) : List Byte :=
  memBytes b.ram 2048 ++ putBV 1 b.openBus ++ putBit b.ctrlStrobe ++ putBV 1 b.ctrlShift0 ++
    putBV 1 b.ctrlShift1 ++ putBV 1 b.ctrlButtons0 ++ putBV 1 b.ctrlButtons1 ++ putBV 4 b.stall

/-- BUS0 (R1203). -/
def getBus : Get Bus := do
  let ram ← getMem 2048 0xFF
  let openBus ← getBV 8 1
  let ctrlStrobe ← getBit
  let ctrlShift0 ← getBV 8 1
  let ctrlShift1 ← getBV 8 1
  let ctrlButtons0 ← getBV 8 1
  let ctrlButtons1 ← getBV 8 1
  let stall ← getBV 32 4
  return { ram, openBus, ctrlStrobe, ctrlShift0, ctrlShift1, ctrlButtons0, ctrlButtons1, stall }

/-- A slot of a sprite list (R1204): index, y, tile, attr, xpos, row, height. -/
def putSprite (e : SpriteEntry) : List Byte :=
  putBV 1 e.index ++ putBV 1 e.y ++ putBV 1 e.tile ++ putBV 1 e.attr ++ putBV 1 e.xpos ++
    putBV 1 e.row ++ putNat 1 (heightLines e.height)

/-- A slot of a sprite list (R800, R1204). -/
def getSprite : Get SpriteEntry := do
  let index ← getBV 6 1
  let y ← getBV 8 1
  let tile ← getBV 8 1
  let attr ← getBV 8 1
  let xpos ← getBV 8 1
  let row ← getBV 4 1
  let h ← getNat 1
  check (h == 8 || h == 16)
  return { index, y, tile, attr, xpos, row, height := if h == 8 then .h8 else .h16 }

/-- A count and eight slots, those past the count all zero (R1204). -/
def putSprites (l : List SpriteEntry) : List Byte :=
  putNat 1 l.length ++ (l.map putSprite).flatten ++ List.replicate (7 * (8 - l.length)) 0

/-- `n` slots. -/
def getSlots : Nat → Get (List SpriteEntry)
  | 0 => pure []
  | n + 1 => do
    let e ← getSprite
    let rest ← getSlots n
    return e :: rest

/-- A count of at most 8, its slots, and zero slots up to eight (R1204, R1210). -/
def getSprites : Get (List SpriteEntry) := do
  let n ← getIn 1 0 8
  let l ← getSlots n
  let pad ← getBytes (7 * (8 - n))
  check (pad.all (· == 0))
  return l

/-- `N`, the nametable size (R1204). -/
def ntSize (p : Ppu) : Nat := if p.ntFour then 4096 else 2048

/-- PPU0 (R1204). -/
def putPpu (p : Ppu) : List Byte :=
  putBV 1 p.ctrl ++ putBV 1 p.mask ++ putBit p.vblank ++ putBit p.s0hit ++ putBit p.ovf ++
    putBV 1 p.oamaddr ++ memBytes p.oam 256 ++ putBV 2 p.v ++ putBV 2 p.t ++ putBV 1 p.x ++
    putBit p.w ++ putBV 1 p.readBuffer ++ putBV 1 p.ioLatch ++ putNat 2 (ntSize p) ++
    memBytes p.ntRam (ntSize p) ++ memBytes p.palette 32 ++ putNat 2 p.scanline ++
    putNat 2 p.cycle ++ putBV 4 p.frame ++ putBit p.nmiEdge ++ putBV 2 p.lineV ++
    putBV 1 p.lineX ++ putSprites p.sprNext ++ putSprites p.sprCur

/-- PPU0 (R1204). -/
def getPpu : Get Ppu := do
  let ctrl ← getBV 8 1
  let mask ← getBV 8 1
  let vblank ← getBit
  let s0hit ← getBit
  let ovf ← getBit
  let oamaddr ← getBV 8 1
  let oam ← getMem 256 0xFF
  let v ← getBV 15 2
  let t ← getBV 15 2
  let x ← getBV 3 1
  let w ← getBit
  let readBuffer ← getBV 8 1
  let ioLatch ← getBV 8 1
  let n ← getNat 2
  check (n == 2048 || n == 4096)
  let ntRam ← getMem n 0xFF
  let palette ← getMem 32 0x3F
  let scanline ← getIn 2 0 261
  let cycle ← getIn 2 0 340
  let frame ← getBV 32 4
  let nmiEdge ← getBit
  let lineV ← getBV 15 2
  let lineX ← getBV 3 1
  let sprNext ← getSprites
  let sprCur ← getSprites
  return { ctrl, mask, vblank, s0hit, ovf, oamaddr, oam, v, t, x, w, readBuffer, ioLatch,
           ntFour := n == 4096, ntRam, palette, scanline, cycle, frame, nmiEdge, lineV, lineX,
           sprNext, sprCur }

/-- A pulse channel, 20 bytes (R1205). -/
def putPulse (c : Pulse) : List Byte :=
  putBit c.enabled ++ putBV 1 c.duty ++ putBit c.env.halt ++ putBit c.env.constVol ++
    putBV 1 c.env.vol ++ putBit c.env.start ++ putBV 1 c.env.div ++ putBV 1 c.env.decay ++
    putBit c.sweep.en ++ putBV 1 c.sweep.period ++ putBit c.sweep.neg ++ putBV 1 c.sweep.shift ++
    putBit c.sweep.reload ++ putBV 1 c.sweep.div ++ putBV 2 c.timerPeriod ++ putBV 2 c.timer ++
    putBV 1 c.seq ++ putBV 1 c.length

/-- A pulse channel (R1205). -/
def getPulse : Get Pulse := do
  let enabled ← getBit
  let duty ← getBV 2 1
  let halt ← getBit
  let constVol ← getBit
  let vol ← getBV 4 1
  let start ← getBit
  let div ← getBV 4 1
  let decay ← getBV 4 1
  let en ← getBit
  let period ← getBV 3 1
  let neg ← getBit
  let shift ← getBV 3 1
  let reload ← getBit
  let sdiv ← getBV 3 1
  let timerPeriod ← getBV 11 2
  let timer ← getBV 11 2
  let seq ← getBV 3 1
  let length ← getBV 8 1
  return { enabled, duty, env := { halt, constVol, vol, start, div, decay },
           sweep := { en, period, neg, shift, reload, div := sdiv }, timerPeriod, timer, seq,
           length }

/-- The triangle, 11 bytes (R1205). -/
def putTriangle (c : Triangle) : List Byte :=
  putBit c.enabled ++ putBit c.control ++ putBV 1 c.linReloadVal ++ putBV 1 c.lin ++
    putBit c.linReload ++ putBV 2 c.timerPeriod ++ putBV 2 c.timer ++ putBV 1 c.seq ++
    putBV 1 c.length

/-- The triangle (R1205). -/
def getTriangle : Get Triangle := do
  let enabled ← getBit
  let control ← getBit
  let linReloadVal ← getBV 7 1
  let lin ← getBV 7 1
  let linReload ← getBit
  let timerPeriod ← getBV 11 2
  let timer ← getBV 11 2
  let seq ← getBV 5 1
  let length ← getBV 8 1
  return { enabled, control, linReloadVal, lin, linReload, timerPeriod, timer, seq, length }

/-- The noise channel, 14 bytes (R1205). -/
def putNoise (c : Noise) : List Byte :=
  putBit c.enabled ++ putBit c.env.halt ++ putBit c.env.constVol ++ putBV 1 c.env.vol ++
    putBit c.env.start ++ putBV 1 c.env.div ++ putBV 1 c.env.decay ++ putBit c.mode ++
    putBV 1 c.periodIdx ++ putBV 2 c.timer ++ putBV 2 c.lfsr ++ putBV 1 c.length

/-- The noise channel (R1205); a zero `lfsr` is out of range (R1210). -/
def getNoise : Get Noise := do
  let enabled ← getBit
  let halt ← getBit
  let constVol ← getBit
  let vol ← getBV 4 1
  let start ← getBit
  let div ← getBV 4 1
  let decay ← getBV 4 1
  let mode ← getBit
  let periodIdx ← getBV 4 1
  let timer ← getBV 12 2
  let lfsr ← getBV 15 2
  check (lfsr != 0)
  let length ← getBV 8 1
  return { enabled, env := { halt, constVol, vol, start, div, decay }, mode, periodIdx, timer,
           lfsr, length }

/-- The DMC, 20 bytes (R1205). -/
def putDmc (d : Dmc) : List Byte :=
  putBit d.irqEn ++ putBit d.loop ++ putBV 1 d.rateIdx ++ putBV 2 d.timer ++ putBV 1 d.level ++
    putBV 2 d.startAddr ++ putBV 2 d.sampleLen ++ putBV 2 d.curAddr ++ putBV 2 d.remaining ++
    putBV 1 d.buffer ++ putBit d.bufferEmpty ++ putBV 1 d.shift ++ putNat 1 d.bitsLeft ++
    putBit d.silence ++ putBit d.dmaRequest

/-- The DMC (R1205, R1210). -/
def getDmc : Get Dmc := do
  let irqEn ← getBit
  let loop ← getBit
  let rateIdx ← getBV 4 1
  let timer ← getBV 9 2
  let level ← getBV 7 1
  let startAddr ← getBV 16 2
  let sampleLen ← getIn 2 1 4081
  let curAddr ← getBV 16 2
  let remaining ← getIn 2 0 4081
  let buffer ← getBV 8 1
  let bufferEmpty ← getBit
  let shift ← getBV 8 1
  let bitsLeft ← getIn 1 1 8
  let silence ← getBit
  let dmaRequest ← getBit
  return { irqEn, loop, rateIdx, timer, level, startAddr, sampleLen := BitVec.ofNat 16 sampleLen,
           curAddr, remaining := BitVec.ofNat 16 remaining, buffer, bufferEmpty, shift, bitsLeft,
           silence, dmaRequest }

/-- The mixer, 58 bytes (R1205). -/
def putMixer (m : Mixer) : List Byte :=
  putBV 8 m.lpfY ++ putBV 8 m.volP1 ++ putBV 8 m.volP2 ++ putBV 8 m.volT ++ putBV 8 m.volN ++
    putBV 8 m.volD ++ putBV 8 m.master ++ putBit m.lpfEnabled ++ putBit m.lpfHq

/-- A volume: finite and in [0, 1] (R1210). -/
def getVolume : Get Binary64 := do
  let v ← getBV 64 8
  check (f64InUnit v)
  return v

/-- The mixer (R1205, R1210). -/
def getMixer : Get Mixer := do
  let lpfY ← getBV 64 8
  check (f64Finite lpfY)
  let volP1 ← getVolume
  let volP2 ← getVolume
  let volT ← getVolume
  let volN ← getVolume
  let volD ← getVolume
  let master ← getVolume
  let lpfEnabled ← getBit
  let lpfHq ← getBit
  return { volP1, volP2, volT, volN, volD, master, lpfEnabled, lpfHq, lpfY }

/-- APU0 (R1205). -/
def putApu (u : Apu) : List Byte :=
  putPulse u.p1 ++ putPulse u.p2 ++ putTriangle u.tri ++ putNoise u.noise ++ putDmc u.dmc ++
    putBit u.fsMode ++ putBit u.fsInhibit ++ putBV 2 u.fsCounter ++ putBit u.frameIrq ++
    putBit u.dmcIrq ++ putBit u.parity ++ putMixer u.mixer

/-- APU0 (R1205, R1210). -/
def getApu : Get Apu := do
  let p1 ← getPulse
  let p2 ← getPulse
  let tri ← getTriangle
  let noise ← getNoise
  let dmc ← getDmc
  let fsMode ← getBit
  let fsInhibit ← getBit
  let fsCounter ← getIn 2 0 37281
  let frameIrq ← getBit
  let dmcIrq ← getBit
  let parity ← getBit
  let mixer ← getMixer
  return { p1, p2, tri, noise, dmc, fsMode, fsInhibit, fsCounter := BitVec.ofNat 16 fsCounter,
           frameIrq, dmcIrq, parity, mixer }

/-- The mapper id (R930). -/
def mapperId : Mapper → Nat
  | .fixedBank => 0
  | .serialShift _ => 1

/-- The serial registers of a mapper; 0 for id 0 (R1206). -/
def mapperRegs : Mapper → SerialRegs
  | .fixedBank => { shift := 0, count := 0, control := 0, chr0 := 0, chr1 := 0, prg := 0 }
  | .serialShift r => r

/-- The flags byte of MAP0 (R1206). -/
def cartFlags (c : Cartridge) : Nat :=
  (if c.hdrMirror = .vertical then 1 else 0) + (if c.battery then 2 else 0) +
    (if c.fourScreen then 8 else 0)

/-- The part of MAP0 that names the cartridge (R1206, R1210). -/
def putCartId (params : Params) (c : Cartridge) : List Byte :=
  putNat 1 (mapperId c.mapper) ++ putBV 1 c.nprg ++ putBV 1 c.nchr ++ putNat 1 (cartFlags c) ++
    putBit params.prgRamPresent

/-- The memories of MAP0 (R1206). -/
def putCartMem (params : Params) (c : Cartridge) : List Byte :=
  (if params.prgRamPresent then memBytes c.prgRam 8192 else []) ++
    (if chrIsRam c then memBytes c.chr 8192 else [])

/-- The serial registers in MAP0 (R1206). -/
def putSerial (r : SerialRegs) : List Byte :=
  putBV 1 r.shift ++ putNat 1 r.count ++ putBV 1 r.control ++ putBV 1 r.chr0 ++ putBV 1 r.chr1 ++
    putBV 1 r.prg

/-- MAP0 (R1206). -/
def putCart (params : Params) : Option Cartridge → List Byte
  | none => []
  | some c => putCartId params c ++ putCartMem params c ++ putSerial (mapperRegs c.mapper)

/-- The serial registers (R1210). -/
def getSerial : Get SerialRegs := do
  let shift ← getBV 5 1
  let count ← getIn 1 0 4
  let control ← getBV 5 1
  let chr0 ← getBV 5 1
  let chr1 ← getBV 5 1
  let prg ← getBV 5 1
  return { shift, count, control, chr0, chr1, prg }

/-- MAP0 into the loaded cartridge (R1206, R1210): id 0 has no serial registers, so they must be 0
(log 12). -/
def getCart (params : Params) : Option Cartridge → Get (Option Cartridge)
  | none => pure none
  | some c => do
    let _ ← getBytes 5
    let prgRam ← if params.prgRamPresent then getMem 8192 0xFF else pure c.prgRam
    let chr ← if chrIsRam c then getMem 8192 0xFF else pure c.chr
    let r ← getSerial
    match c.mapper with
    | .fixedBank =>
      check (r == mapperRegs .fixedBank)
      return some { c with prgRam, chr }
    | .serialShift _ => return some { c with prgRam, chr, mapper := .serialShift r }

/-- SCH0 (R1207). -/
def putSched (s : Sched) : List Byte := putBV 1 s.nmiCountdown ++ putBV 8 s.totalCycles

/-- SCH0 (R1207). -/
def getSched : Get Sched := do
  let nmiCountdown ← getBV 8 1
  let totalCycles ← getBV 64 8
  return { nmiCountdown, totalCycles }

/-! ### The blob (R1201) -/

/-- The six regions, in the order of R1201. -/
inductive Region where
  | cpu0
  | bus0
  | ppu0
  | apu0
  | map0
  | sch0
  deriving DecidableEq, Repr

/-- The 4-byte ASCII tag of a region (R1201). -/
def regionTag : Region → List Byte
  | .cpu0 => [0x43, 0x50, 0x55, 0x30]
  | .bus0 => [0x42, 0x55, 0x53, 0x30]
  | .ppu0 => [0x50, 0x50, 0x55, 0x30]
  | .apu0 => [0x41, 0x50, 0x55, 0x30]
  | .map0 => [0x4D, 0x41, 0x50, 0x30]
  | .sch0 => [0x53, 0x43, 0x48, 0x30]

/-- The regions in order. -/
def regionOrder : List Region := [.cpu0, .bus0, .ppu0, .apu0, .map0, .sch0]

/-- The body of a region. -/
def regionBody (s : State) : Region → List Byte
  | .cpu0 => putCpu s.cpu
  | .bus0 => putBus s.bus
  | .ppu0 => putPpu s.ppu
  | .apu0 => putApu s.apu
  | .map0 => putCart s.params s.cart
  | .sch0 => putSched s.sched

/-- Tag, length and body (R1201). -/
def putRegion (s : State) (r : Region) : List Byte :=
  regionTag r ++ putNat 4 (regionBody s r).length ++ regionBody s r

/-- "MSAV" (R1201). -/
def blobMagic : List Byte := [0x4D, 0x53, 0x41, 0x56]

/-- The version, u16 = 1 (R1201). -/
def blobVersion : List Byte := [1, 0]

/-- `save()` (R1209). -/
def save (s : State) : List Byte :=
  blobMagic ++ blobVersion ++ (regionOrder.map (putRegion s)).flatten

/-- The failures of `load` and `rewind` (R1210, R1213). -/
inductive SaveError where
  | badMagic
  | versionMismatch
  | truncated
  | badTag (r : Region)
  | regionSizeMismatch (r : Region)
  | sizeMismatch
  | cartridgeMismatch
  | valueOutOfRange (r : Region)
  | noSnapshot
  deriving DecidableEq, Repr

/-- The number that a list of bytes holds, least significant first. -/
def natOfBytes : List Byte → Nat
  | [] => 0
  | b :: bs => b.toNat + 256 * natOfBytes bs

/-- The nametable size `load` expects: what the cartridge's four-screen flag requires (R1210); with
no cartridge loaded, the size the machine has (log 13). -/
def expectedNtSize (s : State) : Nat :=
  match s.cart with
  | some c => if c.fourScreen then 4096 else 2048
  | none => ntSize s.ppu

/-- The size of MAP0 for the loaded cartridge (R1206, R1210). -/
def mapSize (s : State) : Nat :=
  match s.cart with
  | none => 0
  | some c => 11 + (if s.params.prgRamPresent then 8192 else 0) + (if chrIsRam c then 8192 else 0)

/-- `L = expected_length(tag, blob, pos)` (R1210); for PPU0 the size N is read from the body. -/
def lengthOk (s : State) (r : Region) (body : List Byte) : Bool :=
  match r with
  | .cpu0 => body.length == 17
  | .bus0 => body.length == 2058
  | .ppu0 =>
    decide (272 ≤ body.length) && natOfBytes ((body.drop 270).take 2) == expectedNtSize s &&
      body.length == 430 + expectedNtSize s
  | .apu0 => body.length == 150
  | .map0 => body.length == mapSize s
  | .sch0 => body.length == 9

/-- Cut the regions out of a blob, with the checks of R1210 in their order: the bodies and what is
left over. -/
def splitRegions (s : State) : List Region → List Byte → Except SaveError (List (List Byte) × List Byte)
  | [], bs => .ok ([], bs)
  | r :: rs, bs =>
    if bs.length < 8 then .error .truncated
    else if bs.take 4 ≠ regionTag r then .error (.badTag r)
    else
      let len := natOfBytes ((bs.drop 4).take 4)
      let rest := bs.drop 8
      if rest.length < len then .error .truncated
      else if !lengthOk s r (rest.take len) then .error (.regionSizeMismatch r)
      else
        match splitRegions s rs (rest.drop len) with
        | .ok out => .ok (rest.take len :: out.1, out.2)
        | .error e => .error e

/-- MAP0 matches the loaded cartridge (R1210). -/
def cartMatches (s : State) (body : List Byte) : Bool :=
  match s.cart with
  | none => body.isEmpty
  | some c => body.take 5 == putCartId s.params c

/-- Read a whole region, or report it out of range (R1210). -/
def readRegion {α : Type} (r : Region) (g : Get α) (body : List Byte) : Except SaveError α :=
  match g body with
  | some (x, []) => .ok x
  | _ => .error (.valueOutOfRange r)

/-- Decode the six bodies into the machine state (R1210, R1211). Only the ranges that R1210 lists are
checked, so that a state is accepted from which a later step can leave them, whose save is then
rejected; R1212 is read as being of the states that meet the invariant (DESIGN CHOICE, log 36). -/
def decodeBodies (s : State) : List (List Byte) → Except SaveError State
  | [bCpu, bBus, bPpu, bApu, bMap, bSch] => do
    let cpu ← readRegion .cpu0 getCpu bCpu
    let bus ← readRegion .bus0 getBus bBus
    let ppu ← readRegion .ppu0 getPpu bPpu
    let apu ← readRegion .apu0 getApu bApu
    let cart ← readRegion .map0 (getCart s.params s.cart) bMap
    let sched ← readRegion .sch0 getSched bSch
    return { s with cpu, bus, ppu, apu, cart, sched }
  | _ => .error .truncated

/-- `load(blob)` (R1210, R1211): the first failing check, or the loaded state. -/
def load (blob : List Byte) (s : State) : Except SaveError State :=
  if blob.length < 6 ∨ blob.take 4 ≠ blobMagic then .error .badMagic
  else if (blob.drop 4).take 2 ≠ blobVersion then .error .versionMismatch
  else
    match splitRegions s regionOrder (blob.drop 6) with
    | .error e => .error e
    | .ok (bodies, rest) =>
      if rest ≠ [] then .error .sizeMismatch
      else if !cartMatches s (bodies.getD 4 []) then .error .cartridgeMismatch
      else decodeBodies s bodies

/-! ### Rewind (R1213) -/

/-- `enable_rewind(on)` (R1213). Switching it off keeps the ring, which R1213 says nothing of
(DESIGN CHOICE, log 30). -/
def enableRewind (on : Bool) (s : State) : State := { s with host := { s.host with rewindOn := on } }

/-- The capture after a step that began in frame `before` (R1213): newest first, the oldest dropped
when the ring is full. -/
def rewindCapture (before : BitVec 32) (s : State) : State :=
  if s.host.rewindOn ∧ s.ppu.frame ≠ before ∧ s.ppu.frame.toNat % max 1 Config.rewindInterval = 0 then
    { s with
      host := { s.host with rewindRing := (save s :: s.host.rewindRing).take (max 1 Config.rewindCapacity) } }
  else s

/-- `rewind()` (R1213): the result of loading the newest blob, and the state; the blob leaves the
ring (log 18). It does the same while rewind is switched off (DESIGN CHOICE, log 30). -/
def rewind (s : State) : Except SaveError Unit × State :=
  match s.host.rewindRing with
  | [] => (.error .noSnapshot, s)
  | blob :: rest =>
    let s := { s with host := { s.host with rewindRing := rest } }
    match load blob s with
    | .ok s' => (.ok (), s')
    | .error e => (.error e, s)

end Sys2Proof.Machine
end

