-- ==== Sys2Proof/Machine/Scheduler.lean ====
section
/-! DEFINITION. The master cycle scheduler (`64_scheduler` R1102-R1106): fetching the instruction
(`30_encoding` R320), taking an NMI edge, the PPU and APU ticks, the interrupt poll
(`60_exceptions` R706), and the catch-up after an instruction. -/

namespace Sys2Proof.Machine

/-- The fetch of R320 and R330: the opcode, then the operand bytes that its length needs, in address
order, each a bus read with its side effects (R217). PC stays at the opcode. -/
def fetchInstr (s : State) : Instr × State :=
  let pc := s.cpu.pc
  let op := memRead pc s
  match opcodeLength op.1 with
  | 1 => (decodeBytes op.1 0 0, op.2)
  | 2 =>
    let b1 := memRead (pc + 1) op.2
    (decodeBytes op.1 b1.1 0, b1.2)
  | _ =>
    let b1 := memRead (pc + 1) op.2
    let b2 := memRead (pc + 2) b1.2
    (decodeBytes op.1 b1.1 b2.1, b2.2)

/-- `CPU.nmi_pending <- 1`. -/
def pendNmi (s : State) : State := { s with cpu := { s.cpu with nmiPending := true } }

/-- An NMI edge starts no countdown: one runs already (R1103), or, in the reading of R703, R114 and
R1104, an NMI is pending (DESIGN CHOICE, log 28). -/
def edgeMerged (s : State) : Bool :=
  s.sched.nmiCountdown != 0 || (s.params.pendingNmiMergesEdge && s.cpu.nmiPending)

/-- `take_edge()` (R1103): an edge makes the NMI pending at once, starts the countdown, or is merged. -/
def takeEdge (s : State) : State :=
  if s.ppu.nmiEdge then
    let s := { s with ppu := { s.ppu with nmiEdge := false } }
    if s.params.nmiDelay = 0 then pendNmi s
    else if edgeMerged s then s
    else { s with sched := { s.sched with nmiCountdown := BitVec.ofNat 8 s.params.nmiDelay } }
  else s

/-- One PPU tick of the machine: the dot's pixel and its work (R810). -/
def runPpu (s : State) : State :=
  { s with
    ppu := ppuTick s.cart s.ppu
    host := { s.host with picture := ppuDraw s.cart s.ppu s.host.picture } }

/-- The countdown of `ppu_tick()` (R1103). -/
def countNmi (s : State) : State :=
  if s.sched.nmiCountdown = 0 then s
  else
    let s := { s with sched := { s.sched with nmiCountdown := s.sched.nmiCountdown - 1 } }
    if s.sched.nmiCountdown = 0 then pendNmi s else s

/-- `ppu_tick()` (R1103). -/
def tickPpu (s : State) : State := takeEdge (countNmi (runPpu s))

/-- `n` PPU ticks. -/
def tickPpuN : Nat → State → State
  | 0, s => s
  | n + 1, s => tickPpuN n (tickPpu s)

/-- One APU tick of the machine, its sample appended to the stream (R1032, R1053). -/
def runApu (s : State) : State :=
  let r := apuTick s.params.triangleSilentAtLengthZero s.apu
  { s with apu := r.1, host := { s.host with samples := r.2 :: s.host.samples } }

/-- The DMC DMA service of `apu_tick()` (R1106): its stall is charged to the next step. -/
def serveDmc (s : State) : State :=
  if s.apu.dmc.dmaRequest then
    let r := memRead s.apu.dmc.curAddr s
    { r.2 with
      apu := dmaComplete r.1 r.2.apu
      bus := { r.2.bus with stall := r.2.bus.stall + BitVec.ofNat 32 r.2.params.dmcDmaStall } }
  else s

/-- `apu_tick()` (R1106). -/
def tickApu (s : State) : State := serveDmc (runApu s)

/-- `n` APU ticks. -/
def tickApuN : Nat → State → State
  | 0, s => s
  | n + 1, s => tickApuN n (tickApu s)

/-- `service_interrupt()` (R706): the cycles it used, 0 or 7, and the state. -/
def serviceInterrupt (s : State) : Nat × State :=
  if s.cpu.nmiPending then (7, serviceNmi s)
  else if irqLine s.apu && !flagI s.cpu.p then (7, serviceIrq s)
  else (0, s)

/-- The stall cycles a step consumes (R1102). -/
def takeStall (s : State) : State :=
  addCycles s.bus.stall.toNat { s with bus := { s.bus with stall := 0 } }

/-- The rest of a scheduler step, after an instruction of `n` cycles (R1102). -/
def catchUp (n : Nat) (s : State) : State :=
  let s := takeEdge s
  let m := n + s.bus.stall.toNat
  let s := tickPpuN (3 * m) (takeStall s)
  let k := serviceInterrupt s
  let s := tickApuN (m + k.1) (tickPpuN (3 * k.1) k.2)
  { s with sched := { s.sched with totalCycles := s.sched.totalCycles + BitVec.ofNat 64 (m + k.1) } }

/-- The step of R1102 around the instruction, with the rewind capture of R1213: `before` is the state
the step began in, `fetched` the state after the fetch, `after` the state after the instruction,
whose cycles are what it added to the counter (R320, log 3). -/
def finishStep (before fetched after : State) : State :=
  rewindCapture before.ppu.frame (catchUp (after.cpu.cycles - fetched.cpu.cycles).toNat after)

/-! ### Placing an instruction where the next fetch reads it (log 2) -/

/-- The address's byte is one of RAM, of enabled PRG-RAM, or of PRG-ROM. -/
def placeable (s : State) (a : Word) : Bool :=
  match deviceOf a with
  | .ram => true
  | .mapper =>
    match s.cart with
    | none => false
    | some c =>
      if a.toNat ≤ 0x5FFF then false
      else if a.toNat ≤ 0x7FFF then prgRamEnabled s.params c
      else true
  | _ => false

/-- Make an address read as a byte, from outside the machine: RAM, PRG-RAM or PRG-ROM is patched. -/
def placeByte (a : Word) (v : Byte) (s : State) : State :=
  if placeable s a then
    match deviceOf a with
    | .ram => { s with bus := { s.bus with ram := memSet s.bus.ram (ramIndex a) v } }
    | _ =>
      { s with
        cart := s.cart.map fun c =>
          if a.toNat ≤ 0x7FFF then { c with prgRam := memSet c.prgRam (a.toNat - 0x6000) v }
          else { c with prgRom := memSet c.prgRom (prgOffset c a) v } }
  else s

/-- Three bytes at PC; where PC or the two bytes after it show no memory, PC moves to 0x0200. -/
def placeInstr (b0 b1 b2 : Byte) (s : State) : State :=
  let s :=
    if placeable s s.cpu.pc && placeable s (s.cpu.pc + 1) && placeable s (s.cpu.pc + 2) then s
    else setPC 0x0200 s
  placeByte (s.cpu.pc + 2) b2 (placeByte (s.cpu.pc + 1) b1 (placeByte s.cpu.pc b0 s))

end Sys2Proof.Machine
end

