-- ==== Sys2Proof/Machine/Step.lean ====
section
/-! DEFINITION. One scheduler step (`64_scheduler` R1102), and the placing of an instruction where
the next step fetches it. -/

namespace Sys2Proof.Machine

/-- One scheduler step (R1102): fetch, execute, and let the other units catch up. A fault ends the
step before anything else advances (R701). -/
def step (s : State) : Host.Outcome State Fault Refusal :=
  match exec (fetchInstr s).1 (fetchInstr s).2 with
  | .next s' => .next (finishStep s (fetchInstr s).2 s')
  | .fault r => .fault r
  | .refused r => .refused r

/-- `s` with the instruction of a table word stored where `step` fetches its next instruction; the
bits above `nbits` are 0, and three bytes, the longest instruction, are placed (log 2). -/
def State.withFetchWord (s : State) (nbits w : Nat) : State :=
  placeInstr (tableByte nbits w 0) (tableByte nbits w 1) (tableByte nbits w 2) s

end Sys2Proof.Machine
end

