-- ==== Sys2Proof/Machine/Rom.lean ====
section
/-! DEFINITION. ROM image loading (`62_mapper` R930-R932). -/

namespace Sys2Proof.Machine

/-- The failures of `load_rom` (R931). -/
inductive RomError where
  | malformedHeader
  | zeroSizePrg
  | unsupportedMapper (id : Byte)
  | truncatedImage
  | oversizedImage
  deriving DecidableEq, Repr

/-- The iNES magic (R930). -/
def romMagic : List Byte := [0x4E, 0x45, 0x53, 0x1A]

/-- The mapper id of header bytes 6 and 7 (R930). -/
def romMapperId (f6 f7 : Byte) : Byte := (f7 &&& 0xF0) ||| (f6 >>> 4)

/-- The exact length of an image (R930). -/
def romLength (nprg nchr f6 : Byte) : Nat :=
  16 + (if f6.getLsbD 2 then 512 else 0) + 16384 * nprg.toNat + 8192 * nchr.toNat

/-- The checks of `load_rom`, in the order written (R930). -/
def romProblem (image : List Byte) : Option RomError :=
  let nprg := image.getD 4 0
  let f6 := image.getD 6 0
  let id := romMapperId f6 (image.getD 7 0)
  let expect := romLength nprg (image.getD 5 0) f6
  if image.length < 16 ∨ image.take 4 ≠ romMagic then some .malformedHeader
  else if nprg = 0 then some .zeroSizePrg
  else if id ≠ 0 ∧ id ≠ 1 then some (.unsupportedMapper id)
  else if image.length < expect then some .truncatedImage
  else if expect < image.length then some .oversizedImage
  else none

/-- PRG-RAM at load (R901, R930): zero or the host's battery contents, with the trainer copied to
0x1000..0x11FF; nothing when PRG_RAM_PRESENT is false. The spec gives the battery contents no length:
longer ones are cut to 8192 bytes and shorter ones filled up with 0x00, whatever the header's battery
bit is (DESIGN CHOICE, log 19). -/
def romPrgRam (params : Params) (image : List Byte) (battery : Option (List Byte)) : Memory :=
  if params.prgRamPresent then
    let start := (battery.getD []).take 8192
    let ram := memOfBytes start
    if (image.getD 6 0).getLsbD 2 then
      ((image.drop 16).take 512).zipIdx.foldl (fun m bi => memSet m (0x1000 + bi.2) bi.1) ram
    else ram
  else []

/-- The cartridge of a valid image (R900, R901, R930). -/
def romCartridge (params : Params) (image : List Byte) (battery : Option (List Byte)) : Cartridge :=
  let nprg := image.getD 4 0
  let nchr := image.getD 5 0
  let f6 := image.getD 6 0
  let p0 := 16 + if f6.getLsbD 2 then 512 else 0
  { mapper :=
      if romMapperId f6 (image.getD 7 0) = 0 then .fixedBank
      else .serialShift { shift := 0, count := 0, control := 0x0C, chr0 := 0, chr1 := 0, prg := 0 }
    nprg := nprg
    nchr := nchr
    prgRom := memOfBytes ((image.drop p0).take (16384 * nprg.toNat))
    chr := memOfBytes (image.drop (p0 + 16384 * nprg.toNat))
    prgRam := romPrgRam params image battery
    hdrMirror := if f6.getLsbD 0 then .vertical else .horizontal
    fourScreen := f6.getLsbD 3
    battery := f6.getLsbD 1 }

/-- `load_rom(image)` (R930, R931): a failed check changes nothing; otherwise the mapper is replaced,
the nametable RAM is zero-filled at its size, and the console is reset. -/
def loadRom (image : List Byte) (battery : Option (List Byte)) (s : State) : Except RomError State :=
  match romProblem image with
  | some e => .error e
  | none =>
    let c := romCartridge s.params image battery
    .ok (consoleReset
      { s with cart := some c, ppu := { s.ppu with ntRam := [], ntFour := c.fourScreen } })

/-- `unload_rom()` (R932). -/
def unloadRom (s : State) : State := { s with cart := none }

end Sys2Proof.Machine
end

