-- ==== Sys2Proof/Machine/HostInterface.lean ====
section
/-! DEFINITION. The host's operations that do not advance time (`65_savestate_host` R1220-R1225,
`61_ppu` R843): buttons, CPU accessor, PPU register interface, frame buffer, audio stream, mixer
settings. ROM loading is Machine/Rom.lean, save and load are Machine/SaveState.lean. -/

namespace Sys2Proof.Machine

/-! ### Controllers and registers -/

/-- The error code of R1221 and R1222. -/
def hostError : BitVec 32 := 0xFFFFFFFF

/-- `set_buttons(port, mask)` (R1221): the code returned, and the state. R1221 states the error code
only; the 0 on success is the one that D12 gives `set_register` (DESIGN CHOICE, log 31). -/
def setButtons (port : Nat) (mask : Byte) (s : State) : BitVec 32 × State :=
  match port with
  | 0 => (0, { s with bus := { s.bus with ctrlButtons0 := mask } })
  | 1 => (0, { s with bus := { s.bus with ctrlButtons1 := mask } })
  | _ => (hostError, s)

/-- `get_register(i)` (R1222). -/
def getRegister (i : Nat) (s : State) : BitVec 32 :=
  match i with
  | 0 => s.cpu.a.setWidth 32
  | 1 => s.cpu.x.setWidth 32
  | 2 => s.cpu.y.setWidth 32
  | 3 => s.cpu.sp.setWidth 32
  | 4 => s.cpu.pc.setWidth 32
  | 5 => s.cpu.p.setWidth 32
  | 6 => s.cpu.cycles
  | 7 => s.cpu.illegalCount
  | 8 => if s.cpu.illegalSeen then 1 else 0
  | _ => hostError

/-- `set_register(i, v)` (R1222): the code returned, and the state. -/
def setRegister (i : Nat) (v : BitVec 32) (s : State) : BitVec 32 × State :=
  match i with
  | 0 => (0, setA (v.setWidth 8) s)
  | 1 => (0, setX (v.setWidth 8) s)
  | 2 => (0, setY (v.setWidth 8) s)
  | 3 => (0, setSP (v.setWidth 8) s)
  | 4 => (0, setPC (v.setWidth 16) s)
  | 5 => (0, setP (v.setWidth 8) s)
  | 6 => (0, { s with cpu := { s.cpu with cycles := v } })
  | 7 => (0, { s with cpu := { s.cpu with illegalCount := v } })
  | 8 => (0, { s with cpu := { s.cpu with illegalSeen := v.getLsbD 0 } })
  | _ => (hostError, s)

/-- `ppu.read_register(id)` (R843): the byte, and the state after the read's side effects. -/
def hostPpuRead (id : Nat) (s : State) : Byte × State :=
  if id ≤ 7 then
    let r := ppuRegRead s.cart (BitVec.ofNat 3 id) s.ppu
    (r.1, { s with ppu := r.2 })
  else (0xFF, s)

/-- `ppu.write_register(id, d)` (R843). -/
def hostPpuWrite (id : Nat) (d : Byte) (s : State) : State :=
  if id ≤ 7 then
    { s with
      ppu := ppuRegWrite s.cart (BitVec.ofNat 3 id) d s.ppu
      cart := ppuRegWriteCart s.cart (BitVec.ofNat 3 id) d s.ppu }
  else s

/-! ### The frame buffer (R1223) -/

/-- Bytes per pixel of a format (R1223). -/
def bytesPerPixel : PixelFormat → Nat
  | .rgb565 => 2
  | .rgb888 => 3
  | .rgba8888 => 4

/-- `set_frame_buffer(format, pitch, ptr)` (R1223), `caller` telling whether `ptr` is not null: the
new buffer has nothing drawn in it (log 8), and a bad pitch keeps the old one (log 9). -/
def setFrameBuffer (format : PixelFormat) (pitch : Nat) (caller : Bool) (s : State) : Option State :=
  if pitch < 256 * bytesPerPixel format then none
  else
    some
      { s with
        host :=
          { s.host with
            picture := []
            fbFormat := format
            fbPitch := if caller then pitch else 256 * bytesPerPixel format
            fbOwned := !caller } }

/-- The colour of a pixel (R866). -/
def pixelRgb (px : Pixel) : Rgb := Config.emphasis px.emphasis (Config.masterPalette px.colour)

/-- The 16 bits of a colour in RGB565 (R1223). -/
def packRgb565 (c : Rgb) : BitVec 16 :=
  ((c.r >>> 3).setWidth 16 <<< 11) ||| ((c.g >>> 2).setWidth 16 <<< 5) ||| (c.b >>> 3).setWidth 16

/-- The bytes of a colour, in the order they are stored (R1223). -/
def packRgb (format : PixelFormat) (c : Rgb) : List Byte :=
  match format with
  | .rgb565 => [loByte (packRgb565 c), hiByte (packRgb565 c)]
  | .rgb888 => [c.r, c.g, c.b]
  | .rgba8888 => [c.r, c.g, c.b, 0xFF]

/-- The byte the machine has written at an offset of the frame buffer (R1223): byte `k` of pixel
(x, y) at `y · pitch + x · bpp + k`; nothing past column 255 of a line, past line 239, or where the
pixel has not been drawn. -/
def frameByte (s : State) (offset : Nat) : Option Byte :=
  let bpp := bytesPerPixel s.host.fbFormat
  let y := offset / s.host.fbPitch
  let x := offset % s.host.fbPitch / bpp
  if x < 256 ∧ y < 240 then
    (pixelOf s.host.picture y x).bind fun px =>
      (packRgb s.host.fbFormat (pixelRgb px))[offset % s.host.fbPitch % bpp]?
  else none

/-! ### Audio (R1224, R1225) -/

/-- Sample formats (R1224). -/
inductive SampleFormat where
  | float
  | i16
  deriving DecidableEq, Repr

/-- The bytes of one sample as written to the destination: a binary64, or the quantised 16 bits
(R1053, R1224). Their order is not stated; they are little-endian here, as every stored field of
R1200 (DESIGN CHOICE, log 32). -/
def sampleBytes (format : SampleFormat) (x : Binary64) : List Byte :=
  match format with
  | .float => putBV 8 x
  | .i16 => putBV 2 (quantise x)

/-- `pull_samples(n, dest, format)` with a destination (R1224): the samples taken, oldest first, as
they are in the stream, and the state without them. -/
def pullSamples (n : Nat) (s : State) : List Binary64 × State :=
  let kept := s.host.samples.length - n
  ((s.host.samples.drop kept).reverse,
    { s with host := { s.host with samples := s.host.samples.take kept } })

/-- The channels that have a volume (R1225). -/
inductive Channel where
  | p1
  | p2
  | t
  | n
  | d
  deriving DecidableEq, Repr

/-- A volume argument clamped to [0, 1] (R1225); what a NaN becomes is a free value of that range
(log 11). R1225 does not say whether the sign of -0.0 survives; it becomes +0.0 here (DESIGN CHOICE,
log 33). -/
def clampVolume (v : Binary64) : Binary64 :=
  if f64Exp v = 2047 ∧ f64Frac v ≠ 0 then
    if f64InUnit (Config.nanVolume v) then Config.nanVolume v else 0x3FF0000000000000
  else if f64Neg v then 0
  else if f64InUnit v then v
  else 0x3FF0000000000000

/-- The mixer with one channel's volume replaced (R1225). -/
def mixerVolume (c : Channel) (v : Binary64) (m : Mixer) : Mixer :=
  match c with
  | .p1 => { m with volP1 := v }
  | .p2 => { m with volP2 := v }
  | .t => { m with volT := v }
  | .n => { m with volN := v }
  | .d => { m with volD := v }

/-- A change of the mixer settings. -/
def withMixer (f : Mixer → Mixer) (s : State) : State :=
  { s with apu := { s.apu with mixer := f s.apu.mixer } }

/-- `set_volume(channel, v)` (R1225). -/
def setVolume (c : Channel) (v : Binary64) (s : State) : State :=
  withMixer (mixerVolume c (clampVolume v)) s

/-- `set_master(v)` (R1225). -/
def setMaster (v : Binary64) (s : State) : State :=
  withMixer (fun m => { m with master := clampVolume v }) s

/-- `set_filter(enabled, hq)` (R1225): `lpf_y` stays. -/
def setFilter (enabled hq : Bool) (s : State) : State :=
  withMixer (fun m => { m with lpfEnabled := enabled, lpfHq := hq }) s

end Sys2Proof.Machine
end

