-- ==== Sys2Proof/Machine/Session.lean ====
section
/-! DEFINITION. A session as the host drives it: `run_frame` (`64_scheduler` R1107) and every
operation of the host interface (`65_savestate_host` R1220), each between steps. -/

namespace Sys2Proof.Machine

/-- The host's operations (R1220). -/
inductive HostOp where
  | createSession (params : Params)
  | loadRom (image : List Byte) (battery : Option (List Byte))
  | unloadRom
  | reset
  | step
  | runFrame
  | setButtons (port : Nat) (mask : Byte)
  | getRegister (i : Nat)
  | setRegister (i : Nat) (v : BitVec 32)
  | ppuReadRegister (id : Nat)
  | ppuWriteRegister (id : Nat) (d : Byte)
  | setFrameBuffer (format : PixelFormat) (pitch : Nat) (caller : Bool)
  | pullSamples (n : Nat) (dest : Bool) (format : SampleFormat)
  | setVolume (c : Channel) (v : Binary64)
  | setMaster (v : Binary64)
  | setFilter (enabled hq : Bool)
  | save
  | load (blob : List Byte)
  | enableRewind (on : Bool)
  | rewind
  deriving DecidableEq, Repr

/-- What an operation returns to its caller (R1220): every failure synchronously. -/
inductive HostReply where
  | ok
  | code (c : BitVec 32)
  | byte (b : Byte)
  | blob (b : List Byte)
  | audio (count : Nat) (bytes : List Byte)
  | cycles (n : BitVec 64)
  | romError (e : RomError)
  | saveError (e : SaveError)
  | badPitch
  | nullBuffer
  | fault (f : Fault)
  | refused (r : Refusal)
  deriving DecidableEq, Repr

/-- The machine `create_session()` builds (R1301): creation values, no ROM; `reset()` is not run. -/
def createSession (params : Params) : State :=
  { cpu := .reset, bus := .reset, ppu := .reset, apu := .create, cart := none, sched := .reset,
    params := params, host := .create }

/-- `step()` as the host sees it (R1102): the cycles run, or why it stopped. After a fault the machine
keeps the effects of the fetch and nothing else (R701). -/
def hostStep (s : State) : HostReply × State :=
  match step s with
  | .next s' => (.cycles (s'.sched.totalCycles - s.sched.totalCycles), s')
  | .fault f => (.fault f, (fetchInstr s).2)
  | .refused f => (.refused f, (fetchInstr s).2)

/-- The loop of `run_frame()` with at most `fuel` steps (R1107): it ends when the frame number has
changed or a step has stopped, and keeps the last step's reply. -/
def runFrameFuel (f0 : BitVec 32) : Nat → HostReply × State → HostReply × State
  | 0, r => r
  | fuel + 1, r =>
    match hostStep r.2 with
    | (.cycles n, s') =>
      if s'.ppu.frame = f0 then runFrameFuel f0 fuel (.cycles n, s') else (.cycles n, s')
    | stopped => stopped

/-- `run_frame()` (R1107): a step makes at least three PPU ticks and a frame has 89342 of them
(R811), so 29781 steps always reach the boundary (log 20). -/
def runFrame (s : State) : HostReply × State := runFrameFuel s.ppu.frame 29781 (.ok, s)

/-- One operation of the host (R1220). -/
def hostCall (op : HostOp) (s : State) : HostReply × State :=
  match op with
  | .createSession params => (.ok, createSession params)
  | .loadRom image battery =>
    match loadRom image battery s with
    | .ok s' => (.ok, s')
    | .error e => (.romError e, s)
  | .unloadRom => (.ok, unloadRom s)
  | .reset => (.ok, consoleReset s)
  | .step => hostStep s
  | .runFrame => runFrame s
  | .setButtons port mask => (.code (setButtons port mask s).1, (setButtons port mask s).2)
  | .getRegister i => (.code (getRegister i s), s)
  | .setRegister i v => (.code (setRegister i v s).1, (setRegister i v s).2)
  | .ppuReadRegister id => (.byte (hostPpuRead id s).1, (hostPpuRead id s).2)
  | .ppuWriteRegister id d => (.ok, hostPpuWrite id d s)
  | .setFrameBuffer format pitch caller =>
    match setFrameBuffer format pitch caller s with
    | some s' => (.ok, s')
    | none => (.badPitch, s)
  | .pullSamples n dest format =>
    if dest then
      let r := pullSamples n s
      (.audio r.1.length (r.1.flatMap (sampleBytes format)), r.2)
    else (.nullBuffer, s)
  | .setVolume c v => (.ok, setVolume c v s)
  | .setMaster v => (.ok, setMaster v s)
  | .setFilter enabled hq => (.ok, setFilter enabled hq s)
  | .save => (.blob (save s), s)
  | .load blob =>
    match load blob s with
    | .ok s' => (.ok, s')
    | .error e => (.saveError e, s)
  | .enableRewind on => (.ok, enableRewind on s)
  | .rewind =>
    match rewind s with
    | (.ok (), s') => (.ok, s')
    | (.error e, s') => (.saveError e, s')

end Sys2Proof.Machine
end

