-- ==== Sys2Proof/Safety.lean ====
section
/-! DEFINITION. The terms of the claims: the bytes of storage and which of them an access may write,
what a bus read may change, the cycle column of `30_encoding` R305, the dot number of the PPU, and
the invariant of the machine. -/

namespace Sys2Proof.Machine

/-! ### Storage -/

/-- The machine's arrays of bytes. -/
inductive Storage where
  | ram
  | prgRom
  | prgRam
  | chr
  | oam
  | nametable
  | palette
  deriving DecidableEq, Repr

/-- The byte of an array, read with no side effect; `none` for a cartridge array with no cartridge. -/
def storedByte (s : State) : Storage → Nat → Option Byte
  | .ram, n => some (memGet s.bus.ram n)
  | .prgRom, n => s.cart.map fun c => memGet c.prgRom n
  | .prgRam, n => s.cart.map fun c => memGet c.prgRam n
  | .chr, n => s.cart.map fun c => memGet c.chr n
  | .oam, n => some (memGet s.ppu.oam n)
  | .nametable, n => some (memGet s.ppu.ntRam n)
  | .palette, n => some (memGet s.ppu.palette n)

/-- Every byte of storage is the same. -/
def SameStorage (s t : State) : Prop := ∀ k n, storedByte t k n = storedByte s k n

/-- Every byte of storage is the same but those of a set. -/
def SameStorageBut (cells : Storage → Nat → Bool) (s t : State) : Prop :=
  ∀ k n, cells k n = false → storedByte t k n = storedByte s k n

/-- The byte a PPU address names for a PPUDATA write (`61_ppu` R821-R823): none in the pattern range
of a cartridge without CHR-RAM, or with no cartridge. -/
def vramCell (s : State) (a : BitVec 14) : Option (Storage × Nat) :=
  if a.toNat < 0x2000 then
    s.cart.bind fun c => if chrIsRam c then some (.chr, chrOffset c a.toNat) else none
  else if a.toNat < 0x3F00 then some (.nametable, ntIndex s.cart s.ppu a.toNat)
  else some (.palette, paletteIndex a.toNat)

/-- The physical nametable page of logical table `n` (0..3) that R905 and R821 give a cartridge. -/
def mirrorPage (c : Cartridge) (n : Nat) : Nat :=
  if c.fourScreen then n
  else
    match c.mapper with
    | .fixedBank => if c.hdrMirror = .vertical then n % 2 else n / 2
    | .serialShift r =>
      if r.control.toNat % 4 = 0 then 0
      else if r.control.toNat % 4 = 1 then 1
      else if r.control.toNat % 4 = 2 then n % 2
      else n / 2

/-- The entry of palette RAM that R822 gives index `i` (0..31). -/
def paletteCell (i : Nat) : Nat :=
  if i = 0x10 then 0x00
  else if i = 0x14 then 0x04
  else if i = 0x18 then 0x08
  else if i = 0x1C then 0x0C
  else i

/-- The bytes of storage that a CPU write to an address may change (`20_memory` R202, R211, R218,
`61_ppu` R836, R838, `62_mapper` R903). -/
def writeCells (s : State) (a : Word) (k : Storage) (n : Nat) : Bool :=
  match deviceOf a with
  | .ram => k == .ram && n == ramIndex a
  | .ppu =>
    match (a.setWidth 3).toNat with
    | 4 => k == .oam && n == s.ppu.oamaddr.toNat
    | 7 => vramCell s (s.ppu.v.setWidth 14) == some (k, n)
    | _ => false
  | .oamDma => k == .oam && decide (n < 256)
  | .mapper =>
    match s.cart with
    | none => false
    | some c =>
      k == .prgRam && n == a.toNat - 0x6000 && decide (0x6000 ≤ a.toNat) && decide (a.toNat ≤ 0x7FFF) &&
        prgRamEnabled s.params c
  | _ => false

/-- The RAM byte at a stack address (`10_state` R104). -/
def stackCell (sp : Byte) : Nat := 0x100 + sp.toNat

/-- The state differs from another at most in what bus reads may change (`20_memory` R212, R214): the
open-bus latch, the controller shift registers, the frame IRQ flag, and of the PPU the VBlank flag,
the write toggle, the register latch, the read buffer and the VRAM address. -/
def OnlyReadEffects (s t : State) : Prop :=
  t =
    { s with
      bus :=
        { s.bus with
          openBus := t.bus.openBus
          ctrlShift0 := t.bus.ctrlShift0
          ctrlShift1 := t.bus.ctrlShift1 }
      ppu :=
        { s.ppu with
          vblank := t.ppu.vblank
          w := t.ppu.w
          ioLatch := t.ppu.ioLatch
          readBuffer := t.ppu.readBuffer
          v := t.ppu.v }
      apu := { s.apu with frameIrq := t.apu.frameIrq } }

/-! ### Results in the spec's terms -/

/-- P with N and Z taken from a value and every other bit kept (`00_scope` R10 `NZ(v)`). -/
def pNZ (v p : Byte) : Byte := (p &&& 0x7D) ||| (v &&& 0x80) ||| (if v = 0 then 0x02 else 0x00)

/-- P with C replaced too. -/
def pCNZ (c : Bool) (v p : Byte) : Byte := (pNZ v p &&& 0xFE) ||| (if c then 0x01 else 0x00)

/-- The result and carry of a read-modify-write instruction (`43_shift_rotate` R550-R553,
`42_arithmetic_logic` R509, R510), `c` the carry before; INC and DEC keep it. -/
def rmwResult : RmwOp → Byte → Bool → Byte × Bool
  | .asl, v, _ => (v <<< 1, v.getLsbD 7)
  | .lsr, v, _ => (v >>> 1, v.getLsbD 0)
  | .rol, v, c => ((v <<< 1) ||| (if c then 1 else 0), v.getLsbD 7)
  | .ror, v, c => ((v >>> 1) ||| (if c then 0x80 else 0), v.getLsbD 0)
  | .inc, v, c => (v + 1, c)
  | .dec, v, c => (v - 1, c)

/-- The flag a branch tests and the value it branches on (R604-R611). -/
def branchTaken : BranchOp → Byte → Bool
  | .bcc, p => !p.getLsbD 0
  | .bcs, p => p.getLsbD 0
  | .bne, p => !p.getLsbD 1
  | .beq, p => p.getLsbD 1
  | .bvc, p => !p.getLsbD 6
  | .bvs, p => p.getLsbD 6
  | .bpl, p => !p.getLsbD 7
  | .bmi, p => p.getLsbD 7

/-- The page of an address. -/
def pageOf (a : Word) : Nat := a.toNat / 256

/-- The number of the dot the PPU is at, from frame 0 on (R811). -/
def dotNumber (p : Ppu) : Nat := (p.frame.toNat * 262 + p.scanline) * 341 + p.cycle

/-! ### The opcode table -/

/-- A row of R305: opcode byte, instruction, addressing mode, length, base cycles, and whether a page
crossing costs one more. -/
structure TableRow (μ : Type) where
  opcode : Byte
  instr : Instr
  mode : μ
  length : Nat
  cycles : Nat
  penalty : Bool

/-- The rows of R305 of a reading mnemonic, `b` its operand byte and `w` its operand word. -/
def readRows (op : ReadOp) (b : Byte) (w : Word) : List (TableRow ReadMode) :=
  match op with
  | .lda =>
    [⟨0xA9, .ldaImm b, .imm b, 2, 2, false⟩,
     ⟨0xA5, .ldaZp b, .mem (.zp b), 2, 3, false⟩,
     ⟨0xB5, .ldaZpX b, .mem (.zpX b), 2, 4, false⟩,
     ⟨0xAD, .ldaAbs w, .mem (.abs w), 3, 4, false⟩,
     ⟨0xBD, .ldaAbsX w, .mem (.absX w), 3, 4, true⟩,
     ⟨0xB9, .ldaAbsY w, .mem (.absY w), 3, 4, true⟩,
     ⟨0xA1, .ldaIndX b, .mem (.indX b), 2, 6, false⟩,
     ⟨0xB1, .ldaIndY b, .mem (.indY b), 2, 5, true⟩]
  | .ldx =>
    [⟨0xA2, .ldxImm b, .imm b, 2, 2, false⟩,
     ⟨0xA6, .ldxZp b, .mem (.zp b), 2, 3, false⟩,
     ⟨0xB6, .ldxZpY b, .mem (.zpY b), 2, 4, false⟩,
     ⟨0xAE, .ldxAbs w, .mem (.abs w), 3, 4, false⟩,
     ⟨0xBE, .ldxAbsY w, .mem (.absY w), 3, 4, true⟩]
  | .ldy =>
    [⟨0xA0, .ldyImm b, .imm b, 2, 2, false⟩,
     ⟨0xA4, .ldyZp b, .mem (.zp b), 2, 3, false⟩,
     ⟨0xB4, .ldyZpX b, .mem (.zpX b), 2, 4, false⟩,
     ⟨0xAC, .ldyAbs w, .mem (.abs w), 3, 4, false⟩,
     ⟨0xBC, .ldyAbsX w, .mem (.absX w), 3, 4, true⟩]
  | .adc =>
    [⟨0x69, .adcImm b, .imm b, 2, 2, false⟩,
     ⟨0x65, .adcZp b, .mem (.zp b), 2, 3, false⟩,
     ⟨0x75, .adcZpX b, .mem (.zpX b), 2, 4, false⟩,
     ⟨0x6D, .adcAbs w, .mem (.abs w), 3, 4, false⟩,
     ⟨0x7D, .adcAbsX w, .mem (.absX w), 3, 4, true⟩,
     ⟨0x79, .adcAbsY w, .mem (.absY w), 3, 4, true⟩,
     ⟨0x61, .adcIndX b, .mem (.indX b), 2, 6, false⟩,
     ⟨0x71, .adcIndY b, .mem (.indY b), 2, 5, true⟩]
  | .sbc =>
    [⟨0xE9, .sbcImm b, .imm b, 2, 2, false⟩,
     ⟨0xE5, .sbcZp b, .mem (.zp b), 2, 3, false⟩,
     ⟨0xF5, .sbcZpX b, .mem (.zpX b), 2, 4, false⟩,
     ⟨0xED, .sbcAbs w, .mem (.abs w), 3, 4, false⟩,
     ⟨0xFD, .sbcAbsX w, .mem (.absX w), 3, 4, true⟩,
     ⟨0xF9, .sbcAbsY w, .mem (.absY w), 3, 4, true⟩,
     ⟨0xE1, .sbcIndX b, .mem (.indX b), 2, 6, false⟩,
     ⟨0xF1, .sbcIndY b, .mem (.indY b), 2, 5, true⟩]
  | .and =>
    [⟨0x29, .andImm b, .imm b, 2, 2, false⟩,
     ⟨0x25, .andZp b, .mem (.zp b), 2, 3, false⟩,
     ⟨0x35, .andZpX b, .mem (.zpX b), 2, 4, false⟩,
     ⟨0x2D, .andAbs w, .mem (.abs w), 3, 4, false⟩,
     ⟨0x3D, .andAbsX w, .mem (.absX w), 3, 4, true⟩,
     ⟨0x39, .andAbsY w, .mem (.absY w), 3, 4, true⟩,
     ⟨0x21, .andIndX b, .mem (.indX b), 2, 6, false⟩,
     ⟨0x31, .andIndY b, .mem (.indY b), 2, 5, true⟩]
  | .ora =>
    [⟨0x09, .oraImm b, .imm b, 2, 2, false⟩,
     ⟨0x05, .oraZp b, .mem (.zp b), 2, 3, false⟩,
     ⟨0x15, .oraZpX b, .mem (.zpX b), 2, 4, false⟩,
     ⟨0x0D, .oraAbs w, .mem (.abs w), 3, 4, false⟩,
     ⟨0x1D, .oraAbsX w, .mem (.absX w), 3, 4, true⟩,
     ⟨0x19, .oraAbsY w, .mem (.absY w), 3, 4, true⟩,
     ⟨0x01, .oraIndX b, .mem (.indX b), 2, 6, false⟩,
     ⟨0x11, .oraIndY b, .mem (.indY b), 2, 5, true⟩]
  | .eor =>
    [⟨0x49, .eorImm b, .imm b, 2, 2, false⟩,
     ⟨0x45, .eorZp b, .mem (.zp b), 2, 3, false⟩,
     ⟨0x55, .eorZpX b, .mem (.zpX b), 2, 4, false⟩,
     ⟨0x4D, .eorAbs w, .mem (.abs w), 3, 4, false⟩,
     ⟨0x5D, .eorAbsX w, .mem (.absX w), 3, 4, true⟩,
     ⟨0x59, .eorAbsY w, .mem (.absY w), 3, 4, true⟩,
     ⟨0x41, .eorIndX b, .mem (.indX b), 2, 6, false⟩,
     ⟨0x51, .eorIndY b, .mem (.indY b), 2, 5, true⟩]
  | .bit =>
    [⟨0x24, .bitZp b, .mem (.zp b), 2, 3, false⟩,
     ⟨0x2C, .bitAbs w, .mem (.abs w), 3, 4, false⟩]
  | .cmp =>
    [⟨0xC9, .cmpImm b, .imm b, 2, 2, false⟩,
     ⟨0xC5, .cmpZp b, .mem (.zp b), 2, 3, false⟩,
     ⟨0xD5, .cmpZpX b, .mem (.zpX b), 2, 4, false⟩,
     ⟨0xCD, .cmpAbs w, .mem (.abs w), 3, 4, false⟩,
     ⟨0xDD, .cmpAbsX w, .mem (.absX w), 3, 4, true⟩,
     ⟨0xD9, .cmpAbsY w, .mem (.absY w), 3, 4, true⟩,
     ⟨0xC1, .cmpIndX b, .mem (.indX b), 2, 6, false⟩,
     ⟨0xD1, .cmpIndY b, .mem (.indY b), 2, 5, true⟩]
  | .cpx =>
    [⟨0xE0, .cpxImm b, .imm b, 2, 2, false⟩,
     ⟨0xE4, .cpxZp b, .mem (.zp b), 2, 3, false⟩,
     ⟨0xEC, .cpxAbs w, .mem (.abs w), 3, 4, false⟩]
  | .cpy =>
    [⟨0xC0, .cpyImm b, .imm b, 2, 2, false⟩,
     ⟨0xC4, .cpyZp b, .mem (.zp b), 2, 3, false⟩,
     ⟨0xCC, .cpyAbs w, .mem (.abs w), 3, 4, false⟩]

/-- The rows of R305 of a store. -/
def storeRows (op : StoreOp) (b : Byte) (w : Word) : List (TableRow AddrMode) :=
  match op with
  | .sta =>
    [⟨0x85, .staZp b, .zp b, 2, 3, false⟩,
     ⟨0x95, .staZpX b, .zpX b, 2, 4, false⟩,
     ⟨0x8D, .staAbs w, .abs w, 3, 4, false⟩,
     ⟨0x9D, .staAbsX w, .absX w, 3, 5, false⟩,
     ⟨0x99, .staAbsY w, .absY w, 3, 5, false⟩,
     ⟨0x81, .staIndX b, .indX b, 2, 6, false⟩,
     ⟨0x91, .staIndY b, .indY b, 2, 6, false⟩]
  | .stx =>
    [⟨0x86, .stxZp b, .zp b, 2, 3, false⟩,
     ⟨0x96, .stxZpY b, .zpY b, 2, 4, false⟩,
     ⟨0x8E, .stxAbs w, .abs w, 3, 4, false⟩]
  | .sty =>
    [⟨0x84, .styZp b, .zp b, 2, 3, false⟩,
     ⟨0x94, .styZpX b, .zpX b, 2, 4, false⟩,
     ⟨0x8C, .styAbs w, .abs w, 3, 4, false⟩]

/-- The rows of R305 of a read-modify-write mnemonic on memory. -/
def rmwRows (op : RmwOp) (b : Byte) (w : Word) : List (TableRow AddrMode) :=
  match op with
  | .asl =>
    [⟨0x06, .aslZp b, .zp b, 2, 5, false⟩,
     ⟨0x16, .aslZpX b, .zpX b, 2, 6, false⟩,
     ⟨0x0E, .aslAbs w, .abs w, 3, 6, false⟩,
     ⟨0x1E, .aslAbsX w, .absX w, 3, 7, false⟩]
  | .lsr =>
    [⟨0x46, .lsrZp b, .zp b, 2, 5, false⟩,
     ⟨0x56, .lsrZpX b, .zpX b, 2, 6, false⟩,
     ⟨0x4E, .lsrAbs w, .abs w, 3, 6, false⟩,
     ⟨0x5E, .lsrAbsX w, .absX w, 3, 7, false⟩]
  | .rol =>
    [⟨0x26, .rolZp b, .zp b, 2, 5, false⟩,
     ⟨0x36, .rolZpX b, .zpX b, 2, 6, false⟩,
     ⟨0x2E, .rolAbs w, .abs w, 3, 6, false⟩,
     ⟨0x3E, .rolAbsX w, .absX w, 3, 7, false⟩]
  | .ror =>
    [⟨0x66, .rorZp b, .zp b, 2, 5, false⟩,
     ⟨0x76, .rorZpX b, .zpX b, 2, 6, false⟩,
     ⟨0x6E, .rorAbs w, .abs w, 3, 6, false⟩,
     ⟨0x7E, .rorAbsX w, .absX w, 3, 7, false⟩]
  | .inc =>
    [⟨0xE6, .incZp b, .zp b, 2, 5, false⟩,
     ⟨0xF6, .incZpX b, .zpX b, 2, 6, false⟩,
     ⟨0xEE, .incAbs w, .abs w, 3, 6, false⟩,
     ⟨0xFE, .incAbsX w, .absX w, 3, 7, false⟩]
  | .dec =>
    [⟨0xC6, .decZp b, .zp b, 2, 5, false⟩,
     ⟨0xD6, .decZpX b, .zpX b, 2, 6, false⟩,
     ⟨0xCE, .decAbs w, .abs w, 3, 6, false⟩,
     ⟨0xDE, .decAbsX w, .absX w, 3, 7, false⟩]

/-- The state after a reading instruction of row `r` that found the operand `o` and leaves the CPU
registers `c`: PC past the instruction, and its cycles, one more on a page crossing where the row
says so (R105, R320, R335). -/
def afterRead (r : TableRow ReadMode) (o : Operand) (s : State) (c : Cpu) : State :=
  { o.state with
    cpu :=
      { c with
        pc := s.cpu.pc + BitVec.ofNat 16 r.length
        cycles := s.cpu.cycles + BitVec.ofNat 32 (r.cycles + if r.penalty && o.crossed then 1 else 0) } }

/-- The CPU after an instruction of `len` bytes and `n` cycles that leaves PC to the next one. -/
def retired (len n : Nat) (c : Cpu) : Cpu :=
  { c with pc := c.pc + BitVec.ofNat 16 len, cycles := c.cycles + BitVec.ofNat 32 n }

/-! ### The stack and the interrupts -/

/-- Only RAM, the open-bus latch and the CPU differ. -/
def OnlyStackEffects (s t : State) : Prop :=
  t = { s with cpu := t.cpu, bus := { s.bus with ram := t.bus.ram, openBus := t.bus.openBus } }

/-- Byte `n` is one of the `k` RAM bytes that `k` pushes write from a stack pointer down, within page
1 (R104, R112). -/
def pushedCells : Nat → Byte → Storage → Nat → Bool
  | 0, _, _, _ => false
  | k + 1, sp, m, n => (m == .ram && n == stackCell sp) || pushedCells k (sp - 1) m n

/-- The word the bus gives at a vector when its latch holds `ob`: the low byte first, and an address
that nothing drives gives the latch (R203, R210, R212). -/
def vectorRead (s : State) (ob : Byte) (v : Word) : Word :=
  let lo := (mapperRead s.params s.cart v).getD ob
  let hi := (mapperRead s.params s.cart (v + 1)).getD lo
  wordOf hi lo

/-- What an interrupt entry saves and changes, by R704, R705 and R709 (BRK: R658): `ret` and the
pushed form of P on the stack, high byte first, SP 3 lower, I set, PC from the vector, no other
register, no other flag, no other byte and no other unit. The cycle counter and the pending NMI are
not this relation's. -/
def InterruptEntry (vector ret : Word) (b : Bool) (s t : State) : Prop :=
  let pushed : Byte := (s.cpu.p &&& 0xCF) ||| (if b then 0x30 else 0x20)
  t.cpu =
      { s.cpu with
        sp := s.cpu.sp - 3
        p := s.cpu.p ||| 0x04
        pc := vectorRead s pushed vector
        cycles := t.cpu.cycles
        nmiPending := t.cpu.nmiPending } ∧
    storedByte t .ram (stackCell s.cpu.sp) = some (hiByte ret) ∧
    storedByte t .ram (stackCell (s.cpu.sp - 1)) = some (loByte ret) ∧
    storedByte t .ram (stackCell (s.cpu.sp - 2)) = some pushed ∧
    SameStorageBut (pushedCells 3 s.cpu.sp) s t ∧
    OnlyStackEffects s t

/-! ### Cartridges and save states -/

/-- Two machines hold the same cartridge: the same ROM and header, whatever its registers and RAM
hold; or none, with nametable RAM of the same size (R1206, R1210, log 13). -/
def SameCartridge (s t : State) : Prop :=
  match s.cart, t.cart with
  | none, none => t.ppu.ntFour = s.ppu.ntFour
  | some c, some d =>
    d.nprg = c.nprg ∧ d.nchr = c.nchr ∧ d.prgRom = c.prgRom ∧ d.hdrMirror = c.hdrMirror ∧
      d.fourScreen = c.fourScreen ∧ d.battery = c.battery ∧ mapperId d.mapper = mapperId c.mapper ∧
      (chrIsRam c = true ∨ d.chr = c.chr) ∧ (s.params.prgRamPresent = true ∨ d.prgRam = c.prgRam)
  | _, _ => False

/-! ### The invariant -/

/-- P is in its stored form (R107). -/
structure Cpu.Inv (c : Cpu) : Prop where
  stored : storedP c.p = c.p

/-- RAM is canonical and within its 2048 bytes (R201). -/
structure Bus.Inv (b : Bus) : Prop where
  ram_wf : Memory.wf b.ram
  ram_within : Memory.within 2048 b.ram

/-- The PPU's memories are canonical and within their sizes, its palette has six bits, its coordinate
is on the frame, and its sprite lists hold at most eight (R800, R810, R822, R861, R862). -/
structure Ppu.Inv (p : Ppu) : Prop where
  oam_wf : Memory.wf p.oam
  oam_within : Memory.within 256 p.oam
  nt_wf : Memory.wf p.ntRam
  nt_within : Memory.within (ntSize p) p.ntRam
  palette_wf : Memory.wf p.palette
  palette_within : Memory.within 32 p.palette
  palette_six : ∀ c ∈ p.palette, c.2.toNat ≤ 0x3F
  scanline_le : p.scanline ≤ 261
  cycle_le : p.cycle ≤ 340
  next_le : p.sprNext.length ≤ 8
  cur_le : p.sprCur.length ≤ 8
  next_nil : p.cycle ≤ 257 → p.sprNext = []

/-- The DMC's counters are in their ranges and its request says what R1043 says; the noise register
is not 0; the frame counter is inside its sequence (R1004, R1033, R1040, R1043, R1309). -/
structure Apu.Inv (u : Apu) : Prop where
  bits_ge : 1 ≤ u.dmc.bitsLeft
  bits_le : u.dmc.bitsLeft ≤ 8
  sampleLen_ge : 1 ≤ u.dmc.sampleLen.toNat
  sampleLen_le : u.dmc.sampleLen.toNat ≤ 4081
  remaining_le : u.dmc.remaining.toNat ≤ 4081
  curAddr_ge : 0x8000 ≤ u.dmc.curAddr.toNat
  startAddr_ge : 0xC000 ≤ u.dmc.startAddr.toNat
  request : u.dmc.dmaRequest = (u.dmc.bufferEmpty && decide (u.dmc.remaining ≠ 0))
  lfsr_ne : u.noise.lfsr ≠ 0
  counter_lt : u.fsCounter.toNat < if u.fsMode then 37282 else 29830

/-- The cartridge's memories are canonical and within their sizes, it has a PRG bank, and the serial
counter is at most 4 (R900). -/
structure Cartridge.Inv (params : Params) (c : Cartridge) : Prop where
  nprg_ge : 1 ≤ c.nprg.toNat
  prgRom_wf : Memory.wf c.prgRom
  prgRom_within : Memory.within (16384 * prgBanks c) c.prgRom
  chr_wf : Memory.wf c.chr
  chr_within : Memory.within (chrSize c) c.chr
  prgRam_wf : Memory.wf c.prgRam
  prgRam_within : Memory.within (if params.prgRamPresent then 8192 else 0) c.prgRam
  count_le : (mapperRegs c.mapper).count ≤ 4

/-- The picture lists lines 0..239 in order, and columns 0..255 in order on each (R867). -/
def Picture.Inv (pic : Picture) : Prop :=
  (pic.map Prod.fst).Pairwise (· < ·) ∧
    ∀ line ∈ pic, line.1 < 240 ∧ (line.2.map Prod.fst).Pairwise (· < ·) ∧ ∀ px ∈ line.2, px.1 < 256

/-- The frame buffer's pitch holds a line, and the rewind ring is within its capacity (R1213,
R1223). -/
structure HostSide.Inv (h : HostSide) : Prop where
  picture : Picture.Inv h.picture
  pitch_ge : 256 * bytesPerPixel h.fbFormat ≤ h.fbPitch
  ring_le : h.rewindRing.length ≤ max 1 Config.rewindCapacity

/-- The invariant of the machine: every unit's, and the nametable RAM has the size that the
cartridge asks for (R930). -/
structure State.Inv (s : State) : Prop where
  cpu : s.cpu.Inv
  bus : s.bus.Inv
  ppu : s.ppu.Inv
  apu : s.apu.Inv
  host : s.host.Inv
  cart : ∀ c, s.cart = some c → c.Inv s.params ∧ c.fourScreen = s.ppu.ntFour

/-- The mixer's reals: volumes in [0, 1], a finite filter state (R1005, R1054). -/
structure Mixer.Inv (m : Mixer) : Prop where
  volP1 : f64InUnit m.volP1 = true
  volP2 : f64InUnit m.volP2 = true
  volT : f64InUnit m.volT = true
  volN : f64InUnit m.volN = true
  volD : f64InUnit m.volD = true
  master : f64InUnit m.master = true
  lpfY : f64Finite m.lpfY = true

/-! ### Safe runs -/

/-- A run of `n` steps that stops nowhere. -/
def SafeRun (n : Nat) (s : State) : Prop := ∃ t, Sys2Proof.core.run n s = .next t

end Sys2Proof.Machine
end

