-- ==== Sys2Proof/Certificates/Slice0/Obligations.lean ====
section
/-! DEFINITION. The statements for the provers. Each docstring names the rules it formalises. -/

open Sys2Proof Sys2Proof.Machine

/-! ### Encoding (30_encoding) -/

/-- Words written out from the opcode map of R304 and the formats of R300 decode to what the map
says, one for each family and length. -/
def Obligations.DecodeSampleWords : Prop :=
  decode [0xA9, 0x80] = .ok (.ldaImm 0x80, []) ∧
  decode [0x96, 0x01] = .ok (.stxZpY 0x01, []) ∧
  decode [0x8D, 0x34, 0x12] = .ok (.staAbs 0x1234, []) ∧
  decode [0xBA] = .ok (.tsx, []) ∧
  decode [0x48] = .ok (.pha, []) ∧
  decode [0x71, 0x10] = .ok (.adcIndY 0x10, []) ∧
  decode [0xFE, 0x34, 0x12] = .ok (.incAbsX 0x1234, []) ∧
  decode [0x6A] = .ok (.rorA, []) ∧
  decode [0x6C, 0xFF, 0x02] = .ok (.jmpInd 0x02FF, []) ∧
  decode [0xD0, 0xF8] = .ok (.bne 0xF8, []) ∧
  decode [0x00, 0xEA] = .ok (.brk, [0xEA]) ∧
  decode [0x02, 0x85] = .ok (.illegal 0x02, [0x85])

/-- Decoding the bytes of a well-formed instruction gives it back and leaves what follows: no operand
bit and no opcode bit is dropped, for every instruction and every operand. -/
def Obligations.DecodeEncode : Prop :=
  ∀ (i : Instr) (rest : List Byte), i.wf = true → decode (encode i ++ rest) = .ok (i, rest)

/-- What the decoder reads is a well-formed instruction, and its bytes are the ones it was read
from: each byte sequence has one meaning. -/
def Obligations.EncodeDecode : Prop :=
  ∀ (bytes : List Byte) (i : Instr) (rest : List Byte),
    decode bytes = .ok (i, rest) → i.wf = true ∧ encode i ++ rest = bytes

/-- R302: decoding is total over the opcode bytes; 151 are documented instructions, the other 105 are
illegal, of one byte. -/
def Obligations.DecodingIsTotal : Prop :=
  (∀ op b1 b2 : Byte, ∃ i rest, decode [op, b1, b2] = .ok (i, rest) ∧ rest.length ≤ 2 ∧
      (op ∈ illegalBytes → i = .illegal op ∧ rest = [b1, b2]) ∧
      (op ∉ illegalBytes → ∀ q, i ≠ .illegal q)) ∧
    illegalBytes.Nodup ∧ illegalBytes.length = 105 ∧
    ((List.range 256).filter fun n => !illegalBytes.contains (BitVec.ofNat 8 n)).length = 151

/-! ### The step (64_scheduler, 60_exceptions) -/

/-- A step runs the instruction that the decoder reads from the bytes the bus gives at PC, PC + 1 and
PC + 2 (as many as it needs), on the state after those reads, and then lets the other units catch up
with the cycles the instruction added to the counter (R320, R1102). Where the fetch ends and `exec`
begins is the model's choice (log 3, log 17), and so is the place of the rewind capture (log 18). -/
def Obligations.StepRunsDecodedInstruction : Prop :=
  ∀ (s : State) (i : Instr) (rest : List Byte),
    let r0 := memRead s.cpu.pc s
    let r1 := memRead (s.cpu.pc + 1) r0.2
    let r2 := memRead (s.cpu.pc + 2) r1.2
    let fetched := match rest.length with
      | 2 => r0.2
      | 1 => r1.2
      | _ => r2.2
    decode [r0.1, r1.1, r2.1] = .ok (i, rest) →
      step s =
        match exec i fetched with
        | .next t =>
          .next (rewindCapture s.ppu.frame (catchUp (t.cpu.cycles - fetched.cpu.cycles).toNat t))
        | .fault f => .fault f
        | .refused f => .refused f

/-- The timing relations of R1108 for one step: some number `n` of CPU cycles passes, at least one,
by which both cycle counters grow; the PPU moves on by `3 n` dots and the APU emits `n` samples. -/
def Obligations.StepAdvancesEveryUnit : Prop :=
  ∀ s t : State, s.ppu.scanline ≤ 261 → s.ppu.cycle ≤ 340 → step s = .next t →
    ∃ n : Nat, 1 ≤ n ∧
      t.sched.totalCycles = s.sched.totalCycles + BitVec.ofNat 64 n ∧
      t.cpu.cycles = s.cpu.cycles + BitVec.ofNat 32 n ∧
      dotNumber t.ppu % (2 ^ 32 * 89342) = (dotNumber s.ppu + 3 * n) % (2 ^ 32 * 89342) ∧
      t.host.samples.length = s.host.samples.length + n

/-- R700 and R701: the only stop of any instruction is the illegal-opcode fault, under the mode that
has it, with the opcode and the PC it was fetched from. -/
def Obligations.OnlyIllegalOpcodesStop : Prop :=
  ∀ (i : Instr) (s : State),
    (∀ f, exec i s = .fault f → ∃ op, i = .illegal op ∧ s.params.illegalOpcodeMode = .fault ∧
      f = .illegalOpcode op s.cpu.pc) ∧
    ∀ r, exec i s ≠ .refused r

/-- R700: under the fallback mode the unit never fails at run time, from any state, for any number of
steps. -/
def Obligations.FallbackRunsAreSafe : Prop :=
  ∀ (n : Nat) (s : State), s.params.illegalOpcodeMode = .fallback → SafeRun n s

/-! ### Addressing (30_encoding) -/

/-- R324 to R329: the direct addresses. The zero-page ones wrap inside the zero page; the absolute ones
are modulo 65536, and have `crossed` when base and address lie in different pages; no form reads the
bus for its address. Of all instructions only LDX and STX use `zp,Y`. -/
def Obligations.DirectAddresses : Prop :=
  (∀ (b1 b2 : Byte) (s : State),
    let w := wordOf b2 b1
    let base := b1.toNat + 256 * b2.toNat
    let direct : AddrMode → Nat → Bool → Nat → Prop := fun m ea crossed len =>
      (resolve m s).ea.toNat = ea ∧ (resolve m s).crossed = crossed ∧ (resolve m s).state = s ∧
        modeLength m = len
    direct (.zp b1) b1.toNat false 2 ∧
    direct (.zpX b1) ((b1.toNat + s.cpu.x.toNat) % 256) false 2 ∧
    direct (.zpY b1) ((b1.toNat + s.cpu.y.toNat) % 256) false 2 ∧
    direct (.abs w) base false 3 ∧
    direct (.absX w) ((base + s.cpu.x.toNat) % 65536)
      (decide (base / 256 ≠ (base + s.cpu.x.toNat) % 65536 / 256)) 3 ∧
    direct (.absY w) ((base + s.cpu.y.toNat) % 65536)
      (decide (base / 256 ≠ (base + s.cpu.y.toNat) % 65536 / 256)) 3) ∧
  ∀ (i : Instr) (b : Byte),
    (∀ op, i.row = .read op (.mem (.zpY b)) → op = .ldx) ∧
    (∀ op, i.row = .store op (.zpY b) → op = .stx) ∧
    ∀ op, i.row ≠ .rmw op (.zpY b)

/-- R331 and R332: both pointer bytes come from the zero page, the low one first, and a pointer at
0xFF takes its high byte from 0x00; the reads change nothing but the bus latch. -/
def Obligations.IndirectAddresses : Prop :=
  ∀ (b : Byte) (s : State),
    let zero : Nat → Nat := fun n => (memGet s.bus.ram (n % 256)).toNat
    let p := b.toNat + s.cpu.x.toNat
    let x := resolve (.indX b) s
    let base := zero b.toNat + 256 * zero (b.toNat + 1)
    let y := resolve (.indY b) s
    x.ea.toNat = zero p + 256 * zero (p + 1) ∧ x.crossed = false ∧
    x.state = latchBus (memGet s.bus.ram ((p + 1) % 256)) s ∧ modeLength (.indX b) = 2 ∧
    y.ea.toNat = (base + s.cpu.y.toNat) % 65536 ∧ y.crossed = decide (base / 256 ≠ pageOf y.ea) ∧
    y.state = latchBus (memGet s.bus.ram ((b.toNat + 1) % 256)) s ∧ modeLength (.indY b) = 2

/-- Finding an operand reads it once, from the immediate byte or from the bus at the effective
address, and changes nothing but what reads may change: no CPU register, no byte of storage. -/
def Obligations.OperandReadsKeepStorage : Prop :=
  ∀ (m : ReadMode) (s : State),
    let o := readOperand m s
    (∀ b, m = .imm b → o.value = b ∧ o.crossed = false ∧ o.state = s) ∧
    (∀ am, m = .mem am → (o.value, o.state) = memRead (resolve am s).ea (resolve am s).state ∧
      o.crossed = (resolve am s).crossed) ∧
    OnlyReadEffects s o.state ∧ SameStorage s o.state

/-! ### Loads, stores, transfers (40_load_store_transfer) -/

/-- R400, R401 and R402: LDA, LDX and LDY in every form complete with the register and N and Z from
the operand; everything else is as the operand read left it. -/
def Obligations.LoadResult : Prop :=
  ∀ (b1 b2 : Byte) (s : State),
    (∀ r ∈ readRows .lda b1 (wordOf b2 b1), decodeBytes r.opcode b1 b2 = r.instr ∧
      let o := readOperand r.mode s
      exec r.instr s = .next (afterRead r o s { s.cpu with a := o.value, p := pNZ o.value s.cpu.p })) ∧
    (∀ r ∈ readRows .ldx b1 (wordOf b2 b1), decodeBytes r.opcode b1 b2 = r.instr ∧
      let o := readOperand r.mode s
      exec r.instr s = .next (afterRead r o s { s.cpu with x := o.value, p := pNZ o.value s.cpu.p })) ∧
    (∀ r ∈ readRows .ldy b1 (wordOf b2 b1), decodeBytes r.opcode b1 b2 = r.instr ∧
      let o := readOperand r.mode s
      exec r.instr s = .next (afterRead r o s { s.cpu with y := o.value, p := pNZ o.value s.cpu.p }))

/-- R403, R404 and R405: STA, STX and STY in every form complete with one bus write of the register at
the effective address; no flag and no other register changes, and the cycles do not depend on the
page. -/
def Obligations.StoreResult : Prop :=
  ∀ (op : StoreOp) (b1 b2 : Byte) (s : State), ∀ r ∈ storeRows op b1 (wordOf b2 b1),
    decodeBytes r.opcode b1 b2 = r.instr ∧
    let a := resolve r.mode s
    let v := match op with
      | .sta => s.cpu.a
      | .stx => s.cpu.x
      | .sty => s.cpu.y
    exec r.instr s =
      .next { memWrite a.ea v a.state with cpu := retired r.length r.cycles s.cpu }

/-- The frame of the stores: every byte of storage outside those that a write to the effective address
may change is unchanged, and a store to RAM leaves the register's value there and every unit but RAM
and the latch as it was. -/
def Obligations.StoreFrame : Prop :=
  ∀ (op : StoreOp) (b1 b2 : Byte) (s : State), ∀ r ∈ storeRows op b1 (wordOf b2 b1),
    let a := resolve r.mode s
    let v := match op with
      | .sta => s.cpu.a
      | .stx => s.cpu.x
      | .sty => s.cpu.y
    ∃ t, exec r.instr s = .next t ∧
      t.cpu = retired r.length r.cycles s.cpu ∧
      SameStorageBut (writeCells a.state a.ea) s t ∧
      (a.ea.toNat < 0x2000 →
        storedByte t .ram (a.ea.toNat % 0x800) = some v ∧ t.bus.openBus = v ∧
        t = { s with cpu := t.cpu, bus := { s.bus with ram := t.bus.ram, openBus := t.bus.openBus } })

/-- R406 to R411: the transfers; TXS alone sets no flag. -/
def Obligations.TransferResult : Prop :=
  ∀ s : State,
    decodeBytes 0xAA 0 0 = .tax ∧ exec .tax s =
      .next { s with cpu := retired 1 2 { s.cpu with x := s.cpu.a, p := pNZ s.cpu.a s.cpu.p } } ∧
    decodeBytes 0xA8 0 0 = .tay ∧ exec .tay s =
      .next { s with cpu := retired 1 2 { s.cpu with y := s.cpu.a, p := pNZ s.cpu.a s.cpu.p } } ∧
    decodeBytes 0x8A 0 0 = .txa ∧ exec .txa s =
      .next { s with cpu := retired 1 2 { s.cpu with a := s.cpu.x, p := pNZ s.cpu.x s.cpu.p } } ∧
    decodeBytes 0x98 0 0 = .tya ∧ exec .tya s =
      .next { s with cpu := retired 1 2 { s.cpu with a := s.cpu.y, p := pNZ s.cpu.y s.cpu.p } } ∧
    decodeBytes 0xBA 0 0 = .tsx ∧ exec .tsx s =
      .next { s with cpu := retired 1 2 { s.cpu with x := s.cpu.sp, p := pNZ s.cpu.sp s.cpu.p } } ∧
    decodeBytes 0x9A 0 0 = .txs ∧ exec .txs s =
      .next { s with cpu := retired 1 2 { s.cpu with sp := s.cpu.x } }

/-! ### The stack (41_stack) -/

/-- R450 and R451: PHA and PHP push A, or P with bits 5 and 4 set, at SP in page 1; SP goes down by
one modulo 256; no flag and no other byte changes. -/
def Obligations.PushResult : Prop :=
  ∀ s : State,
    decodeBytes 0x48 0 0 = .pha ∧ decodeBytes 0x08 0 0 = .php ∧
    (∃ t, exec .pha s = .next t ∧ t.cpu = retired 1 3 { s.cpu with sp := s.cpu.sp - 1 } ∧
      storedByte t .ram (stackCell s.cpu.sp) = some s.cpu.a ∧
      SameStorageBut (pushedCells 1 s.cpu.sp) s t ∧ OnlyStackEffects s t) ∧
    ∃ t, exec .php s = .next t ∧ t.cpu = retired 1 3 { s.cpu with sp := s.cpu.sp - 1 } ∧
      storedByte t .ram (stackCell s.cpu.sp) = some ((s.cpu.p &&& 0xCF) ||| 0x30) ∧
      SameStorageBut (pushedCells 1 s.cpu.sp) s t ∧ OnlyStackEffects s t

/-- R452 and R453: PLA and PLP take the byte above SP in page 1; PLA sets A, N and Z; PLP sets the six
real flags, bits 5 and 4 of the byte being ignored; no byte of storage changes. -/
def Obligations.PullResult : Prop :=
  ∀ s : State,
    let v := memGet s.bus.ram (stackCell (s.cpu.sp + 1))
    decodeBytes 0x68 0 0 = .pla ∧ decodeBytes 0x28 0 0 = .plp ∧
    exec .pla s =
      .next { latchBus v s with
        cpu := retired 1 4 { s.cpu with sp := s.cpu.sp + 1, a := v, p := pNZ v s.cpu.p } } ∧
    exec .plp s =
      .next { latchBus v s with
        cpu := retired 1 4 { s.cpu with sp := s.cpu.sp + 1, p := (v &&& 0xCF) ||| 0x20 } }

/-! ### Arithmetic and logic (42_arithmetic_logic) -/

/-- R500 and R522 for ADC: the sum of A, the operand and C modulo 256, C the carry out, V the signed
overflow, N and Z of the result; D changes nothing and every other bit of P is kept. -/
def Obligations.AdcResult : Prop :=
  ∀ (b1 b2 : Byte) (s : State), ∀ r ∈ readRows .adc b1 (wordOf b2 b1),
    decodeBytes r.opcode b1 b2 = r.instr ∧
    let o := readOperand r.mode s
    let c : Nat := if s.cpu.p.getLsbD 0 then 1 else 0
    ∃ a p : Byte,
      exec r.instr s = .next (afterRead r o s { s.cpu with a := a, p := p }) ∧
      a.toNat = (s.cpu.a.toNat + o.value.toNat + c) % 256 ∧
      p.getLsbD 0 = decide (256 ≤ s.cpu.a.toNat + o.value.toNat + c) ∧
      p.getLsbD 1 = decide (a = 0) ∧
      p.getLsbD 7 = a.getLsbD 7 ∧
      p.getLsbD 6 = decide (s.cpu.a.toInt + o.value.toInt + c < -128 ∨
        127 < s.cpu.a.toInt + o.value.toInt + c) ∧
      p &&& 0x3C = s.cpu.p &&& 0x3C

/-- R501 and R522 for SBC: the difference modulo 256, C when there is no borrow, V the signed
overflow; it equals ADC of the operand's complement. -/
def Obligations.SbcResult : Prop :=
  ∀ (b1 b2 : Byte) (s : State), ∀ r ∈ readRows .sbc b1 (wordOf b2 b1),
    decodeBytes r.opcode b1 b2 = r.instr ∧
    let o := readOperand r.mode s
    let c : Nat := if s.cpu.p.getLsbD 0 then 1 else 0
    ∃ a p : Byte,
      exec r.instr s = .next (afterRead r o s { s.cpu with a := a, p := p }) ∧
      a.toNat = (s.cpu.a.toNat + (255 - o.value.toNat) + c) % 256 ∧
      p.getLsbD 0 = decide (o.value.toNat + (1 - c) ≤ s.cpu.a.toNat) ∧
      p.getLsbD 1 = decide (a = 0) ∧
      p.getLsbD 7 = a.getLsbD 7 ∧
      p.getLsbD 6 = decide (s.cpu.a.toInt - o.value.toInt - (1 - (c : Int)) < -128 ∨
        127 < s.cpu.a.toInt - o.value.toInt - (1 - (c : Int))) ∧
      p &&& 0x3C = s.cpu.p &&& 0x3C

/-- R502, R503 and R504: AND, ORA and EOR into A, N and Z of the result, every other bit of P kept. -/
def Obligations.LogicResult : Prop :=
  ∀ (b1 b2 : Byte) (s : State),
    (∀ r ∈ readRows .and b1 (wordOf b2 b1), decodeBytes r.opcode b1 b2 = r.instr ∧
      let o := readOperand r.mode s
      let a := s.cpu.a &&& o.value
      exec r.instr s = .next (afterRead r o s { s.cpu with a := a, p := pNZ a s.cpu.p })) ∧
    (∀ r ∈ readRows .ora b1 (wordOf b2 b1), decodeBytes r.opcode b1 b2 = r.instr ∧
      let o := readOperand r.mode s
      let a := s.cpu.a ||| o.value
      exec r.instr s = .next (afterRead r o s { s.cpu with a := a, p := pNZ a s.cpu.p })) ∧
    (∀ r ∈ readRows .eor b1 (wordOf b2 b1), decodeBytes r.opcode b1 b2 = r.instr ∧
      let o := readOperand r.mode s
      let a := s.cpu.a ^^^ o.value
      exec r.instr s = .next (afterRead r o s { s.cpu with a := a, p := pNZ a s.cpu.p }))

/-- R505: BIT sets Z from A and the operand, N and V from bits 7 and 6 of the operand; A and the other
bits of P are kept. -/
def Obligations.BitResult : Prop :=
  ∀ (b1 b2 : Byte) (s : State), ∀ r ∈ readRows .bit b1 (wordOf b2 b1),
    decodeBytes r.opcode b1 b2 = r.instr ∧
    let o := readOperand r.mode s
    ∃ p : Byte,
      exec r.instr s = .next (afterRead r o s { s.cpu with p := p }) ∧
      p.getLsbD 1 = decide (s.cpu.a &&& o.value = 0) ∧
      p.getLsbD 7 = o.value.getLsbD 7 ∧
      p.getLsbD 6 = o.value.getLsbD 6 ∧
      p &&& 0x3D = s.cpu.p &&& 0x3D

/-- R523, R506, R507 and R508: the compares set C when the register is not below the operand, Z when
they are equal, N from bit 7 of the difference; V, the register and the other bits of P are kept. -/
def Obligations.CompareResult : Prop :=
  ∀ (b1 b2 : Byte) (s : State),
    (∀ r ∈ readRows .cmp b1 (wordOf b2 b1), decodeBytes r.opcode b1 b2 = r.instr ∧
      let o := readOperand r.mode s
      exec r.instr s = .next (afterRead r o s { s.cpu with
        p := pCNZ (decide (o.value.toNat ≤ s.cpu.a.toNat)) (s.cpu.a - o.value) s.cpu.p })) ∧
    (∀ r ∈ readRows .cpx b1 (wordOf b2 b1), decodeBytes r.opcode b1 b2 = r.instr ∧
      let o := readOperand r.mode s
      exec r.instr s = .next (afterRead r o s { s.cpu with
        p := pCNZ (decide (o.value.toNat ≤ s.cpu.x.toNat)) (s.cpu.x - o.value) s.cpu.p })) ∧
    (∀ r ∈ readRows .cpy b1 (wordOf b2 b1), decodeBytes r.opcode b1 b2 = r.instr ∧
      let o := readOperand r.mode s
      exec r.instr s = .next (afterRead r o s { s.cpu with
        p := pCNZ (decide (o.value.toNat ≤ s.cpu.y.toNat)) (s.cpu.y - o.value) s.cpu.p }))

/-- R511 to R514: INX, INY, DEX and DEY modulo 256 with N and Z of the result. -/
def Obligations.IndexStepResult : Prop :=
  ∀ s : State,
    decodeBytes 0xE8 0 0 = .inx ∧ exec .inx s =
      .next { s with cpu := retired 1 2 { s.cpu with x := s.cpu.x + 1, p := pNZ (s.cpu.x + 1) s.cpu.p } } ∧
    decodeBytes 0xC8 0 0 = .iny ∧ exec .iny s =
      .next { s with cpu := retired 1 2 { s.cpu with y := s.cpu.y + 1, p := pNZ (s.cpu.y + 1) s.cpu.p } } ∧
    decodeBytes 0xCA 0 0 = .dex ∧ exec .dex s =
      .next { s with cpu := retired 1 2 { s.cpu with x := s.cpu.x - 1, p := pNZ (s.cpu.x - 1) s.cpu.p } } ∧
    decodeBytes 0x88 0 0 = .dey ∧ exec .dey s =
      .next { s with cpu := retired 1 2 { s.cpu with y := s.cpu.y - 1, p := pNZ (s.cpu.y - 1) s.cpu.p } }

/-! ### Read-modify-write (42_arithmetic_logic, 43_shift_rotate) -/

/-- R509, R510 and R550 to R553: the memory forms make one bus read at the effective address and one bus
write of the result there, P from the result and the carry, and their cycles do not depend on the
page; the accumulator forms do the same to A. -/
def Obligations.ReadModifyWriteResult : Prop :=
  (∀ (op : RmwOp) (b1 b2 : Byte) (s : State), ∀ r ∈ rmwRows op b1 (wordOf b2 b1),
    decodeBytes r.opcode b1 b2 = r.instr ∧
    let a := resolve r.mode s
    let v := memRead a.ea a.state
    let out := rmwResult op v.1 (s.cpu.p.getLsbD 0)
    exec r.instr s =
      .next { memWrite a.ea out.1 v.2 with
        cpu := retired r.length r.cycles { s.cpu with p := pCNZ out.2 out.1 s.cpu.p } }) ∧
  ∀ s : State, ∀ r ∈ [((0x0A : Byte), Instr.aslA, RmwOp.asl), (0x4A, .lsrA, .lsr), (0x2A, .rolA, .rol),
      (0x6A, .rorA, .ror)],
    decodeBytes r.1 0 0 = r.2.1 ∧
    let out := rmwResult r.2.2 s.cpu.a (s.cpu.p.getLsbD 0)
    exec r.2.1 s =
      .next { s with cpu := retired 1 2 { s.cpu with a := out.1, p := pCNZ out.2 out.1 s.cpu.p } }

/-- The frame of the read-modify-write instructions on memory: only P, PC and the counter of the CPU
change; every byte outside those a write to the effective address may change is unchanged; on RAM
the result stands at that byte and no other unit changes. -/
def Obligations.ReadModifyWriteFrame : Prop :=
  ∀ (op : RmwOp) (b1 b2 : Byte) (s : State), ∀ r ∈ rmwRows op b1 (wordOf b2 b1),
    let a := resolve r.mode s
    let v := memRead a.ea a.state
    let out := rmwResult op v.1 (s.cpu.p.getLsbD 0)
    ∃ t, exec r.instr s = .next t ∧
      t.cpu = { s.cpu with p := t.cpu.p, pc := t.cpu.pc, cycles := t.cpu.cycles } ∧
      t.cpu.p &&& 0x7C = s.cpu.p &&& 0x7C ∧
      SameStorageBut (writeCells v.2 a.ea) s t ∧
      (a.ea.toNat < 0x2000 →
        v.1 = memGet s.bus.ram (a.ea.toNat % 0x800) ∧
        storedByte t .ram (a.ea.toNat % 0x800) = some out.1 ∧
        t = { s with cpu := t.cpu, bus := { s.bus with ram := t.bus.ram, openBus := t.bus.openBus } })

/-! ### Control transfer (44_control_transfer) -/

/-- R600 and R333: JMP; the pointer of the indirect form does not leave its page for the high byte. -/
def Obligations.JumpResult : Prop :=
  ∀ (b1 b2 : Byte) (s : State),
    let w := wordOf b2 b1
    let lo := memRead w s
    let hi := memRead (wordOf b2 (b1 + 1)) lo.2
    decodeBytes 0x4C b1 b2 = .jmpAbs w ∧
    exec (.jmpAbs w) s =
      .next { s with cpu := { s.cpu with pc := w, cycles := s.cpu.cycles + 3 } } ∧
    decodeBytes 0x6C b1 b2 = .jmpInd w ∧
    exec (.jmpInd w) s =
      .next { hi.2 with cpu := { s.cpu with pc := wordOf hi.1 lo.1, cycles := s.cpu.cycles + 5 } } ∧
    OnlyReadEffects s hi.2

/-- R601 and R602: JSR pushes the address of its last byte, high byte first, and jumps; RTS pulls an
address and adds one. No flag changes. -/
def Obligations.CallAndReturnResult : Prop :=
  ∀ (b1 b2 : Byte) (s : State),
    let lo := memGet s.bus.ram (stackCell (s.cpu.sp + 1))
    let hi := memGet s.bus.ram (stackCell (s.cpu.sp + 2))
    decodeBytes 0x20 b1 b2 = .jsr (wordOf b2 b1) ∧ decodeBytes 0x60 b1 b2 = .rts ∧
    (∃ t, exec (.jsr (wordOf b2 b1)) s = .next t ∧
      t.cpu = { s.cpu with
        sp := s.cpu.sp - 2, pc := wordOf b2 b1, cycles := s.cpu.cycles + 6 } ∧
      storedByte t .ram (stackCell s.cpu.sp) = some (hiByte (s.cpu.pc + 2)) ∧
      storedByte t .ram (stackCell (s.cpu.sp - 1)) = some (loByte (s.cpu.pc + 2)) ∧
      SameStorageBut (pushedCells 2 s.cpu.sp) s t ∧ OnlyStackEffects s t) ∧
    exec .rts s =
      .next { latchBus hi s with
        cpu := { s.cpu with
          sp := s.cpu.sp + 2, pc := wordOf hi lo + 1, cycles := s.cpu.cycles + 6 } }

/-- From R601 and R602: an RTS that finds SP and the two stacked bytes as a JSR left them, whatever
else has changed, returns to the byte after the JSR with SP as before it. -/
def Obligations.ReturnFollowsCall : Prop :=
  ∀ (w : Word) (s t u : State), exec (.jsr w) s = .next t →
    u.cpu.sp = t.cpu.sp →
    storedByte u .ram (stackCell s.cpu.sp) = storedByte t .ram (stackCell s.cpu.sp) →
    storedByte u .ram (stackCell (s.cpu.sp - 1)) = storedByte t .ram (stackCell (s.cpu.sp - 1)) →
    ∃ v, exec .rts u = .next v ∧ v.cpu.pc = s.cpu.pc + 3 ∧ v.cpu.sp = s.cpu.sp ∧ v.cpu.p = u.cpu.p ∧
      SameStorage u v

/-- R603 to R611 and R334: a branch goes to PC + 2 plus its signed offset, modulo 65536, when its flag
has its value, and to PC + 2 otherwise: 2 cycles, 3 when taken, 4 when taken to another page; no flag
and no byte of storage changes. (V78 of the test vectors differs from the rule; log 15.) -/
def Obligations.BranchResult : Prop :=
  ∀ (b1 b2 : Byte) (s : State),
    ∀ r ∈ [((0x90 : Byte), Instr.bcc b1, BranchOp.bcc), (0xB0, .bcs b1, .bcs), (0xF0, .beq b1, .beq),
      (0x30, .bmi b1, .bmi), (0xD0, .bne b1, .bne), (0x10, .bpl b1, .bpl), (0x50, .bvc b1, .bvc),
      (0x70, .bvs b1, .bvs)],
    decodeBytes r.1 b1 b2 = r.2.1 ∧
    ∃ target : Word,
      (target.toNat : Int) = ((s.cpu.pc.toNat : Int) + 2 + b1.toInt) % 65536 ∧
      exec r.2.1 s =
        .next { s with
          cpu := { s.cpu with
            pc := if branchTaken r.2.2 s.cpu.p then target else s.cpu.pc + 2
            cycles := s.cpu.cycles +
              if branchTaken r.2.2 s.cpu.p then
                if pageOf target = pageOf (s.cpu.pc + 2) then 3 else 4
              else 2 } }

/-! ### Flags and system (45_flags_system) -/

/-- R650 to R657: each flag instruction writes its one bit of P, and NOP nothing. -/
def Obligations.FlagInstructionResult : Prop :=
  ∀ s : State,
    (∀ r ∈ [((0x18 : Byte), Instr.clc, s.cpu.p &&& 0xFE), (0x38, .sec, s.cpu.p ||| 0x01),
        (0x58, .cli, s.cpu.p &&& 0xFB), (0x78, .sei, s.cpu.p ||| 0x04),
        (0xD8, .cld, s.cpu.p &&& 0xF7), (0xF8, .sed, s.cpu.p ||| 0x08),
        (0xB8, .clv, s.cpu.p &&& 0xBF), (0xEA, .nop, s.cpu.p)],
      decodeBytes r.1 0 0 = r.2.1 ∧
      exec r.2.1 s = .next { s with cpu := retired 1 2 { s.cpu with p := r.2.2 } })

/-- R658: BRK enters through 0xFFFE with PC + 2 and P with bits 5 and 4 set on the stack, whatever I
is, in 7 cycles. -/
def Obligations.BreakResult : Prop :=
  ∀ s : State, decodeBytes 0x00 0 0 = .brk ∧
    ∃ t, exec .brk s = .next t ∧ InterruptEntry 0xFFFE (s.cpu.pc + 2) true s t ∧
      t.cpu.cycles = s.cpu.cycles + 7 ∧ t.cpu.nmiPending = s.cpu.nmiPending

/-- R659: RTI pulls P, of which bits 5 and 4 are ignored, then PC; no byte of storage changes. -/
def Obligations.ReturnFromInterruptResult : Prop :=
  ∀ s : State,
    let v := memGet s.bus.ram (stackCell (s.cpu.sp + 1))
    let lo := memGet s.bus.ram (stackCell (s.cpu.sp + 2))
    let hi := memGet s.bus.ram (stackCell (s.cpu.sp + 3))
    decodeBytes 0x40 0 0 = .rti ∧
    exec .rti s =
      .next { latchBus hi s with
        cpu := { s.cpu with
          sp := s.cpu.sp + 3, p := (v &&& 0xCF) ||| 0x20, pc := wordOf hi lo,
          cycles := s.cpu.cycles + 6 } }

/-- R660 and R701: an illegal byte is, under Fallback, a recorded no-op of one byte and one cycle, and
under Fault the fault with its opcode and PC. -/
def Obligations.IllegalOpcodeResult : Prop :=
  ∀ op ∈ illegalBytes, ∀ (b1 b2 : Byte) (s : State),
    decodeBytes op b1 b2 = .illegal op ∧ opcodeLength op = 1 ∧
    (s.params.illegalOpcodeMode = .fallback →
      exec (.illegal op) s =
        .next { s with
          cpu := retired 1 1
            { s.cpu with illegalSeen := true, illegalCount := s.cpu.illegalCount + 1 } }) ∧
    (s.params.illegalOpcodeMode = .fault →
      exec (.illegal op) s = .fault (.illegalOpcode op s.cpu.pc))

/-! ### Interrupts (60_exceptions, 64_scheduler) -/

/-- From R658, R659, R704 and R705: an RTI that finds SP and the three stacked bytes as an interrupt
entry left them resumes at the saved PC with the saved flags and SP. -/
def Obligations.ReturnFollowsEntry : Prop :=
  ∀ (vector ret : Word) (b : Bool) (s t u : State), storedP s.cpu.p = s.cpu.p →
    InterruptEntry vector ret b s t → u.cpu.sp = t.cpu.sp →
    (∀ n, pushedCells 3 s.cpu.sp .ram n = true → storedByte u .ram n = storedByte t .ram n) →
    ∃ v, exec .rti u = .next v ∧ v.cpu.pc = ret ∧ v.cpu.p = s.cpu.p ∧ v.cpu.sp = s.cpu.sp ∧
      SameStorage u v

/-- R704, R705 and R706: the poll takes the NMI first, then an IRQ that I does not mask, and otherwise
does nothing; either is entered through its vector with PC and P (B = 0) on the stack, in 7 cycles,
and only the NMI clears `nmi_pending`. -/
def Obligations.InterruptServiceResult : Prop :=
  ∀ s : State,
    let irq := s.apu.frameIrq = true ∨ s.apu.dmcIrq = true
    let r := serviceInterrupt s
    (s.cpu.nmiPending = true →
      InterruptEntry 0xFFFA s.cpu.pc false s r.2 ∧ r.2.cpu.nmiPending = false ∧ r.1 = 7 ∧
      r.2.cpu.cycles = s.cpu.cycles + 7) ∧
    (s.cpu.nmiPending = false → irq → s.cpu.p.getLsbD 2 = false →
      InterruptEntry 0xFFFE s.cpu.pc false s r.2 ∧ r.2.cpu.nmiPending = false ∧ r.1 = 7 ∧
      r.2.cpu.cycles = s.cpu.cycles + 7) ∧
    (s.cpu.nmiPending = false → ¬irq ∨ s.cpu.p.getLsbD 2 = true → r = (0, s))

/-- R1103, R1104, R813 and R842: the delivery of an NMI. A countdown of `d` makes the NMI pending at the
end of the `d`-th PPU tick and no earlier, and nothing the PPU does meanwhile stops or shortens it. An
edge makes the NMI pending at once when the delay is 0, is merged into a running countdown, and
otherwise starts one of the delay, but for an edge while an NMI is pending: that one is merged where
the model's field says so (R703, R114) and starts a countdown where it does not (log 28). So the NMI
of the VBlank set becomes pending the delay after that tick, and the one of a PPUCTRL write the delay
after the edge is taken, for every delay that a u8 holds (log 14). -/
def Obligations.NmiCountdownExpires : Prop :=
  ∀ s : State,
    let delay := s.params.nmiDelay
    let idle := s.sched.nmiCountdown = 0 ∧ s.cpu.nmiPending = false
    let merged := s.sched.nmiCountdown ≠ 0 ∨
      (s.params.pendingNmiMergesEdge = true ∧ s.cpu.nmiPending = true)
    let taken : State := { s with ppu := { s.ppu with nmiEdge := false } }
    (∀ d, 1 ≤ d → d ≤ 255 → delay ≠ 0 → s.sched.nmiCountdown = BitVec.ofNat 8 d →
      (∀ k < d, (tickPpuN k s).cpu.nmiPending = s.cpu.nmiPending ∧
        (tickPpuN k s).sched.nmiCountdown = BitVec.ofNat 8 (d - k)) ∧
      (tickPpuN d s).cpu.nmiPending = true) ∧
    (s.ppu.nmiEdge = false → takeEdge s = s) ∧
    (s.ppu.nmiEdge = true →
      (delay = 0 → takeEdge s = { taken with cpu := { s.cpu with nmiPending := true } }) ∧
      (delay ≠ 0 → merged → takeEdge s = taken) ∧
      (delay ≠ 0 → ¬merged → takeEdge s =
        { taken with sched := { s.sched with nmiCountdown := BitVec.ofNat 8 delay } }) ∧
      (1 ≤ delay → delay ≤ 255 → idle →
        (∀ k < delay, (tickPpuN k (takeEdge s)).cpu.nmiPending = false) ∧
        (tickPpuN delay (takeEdge s)).cpu.nmiPending = true)) ∧
    (delay ≤ 255 → idle → s.ppu.scanline = 241 → s.ppu.cycle = 1 → s.ppu.ctrl.getLsbD 7 = true →
      (∀ k ≤ delay, (tickPpuN k s).cpu.nmiPending = false) ∧
        (tickPpuN (delay + 1) s).cpu.nmiPending = true) ∧
    ∀ d : Byte, delay ≤ 255 → idle → s.ppu.vblank = true → s.ppu.ctrl.getLsbD 7 = false →
      d.getLsbD 7 = true →
      let w := takeEdge (memWrite 0x2000 d s)
      (∀ k < delay, (tickPpuN k w).cpu.nmiPending = false) ∧
        (tickPpuN delay w).cpu.nmiPending = true

/-! ### Reset (70_reset_and_hazards) -/

/-- R1300 and R1302: the whole effect of the console reset: PC is read through the bus after the other
resets, and A, X, Y, the flags C, Z, D, V, N, the illegal record, the memories, the controller ports,
the mapper, the mixer settings and the total cycles are as they were. -/
def Obligations.ResetResult : Prop :=
  ∀ s : State,
    consoleReset s =
      { s with
        cpu :=
          { s.cpu with
            sp := 0xFF
            p := (s.cpu.p &&& 0xCF) ||| 0x24
            cycles := 0
            nmiPending := false
            pc := vectorRead s s.bus.openBus 0xFFFC }
        bus :=
          { s.bus with stall := 0, openBus := hiByte (vectorRead s s.bus.openBus 0xFFFC) }
        ppu :=
          { Ppu.reset with
            oam := s.ppu.oam, ntRam := s.ppu.ntRam, ntFour := s.ppu.ntFour, palette := s.ppu.palette }
        apu := { Apu.create with mixer := { s.apu.mixer with lpfY := 0 } }
        sched := { s.sched with nmiCountdown := 0 } }

/-- R1303: whatever bytes the mapper returns at the reset vector, reset gives that PC, SP = 0xFF and
I = 1; on the fixed-bank mapper with a 16 KiB image and no trainer they are the image bytes at 16 +
0x3FFC and 16 + 0x3FFD. -/
def Obligations.ResetVectorProperty : Prop :=
  (∀ (s : State) (lo hi : Byte),
    mapperRead s.params s.cart 0xFFFC = some lo → mapperRead s.params s.cart 0xFFFD = some hi →
    (consoleReset s).cpu.pc = wordOf hi lo ∧ (consoleReset s).cpu.sp = 0xFF ∧
    (consoleReset s).cpu.p.getLsbD 2 = true) ∧
  ∀ (image : List Byte) (battery : Option (List Byte)) (s t : State),
    image.getD 4 0 = 1 → (image.getD 6 0).getLsbD 2 = false →
    romMapperId (image.getD 6 0) (image.getD 7 0) = 0 → loadRom image battery s = .ok t →
    t.cpu.pc = wordOf (image.getD (16 + 0x3FFD) 0) (image.getD (16 + 0x3FFC) 0)

/-! ### The bus (20_memory) -/

/-- R202 and R210 to R214 for CPU RAM: 2 KiB, mirrored four times; a read gives the last byte written
to the cell, and changes nothing but the bus latch. -/
def Obligations.RamReadAfterWrite : Prop :=
  ∀ (a c : Word) (v : Byte) (s : State), a.toNat < 0x2000 → c.toNat < 0x2000 →
    (memRead c (memWrite a v s)).1 =
        (if c.toNat % 0x800 = a.toNat % 0x800 then v else (memRead c s).1) ∧
      (memRead c s).2 = latchBus (memRead c s).1 s ∧
      SameStorageBut (fun k n => k == .ram && n == a.toNat % 0x800) s (memWrite a v s)

/-- R218: the OAM DMA changes, of storage, OAM alone, charges 513 stall cycles and leaves OAMADDR; from
a RAM page it copies the 256 bytes from OAMADDR on, modulo 256. -/
def Obligations.OamDmaCopies : Prop :=
  ∀ (d : Byte) (s : State),
    let t := memWrite 0x4014 d s
    t.cpu = s.cpu ∧ t.bus.stall = s.bus.stall + 513 ∧ t.ppu.oamaddr = s.ppu.oamaddr ∧
      SameStorageBut (fun k n => k == .oam && decide (n < 256)) s t ∧
      (d.toNat < 0x20 → ∀ i < 256,
        storedByte t .oam ((s.ppu.oamaddr.toNat + i) % 256) =
          storedByte s .ram ((d.toNat * 256 + i) % 0x800))

/-- R219: after the strobe is written 1 and then 0, the reads of a port give its eight buttons in
order, A first, and then 1 for ever, bit 6 always set. -/
def Obligations.ControllerReads : Prop :=
  ∀ (v w : Byte) (s : State) (k : Nat), v.getLsbD 0 = true → w.getLsbD 0 = false →
    let s0 := memWrite 0x4016 w (memWrite 0x4016 v s)
    (memRead 0x4016 ((fun t => (memRead 0x4016 t).2)^[k] s0)).1 =
        0x40 ||| (if k < 8 ∧ s.bus.ctrlButtons0.getLsbD k = false then 0 else 1) ∧
      (memRead 0x4017 ((fun t => (memRead 0x4017 t).2)^[k] s0)).1 =
        0x40 ||| (if k < 8 ∧ s.bus.ctrlButtons1.getLsbD k = false then 0 else 1)

/-! ### The PPU (61_ppu) -/

/-- R832: a PPUSTATUS read through any mirror gives the three flags over the latch's low five bits,
clears the VBlank flag and the write toggle, sets the latch, and changes nothing else but the bus
latch; R844: the next read gives bit 7 = 0. -/
def Obligations.StatusRead : Prop :=
  ∀ (a : Word) (s : State), 0x2000 ≤ a.toNat → a.toNat ≤ 0x3FFF → a.toNat % 8 = 2 →
    let r : Byte := (if s.ppu.vblank then 0x80 else 0) ||| (if s.ppu.s0hit then 0x40 else 0) |||
      (if s.ppu.ovf then 0x20 else 0) ||| (s.ppu.ioLatch &&& 0x1F)
    memRead a s =
        (r, { s with
          bus := { s.bus with openBus := r }
          ppu := { s.ppu with vblank := false, w := false, ioLatch := r } }) ∧
      (memRead a (memRead a s).2).1.getLsbD 7 = false

/-- R837 and R839: two PPUADDR writes from a clear toggle set `v` and `t` to the 14-bit address, and
two PPUSCROLL writes set the coarse and fine scroll; the toggle is clear again. -/
def Obligations.AddressAndScrollWrites : Prop :=
  ∀ (d e : Byte) (s : State), s.ppu.w = false →
    let addr := (memWrite 0x2006 e (memWrite 0x2006 d s)).ppu
    let scroll := (memWrite 0x2005 e (memWrite 0x2005 d s)).ppu
    addr.v.toNat = d.toNat % 64 * 256 + e.toNat ∧ addr.t = addr.v ∧ addr.w = false ∧
    addr.x = s.ppu.x ∧
    scroll.t.toNat = e.toNat % 8 * 4096 + s.ppu.t.toNat / 1024 % 4 * 1024 + e.toNat / 8 * 32 +
      d.toNat / 8 ∧
    scroll.x.toNat = d.toNat % 8 ∧ scroll.v = s.ppu.v ∧ scroll.w = false

/-- R838 and R840: a PPUDATA read below the palette returns the read buffer and refills it, a read of
the palette returns its six bits at once under the latch's top two and refills the buffer from the
nametable byte below; `v` moves on by 1 or 32 modulo 2^15; no byte of storage changes. R821 to R823:
what the PPU reads at an address is the byte of storage there, CHR-ROM included, and 0 in the pattern
range with no cartridge; which byte that is DataWrite says in numbers. -/
def Obligations.DataRead : Prop :=
  ∀ s : State,
    let a := s.ppu.v.toNat % 0x4000
    let inc := if s.ppu.ctrl.getLsbD 2 then 32 else 1
    let r := memRead 0x2007 s
    (r.1 = (if a < 0x3F00 then s.ppu.readBuffer
      else (s.ppu.ioLatch &&& 0xC0) ||| (ppuRead s.cart s.ppu (BitVec.ofNat 14 a) &&& 0x3F)) ∧
    r.2.ppu =
      { s.ppu with
        readBuffer := ppuRead s.cart s.ppu (BitVec.ofNat 14 (if a < 0x3F00 then a else a - 0x1000))
        v := BitVec.ofNat 15 (s.ppu.v.toNat + inc)
        ioLatch := r.1 } ∧
    SameStorage s r.2) ∧
    ∀ b : BitVec 14,
      (∀ k n, vramCell s b = some (k, n) → storedByte s k n = some (ppuRead s.cart s.ppu b)) ∧
      (b.toNat < 0x2000 →
        ppuRead s.cart s.ppu b =
          match s.cart with
          | none => 0
          | some c => memGet c.chr (chrOffset c b.toNat))

/-- R838, R821, R822, R823 and R905: a PPUDATA write stores the byte at `v` and nowhere else: in
CHR-RAM, in the nametable page the cartridge's mirroring gives, or six bits of it in the palette, whose
sprite entries 0x10, 0x14, 0x18 and 0x1C are the background's; CHR-ROM is not written. Afterwards the
PPU reads the byte, or its six bits, at every address of that cell, and at every other address what it
read before. The pages and the palette entries in numbers suppose what the invariant says: a
four-screen cartridge has its four pages of RAM. -/
def Obligations.DataWrite : Prop :=
  ∀ (d : Byte) (s : State),
    let a : BitVec 14 := s.ppu.v.setWidth 14
    let t := memWrite 0x2007 d s
    (∀ k n, vramCell s a = some (k, n) →
      storedByte t k n = some (if k = .palette then d &&& 0x3F else d)) ∧
    (∀ k n, vramCell s a ≠ some (k, n) → storedByte t k n = storedByte s k n) ∧
    t.ppu.v = BitVec.ofNat 15 (s.ppu.v.toNat + if s.ppu.ctrl.getLsbD 2 then 32 else 1) ∧
    (∀ b : BitVec 14,
      ppuRead t.cart t.ppu b =
        if vramCell s a ≠ none ∧ vramCell s b = vramCell s a then
          if b.toNat < 0x3F00 then d else d &&& 0x3F
        else ppuRead s.cart s.ppu b) ∧
    ∀ (c : Cartridge) (b : BitVec 14), s.cart = some c → c.fourScreen = s.ppu.ntFour →
      vramCell s b =
        if b.toNat < 0x2000 then if c.nchr = 0 then some (.chr, chrOffset c b.toNat) else none
        else if b.toNat < 0x3F00 then
          some (.nametable, mirrorPage c (b.toNat / 0x400 % 4) * 0x400 + b.toNat % 0x400)
        else some (.palette, paletteCell (b.toNat % 0x20))

/-- R811: a frame is exactly 262 · 341 = 89342 ticks: after any number of ticks the coordinate and the
frame number are those of the dots counted from frame 0. -/
def Obligations.FrameLength : Prop :=
  ∀ (cart : Option Cartridge) (p : Ppu) (n : Nat), p.scanline ≤ 261 → p.cycle ≤ 340 →
    let q := (ppuTick cart)^[n] p
    q.scanline ≤ 261 ∧ q.cycle ≤ 340 ∧
      dotNumber q % (2 ^ 32 * 89342) = (dotNumber p + n) % (2 ^ 32 * 89342) ∧
      (n = 89342 → q.scanline = p.scanline ∧ q.cycle = p.cycle ∧ q.frame = p.frame + 1)

/-- R813, R814 and R815: from (241, 1) on, the VBlank flag is 1 after every tick up to the one at
(261, 1), which clears it together with the sprite flags; the set makes an NMI edge when PPUCTRL
bit 7 is 1. -/
def Obligations.VblankWindow : Prop :=
  ∀ (cart : Option Cartridge) (p : Ppu) (n : Nat), p.scanline = 241 → p.cycle = 1 → 1 ≤ n →
    n ≤ 6821 →
    let q := (ppuTick cart)^[n] p
    q.vblank = decide (n ≤ 6820) ∧ q.nmiEdge = (p.nmiEdge || p.ctrl.getLsbD 7) ∧
      (n = 6821 → q.s0hit = false ∧ q.ovf = false)

/-- R861: sprite evaluation appends the first eight sprites in range of the line, in OAM order, and
sets the overflow flag exactly when there is a ninth. -/
def Obligations.SpriteEvaluation : Prop :=
  ∀ p : Ppu,
    let found := (List.range 64).filter fun i =>
      decide ((memGet p.oam (4 * i)).toNat ≤ p.scanline ∧
        p.scanline - (memGet p.oam (4 * i)).toNat < if p.ctrl.getLsbD 5 then 16 else 8)
    let q := evaluateSprites p
    q.sprNext.length = p.sprNext.length + min 8 found.length ∧
      (q.sprNext.drop p.sprNext.length).map (fun e => e.index.toNat) = found.take 8 ∧
      (∀ e ∈ q.sprNext.drop p.sprNext.length,
        e.y = memGet p.oam (4 * e.index.toNat) ∧ e.tile = memGet p.oam (4 * e.index.toNat + 1) ∧
        e.attr = memGet p.oam (4 * e.index.toNat + 2) ∧ e.xpos = memGet p.oam (4 * e.index.toNat + 3) ∧
        e.row.toNat = p.scanline - e.y.toNat ∧
        heightLines e.height = if p.ctrl.getLsbD 5 then 16 else 8) ∧
      q.ovf = (p.ovf || decide (9 ≤ found.length)) ∧
      q = { p with sprNext := q.sprNext, ovf := q.ovf }

/-! ### The mapper (62_mapper) -/

/-- R926: from any state of the serial-shift mapper, a write with bit 7 set and five writes to
0xE000-0xFFFF of the bits of N, least significant first, leave PRG mode 3 and bank N at 0x8000, with
the last bank at 0xC000. -/
def Obligations.SerialBankSwitch : Prop :=
  ∀ (s : State) (c : Cartridge) (r : SerialRegs) (N : BitVec 4) (a0 a1 a2 a3 a4 a5 : Word)
    (d0 d1 d2 d3 d4 d5 : Byte),
    s.cart = some c → c.mapper = .serialShift r → 1 ≤ c.nprg.toNat →
    0x8000 ≤ a0.toNat → 0xE000 ≤ a1.toNat → 0xE000 ≤ a2.toNat → 0xE000 ≤ a3.toNat →
    0xE000 ≤ a4.toNat → 0xE000 ≤ a5.toNat →
    d0.getLsbD 7 = true → d1.getLsbD 7 = false → d2.getLsbD 7 = false → d3.getLsbD 7 = false →
    d4.getLsbD 7 = false → d5.getLsbD 7 = false →
    d1.getLsbD 0 = N.getLsbD 0 → d2.getLsbD 0 = N.getLsbD 1 → d3.getLsbD 0 = N.getLsbD 2 →
    d4.getLsbD 0 = N.getLsbD 3 → d5.getLsbD 0 = false →
    let t := memWrite a5 d5 (memWrite a4 d4 (memWrite a3 d3 (memWrite a2 d2 (memWrite a1 d1
      (memWrite a0 d0 s)))))
    (∃ q : SerialRegs, t.cart = some { c with mapper := .serialShift q } ∧
      q.prg.toNat = N.toNat ∧ q.control.getLsbD 2 = true ∧ q.control.getLsbD 3 = true ∧
      q.shift = 0 ∧ q.count = 0) ∧
    ∀ o < 16384,
      (memRead (BitVec.ofNat 16 (0x8000 + o)) t).1 =
        memGet c.prgRom (N.toNat % c.nprg.toNat * 16384 + o) ∧
      (memRead (BitVec.ofNat 16 (0xC000 + o)) t).1 =
        memGet c.prgRom ((c.nprg.toNat - 1) * 16384 + o)

/-- R930 and R931: `load_rom` reports the first failing check, in the order of the rule, and is
otherwise successful. -/
def Obligations.RomChecksInOrder : Prop :=
  ∀ (image : List Byte) (battery : Option (List Byte)) (s : State),
    let nprg := image.getD 4 0
    let nchr := image.getD 5 0
    let f6 := image.getD 6 0
    let f7 := image.getD 7 0
    let id : Byte := (f7 &&& 0xF0) ||| (f6 >>> 4)
    let expect := 16 + (if f6.getLsbD 2 then 512 else 0) + 16384 * nprg.toNat + 8192 * nchr.toNat
    let bad := image.length < 16 ∨ image.take 4 ≠ [0x4E, 0x45, 0x53, 0x1A]
    let r := hostCall (.loadRom image battery) s
    (bad → r = (.romError .malformedHeader, s)) ∧
    (¬bad → nprg = 0 → r = (.romError .zeroSizePrg, s)) ∧
    (¬bad → nprg ≠ 0 → id ≠ 0 → id ≠ 1 → r = (.romError (.unsupportedMapper id), s)) ∧
    (¬bad → nprg ≠ 0 → id = 0 ∨ id = 1 → image.length < expect →
      r = (.romError .truncatedImage, s)) ∧
    (¬bad → nprg ≠ 0 → id = 0 ∨ id = 1 → expect < image.length →
      r = (.romError .oversizedImage, s)) ∧
    (¬bad → nprg ≠ 0 → id = 0 ∨ id = 1 → image.length = expect →
      r.1 = .ok ∧ ∃ c, r.2.cart = some c ∧ c.nprg = nprg ∧ c.nchr = nchr ∧
        mapperId c.mapper = id.toNat ∧ c.fourScreen = f6.getLsbD 3 ∧ c.battery = f6.getLsbD 1 ∧
        (c.hdrMirror = .vertical ↔ f6.getLsbD 0 = true) ∧
        (∀ k < 16384 * nprg.toNat, memGet c.prgRom k =
          image.getD (16 + (if f6.getLsbD 2 then 512 else 0) + k) 0) ∧
        (∀ k < 8192 * nchr.toNat, memGet c.chr k =
          image.getD (16 + (if f6.getLsbD 2 then 512 else 0) + 16384 * nprg.toNat + k) 0) ∧
        r.2.ppu.ntFour = f6.getLsbD 3 ∧ (∀ n, storedByte r.2 .nametable n = some 0))

/-! ### The APU (63_apu) -/

/-- R1045: each bit the DMC consumes changes the level by +2, -2 or nothing, never out of 0..127;
nothing but that and a write of $4011 changes it while the unit runs. -/
def Obligations.DmcLevelLaw : Prop :=
  ∀ u : Apu,
    let d := u.dmc
    let l := (dmcClock d).level.toNat
    (d.silence = true → l = d.level.toNat) ∧
    (d.silence = false → d.shift.getLsbD 0 = true →
      l = if d.level.toNat + 2 ≤ 127 then d.level.toNat + 2 else d.level.toNat) ∧
    (d.silence = false → d.shift.getLsbD 0 = false →
      l = if 2 ≤ d.level.toNat then d.level.toNat - 2 else d.level.toNat) ∧
    (∀ silent, (apuTick silent u).1.dmc.level = if d.timer = 0 then (dmcClock d).level else d.level) ∧
    (∀ b, (dmaComplete b u).dmc.level = d.level) ∧
    (∀ (a : Word) (v : Byte), (apuWrite a v u).dmc.level = if a = 0x4011 then v.setWidth 7 else d.level)

/-- R1033: the frame sequencer's counter and the frame IRQ over one sequence from its start: the
four-step sequence of 29830 ticks sets the flag at tick 29829 unless inhibited, the five-step sequence
of 37282 ticks never does. -/
def Obligations.FrameSequence : Prop :=
  ∀ (silent : Bool) (u : Apu) (n : Nat), u.fsCounter = 0 →
    let v := (fun x => (apuTick silent x).1)^[n] u
    (u.fsMode = false → n ≤ 29830 → v.fsCounter.toNat = n % 29830 ∧
      v.frameIrq = (u.frameIrq || (decide (29829 ≤ n) && !u.fsInhibit))) ∧
    (u.fsMode = true → n ≤ 37282 → v.fsCounter.toNat = n % 37282 ∧ v.frameIrq = u.frameIrq)

/-- R1029 and R1030 through the bus: a read of $4015 gives the IRQ flags and which channels are
running, and clears the frame IRQ alone; a write of it enables channels, silences the others, clears
the DMC IRQ, and starts the DMC when it is idle. -/
def Obligations.ApuStatusAccess : Prop :=
  ∀ (v : Byte) (s : State),
    let r := memRead 0x4015 s
    let u := s.apu
    let w := (memWrite 0x4015 v s).apu
    (∀ k < 8, r.1.getLsbD k = match k with
      | 0 => decide (u.p1.length ≠ 0)
      | 1 => decide (u.p2.length ≠ 0)
      | 2 => decide (u.tri.length ≠ 0)
      | 3 => decide (u.noise.length ≠ 0)
      | 4 => decide (u.dmc.remaining ≠ 0)
      | 6 => u.frameIrq
      | 7 => u.dmcIrq
      | _ => false) ∧
    r.2 = { s with bus := { s.bus with openBus := r.1 }, apu := { u with frameIrq := false } } ∧
    w.p1.enabled = v.getLsbD 0 ∧ w.p1.length = (if v.getLsbD 0 then u.p1.length else 0) ∧
    w.p2.enabled = v.getLsbD 1 ∧ w.p2.length = (if v.getLsbD 1 then u.p2.length else 0) ∧
    w.tri.enabled = v.getLsbD 2 ∧ w.tri.length = (if v.getLsbD 2 then u.tri.length else 0) ∧
    w.noise.enabled = v.getLsbD 3 ∧ w.noise.length = (if v.getLsbD 3 then u.noise.length else 0) ∧
    w.dmcIrq = false ∧ w.frameIrq = u.frameIrq ∧
    w.dmc.remaining = (if v.getLsbD 4 = false then 0
      else if u.dmc.remaining = 0 then u.dmc.sampleLen else u.dmc.remaining) ∧
    w.dmc.curAddr = (if v.getLsbD 4 ∧ u.dmc.remaining = 0 then u.dmc.startAddr else u.dmc.curAddr) ∧
    w.dmc.dmaRequest = (u.dmc.bufferEmpty && decide (w.dmc.remaining ≠ 0))

/-! ### Save state and host (65_savestate_host) -/

/-- R1212, first law: a saved state loads into any machine that holds the same cartridge, and gives
every field of the machine state back; the outputs are the loading machine's own (R1208). With no
cartridge the nametable size is the loading machine's, by the model's choice (log 13); that the states
are those of the invariant is log 36. -/
def Obligations.LoadAfterSave : Prop :=
  ∀ s m : State, s.Inv → s.apu.mixer.Inv → m.params = s.params → SameCartridge s m →
    load (save s) m = .ok { s with host := m.host }

/-- R1212, second law: a blob that `load` accepts is what `save` gives immediately afterwards, byte
for byte. -/
def Obligations.SaveAfterLoad : Prop :=
  ∀ (s t : State) (blob : List Byte), load blob s = .ok t → save t = blob

/-- R1221 and R1222: which register each index of the accessor is, what a write to it stores, and that
nothing else changes; a register reads back what was written, cut to its width, and every other one as
before; the buttons; and the error code for every index and port that does not exist. The code 0 of a
button write that succeeds is the model's choice (log 31). -/
def Obligations.HostAccessors : Prop :=
  ∀ (i port : Nat) (v : BitVec 32) (mask : Byte) (s : State),
    getRegister i s = (match i with
      | 0 => s.cpu.a.setWidth 32
      | 1 => s.cpu.x.setWidth 32
      | 2 => s.cpu.y.setWidth 32
      | 3 => s.cpu.sp.setWidth 32
      | 4 => s.cpu.pc.setWidth 32
      | 5 => s.cpu.p.setWidth 32
      | 6 => s.cpu.cycles
      | 7 => s.cpu.illegalCount
      | 8 => BitVec.ofNat 32 s.cpu.illegalSeen.toNat
      | _ => 0xFFFFFFFF) ∧
    setRegister i v s = (match i with
      | 0 => (0, { s with cpu := { s.cpu with a := BitVec.ofNat 8 v.toNat } })
      | 1 => (0, { s with cpu := { s.cpu with x := BitVec.ofNat 8 v.toNat } })
      | 2 => (0, { s with cpu := { s.cpu with y := BitVec.ofNat 8 v.toNat } })
      | 3 => (0, { s with cpu := { s.cpu with sp := BitVec.ofNat 8 v.toNat } })
      | 4 => (0, { s with cpu := { s.cpu with pc := BitVec.ofNat 16 v.toNat } })
      | 5 => (0, { s with cpu := { s.cpu with p := (BitVec.ofNat 8 v.toNat &&& 0xCF) ||| 0x20 } })
      | 6 => (0, { s with cpu := { s.cpu with cycles := v } })
      | 7 => (0, { s with cpu := { s.cpu with illegalCount := v } })
      | 8 => (0, { s with cpu := { s.cpu with illegalSeen := decide (v.toNat % 2 = 1) } })
      | _ => (0xFFFFFFFF, s)) ∧
    (i ≤ 8 →
      getRegister i (setRegister i v s).2 = (match i with
        | 4 => v &&& 0xFFFF
        | 5 => (v &&& 0xCF) ||| 0x20
        | 6 => v
        | 7 => v
        | 8 => v &&& 1
        | _ => v &&& 0xFF) ∧
      ∀ j, j ≠ i → getRegister j (setRegister i v s).2 = getRegister j s) ∧
    setButtons 0 mask s = (0, { s with bus := { s.bus with ctrlButtons0 := mask } }) ∧
    setButtons 1 mask s = (0, { s with bus := { s.bus with ctrlButtons1 := mask } }) ∧
    (2 ≤ port → setButtons port mask s = (0xFFFFFFFF, s))

/-! ### The invariant -/

/-- The invariant holds right after reset; which state that is: log 1. -/
def Obligations.ResetMeetsInvariant : Prop := State.reset.Inv ∧ State.reset.apu.mixer.Inv

/-- Every step keeps the invariant, from every state that meets it: P in its stored form (R107), every
memory canonical and within its size, six-bit palette entries (R822), the coordinate on the frame
(R810), at most eight sprites (R861), the DMC's counters and address in range and its request as R1043
says, the noise register not 0 (R1040), the frame counter inside its sequence (R1033), the serial
counter at most 4 (R900). -/
def Obligations.StepKeepsInvariant : Prop :=
  ∀ s t : State, s.Inv → step s = .next t → t.Inv

/-- R1054: no operand of the mixer and the filter ever becomes infinite or a NaN: a step keeps the
volumes in [0, 1] and the filter state finite, whatever coefficient in (0, 1] the filter has (log 5). -/
def Obligations.StepKeepsRealsFinite : Prop :=
  ∀ s t : State, s.apu.mixer.Inv → step s = .next t → t.apu.mixer.Inv

/-! ### The PPU registers that one write sets (61_ppu) -/

/-- R835 and R836, and R831, R833, R834, R841 and R842 of the same registers, through every mirror: a
write of PPUCTRL sets it and bits 11:10 of `t`, and makes an NMI edge exactly when it sets bit 7 from 0
during VBlank; PPUMASK and OAMADDR are set; a write of PPUSTATUS does nothing; a write of OAMDATA stores
at OAMADDR and nowhere else and moves OAMADDR on; a read of OAMDATA gives the byte there, an attribute
byte without its bits 4:2, and moves nothing; the write-only registers read as the latch. Everything
else is kept but the two latches. -/
def Obligations.RegisterWrites : Prop :=
  ∀ (a : Word) (d : Byte) (s : State), 0x2000 ≤ a.toNat → a.toNat ≤ 0x3FFF →
    let r := a.toNat % 8
    let t := memWrite a d s
    let latched : Ppu := { s.ppu with ioLatch := d }
    let withPpu : Ppu → Byte → State := fun p ob => { s with bus := { s.bus with openBus := ob }, ppu := p }
    let here := memGet s.ppu.oam s.ppu.oamaddr.toNat
    let shown := if s.ppu.oamaddr.toNat % 4 = 2 then here &&& 0xE3 else here
    (r = 0 → ∃ u : BitVec 15,
      u.toNat = s.ppu.t.toNat / 4096 * 4096 + d.toNat % 4 * 1024 + s.ppu.t.toNat % 1024 ∧
      t = withPpu
        { latched with
          ctrl := d
          t := u
          nmiEdge := s.ppu.nmiEdge || (s.ppu.vblank && !s.ppu.ctrl.getLsbD 7 && d.getLsbD 7) } d) ∧
    (r = 1 → t = withPpu { latched with mask := d } d) ∧
    (r = 2 → t = withPpu latched d) ∧
    (r = 3 → t = withPpu { latched with oamaddr := d } d) ∧
    (r = 4 →
      t = withPpu { latched with oam := t.ppu.oam, oamaddr := s.ppu.oamaddr + 1 } d ∧
      storedByte t .oam s.ppu.oamaddr.toNat = some d ∧
      SameStorageBut (fun k n => k == .oam && n == s.ppu.oamaddr.toNat) s t ∧
      memRead a s = (shown, withPpu { s.ppu with ioLatch := shown } shown)) ∧
    (r ∈ [0, 1, 3, 5, 6] → memRead a s = (s.ppu.ioLatch, withPpu s.ppu s.ppu.ioLatch))
end

