-- ==== Sys2Proof/Laws/Memory.lean ====
section
/-! SUPPORT. Laws of the sparse arrays: read after write, and the canonical form is kept. -/

namespace Sys2Proof.Machine

section Keyed

variable {β : Type} {l : List (Nat × β)} {a b : Nat} {v : β}

theorem lookupKey_insertKey :
    lookupKey (insertKey a v l) b = if b = a then some v else lookupKey l b := by
  induction l with
  | nil => simp [insertKey, lookupKey, eq_comm]
  | cons c rest ih =>
    obtain ⟨k, w⟩ := c
    simp only [insertKey]
    by_cases h1 : k = a
    · subst h1
      by_cases hb : b = k
      · simp [lookupKey, hb]
      · simp [lookupKey, hb, Ne.symm hb]
    · by_cases h2 : a < k
      · by_cases hb : b = a
        · subst hb; simp [lookupKey, h1, h2]
        · simp [lookupKey, h1, h2, hb, Ne.symm hb]
      · by_cases hk : k = b
        · subst hk; simp [lookupKey, h1, h2]
        · simp [lookupKey, h1, h2, hk, ih]

theorem lookupKey_eraseKey :
    lookupKey (eraseKey a l) b = if b = a then none else lookupKey l b := by
  induction l with
  | nil => simp [eraseKey, lookupKey]
  | cons c rest ih =>
    obtain ⟨k, w⟩ := c
    simp only [eraseKey]
    by_cases h1 : k = a
    · subst h1
      by_cases hb : b = k
      · subst hb; simp [ih]
      · simp [ih, hb, lookupKey, Ne.symm hb]
    · by_cases hk : k = b
      · subst hk; simp [lookupKey, h1]
      · simp [lookupKey, h1, hk, ih]

theorem mem_insertKey {c : Nat × β} (h : c ∈ insertKey a v l) : c = (a, v) ∨ c ∈ l := by
  induction l with
  | nil => simpa [insertKey] using h
  | cons d rest ih =>
    obtain ⟨k, w⟩ := d
    simp only [insertKey] at h
    split_ifs at h
    · rcases List.mem_cons.1 h with rfl | h <;> simp [*]
    · rcases List.mem_cons.1 h with rfl | h <;> simp_all
    · rcases List.mem_cons.1 h with rfl | h
      · simp
      · rcases ih h with rfl | h <;> simp [*]

theorem mem_eraseKey {c : Nat × β} (h : c ∈ eraseKey a l) : c ∈ l ∧ c.1 ≠ a := by
  induction l with
  | nil => simp [eraseKey] at h
  | cons d rest ih =>
    obtain ⟨k, w⟩ := d
    simp only [eraseKey] at h
    split_ifs at h with hk
    · simp [ih h]
    · rcases List.mem_cons.1 h with rfl | h
      · simp [hk]
      · simp [ih h]

/-- Keys strictly rising. -/
theorem insertKey_rising (h : (l.map Prod.fst).Pairwise (· < ·)) :
    ((insertKey a v l).map Prod.fst).Pairwise (· < ·) := by
  induction l with
  | nil => simp [insertKey]
  | cons d rest ih =>
    obtain ⟨k, w⟩ := d
    simp only [List.map_cons, List.pairwise_cons] at h
    simp only [insertKey]
    split_ifs with h1 h2
    · subst h1; simpa using h
    · simp only [List.map_cons, List.pairwise_cons]
      refine ⟨fun x hx => ?_, h⟩
      rcases List.mem_cons.1 hx with rfl | hx
      · exact h2
      · exact h2.trans (h.1 x hx)
    · simp only [List.map_cons, List.pairwise_cons]
      refine ⟨fun x hx => ?_, ih h.2⟩
      obtain ⟨c, hc, rfl⟩ := List.mem_map.1 hx
      rcases mem_insertKey hc with rfl | hc
      · simp only; omega
      · exact h.1 _ (List.mem_map_of_mem hc)

theorem eraseKey_rising (h : (l.map Prod.fst).Pairwise (· < ·)) :
    ((eraseKey a l).map Prod.fst).Pairwise (· < ·) := by
  induction l with
  | nil => simp [eraseKey]
  | cons d rest ih =>
    obtain ⟨k, w⟩ := d
    simp only [List.map_cons, List.pairwise_cons] at h
    simp only [eraseKey]
    split_ifs
    · exact ih h.2
    · simp only [List.map_cons, List.pairwise_cons]
      refine ⟨fun x hx => ?_, ih h.2⟩
      obtain ⟨c, hc, rfl⟩ := List.mem_map.1 hx
      exact h.1 _ (List.mem_map_of_mem (mem_eraseKey hc).1)

theorem lookupKey_eq_none (h : ∀ c ∈ l, c.1 ≠ a) : lookupKey l a = none := by
  induction l with
  | nil => rfl
  | cons d rest ih =>
    obtain ⟨k, w⟩ := d
    simp only [List.mem_cons, forall_eq_or_imp] at h
    simp [lookupKey, h.1, ih h.2]

theorem lookupKey_mem (h : lookupKey l a = some v) : (a, v) ∈ l := by
  induction l with
  | nil => simp [lookupKey] at h
  | cons d rest ih =>
    obtain ⟨k, w⟩ := d
    simp only [lookupKey] at h
    split_ifs at h with hk
    · simp_all
    · simp [ih h]

end Keyed

variable {m m' : Memory} {a b n : Nat} {v : Byte}

/-- A read after a write gives the value written at that address and the old value elsewhere. -/
theorem memGet_memSet : memGet (memSet m a v) b = if b = a then v else memGet m b := by
  unfold memGet memSet
  split_ifs with hv hb hb
  · simp [lookupKey_eraseKey, hb, hv]
  · simp [lookupKey_eraseKey, hb]
  · simp [lookupKey_insertKey, hb]
  · simp [lookupKey_insertKey, hb]

@[simp] theorem memGet_memSet_same : memGet (memSet m a v) a = v := by simp [memGet_memSet]

theorem memGet_memSet_ne (h : b ≠ a) : memGet (memSet m a v) b = memGet m b := by
  simp [memGet_memSet, h]

@[simp] theorem memGet_nil : memGet [] a = 0 := rfl

/-- A write keeps the canonical form. -/
theorem memSet_wf (h : Memory.wf m) : Memory.wf (memSet m a v) := by
  unfold memSet
  split_ifs with hv
  · exact ⟨eraseKey_rising h.1, fun c hc => h.2 c (mem_eraseKey hc).1⟩
  · refine ⟨insertKey_rising h.1, fun c hc => ?_⟩
    rcases mem_insertKey hc with rfl | hc
    · exact hv
    · exact h.2 c hc

/-- A write inside an array keeps it inside its size. -/
theorem memSet_within (ha : a < n) (h : Memory.within n m) : Memory.within n (memSet m a v) := by
  unfold memSet
  split_ifs
  · exact fun c hc => h c (mem_eraseKey hc).1
  · intro c hc
    rcases mem_insertKey hc with rfl | hc
    · exact ha
    · exact h c hc

/-- A property of every listed byte is kept by a write of a byte that has it. -/
theorem memSet_forall {P : Byte → Prop} (hv : P v) (h : ∀ c ∈ m, P c.2) :
    ∀ c ∈ memSet m a v, P c.2 := by
  unfold memSet
  split_ifs
  · exact fun c hc => h c (mem_eraseKey hc).1
  · intro c hc
    rcases mem_insertKey hc with rfl | hc
    · exact hv
    · exact h c hc

theorem memGet_of_not_within (h : Memory.within n m) (ha : n ≤ a) : memGet m a = 0 := by
  unfold memGet
  rw [lookupKey_eq_none]
  · rfl
  · intro c hc
    have := h c hc
    omega

/-- Two arrays in canonical form that read the same are the same list. -/
theorem memory_ext (h : Memory.wf m) (h' : Memory.wf m') (hget : ∀ a, memGet m a = memGet m' a) :
    m = m' := by
  have key : ∀ {m : Memory}, Memory.wf m → ∀ c, c ∈ m ↔ memGet m c.1 = c.2 ∧ c.2 ≠ 0 := by
    intro m hm c
    induction m with
    | nil => exact ⟨fun h => (List.not_mem_nil h).elim, fun h => absurd h.1.symm h.2⟩
    | cons d rest ih =>
      obtain ⟨k, w⟩ := d
      obtain ⟨hs, hz⟩ := hm
      simp only [List.map_cons, List.pairwise_cons] at hs
      have hrest : Memory.wf rest := ⟨hs.2, fun c hc => hz c (by simp [hc])⟩
      have hlt : ∀ c ∈ rest, k < c.1 := fun c hc => hs.1 _ (List.mem_map_of_mem hc)
      rcases c with ⟨ca, cv⟩
      simp only [List.mem_cons, Prod.mk.injEq, memGet, lookupKey]
      split_ifs with hk
      · subst hk
        constructor
        · rintro (⟨-, rfl⟩ | hc)
          · exact ⟨rfl, hz (k, cv) (by simp)⟩
          · exact absurd (hlt _ hc) (by simp)
        · rintro ⟨h, -⟩; exact .inl ⟨rfl, h.symm⟩
      · have := ih hrest
        simp only [memGet] at this
        constructor
        · rintro (⟨rfl, -⟩ | hc)
          · exact absurd rfl hk
          · exact this.1 hc
        · exact fun hc => .inr (this.2 hc)
  have hnd : ∀ {m : Memory}, Memory.wf m → m.Nodup := fun hm =>
    List.Nodup.of_map Prod.fst (hm.1.imp fun h => Nat.ne_of_lt h)
  have hperm : m.Perm m' := (List.perm_ext_iff_of_nodup (hnd h) (hnd h')).2 fun c => by
    rw [key h, key h', hget]
  refine hperm.eq_of_pairwise (le := fun x y : Host.Cell => x.1 < y.1) ?_ ?_ ?_
  · intro x y _ _ h1 h2; exact absurd h2 (Nat.not_lt.2 h1.le)
  · exact List.pairwise_map.1 h.1
  · exact List.pairwise_map.1 h'.1

/-! ### Whole arrays -/

theorem memOfBytesFrom_key {bs : List Byte} {c : Host.Cell} (h : c ∈ memOfBytesFrom a bs) :
    a ≤ c.1 ∧ c.1 < a + bs.length ∧ c.2 ≠ 0 ∧ c.2 ∈ bs := by
  induction bs generalizing a with
  | nil => simp [memOfBytesFrom] at h
  | cons d rest ih =>
    simp only [memOfBytesFrom] at h
    split_ifs at h with hd
    · obtain ⟨h1, h2, h3, h4⟩ := ih h
      exact ⟨by omega, by simp only [List.length_cons]; omega, h3, by simp [h4]⟩
    · rcases List.mem_cons.1 h with rfl | h
      · exact ⟨le_rfl, by simp, hd, by simp⟩
      · obtain ⟨h1, h2, h3, h4⟩ := ih h
        exact ⟨by omega, by simp only [List.length_cons]; omega, h3, by simp [h4]⟩

theorem memOfBytesFrom_wf (bs : List Byte) (a : Nat) : Memory.wf (memOfBytesFrom a bs) := by
  refine ⟨?_, fun c hc => (memOfBytesFrom_key hc).2.2.1⟩
  induction bs generalizing a with
  | nil => simp [memOfBytesFrom]
  | cons d rest ih =>
    simp only [memOfBytesFrom]
    split_ifs
    · exact ih _
    · simp only [List.map_cons, List.pairwise_cons]
      refine ⟨fun x hx => ?_, ih _⟩
      obtain ⟨c, hc, rfl⟩ := List.mem_map.1 hx
      exact (memOfBytesFrom_key hc).1

theorem memOfBytes_wf (bs : List Byte) : Memory.wf (memOfBytes bs) := memOfBytesFrom_wf bs 0

theorem memOfBytes_within (bs : List Byte) (h : bs.length ≤ n) : Memory.within n (memOfBytes bs) :=
  fun c hc => by have := memOfBytesFrom_key hc; omega

theorem memGet_memOfBytesFrom (bs : List Byte) (a b : Nat) :
    memGet (memOfBytesFrom a bs) b = if a ≤ b then bs.getD (b - a) 0 else 0 := by
  induction bs generalizing a with
  | nil => simp [memOfBytesFrom]
  | cons d rest ih =>
    simp only [memOfBytesFrom]
    rcases Nat.lt_trichotomy a b with h | h | h
    · have e : b - a = (b - (a + 1)) + 1 := by omega
      split_ifs with hd ha
      · rw [ih, if_pos (by omega), e]; simp
      · exact absurd h.le ha
      · have := ih (a + 1)
        rw [if_pos (by omega)] at this
        simp only [memGet, lookupKey, if_neg (show ¬a = b by omega)]
        rw [e]; simpa [memGet] using this
      · exact absurd h.le ‹_›
    · subst h
      rw [if_pos le_rfl]
      split_ifs with hd
      · rw [ih, if_neg (by omega)]; simp [hd]
      · simp [memGet, lookupKey]
    · split_ifs with hd
      · omega
      · rw [ih, if_neg (by omega)]
      · omega
      · have := ih (a + 1)
        rw [if_neg (by omega)] at this
        simpa [memGet, lookupKey, if_neg (show ¬a = b by omega)] using this

theorem memGet_memOfBytes (bs : List Byte) (b : Nat) : memGet (memOfBytes bs) b = bs.getD b 0 := by
  simpa [memOfBytes] using memGet_memOfBytesFrom bs 0 b

@[simp] theorem memBytes_length (m : Memory) (n : Nat) : (memBytes m n).length = n := by
  simp [memBytes]

/-- Writing an array out and reading it back gives the array. -/
theorem memOfBytes_memBytes (h : Memory.wf m) (hn : Memory.within n m) :
    memOfBytes (memBytes m n) = m := by
  refine memory_ext (memOfBytes_wf _) h fun a => ?_
  rw [memGet_memOfBytes]
  by_cases ha : a < n
  · simp [memBytes, List.getD_eq_getElem?_getD, ha]
  · rw [memGet_of_not_within hn (by omega)]
    simp [memBytes, List.getD_eq_getElem?_getD, ha]

/-- Reading bytes into an array and writing it out gives the bytes. -/
theorem memBytes_memOfBytes (bs : List Byte) : memBytes (memOfBytes bs) bs.length = bs := by
  refine List.ext_getElem (by simp) fun i h1 h2 => ?_
  simp [memBytes, memGet_memOfBytes, List.getD_eq_getElem?_getD, h2]

end Sys2Proof.Machine
end

