-- ==== Sys2Proof/Laws/State.lean ====
section
/-! SUPPORT. One lemma per field and update, so that no proof unfolds a record update. -/

namespace Sys2Proof.Machine

variable (s : State)

@[simp] theorem setA_cpu_a (v : Byte) : (setA v s).cpu.a = v := rfl
@[simp] theorem setA_cpu_x (v : Byte) : (setA v s).cpu.x = s.cpu.x := rfl
@[simp] theorem setA_cpu_y (v : Byte) : (setA v s).cpu.y = s.cpu.y := rfl
@[simp] theorem setA_cpu_sp (v : Byte) : (setA v s).cpu.sp = s.cpu.sp := rfl
@[simp] theorem setA_cpu_pc (v : Byte) : (setA v s).cpu.pc = s.cpu.pc := rfl
@[simp] theorem setA_cpu_p (v : Byte) : (setA v s).cpu.p = s.cpu.p := rfl
@[simp] theorem setA_cpu_cycles (v : Byte) : (setA v s).cpu.cycles = s.cpu.cycles := rfl
@[simp] theorem setA_cpu_nmiPending (v : Byte) : (setA v s).cpu.nmiPending = s.cpu.nmiPending := rfl
@[simp] theorem setA_cpu_illegalSeen (v : Byte) : (setA v s).cpu.illegalSeen = s.cpu.illegalSeen := rfl
@[simp] theorem setA_cpu_illegalCount (v : Byte) : (setA v s).cpu.illegalCount = s.cpu.illegalCount := rfl
@[simp] theorem setA_bus (v : Byte) : (setA v s).bus = s.bus := rfl
@[simp] theorem setA_ppu (v : Byte) : (setA v s).ppu = s.ppu := rfl
@[simp] theorem setA_apu (v : Byte) : (setA v s).apu = s.apu := rfl
@[simp] theorem setA_cart (v : Byte) : (setA v s).cart = s.cart := rfl
@[simp] theorem setA_sched (v : Byte) : (setA v s).sched = s.sched := rfl
@[simp] theorem setA_params (v : Byte) : (setA v s).params = s.params := rfl
@[simp] theorem setA_host (v : Byte) : (setA v s).host = s.host := rfl

@[simp] theorem setX_cpu_a (v : Byte) : (setX v s).cpu.a = s.cpu.a := rfl
@[simp] theorem setX_cpu_x (v : Byte) : (setX v s).cpu.x = v := rfl
@[simp] theorem setX_cpu_y (v : Byte) : (setX v s).cpu.y = s.cpu.y := rfl
@[simp] theorem setX_cpu_sp (v : Byte) : (setX v s).cpu.sp = s.cpu.sp := rfl
@[simp] theorem setX_cpu_pc (v : Byte) : (setX v s).cpu.pc = s.cpu.pc := rfl
@[simp] theorem setX_cpu_p (v : Byte) : (setX v s).cpu.p = s.cpu.p := rfl
@[simp] theorem setX_cpu_cycles (v : Byte) : (setX v s).cpu.cycles = s.cpu.cycles := rfl
@[simp] theorem setX_cpu_nmiPending (v : Byte) : (setX v s).cpu.nmiPending = s.cpu.nmiPending := rfl
@[simp] theorem setX_cpu_illegalSeen (v : Byte) : (setX v s).cpu.illegalSeen = s.cpu.illegalSeen := rfl
@[simp] theorem setX_cpu_illegalCount (v : Byte) : (setX v s).cpu.illegalCount = s.cpu.illegalCount := rfl
@[simp] theorem setX_bus (v : Byte) : (setX v s).bus = s.bus := rfl
@[simp] theorem setX_ppu (v : Byte) : (setX v s).ppu = s.ppu := rfl
@[simp] theorem setX_apu (v : Byte) : (setX v s).apu = s.apu := rfl
@[simp] theorem setX_cart (v : Byte) : (setX v s).cart = s.cart := rfl
@[simp] theorem setX_sched (v : Byte) : (setX v s).sched = s.sched := rfl
@[simp] theorem setX_params (v : Byte) : (setX v s).params = s.params := rfl
@[simp] theorem setX_host (v : Byte) : (setX v s).host = s.host := rfl

@[simp] theorem setY_cpu_a (v : Byte) : (setY v s).cpu.a = s.cpu.a := rfl
@[simp] theorem setY_cpu_x (v : Byte) : (setY v s).cpu.x = s.cpu.x := rfl
@[simp] theorem setY_cpu_y (v : Byte) : (setY v s).cpu.y = v := rfl
@[simp] theorem setY_cpu_sp (v : Byte) : (setY v s).cpu.sp = s.cpu.sp := rfl
@[simp] theorem setY_cpu_pc (v : Byte) : (setY v s).cpu.pc = s.cpu.pc := rfl
@[simp] theorem setY_cpu_p (v : Byte) : (setY v s).cpu.p = s.cpu.p := rfl
@[simp] theorem setY_cpu_cycles (v : Byte) : (setY v s).cpu.cycles = s.cpu.cycles := rfl
@[simp] theorem setY_cpu_nmiPending (v : Byte) : (setY v s).cpu.nmiPending = s.cpu.nmiPending := rfl
@[simp] theorem setY_cpu_illegalSeen (v : Byte) : (setY v s).cpu.illegalSeen = s.cpu.illegalSeen := rfl
@[simp] theorem setY_cpu_illegalCount (v : Byte) : (setY v s).cpu.illegalCount = s.cpu.illegalCount := rfl
@[simp] theorem setY_bus (v : Byte) : (setY v s).bus = s.bus := rfl
@[simp] theorem setY_ppu (v : Byte) : (setY v s).ppu = s.ppu := rfl
@[simp] theorem setY_apu (v : Byte) : (setY v s).apu = s.apu := rfl
@[simp] theorem setY_cart (v : Byte) : (setY v s).cart = s.cart := rfl
@[simp] theorem setY_sched (v : Byte) : (setY v s).sched = s.sched := rfl
@[simp] theorem setY_params (v : Byte) : (setY v s).params = s.params := rfl
@[simp] theorem setY_host (v : Byte) : (setY v s).host = s.host := rfl

@[simp] theorem setSP_cpu_a (v : Byte) : (setSP v s).cpu.a = s.cpu.a := rfl
@[simp] theorem setSP_cpu_x (v : Byte) : (setSP v s).cpu.x = s.cpu.x := rfl
@[simp] theorem setSP_cpu_y (v : Byte) : (setSP v s).cpu.y = s.cpu.y := rfl
@[simp] theorem setSP_cpu_sp (v : Byte) : (setSP v s).cpu.sp = v := rfl
@[simp] theorem setSP_cpu_pc (v : Byte) : (setSP v s).cpu.pc = s.cpu.pc := rfl
@[simp] theorem setSP_cpu_p (v : Byte) : (setSP v s).cpu.p = s.cpu.p := rfl
@[simp] theorem setSP_cpu_cycles (v : Byte) : (setSP v s).cpu.cycles = s.cpu.cycles := rfl
@[simp] theorem setSP_cpu_nmiPending (v : Byte) : (setSP v s).cpu.nmiPending = s.cpu.nmiPending := rfl
@[simp] theorem setSP_cpu_illegalSeen (v : Byte) : (setSP v s).cpu.illegalSeen = s.cpu.illegalSeen := rfl
@[simp] theorem setSP_cpu_illegalCount (v : Byte) : (setSP v s).cpu.illegalCount = s.cpu.illegalCount := rfl
@[simp] theorem setSP_bus (v : Byte) : (setSP v s).bus = s.bus := rfl
@[simp] theorem setSP_ppu (v : Byte) : (setSP v s).ppu = s.ppu := rfl
@[simp] theorem setSP_apu (v : Byte) : (setSP v s).apu = s.apu := rfl
@[simp] theorem setSP_cart (v : Byte) : (setSP v s).cart = s.cart := rfl
@[simp] theorem setSP_sched (v : Byte) : (setSP v s).sched = s.sched := rfl
@[simp] theorem setSP_params (v : Byte) : (setSP v s).params = s.params := rfl
@[simp] theorem setSP_host (v : Byte) : (setSP v s).host = s.host := rfl

@[simp] theorem setPC_cpu_a (v : Word) : (setPC v s).cpu.a = s.cpu.a := rfl
@[simp] theorem setPC_cpu_x (v : Word) : (setPC v s).cpu.x = s.cpu.x := rfl
@[simp] theorem setPC_cpu_y (v : Word) : (setPC v s).cpu.y = s.cpu.y := rfl
@[simp] theorem setPC_cpu_sp (v : Word) : (setPC v s).cpu.sp = s.cpu.sp := rfl
@[simp] theorem setPC_cpu_pc (v : Word) : (setPC v s).cpu.pc = v := rfl
@[simp] theorem setPC_cpu_p (v : Word) : (setPC v s).cpu.p = s.cpu.p := rfl
@[simp] theorem setPC_cpu_cycles (v : Word) : (setPC v s).cpu.cycles = s.cpu.cycles := rfl
@[simp] theorem setPC_cpu_nmiPending (v : Word) : (setPC v s).cpu.nmiPending = s.cpu.nmiPending := rfl
@[simp] theorem setPC_cpu_illegalSeen (v : Word) : (setPC v s).cpu.illegalSeen = s.cpu.illegalSeen := rfl
@[simp] theorem setPC_cpu_illegalCount (v : Word) : (setPC v s).cpu.illegalCount = s.cpu.illegalCount := rfl
@[simp] theorem setPC_bus (v : Word) : (setPC v s).bus = s.bus := rfl
@[simp] theorem setPC_ppu (v : Word) : (setPC v s).ppu = s.ppu := rfl
@[simp] theorem setPC_apu (v : Word) : (setPC v s).apu = s.apu := rfl
@[simp] theorem setPC_cart (v : Word) : (setPC v s).cart = s.cart := rfl
@[simp] theorem setPC_sched (v : Word) : (setPC v s).sched = s.sched := rfl
@[simp] theorem setPC_params (v : Word) : (setPC v s).params = s.params := rfl
@[simp] theorem setPC_host (v : Word) : (setPC v s).host = s.host := rfl

@[simp] theorem setP_cpu_a (v : Byte) : (setP v s).cpu.a = s.cpu.a := rfl
@[simp] theorem setP_cpu_x (v : Byte) : (setP v s).cpu.x = s.cpu.x := rfl
@[simp] theorem setP_cpu_y (v : Byte) : (setP v s).cpu.y = s.cpu.y := rfl
@[simp] theorem setP_cpu_sp (v : Byte) : (setP v s).cpu.sp = s.cpu.sp := rfl
@[simp] theorem setP_cpu_pc (v : Byte) : (setP v s).cpu.pc = s.cpu.pc := rfl
@[simp] theorem setP_cpu_p (v : Byte) : (setP v s).cpu.p = storedP v := rfl
@[simp] theorem setP_cpu_cycles (v : Byte) : (setP v s).cpu.cycles = s.cpu.cycles := rfl
@[simp] theorem setP_cpu_nmiPending (v : Byte) : (setP v s).cpu.nmiPending = s.cpu.nmiPending := rfl
@[simp] theorem setP_cpu_illegalSeen (v : Byte) : (setP v s).cpu.illegalSeen = s.cpu.illegalSeen := rfl
@[simp] theorem setP_cpu_illegalCount (v : Byte) : (setP v s).cpu.illegalCount = s.cpu.illegalCount := rfl
@[simp] theorem setP_bus (v : Byte) : (setP v s).bus = s.bus := rfl
@[simp] theorem setP_ppu (v : Byte) : (setP v s).ppu = s.ppu := rfl
@[simp] theorem setP_apu (v : Byte) : (setP v s).apu = s.apu := rfl
@[simp] theorem setP_cart (v : Byte) : (setP v s).cart = s.cart := rfl
@[simp] theorem setP_sched (v : Byte) : (setP v s).sched = s.sched := rfl
@[simp] theorem setP_params (v : Byte) : (setP v s).params = s.params := rfl
@[simp] theorem setP_host (v : Byte) : (setP v s).host = s.host := rfl

@[simp] theorem setFlags_cpu_a (v : Byte) : (setFlags v s).cpu.a = s.cpu.a := rfl
@[simp] theorem setFlags_cpu_x (v : Byte) : (setFlags v s).cpu.x = s.cpu.x := rfl
@[simp] theorem setFlags_cpu_y (v : Byte) : (setFlags v s).cpu.y = s.cpu.y := rfl
@[simp] theorem setFlags_cpu_sp (v : Byte) : (setFlags v s).cpu.sp = s.cpu.sp := rfl
@[simp] theorem setFlags_cpu_pc (v : Byte) : (setFlags v s).cpu.pc = s.cpu.pc := rfl
@[simp] theorem setFlags_cpu_p (v : Byte) : (setFlags v s).cpu.p = v := rfl
@[simp] theorem setFlags_cpu_cycles (v : Byte) : (setFlags v s).cpu.cycles = s.cpu.cycles := rfl
@[simp] theorem setFlags_cpu_nmiPending (v : Byte) : (setFlags v s).cpu.nmiPending = s.cpu.nmiPending := rfl
@[simp] theorem setFlags_cpu_illegalSeen (v : Byte) : (setFlags v s).cpu.illegalSeen = s.cpu.illegalSeen := rfl
@[simp] theorem setFlags_cpu_illegalCount (v : Byte) : (setFlags v s).cpu.illegalCount = s.cpu.illegalCount := rfl
@[simp] theorem setFlags_bus (v : Byte) : (setFlags v s).bus = s.bus := rfl
@[simp] theorem setFlags_ppu (v : Byte) : (setFlags v s).ppu = s.ppu := rfl
@[simp] theorem setFlags_apu (v : Byte) : (setFlags v s).apu = s.apu := rfl
@[simp] theorem setFlags_cart (v : Byte) : (setFlags v s).cart = s.cart := rfl
@[simp] theorem setFlags_sched (v : Byte) : (setFlags v s).sched = s.sched := rfl
@[simp] theorem setFlags_params (v : Byte) : (setFlags v s).params = s.params := rfl
@[simp] theorem setFlags_host (v : Byte) : (setFlags v s).host = s.host := rfl

@[simp] theorem addCycles_cpu_a (n : Nat) : (addCycles n s).cpu.a = s.cpu.a := rfl
@[simp] theorem addCycles_cpu_x (n : Nat) : (addCycles n s).cpu.x = s.cpu.x := rfl
@[simp] theorem addCycles_cpu_y (n : Nat) : (addCycles n s).cpu.y = s.cpu.y := rfl
@[simp] theorem addCycles_cpu_sp (n : Nat) : (addCycles n s).cpu.sp = s.cpu.sp := rfl
@[simp] theorem addCycles_cpu_pc (n : Nat) : (addCycles n s).cpu.pc = s.cpu.pc := rfl
@[simp] theorem addCycles_cpu_p (n : Nat) : (addCycles n s).cpu.p = s.cpu.p := rfl
@[simp] theorem addCycles_cpu_cycles (n : Nat) : (addCycles n s).cpu.cycles = s.cpu.cycles + BitVec.ofNat 32 n := rfl
@[simp] theorem addCycles_cpu_nmiPending (n : Nat) : (addCycles n s).cpu.nmiPending = s.cpu.nmiPending := rfl
@[simp] theorem addCycles_cpu_illegalSeen (n : Nat) : (addCycles n s).cpu.illegalSeen = s.cpu.illegalSeen := rfl
@[simp] theorem addCycles_cpu_illegalCount (n : Nat) : (addCycles n s).cpu.illegalCount = s.cpu.illegalCount := rfl
@[simp] theorem addCycles_bus (n : Nat) : (addCycles n s).bus = s.bus := rfl
@[simp] theorem addCycles_ppu (n : Nat) : (addCycles n s).ppu = s.ppu := rfl
@[simp] theorem addCycles_apu (n : Nat) : (addCycles n s).apu = s.apu := rfl
@[simp] theorem addCycles_cart (n : Nat) : (addCycles n s).cart = s.cart := rfl
@[simp] theorem addCycles_sched (n : Nat) : (addCycles n s).sched = s.sched := rfl
@[simp] theorem addCycles_params (n : Nat) : (addCycles n s).params = s.params := rfl
@[simp] theorem addCycles_host (n : Nat) : (addCycles n s).host = s.host := rfl

@[simp] theorem pendNmi_cpu_a : (pendNmi s).cpu.a = s.cpu.a := rfl
@[simp] theorem pendNmi_cpu_x : (pendNmi s).cpu.x = s.cpu.x := rfl
@[simp] theorem pendNmi_cpu_y : (pendNmi s).cpu.y = s.cpu.y := rfl
@[simp] theorem pendNmi_cpu_sp : (pendNmi s).cpu.sp = s.cpu.sp := rfl
@[simp] theorem pendNmi_cpu_pc : (pendNmi s).cpu.pc = s.cpu.pc := rfl
@[simp] theorem pendNmi_cpu_p : (pendNmi s).cpu.p = s.cpu.p := rfl
@[simp] theorem pendNmi_cpu_cycles : (pendNmi s).cpu.cycles = s.cpu.cycles := rfl
@[simp] theorem pendNmi_cpu_nmiPending : (pendNmi s).cpu.nmiPending = true := rfl
@[simp] theorem pendNmi_cpu_illegalSeen : (pendNmi s).cpu.illegalSeen = s.cpu.illegalSeen := rfl
@[simp] theorem pendNmi_cpu_illegalCount : (pendNmi s).cpu.illegalCount = s.cpu.illegalCount := rfl
@[simp] theorem pendNmi_bus : (pendNmi s).bus = s.bus := rfl
@[simp] theorem pendNmi_ppu : (pendNmi s).ppu = s.ppu := rfl
@[simp] theorem pendNmi_apu : (pendNmi s).apu = s.apu := rfl
@[simp] theorem pendNmi_cart : (pendNmi s).cart = s.cart := rfl
@[simp] theorem pendNmi_sched : (pendNmi s).sched = s.sched := rfl
@[simp] theorem pendNmi_params : (pendNmi s).params = s.params := rfl
@[simp] theorem pendNmi_host : (pendNmi s).host = s.host := rfl

@[simp] theorem recordIllegal_cpu_a : (recordIllegal s).cpu.a = s.cpu.a := rfl
@[simp] theorem recordIllegal_cpu_x : (recordIllegal s).cpu.x = s.cpu.x := rfl
@[simp] theorem recordIllegal_cpu_y : (recordIllegal s).cpu.y = s.cpu.y := rfl
@[simp] theorem recordIllegal_cpu_sp : (recordIllegal s).cpu.sp = s.cpu.sp := rfl
@[simp] theorem recordIllegal_cpu_pc : (recordIllegal s).cpu.pc = s.cpu.pc := rfl
@[simp] theorem recordIllegal_cpu_p : (recordIllegal s).cpu.p = s.cpu.p := rfl
@[simp] theorem recordIllegal_cpu_cycles : (recordIllegal s).cpu.cycles = s.cpu.cycles := rfl
@[simp] theorem recordIllegal_cpu_nmiPending : (recordIllegal s).cpu.nmiPending = s.cpu.nmiPending := rfl
@[simp] theorem recordIllegal_cpu_illegalSeen : (recordIllegal s).cpu.illegalSeen = true := rfl
@[simp] theorem recordIllegal_cpu_illegalCount : (recordIllegal s).cpu.illegalCount = s.cpu.illegalCount + 1 := rfl
@[simp] theorem recordIllegal_bus : (recordIllegal s).bus = s.bus := rfl
@[simp] theorem recordIllegal_ppu : (recordIllegal s).ppu = s.ppu := rfl
@[simp] theorem recordIllegal_apu : (recordIllegal s).apu = s.apu := rfl
@[simp] theorem recordIllegal_cart : (recordIllegal s).cart = s.cart := rfl
@[simp] theorem recordIllegal_sched : (recordIllegal s).sched = s.sched := rfl
@[simp] theorem recordIllegal_params : (recordIllegal s).params = s.params := rfl
@[simp] theorem recordIllegal_host : (recordIllegal s).host = s.host := rfl

@[simp] theorem latchBus_cpu (v : Byte) : (latchBus v s).cpu = s.cpu := rfl
@[simp] theorem latchBus_ppu (v : Byte) : (latchBus v s).ppu = s.ppu := rfl
@[simp] theorem latchBus_apu (v : Byte) : (latchBus v s).apu = s.apu := rfl
@[simp] theorem latchBus_cart (v : Byte) : (latchBus v s).cart = s.cart := rfl
@[simp] theorem latchBus_sched (v : Byte) : (latchBus v s).sched = s.sched := rfl
@[simp] theorem latchBus_params (v : Byte) : (latchBus v s).params = s.params := rfl
@[simp] theorem latchBus_host (v : Byte) : (latchBus v s).host = s.host := rfl
@[simp] theorem latchBus_bus_ram (v : Byte) : (latchBus v s).bus.ram = s.bus.ram := rfl
@[simp] theorem latchBus_bus_ctrlStrobe (v : Byte) : (latchBus v s).bus.ctrlStrobe = s.bus.ctrlStrobe := rfl
@[simp] theorem latchBus_bus_ctrlShift0 (v : Byte) : (latchBus v s).bus.ctrlShift0 = s.bus.ctrlShift0 := rfl
@[simp] theorem latchBus_bus_ctrlShift1 (v : Byte) : (latchBus v s).bus.ctrlShift1 = s.bus.ctrlShift1 := rfl
@[simp] theorem latchBus_bus_ctrlButtons0 (v : Byte) : (latchBus v s).bus.ctrlButtons0 = s.bus.ctrlButtons0 := rfl
@[simp] theorem latchBus_bus_ctrlButtons1 (v : Byte) : (latchBus v s).bus.ctrlButtons1 = s.bus.ctrlButtons1 := rfl
@[simp] theorem latchBus_bus_stall (v : Byte) : (latchBus v s).bus.stall = s.bus.stall := rfl
@[simp] theorem latchBus_bus_openBus (v : Byte) : (latchBus v s).bus.openBus = v := rfl
@[simp] theorem latchBus_latchBus (v w : Byte) : latchBus w (latchBus v s) = latchBus w s := rfl

end Sys2Proof.Machine
end

