-- ==== Sys2Proof/Laws/Bus.lean ====
section
/-! SUPPORT. What a bus read and a bus write can do, and the closed forms of the accesses to RAM and
of the stack primitives. -/

namespace Sys2Proof.Machine

/-! ### Read effects -/

theorem OnlyReadEffects.refl (s : State) : OnlyReadEffects s s := rfl

theorem OnlyReadEffects.trans {s t u : State} (h : OnlyReadEffects s t) (h' : OnlyReadEffects t u) :
    OnlyReadEffects s u := by
  unfold OnlyReadEffects at *
  rw [h'] ; rw [h]

section Components

variable {s t : State} (h : OnlyReadEffects s t)
include h

theorem OnlyReadEffects.cpu : t.cpu = s.cpu := by rw [h]
theorem OnlyReadEffects.cart : t.cart = s.cart := by rw [h]
theorem OnlyReadEffects.params : t.params = s.params := by rw [h]
theorem OnlyReadEffects.sched : t.sched = s.sched := by rw [h]
theorem OnlyReadEffects.host : t.host = s.host := by rw [h]
theorem OnlyReadEffects.ram : t.bus.ram = s.bus.ram := by rw [h]
theorem OnlyReadEffects.stall : t.bus.stall = s.bus.stall := by rw [h]
theorem OnlyReadEffects.oam : t.ppu.oam = s.ppu.oam := by rw [h]
theorem OnlyReadEffects.oamaddr : t.ppu.oamaddr = s.ppu.oamaddr := by rw [h]
theorem OnlyReadEffects.ntRam : t.ppu.ntRam = s.ppu.ntRam := by rw [h]
theorem OnlyReadEffects.palette : t.ppu.palette = s.ppu.palette := by rw [h]

theorem OnlyReadEffects.sameStorage : SameStorage s t := by
  intro k n
  cases k <;> simp [storedByte, h.ram, h.cart, h.oam, h.ntRam, h.palette]

end Components

theorem latchBus_onlyReadEffects (v : Byte) (s : State) : OnlyReadEffects s (latchBus v s) := rfl

/-- A PPU register read changes only the VBlank flag, the write toggle, the register latch, the read
buffer and the VRAM address (R832, R836, R838, R841). -/
theorem ppuRegRead_frame (cart : Option Cartridge) (r : BitVec 3) (p : Ppu) :
    (ppuRegRead cart r p).2 =
      { p with
        vblank := (ppuRegRead cart r p).2.vblank
        w := (ppuRegRead cart r p).2.w
        ioLatch := (ppuRegRead cart r p).2.ioLatch
        readBuffer := (ppuRegRead cart r p).2.readBuffer
        v := (ppuRegRead cart r p).2.v } := by
  unfold ppuRegRead
  split <;> rfl

theorem readEffect_onlyReadEffects (a : Word) (s : State) : OnlyReadEffects s (readEffect a s) := by
  unfold readEffect
  split
  · unfold OnlyReadEffects
    simp only
    rw [ppuRegRead_frame]
  · rfl
  · unfold ctrlShiftOut0; split <;> rfl
  · unfold ctrlShiftOut1; split <;> rfl
  all_goals rfl

/-- A bus read changes only what reads may change. -/
theorem memRead_onlyReadEffects (a : Word) (s : State) : OnlyReadEffects s (memRead a s).2 :=
  (readEffect_onlyReadEffects a s).trans (latchBus_onlyReadEffects _ _)

theorem memReadPair_onlyReadEffects (lo hi : Word) (s : State) :
    OnlyReadEffects s (memReadPair lo hi s).2 :=
  (memRead_onlyReadEffects lo s).trans (memRead_onlyReadEffects hi _)

section MemReadFields

variable (a : Word) (s : State)

@[simp] theorem memRead_cpu : (memRead a s).2.cpu = s.cpu := (memRead_onlyReadEffects a s).cpu
@[simp] theorem memRead_cart : (memRead a s).2.cart = s.cart := (memRead_onlyReadEffects a s).cart
@[simp] theorem memRead_params : (memRead a s).2.params = s.params := (memRead_onlyReadEffects a s).params
@[simp] theorem memRead_sched : (memRead a s).2.sched = s.sched := (memRead_onlyReadEffects a s).sched
@[simp] theorem memRead_host : (memRead a s).2.host = s.host := (memRead_onlyReadEffects a s).host
@[simp] theorem memRead_ram : (memRead a s).2.bus.ram = s.bus.ram := (memRead_onlyReadEffects a s).ram
@[simp] theorem memRead_openBus : (memRead a s).2.bus.openBus = (memRead a s).1 := rfl

end MemReadFields

/-! ### Plain memory -/

theorem deviceOf_ram {a : Word} : deviceOf a = .ram ↔ a.toNat ≤ 0x1FFF := by
  unfold deviceOf
  simp only
  constructor
  · intro h; split_ifs at h; assumption
  · intro h; rw [if_pos h]

theorem deviceOf_mapper {a : Word} : deviceOf a = .mapper ↔ 0x4020 ≤ a.toNat := by
  unfold deviceOf
  simp only
  constructor
  · intro h; split_ifs at h; omega
  · intro h; split_ifs <;> first | rfl | omega

/-- A read of RAM has no effect beyond the latch (R214). -/
theorem memRead_of_ram {a : Word} (h : deviceOf a = .ram) (s : State) :
    memRead a s = (memGet s.bus.ram (ramIndex a), latchBus (memGet s.bus.ram (ramIndex a)) s) := by
  simp [memRead, readValue, readEffect, h]

/-- A read of the mapper window has no effect beyond the latch (R214). -/
theorem memRead_of_mapper {a : Word} (h : deviceOf a = .mapper) (s : State) :
    memRead a s =
      ((mapperRead s.params s.cart a).getD s.bus.openBus,
        latchBus ((mapperRead s.params s.cart a).getD s.bus.openBus) s) := by
  simp [memRead, readValue, readEffect, h]

/-- A write of RAM stores the byte and sets the latch. -/
theorem memWrite_of_ram {a : Word} (h : deviceOf a = .ram) (v : Byte) (s : State) :
    memWrite a v s =
      { s with bus := { s.bus with openBus := v, ram := memSet s.bus.ram (ramIndex a) v } } := by
  simp [memWrite, writeEffect, h, latchBus]

/-! ### Writes -/

theorem oamDmaCopy_frame (d : Byte) (n i : Nat) (s : State) :
    OnlyReadEffects s
        { oamDmaCopy d n i s with ppu := { (oamDmaCopy d n i s).ppu with oam := s.ppu.oam } } ∧
      ∀ k, 256 ≤ k → memGet (oamDmaCopy d n i s).ppu.oam k = memGet s.ppu.oam k := by
  induction n generalizing i s with
  | zero => exact ⟨rfl, fun _ _ => rfl⟩
  | succ n ih =>
    simp only [oamDmaCopy]
    set r := memRead (wordOf d (BitVec.ofNat 8 i)) s with hr
    have hread : OnlyReadEffects s r.2 := memRead_onlyReadEffects _ _
    obtain ⟨h1, h2⟩ := ih (i + 1)
      { r.2 with
        ppu := { r.2.ppu with oam := memSet r.2.ppu.oam (r.2.ppu.oamaddr + BitVec.ofNat 8 i).toNat r.1 } }
    refine ⟨?_, fun k hk => ?_⟩
    · refine hread.trans ?_
      unfold OnlyReadEffects at h1 ⊢
      have e := congrArg (fun t : State => { t with ppu := { t.ppu with oam := r.2.ppu.oam } }) h1
      simp only at e
      rw [← hread.oam]
      exact e
    · rw [h2 k hk]
      simp only
      rw [memGet_memSet_ne, hread.oam]
      have := (r.2.ppu.oamaddr + BitVec.ofNat 8 i).isLt
      omega

/-- A bus write does not touch the CPU, the scheduler, the parameters or the outputs. -/
theorem memWrite_outside (a : Word) (v : Byte) (s : State) :
    (memWrite a v s).cpu = s.cpu ∧ (memWrite a v s).sched = s.sched ∧
      (memWrite a v s).params = s.params ∧ (memWrite a v s).host = s.host := by
  unfold memWrite writeEffect
  split
  case h_6 =>
    unfold oamDma
    have h := (oamDmaCopy_frame v 256 0 (latchBus v s)).1
    exact ⟨h.cpu, h.sched, h.params, h.host⟩
  all_goals exact ⟨rfl, rfl, rfl, rfl⟩

section MemWriteFields

variable (a : Word) (v : Byte) (s : State)

@[simp] theorem memWrite_cpu : (memWrite a v s).cpu = s.cpu := (memWrite_outside a v s).1
@[simp] theorem memWrite_sched : (memWrite a v s).sched = s.sched := (memWrite_outside a v s).2.1
@[simp] theorem memWrite_params : (memWrite a v s).params = s.params := (memWrite_outside a v s).2.2.1
@[simp] theorem memWrite_host : (memWrite a v s).host = s.host := (memWrite_outside a v s).2.2.2

end MemWriteFields

/-- A PPUDATA write changes at most the byte `vramCell` names. -/
theorem ppuWrite_cells (s : State) (a : BitVec 14) (d : Byte) (p : Ppu)
    (hp : p = { s.ppu with ioLatch := d }) (k : Storage) (n : Nat)
    (h : (vramCell s a == some (k, n)) = false) :
    storedByte { s with ppu := ppuWriteMem s.cart p a d, cart := ppuWriteCart s.cart a d } k n =
      storedByte s k n := by
  subst hp
  have hnt : ∀ n, ntIndex s.cart { s.ppu with ioLatch := d } n = ntIndex s.cart s.ppu n := fun _ => rfl
  unfold vramCell at h
  unfold ppuWriteMem ppuWriteCart
  by_cases h1 : a.toNat < 0x2000
  · simp only [h1, if_true] at h ⊢
    unfold chrWrite
    cases hc : s.cart with
    | none => cases k <;> simp [storedByte, hc]
    | some c =>
      simp only [hc, Option.bind_some] at h
      by_cases hr : chrIsRam c = true
      · simp only [hr, if_true] at h ⊢
        cases k <;> simp [storedByte, hc]
        rw [memGet_memSet_ne]
        intro e
        simp [e] at h
      · cases k <;> simp [storedByte, hc, hr]
  · by_cases h2 : a.toNat < 0x3F00
    · simp only [h1, h2, if_true, if_false] at h ⊢
      cases k <;> simp [storedByte, hnt]
      rw [memGet_memSet_ne]
      intro e
      simp [e] at h
    · simp only [h1, h2, if_false] at h ⊢
      cases k <;> simp [storedByte]
      rw [memGet_memSet_ne]
      intro e
      simp [e] at h

theorem writeScroll_memory (d : Byte) (p : Ppu) :
    (writeScroll d p).oam = p.oam ∧ (writeScroll d p).ntRam = p.ntRam ∧
      (writeScroll d p).palette = p.palette := by
  unfold writeScroll; split <;> exact ⟨rfl, rfl, rfl⟩

theorem writeAddr_memory (d : Byte) (p : Ppu) :
    (writeAddr d p).oam = p.oam ∧ (writeAddr d p).ntRam = p.ntRam ∧
      (writeAddr d p).palette = p.palette := by
  unfold writeAddr; split <;> exact ⟨rfl, rfl, rfl⟩

/-- Only OAMDATA and PPUDATA writes reach a memory (R836, R838). -/
theorem ppuRegWrite_memory (cart : Option Cartridge) (r : BitVec 3) (d : Byte) (p : Ppu)
    (h4 : r.toNat ≠ 4) (h7 : r.toNat ≠ 7) :
    (ppuRegWrite cart r d p).oam = p.oam ∧ (ppuRegWrite cart r d p).ntRam = p.ntRam ∧
      (ppuRegWrite cart r d p).palette = p.palette := by
  unfold ppuRegWrite
  split
  case h_4 h => exact absurd h h4
  case h_5 => exact writeScroll_memory _ _
  case h_6 => exact writeAddr_memory _ _
  case h_7 h => exact absurd h h7
  all_goals exact ⟨rfl, rfl, rfl⟩

/-- A mapper write changes no array but PRG-RAM, and that only while it is enabled (R903). -/
theorem mapperWrite_cells (s : State) (a : Word) (d : Byte) (k : Storage) (n : Nat)
    (h : ∀ c, s.cart = some c →
      (k == .prgRam && n == a.toNat - 0x6000 && decide (0x6000 ≤ a.toNat) && decide (a.toNat ≤ 0x7FFF) &&
        prgRamEnabled s.params c) = false) :
    storedByte { s with cart := mapperWrite s.params s.cart a d } k n = storedByte s k n := by
  unfold mapperWrite
  cases hc : s.cart with
  | none => cases k <;> simp [storedByte, hc]
  | some c =>
    specialize h c hc
    by_cases h1 : a.toNat ≤ 0x5FFF
    · simp only [if_pos h1]; cases k <;> simp [storedByte, hc]
    · by_cases h2 : a.toNat ≤ 0x7FFF
      · by_cases h3 : prgRamEnabled s.params c = true
        · simp only [if_neg h1, if_pos h2, if_pos h3]
          cases k <;> simp [storedByte, hc]
          rw [memGet_memSet_ne]
          intro e
          simp [e, h2, h3] at h
          omega
        · simp only [if_neg h1, if_pos h2, if_neg h3]; cases k <;> simp [storedByte, hc]
      · simp only [if_neg h1, if_neg h2]
        have hw : (prgWrite s.params c a d).prgRom = c.prgRom ∧
            (prgWrite s.params c a d).prgRam = c.prgRam ∧ (prgWrite s.params c a d).chr = c.chr := by
          unfold prgWrite; split <;> exact ⟨rfl, rfl, rfl⟩
        cases k <;> simp [storedByte, hc, hw]

/-- A bus write changes at most the bytes `writeCells` names. -/
theorem memWrite_cells (a : Word) (v : Byte) (s : State) :
    SameStorageBut (writeCells s a) s (memWrite a v s) := by
  intro k n h
  unfold writeCells at h
  unfold memWrite writeEffect
  cases hd : deviceOf a <;> simp only [hd] at h ⊢
  case ram =>
    cases k <;> simp only [storedByte] <;> try rfl
    rw [memGet_memSet_ne]
    · rfl
    · intro e
      simp [e] at h
  case ppu =>
    by_cases h7 : (a.setWidth 3).toNat = 7
    · simp only [h7] at h
      have e : a.setWidth 3 = (7 : BitVec 3) := BitVec.eq_of_toNat_eq h7
      have := ppuWrite_cells s (s.ppu.v.setWidth 14) v _ rfl k n (by simpa using h)
      rw [← this, e]
      cases k <;> rfl
    · have hcart : ppuRegWriteCart s.cart (a.setWidth 3) v s.ppu = s.cart := by
        unfold ppuRegWriteCart
        rw [if_neg]
        intro e; rw [e] at h7; exact h7 rfl
      by_cases h4 : (a.setWidth 3).toNat = 4
      · simp only [h4] at h
        have e : a.setWidth 3 = (4 : BitVec 3) := BitVec.eq_of_toNat_eq h4
        rw [e] at hcart ⊢
        have hoam : (ppuRegWrite s.cart 4 v s.ppu).oam = memSet s.ppu.oam s.ppu.oamaddr.toNat v := rfl
        have hnt : (ppuRegWrite s.cart 4 v s.ppu).ntRam = s.ppu.ntRam := rfl
        have hpal : (ppuRegWrite s.cart 4 v s.ppu).palette = s.ppu.palette := rfl
        cases k <;> simp only [storedByte, hcart, hoam, hnt, hpal, latchBus_ppu, latchBus_cart,
          latchBus_bus_ram, Option.some.injEq]
        rw [memGet_memSet_ne]
        intro e
        simp [e] at h
      · obtain ⟨h1, h2, h3⟩ := ppuRegWrite_memory s.cart (a.setWidth 3) v s.ppu h4 h7
        cases k <;> simp [storedByte, hcart, h1, h2, h3]
  case apu => cases k <;> rfl
  case apuStatus => cases k <;> rfl
  case ctrl1 => cases k <;> rfl
  case absent => cases k <;> rfl
  case ctrl0 =>
    unfold ctrlWrite
    simp only
    cases k <;> simp [storedByte] <;> split <;> rfl
  case oamDma =>
    unfold oamDma
    have hf := oamDmaCopy_frame v 256 0 (latchBus v s)
    have hss := hf.1.sameStorage k n
    cases k <;> simp [storedByte] at h hss ⊢
    case oam => rw [hf.2 n h]; rfl
    all_goals rw [hss]
  case mapper =>
    have := mapperWrite_cells s a v k n (fun c hc => by simpa [hc] using h)
    rw [← this]
    cases k <;> rfl

/-! ### The stack -/

theorem stackAddr_toNat (sp : Byte) : (stackAddr sp).toNat = 0x100 + sp.toNat := by
  simp only [stackAddr, wordOf, BitVec.toNat_append]
  have := sp.isLt
  rw [Nat.shiftLeft_eq, show BitVec.toNat (1 : Byte) * 2 ^ 8 = 2 ^ 8 * 1 from rfl,
    ← Nat.two_pow_add_eq_or_of_lt this]

theorem stackAddr_ram (sp : Byte) : deviceOf (stackAddr sp) = .ram := by
  rw [deviceOf_ram, stackAddr_toNat]; have := sp.isLt; omega

theorem ramIndex_stackAddr (sp : Byte) : ramIndex (stackAddr sp) = stackCell sp := by
  rw [ramIndex, stackAddr_toNat, stackCell]; have := sp.isLt; omega

theorem stackCell_injective {a b : Byte} (h : stackCell a = stackCell b) : a = b := by
  unfold stackCell at h; exact BitVec.eq_of_toNat_eq (by omega)

/-- `push` (R112): the byte, the latch and SP. -/
theorem push_eq (v : Byte) (s : State) :
    push v s =
      { s with
        cpu := { s.cpu with sp := s.cpu.sp - 1 }
        bus := { s.bus with openBus := v, ram := memSet s.bus.ram (stackCell s.cpu.sp) v } } := by
  simp [push, memWrite_of_ram (stackAddr_ram _), ramIndex_stackAddr, setSP]

/-- `pull` (R113): the byte, the latch and SP. -/
theorem pull_eq (s : State) :
    pull s =
      (memGet s.bus.ram (stackCell (s.cpu.sp + 1)),
        { s with
          cpu := { s.cpu with sp := s.cpu.sp + 1 }
          bus := { s.bus with openBus := memGet s.bus.ram (stackCell (s.cpu.sp + 1)) } }) := by
  simp [pull, memRead_of_ram (stackAddr_ram _), ramIndex_stackAddr, setSP, latchBus]

end Sys2Proof.Machine
end

