-- ==== Sys2Proof/Laws/Flags.lean ====
section
/-! SUPPORT. What each flag computation does, bit by bit, and the closed forms the claims use. -/

namespace Sys2Proof.Machine

/-- A byte is known from its eight bits. -/
theorem byte_ext {a b : Byte} (h : ∀ i < 8, a.getLsbD i = b.getLsbD i) : a = b :=
  BitVec.eq_of_getLsbD_eq h

theorem lt_eight {i : Nat} (h : i < 8) :
    i = 0 ∨ i = 1 ∨ i = 2 ∨ i = 3 ∨ i = 4 ∨ i = 5 ∨ i = 6 ∨ i = 7 := by omega

section Bits

variable (b : Bool) (v p : Byte) (i : Nat)

theorem withC_bit : (withC b p).getLsbD i = if i = 0 then b else p.getLsbD i := by
  by_cases h : i < 8
  · rcases lt_eight h with rfl | rfl | rfl | rfl | rfl | rfl | rfl | rfl <;> cases b <;> simp [withC]
  · rw [if_neg (by omega), BitVec.getLsbD_of_ge _ _ (by omega), BitVec.getLsbD_of_ge _ _ (by omega)]

theorem withZ_bit : (withZ b p).getLsbD i = if i = 1 then b else p.getLsbD i := by
  by_cases h : i < 8
  · rcases lt_eight h with rfl | rfl | rfl | rfl | rfl | rfl | rfl | rfl <;> cases b <;> simp [withZ]
  · rw [if_neg (by omega), BitVec.getLsbD_of_ge _ _ (by omega), BitVec.getLsbD_of_ge _ _ (by omega)]

theorem withIFlag_bit : (withIFlag b p).getLsbD i = if i = 2 then b else p.getLsbD i := by
  by_cases h : i < 8
  · rcases lt_eight h with rfl | rfl | rfl | rfl | rfl | rfl | rfl | rfl <;> cases b <;> simp [withIFlag]
  · rw [if_neg (by omega), BitVec.getLsbD_of_ge _ _ (by omega), BitVec.getLsbD_of_ge _ _ (by omega)]

theorem withD_bit : (withD b p).getLsbD i = if i = 3 then b else p.getLsbD i := by
  by_cases h : i < 8
  · rcases lt_eight h with rfl | rfl | rfl | rfl | rfl | rfl | rfl | rfl <;> cases b <;> simp [withD]
  · rw [if_neg (by omega), BitVec.getLsbD_of_ge _ _ (by omega), BitVec.getLsbD_of_ge _ _ (by omega)]

theorem withV_bit : (withV b p).getLsbD i = if i = 6 then b else p.getLsbD i := by
  by_cases h : i < 8
  · rcases lt_eight h with rfl | rfl | rfl | rfl | rfl | rfl | rfl | rfl <;> cases b <;> simp [withV]
  · rw [if_neg (by omega), BitVec.getLsbD_of_ge _ _ (by omega), BitVec.getLsbD_of_ge _ _ (by omega)]

theorem withN_bit : (withN b p).getLsbD i = if i = 7 then b else p.getLsbD i := by
  by_cases h : i < 8
  · rcases lt_eight h with rfl | rfl | rfl | rfl | rfl | rfl | rfl | rfl <;> cases b <;> simp [withN]
  · rw [if_neg (by omega), BitVec.getLsbD_of_ge _ _ (by omega), BitVec.getLsbD_of_ge _ _ (by omega)]

theorem withNZ_bit : (withNZ v p).getLsbD i =
    if i = 1 then v == 0 else if i = 7 then v.getLsbD 7 else p.getLsbD i := by
  rw [withNZ, withZ_bit, withN_bit]

theorem storedP_bit : (storedP v).getLsbD i =
    if i = 5 then true else if i = 4 then false else v.getLsbD i := by
  by_cases h : i < 8
  · rcases lt_eight h with rfl | rfl | rfl | rfl | rfl | rfl | rfl | rfl <;> simp [storedP]
  · rw [if_neg (by omega), if_neg (by omega), BitVec.getLsbD_of_ge _ _ (by omega),
      BitVec.getLsbD_of_ge _ _ (by omega)]

theorem withI_bit : (withI p).getLsbD i = if i = 2 then true else p.getLsbD i := by
  by_cases h : i < 8
  · rcases lt_eight h with rfl | rfl | rfl | rfl | rfl | rfl | rfl | rfl <;> simp [withI]
  · rw [if_neg (by omega), BitVec.getLsbD_of_ge _ _ (by omega), BitVec.getLsbD_of_ge _ _ (by omega)]

theorem pNZ_bit : (pNZ v p).getLsbD i =
    if i = 1 then decide (v = 0) else if i = 7 then v.getLsbD 7 else p.getLsbD i := by
  by_cases h : i < 8
  · by_cases hv : v = 0
    · subst hv
      rcases lt_eight h with rfl | rfl | rfl | rfl | rfl | rfl | rfl | rfl <;> simp [pNZ]
    · have e : pNZ v p = (p &&& 0x7D) ||| (v &&& 0x80) ||| 0x00 := by rw [pNZ, if_neg hv]
      rw [e, decide_eq_false hv]
      rcases lt_eight h with rfl | rfl | rfl | rfl | rfl | rfl | rfl | rfl <;> simp
  · rw [if_neg (by omega), if_neg (by omega), BitVec.getLsbD_of_ge _ _ (by omega),
      BitVec.getLsbD_of_ge _ _ (by omega)]

theorem pCNZ_bit : (pCNZ b v p).getLsbD i =
    if i = 0 then b else if i = 1 then decide (v = 0) else if i = 7 then v.getLsbD 7
      else p.getLsbD i := by
  have e : pCNZ b v p = withC b (pNZ v p) := by cases b <;> rfl
  rw [e, withC_bit, pNZ_bit]

end Bits

theorem withNZ_eq (v p : Byte) : withNZ v p = pNZ v p :=
  byte_ext fun i _ => by rw [withNZ_bit, pNZ_bit]; simp [beq_eq_decide]

theorem withNZ_withC (c : Bool) (v p : Byte) : withNZ v (withC c p) = pCNZ c v p :=
  byte_ext fun i hi => by
    rw [withNZ_bit, withC_bit, pCNZ_bit]
    rcases lt_eight hi with rfl | rfl | rfl | rfl | rfl | rfl | rfl | rfl <;> simp [beq_eq_decide]

/-- The write of C alone leaves C as it is when it is written back. -/
theorem pNZ_eq_pCNZ (v p : Byte) : pNZ v p = pCNZ (flagC p) v p :=
  byte_ext fun i hi => by
    rw [pNZ_bit, pCNZ_bit]
    rcases lt_eight hi with rfl | rfl | rfl | rfl | rfl | rfl | rfl | rfl <;> simp [flagC]

/-- Compare (R523). -/
theorem compareFlags_eq (r m p : Byte) :
    compareFlags r m p = pCNZ (decide (m.toNat ≤ r.toNat)) (r - m) p :=
  byte_ext fun i hi => by
    have hz : (r == m) = decide (r - m = 0) := by
      rw [beq_eq_decide]; congr 1; rw [BitVec.sub_eq_iff_eq_add]; simp
    rw [compareFlags, withN_bit, withZ_bit, withC_bit, pCNZ_bit, hz]
    rcases lt_eight hi with rfl | rfl | rfl | rfl | rfl | rfl | rfl | rfl <;> simp

/-- BIT (R505): N and V from the operand, Z from the conjunction, the rest unchanged. -/
theorem bitFlags_bit (a m p : Byte) (i : Nat) : (bitFlags a m p).getLsbD i =
    if i = 6 then m.getLsbD 6 else if i = 7 then m.getLsbD 7 else if i = 1 then a &&& m == 0
      else p.getLsbD i := by
  rw [bitFlags, withV_bit, withN_bit, withZ_bit]

/-- ADC (R500): the bits of P after it. -/
theorem adcFlags_bit (a m p : Byte) (i : Nat) : (adcFlags a m p).getLsbD i =
    if i = 1 then adcResult a m p == 0
    else if i = 7 then (adcResult a m p).getLsbD 7
    else if i = 6 then ((a ^^^ adcResult a m p) &&& (m ^^^ adcResult a m p)) &&& 0x80 != 0
    else if i = 0 then decide (256 ≤ adcSum a m p)
    else p.getLsbD i := by
  simp only [adcFlags]
  rw [withNZ_bit, withV_bit, withC_bit]

theorem adcResult_toNat (a m p : Byte) :
    (adcResult a m p).toNat = (a.toNat + m.toNat + bitNat (flagC p)) % 256 := by
  simp [adcResult, adcSum]

/-- Bit 7 tells the sign. -/
theorem toInt_of_bit7 (a : Byte) : a.toInt = (a.toNat : Int) - if a.getLsbD 7 then 256 else 0 := by
  have h := BitVec.toInt_eq_msb_cond a
  simp only [BitVec.msb_eq_getLsbD_last] at h
  rw [h]; cases a.getLsbD (8 - 1) <;> simp

theorem bit7_eq (a : Byte) : a.getLsbD 7 = decide (128 ≤ a.toNat) := by
  have h : a.msb = decide (2 ^ (8 - 1) ≤ a.toNat) := BitVec.msb_eq_decide a
  rw [BitVec.msb_eq_getLsbD_last] at h
  simpa using h

/-- The overflow of R500 is the signed overflow of R520 and R522. -/
theorem adcV_iff (a m p : Byte) :
    (((a ^^^ adcResult a m p) &&& (m ^^^ adcResult a m p)) &&& 0x80 != 0) =
      decide (a.toInt + m.toInt + bitNat (flagC p) < -128 ∨
        127 < a.toInt + m.toInt + bitNat (flagC p)) := by
  have hand : ∀ x : Byte, (x &&& 0x80 != 0) = x.getLsbD 7 := by
    intro x
    have e : x &&& 0x80 = if x.getLsbD 7 then 0x80 else 0 :=
      byte_ext fun i hi => by
        rcases lt_eight hi with rfl | rfl | rfl | rfl | rfl | rfl | rfl | rfl <;>
          cases h : x.getLsbD 7 <;> simp <;> simpa using h
    rw [e]; cases x.getLsbD 7 <;> decide
  rw [hand, BitVec.getLsbD_and, BitVec.getLsbD_xor, BitVec.getLsbD_xor, toInt_of_bit7 a,
    toInt_of_bit7 m, bit7_eq, bit7_eq, bit7_eq, adcResult_toNat]
  have ha := a.isLt
  have hm := m.isLt
  have hc : bitNat (flagC p) ≤ 1 := by unfold bitNat; split <;> omega
  generalize bitNat (flagC p) = c at *
  generalize a.toNat = x at *
  generalize m.toNat = y at *
  by_cases h1 : 128 ≤ x <;> by_cases h2 : 128 ≤ y <;>
    by_cases h3 : 128 ≤ (x + y + c) % 256 <;> simp [h1, h2, h3] <;> omega

/-- The complement of the operand of SBC (R501). -/
theorem xorFF_toNat (m : Byte) : (m ^^^ 0xFF).toNat = 255 - m.toNat := by
  have h : m ^^^ 0xFF = ~~~m :=
    byte_ext fun i hi => by
      rcases lt_eight hi with rfl | rfl | rfl | rfl | rfl | rfl | rfl | rfl <;> simp
  rw [h, BitVec.toNat_not]

theorem xorFF_toInt (m : Byte) : (m ^^^ 0xFF).toInt = -1 - m.toInt := by
  rw [toInt_of_bit7, toInt_of_bit7, bit7_eq, bit7_eq, xorFF_toNat]
  have := m.isLt
  by_cases h : 128 ≤ m.toNat
  · rw [decide_eq_true h, decide_eq_false (by omega)]; simp; omega
  · rw [decide_eq_false h, decide_eq_true (by omega)]; simp; omega

/-- A read-modify-write computation is the result of `rmwResult` with P from its carry. -/
theorem aslOp_eq (v p : Byte) :
    aslOp v p = ((rmwResult .asl v (flagC p)).1, pCNZ (rmwResult .asl v (flagC p)).2 (rmwResult .asl v (flagC p)).1 p) := by
  simp only [aslOp, rmwResult, withNZ_withC]

theorem lsrOp_eq (v p : Byte) :
    lsrOp v p = ((rmwResult .lsr v (flagC p)).1, pCNZ (rmwResult .lsr v (flagC p)).2 (rmwResult .lsr v (flagC p)).1 p) := by
  simp only [lsrOp, rmwResult, withNZ_withC]

theorem rolOp_eq (v p : Byte) :
    rolOp v p = ((rmwResult .rol v (flagC p)).1, pCNZ (rmwResult .rol v (flagC p)).2 (rmwResult .rol v (flagC p)).1 p) := by
  simp only [rolOp, rmwResult, withNZ_withC]

theorem rorOp_eq (v p : Byte) :
    rorOp v p = ((rmwResult .ror v (flagC p)).1, pCNZ (rmwResult .ror v (flagC p)).2 (rmwResult .ror v (flagC p)).1 p) := by
  simp only [rorOp, rmwResult, withNZ_withC]

theorem incOp_eq (v p : Byte) :
    incOp v p = ((rmwResult .inc v (flagC p)).1, pCNZ (rmwResult .inc v (flagC p)).2 (rmwResult .inc v (flagC p)).1 p) := by
  simp only [incOp, rmwResult, withNZ_eq, pNZ_eq_pCNZ]

theorem decOp_eq (v p : Byte) :
    decOp v p = ((rmwResult .dec v (flagC p)).1, pCNZ (rmwResult .dec v (flagC p)).2 (rmwResult .dec v (flagC p)).1 p) := by
  have e : v + 255 = v - 1 := by rw [BitVec.sub_eq_add_neg]; rfl
  simp only [decOp, rmwResult, withNZ_eq, pNZ_eq_pCNZ, e]

end Sys2Proof.Machine
end

