-- ==== Sys2Proof/Laws/Operands.lean ====
section
/-! SUPPORT. The operand forms, and each kind of instruction in closed form. -/

namespace Sys2Proof.Machine

/-! ### Words from bytes -/

theorem wordOf_toNat (hi lo : Byte) : (wordOf hi lo).toNat = lo.toNat + 256 * hi.toNat := by
  simp only [wordOf, BitVec.toNat_append]
  have := lo.isLt
  rw [Nat.shiftLeft_eq, Nat.mul_comm, ← Nat.two_pow_add_eq_or_of_lt this]
  omega

theorem hiByte_toNat (w : Word) : (hiByte w).toNat = w.toNat / 256 := by
  simp only [hiByte, BitVec.toNat_setWidth, BitVec.toNat_ushiftRight, Nat.shiftRight_eq_div_pow]
  have := w.isLt
  omega

theorem loByte_toNat (w : Word) : (loByte w).toNat = w.toNat % 256 := by
  simp [loByte]

@[simp] theorem hiByte_wordOf (hi lo : Byte) : hiByte (wordOf hi lo) = hi := by
  apply BitVec.eq_of_toNat_eq
  rw [hiByte_toNat, wordOf_toNat]
  have := lo.isLt
  omega

@[simp] theorem loByte_wordOf (hi lo : Byte) : loByte (wordOf hi lo) = lo := by
  apply BitVec.eq_of_toNat_eq
  rw [loByte_toNat, wordOf_toNat]
  have := lo.isLt
  omega

@[simp] theorem wordOf_hiByte_loByte (w : Word) : wordOf (hiByte w) (loByte w) = w := by
  apply BitVec.eq_of_toNat_eq
  rw [wordOf_toNat, hiByte_toNat, loByte_toNat]
  omega

theorem pageDiffers_eq (a b : Word) : pageDiffers a b = decide (pageOf a ≠ pageOf b) := by
  simp only [pageDiffers, pageOf, ← hiByte_toNat]
  rw [Bool.eq_iff_iff]
  simp [bne_iff_ne, BitVec.toNat_inj]

/-! ### Addresses -/

/-- Finding an address makes only reads. -/
theorem resolve_onlyReadEffects (m : AddrMode) (s : State) : OnlyReadEffects s (resolve m s).state := by
  cases m
  case indX b => exact memReadPair_onlyReadEffects _ _ _
  case indY b => exact memReadPair_onlyReadEffects _ _ _
  all_goals rfl

@[simp] theorem resolve_cpu (m : AddrMode) (s : State) : (resolve m s).state.cpu = s.cpu :=
  (resolve_onlyReadEffects m s).cpu

theorem readOperand_onlyReadEffects (m : ReadMode) (s : State) :
    OnlyReadEffects s (readOperand m s).state := by
  cases m
  case imm b => rfl
  case mem am => exact (resolve_onlyReadEffects am s).trans (memRead_onlyReadEffects _ _)

@[simp] theorem readOperand_cpu (m : ReadMode) (s : State) : (readOperand m s).state.cpu = s.cpu :=
  (readOperand_onlyReadEffects m s).cpu

/-- A byte of the zero page is read as RAM, with no effect but the latch. -/
theorem memRead_zeroPage (b : Byte) (s : State) :
    memRead (b.setWidth 16) s = (memGet s.bus.ram b.toNat, latchBus (memGet s.bus.ram b.toNat) s) := by
  have hb := b.isLt
  have hn : (b.setWidth 16).toNat = b.toNat := by
    simp only [BitVec.toNat_setWidth]; omega
  have hd : deviceOf (b.setWidth 16) = .ram := by rw [deviceOf_ram, hn]; omega
  rw [memRead_of_ram hd, ramIndex, hn, Nat.mod_eq_of_lt (by omega)]

/-- A pointer in the zero page (R331, R332): two RAM bytes, the second's address wrapped. -/
theorem memReadPair_zeroPage (b c : Byte) (s : State) :
    memReadPair (b.setWidth 16) (c.setWidth 16) s =
      (wordOf (memGet s.bus.ram c.toNat) (memGet s.bus.ram b.toNat),
        latchBus (memGet s.bus.ram c.toNat) s) := by
  simp only [memReadPair, memRead_zeroPage]
  rfl

/-! ### The kinds of instruction -/

/-- A reading instruction whose effect on the state is one on CPU registers, other than PC and the
counter. -/
theorem readInstr_eq (r : TableRow ReadMode) (f : Byte → State → State) (s : State) (c : Cpu)
    (hlen : readLength r.mode = r.length) (base : Nat) (hb : base = r.cycles)
    (hpen : r.penalty = false → (readOperand r.mode s).crossed = false)
    (hf : f (readOperand r.mode s).value (readOperand r.mode s).state =
      { (readOperand r.mode s).state with cpu := c })
    (hpc : c.pc = s.cpu.pc) (hcy : c.cycles = s.cpu.cycles) :
    readInstr r.mode base f s = .next (afterRead r (readOperand r.mode s) s c) := by
  simp only [readInstr, hf, retire, addCycles, setPC, afterRead, hlen, hpc, hcy, hb]
  congr 7
  cases h : r.penalty
  · simp [hpen h]
  · cases (readOperand r.mode s).crossed <;> simp

/-- A storing instruction: one write and the CPU's bookkeeping. -/
theorem storeInstr_eq (m : AddrMode) (base : Nat) (v : Byte) (s : State) :
    storeInstr m base v s =
      .next { memWrite (resolve m s).ea v (resolve m s).state with
        cpu := retired (modeLength m) base s.cpu } := by
  simp [storeInstr, retire, addCycles, setPC, retired]

/-- A read-modify-write instruction on memory: one read, one write, P and the CPU's bookkeeping. -/
theorem rmwInstr_eq (m : AddrMode) (base : Nat) (f : Byte → Byte → Byte × Byte) (s : State) :
    rmwInstr m base f s =
      (let a := resolve m s
       let v := memRead a.ea a.state
       let o := f v.1 s.cpu.p
       .next { memWrite a.ea o.1 v.2 with
         cpu := retired (modeLength m) base { s.cpu with p := o.2 } }) := by
  simp [rmwInstr, retire, addCycles, setPC, setFlags, retired]

theorem accInstr_eq (f : Byte → Byte → Byte × Byte) (s : State) :
    accInstr f s =
      .next { s with
        cpu := retired 1 2 { s.cpu with a := (f s.cpu.a s.cpu.p).1, p := (f s.cpu.a s.cpu.p).2 } } := rfl

/-- A register instruction whose effect is one on CPU registers. -/
theorem regInstr_eq (f : State → State) (s : State) (c : Cpu) (hf : f s = { s with cpu := c }) :
    regInstr f s = .next { s with cpu := retired 1 2 c } := by
  simp [regInstr, hf, retire, addCycles, setPC, retired]

/-- The target of a branch in numbers (R334). -/
theorem branchTarget_toNat (b : Byte) (pc : Word) :
    ((branchTarget b pc).toNat : Int) = ((pc.toNat : Int) + 2 + b.toInt) % 65536 := by
  have hb : (b.signExtend 16).toNat = if b.getLsbD 7 then b.toNat + 65280 else b.toNat := by
    have h := b.isLt
    rw [BitVec.toNat_signExtend]
    have : b.msb = b.getLsbD 7 := BitVec.msb_eq_getLsbD_last b
    rw [this]
    have : (b.setWidth 16).toNat = b.toNat := by rw [BitVec.toNat_setWidth]; omega
    rw [this]; split_ifs <;> rfl
  have h := b.isLt
  rw [toInt_of_bit7, branchTarget, BitVec.toNat_add, BitVec.toNat_add, hb]
  have h2 : (2 : Word).toNat = 2 := rfl
  rw [h2]
  split_ifs <;> omega

/-- A branch: PC and the cycles (R603). -/
theorem branchInstr_eq (cond : Bool) (b : Byte) (s : State) :
    branchInstr cond b s =
      .next { s with
        cpu := { s.cpu with
          pc := if cond then branchTarget b s.cpu.pc else s.cpu.pc + 2
          cycles := s.cpu.cycles +
            if cond then
              if pageOf (branchTarget b s.cpu.pc) = pageOf (s.cpu.pc + 2) then 3 else 4
            else 2 } } := by
  cases cond
  · rfl
  · simp only [branchInstr, if_true, pageDiffers_eq, addCycles, setPC]
    by_cases h : pageOf (branchTarget b s.cpu.pc) = pageOf (s.cpu.pc + 2)
    · simp only [h, ne_eq, not_true_eq_false, decide_false, bitNat, if_true]; rfl
    · simp only [h, ne_eq, not_false_eq_true, decide_true, bitNat, if_true, if_false]; rfl

/-! ### Interrupts and the stack -/

theorem pushWord_eq (w : Word) (s : State) :
    pushWord w s =
      { s with
        cpu := { s.cpu with sp := s.cpu.sp - 2 }
        bus :=
          { s.bus with
            openBus := loByte w
            ram := memSet (memSet s.bus.ram (stackCell s.cpu.sp) (hiByte w))
              (stackCell (s.cpu.sp - 1)) (loByte w) } } := by
  simp only [pushWord, push_eq]
  congr 2
  rw [BitVec.sub_sub]; rfl

theorem pullWord_eq (s : State) :
    pullWord s =
      (wordOf (memGet s.bus.ram (stackCell (s.cpu.sp + 2)))
          (memGet s.bus.ram (stackCell (s.cpu.sp + 1))),
        { s with
          cpu := { s.cpu with sp := s.cpu.sp + 2 }
          bus := { s.bus with openBus := memGet s.bus.ram (stackCell (s.cpu.sp + 2)) } }) := by
  have e : s.cpu.sp + 1 + 1 = s.cpu.sp + 2 := by rw [BitVec.add_assoc]; rfl
  simp only [pullWord, pull_eq, e]

/-- The word at a vector: two mapper reads and the latch (R203). -/
theorem memRead16_vector {v : Word} (hv : 0x4020 ≤ v.toNat) (hv' : v.toNat ≤ 0xFFFE) (s : State) :
    memRead16 v s =
      (vectorRead s s.bus.openBus v, latchBus (hiByte (vectorRead s s.bus.openBus v)) s) := by
  have h1 : (v + 1).toNat = v.toNat + 1 := by
    rw [BitVec.toNat_add]; simp; omega
  simp only [memRead16, memReadPair, memRead_of_mapper (deviceOf_mapper.2 hv),
    memRead_of_mapper (deviceOf_mapper.2 (show 0x4020 ≤ (v + 1).toNat by omega)), vectorRead,
    hiByte_wordOf]
  rfl

/-- Taking an interrupt does what `InterruptEntry` says and leaves the counter and the pending NMI. -/
theorem enterInterrupt_entry {v : Word} (hv : 0x4020 ≤ v.toNat) (hv' : v.toNat ≤ 0xFFFE) (ret : Word)
    (b : Bool) (s : State) :
    InterruptEntry v ret b s (enterInterrupt v ret b s) ∧
      (enterInterrupt v ret b s).cpu.cycles = s.cpu.cycles ∧
      (enterInterrupt v ret b s).cpu.nmiPending = s.cpu.nmiPending := by
  have e3 : s.cpu.sp - 2 - 1 = s.cpu.sp - 3 := by rw [BitVec.sub_sub]; rfl
  have hp : pushedP b s.cpu.p = (s.cpu.p &&& 0xCF) ||| (if b then 0x30 else 0x20) := by
    cases b <;> simp [pushedP, BitVec.or_assoc]
  have c1 : stackCell (s.cpu.sp - 1) ≠ stackCell s.cpu.sp := fun h => by
    have := stackCell_injective h; bv_omega
  have c2 : stackCell (s.cpu.sp - 2) ≠ stackCell s.cpu.sp := fun h => by
    have := stackCell_injective h; bv_omega
  have c3 : stackCell (s.cpu.sp - 2) ≠ stackCell (s.cpu.sp - 1) := fun h => by
    have := stackCell_injective h; bv_omega
  simp only [enterInterrupt, pushWord_eq, push_eq, setFlags, setPC, memRead16_vector hv hv', hp, withI,
    latchBus, and_true]
  refine ⟨?_, ?_, ?_, ?_, ?_, ?_⟩
  · rw [e3]; rfl
  · simp only [storedByte, memGet_memSet, if_neg c1.symm, if_neg c2.symm, if_true]
  · simp only [storedByte, memGet_memSet, if_neg c3.symm, if_true]
  · simp only [storedByte, memGet_memSet, if_true]
  · intro k n hn
    cases k <;> try rfl
    have hx : s.cpu.sp - 1 - 1 = s.cpu.sp - 2 := by rw [BitVec.sub_sub]; rfl
    simp only [pushedCells, hx, Bool.or_false, Bool.or_eq_false_iff, Bool.and_eq_false_imp,
      beq_iff_eq, beq_eq_false_iff_ne, forall_const] at hn
    simp only [storedByte, memGet_memSet, if_neg hn.1, if_neg hn.2.1, if_neg hn.2.2]
  · rfl

/-- The cycle counter and the pending NMI are not part of an entry. -/
theorem InterruptEntry.withCounters {v ret : Word} {b : Bool} {s t : State}
    (h : InterruptEntry v ret b s t) (n : BitVec 32) (nmi : Bool) :
    InterruptEntry v ret b s { t with cpu := { t.cpu with cycles := n, nmiPending := nmi } } := by
  obtain ⟨h1, h2, h3, h4, h5, h6⟩ := h
  refine ⟨?_, h2, h3, h4, fun k i hk => ?_, ?_⟩
  · exact congrArg (fun c : Cpu => { c with cycles := n, nmiPending := nmi }) h1
  · have := h5 k i hk; cases k <;> exact this
  · exact congrArg
      (fun r : State => { r with cpu := { t.cpu with cycles := n, nmiPending := nmi } }) h6

/-- `service_nmi` (R704). -/
theorem serviceNmi_entry (s : State) :
    InterruptEntry nmiVector s.cpu.pc false s (serviceNmi s) ∧
      (serviceNmi s).cpu.cycles = s.cpu.cycles + 7 ∧ (serviceNmi s).cpu.nmiPending = false := by
  obtain ⟨h, hc, -⟩ := enterInterrupt_entry (v := nmiVector) (by decide) (by decide) s.cpu.pc false s
  have h' := h.withCounters ((enterInterrupt nmiVector s.cpu.pc false s).cpu.cycles + 7) false
  simp only [serviceNmi, addCycles]
  exact ⟨h', by rw [hc]; rfl, trivial⟩

/-- `service_irq` (R705). -/
theorem serviceIrq_entry (s : State) :
    InterruptEntry irqVector s.cpu.pc false s (serviceIrq s) ∧
      (serviceIrq s).cpu.cycles = s.cpu.cycles + 7 ∧
      (serviceIrq s).cpu.nmiPending = s.cpu.nmiPending := by
  obtain ⟨h, hc, hn⟩ :=
    enterInterrupt_entry (v := irqVector) (by decide) (by decide) s.cpu.pc false s
  have h' := h.withCounters ((enterInterrupt irqVector s.cpu.pc false s).cpu.cycles + 7)
    (enterInterrupt irqVector s.cpu.pc false s).cpu.nmiPending
  simp only [serviceIrq, addCycles]
  exact ⟨h', by rw [hc]; rfl, hn⟩

/-- Returning from an interrupt (R659): three RAM bytes from the stack. -/
theorem returnFromInterrupt_eq (s : State) :
    returnFromInterrupt s =
      { s with
        cpu := { s.cpu with
          sp := s.cpu.sp + 3
          p := storedP (memGet s.bus.ram (stackCell (s.cpu.sp + 1)))
          pc := wordOf (memGet s.bus.ram (stackCell (s.cpu.sp + 3)))
            (memGet s.bus.ram (stackCell (s.cpu.sp + 2))) }
        bus := { s.bus with openBus := memGet s.bus.ram (stackCell (s.cpu.sp + 3)) } } := by
  have e2 : s.cpu.sp + 1 + 1 = s.cpu.sp + 2 := by rw [BitVec.add_assoc]; rfl
  have e3 : s.cpu.sp + 1 + 2 = s.cpu.sp + 3 := by rw [BitVec.add_assoc]; rfl
  simp only [returnFromInterrupt, pull_eq, setP, pullWord_eq, setPC, e2, e3]

end Sys2Proof.Machine
end

