-- ==== Sys2Proof/Laws/Decode.lean ====
section
/-! SUPPORT. What the decoder does on a list of bytes, and what the fetch of a step reads. -/

namespace Sys2Proof

/-- Every length is 1, 2 or 3 (R301). -/
theorem opcodeLength_cases (op : Byte) : opcodeLength op = 1 ∨ opcodeLength op = 2 ∨ opcodeLength op = 3 := by
  unfold opcodeLength; split <;> simp

/-- An operand byte past the length does not matter. -/
theorem decodeBytes_one {op : Byte} (h : opcodeLength op = 1) (b1 b2 : Byte) :
    decodeBytes op b1 b2 = decodeBytes op 0 0 := by
  unfold opcodeLength at h; unfold decodeBytes; split at h <;> simp_all

theorem decodeBytes_two {op : Byte} (h : opcodeLength op = 2) (b1 b2 : Byte) :
    decodeBytes op b1 b2 = decodeBytes op b1 0 := by
  unfold opcodeLength at h; unfold decodeBytes; split at h <;> simp_all

theorem decode_one {op : Byte} (h : opcodeLength op = 1) (rest : List Byte) :
    decode (op :: rest) = .ok (decodeBytes op 0 0, rest) := by simp [decode, h]

theorem decode_two {op : Byte} (h : opcodeLength op = 2) (b1 : Byte) (rest : List Byte) :
    decode (op :: b1 :: rest) = .ok (decodeBytes op b1 0, rest) := by simp [decode, h]

theorem decode_three {op : Byte} (h : opcodeLength op = 3) (b1 b2 : Byte) (rest : List Byte) :
    decode (op :: b1 :: b2 :: rest) = .ok (decodeBytes op b1 b2, rest) := by simp [decode, h]

theorem illegal_entries : illegalBytes.all (fun op => match opcodeEntry op with
    | .ill => true
    | _ => false) = true := by decide

/-- The cells of the map at the bytes R306 lists are the illegal ones. -/
theorem illegal_entry {op : Byte} (h : illegalBytes.contains op = true) : opcodeEntry op = .ill := by
  have h' := List.all_eq_true.1 illegal_entries op (by simpa using h)
  split at h'
  · assumption
  · cases h'

theorem illegal_length {op : Byte} (h : illegalBytes.contains op = true) : opcodeLength op = 1 := by
  simp [opcodeLength, illegal_entry h]

theorem illegal_decode {op : Byte} (h : illegalBytes.contains op = true) (b1 b2 : Byte) :
    decodeBytes op b1 b2 = .illegal op := by
  simp [decodeBytes, illegal_entry h]

namespace Machine

/-- The fetch makes only reads. -/
theorem fetchInstr_onlyReadEffects (s : State) : OnlyReadEffects s (fetchInstr s).2 := by
  unfold fetchInstr
  simp only
  split
  · exact memRead_onlyReadEffects _ _
  · exact (memRead_onlyReadEffects _ _).trans (memRead_onlyReadEffects _ _)
  · exact ((memRead_onlyReadEffects _ _).trans (memRead_onlyReadEffects _ _)).trans
      (memRead_onlyReadEffects _ _)

@[simp] theorem fetchInstr_cpu (s : State) : (fetchInstr s).2.cpu = s.cpu :=
  (fetchInstr_onlyReadEffects s).cpu

/-- `step` is the fetch, the instruction, and the rest of the scheduler step. -/
theorem step_next {s t : State} (h : step s = .next t) :
    ∃ u, exec (fetchInstr s).1 (fetchInstr s).2 = .next u ∧
      t = rewindCapture s.ppu.frame (catchUp (u.cpu.cycles - s.cpu.cycles).toNat u) := by
  unfold step at h
  split at h
  · rename_i u hu
    refine ⟨u, hu, ?_⟩
    cases h
    simp [finishStep]
  all_goals cases h

end Machine

end Sys2Proof
end

