-- ==== Sys2Proof/Laws/Step.lean ====
section
/-! SUPPORT. What an instruction and a step can do, said once: everything is made of changes of CPU
registers, bus reads and writes, and the ticks of the other units. A property that each of these
keeps is kept by every instruction and by every step. -/

namespace Sys2Proof.Machine

/-! ### The stored form of P -/

theorem stored_iff (p : Byte) : storedP p = p ↔ p.getLsbD 5 = true ∧ p.getLsbD 4 = false := by
  constructor
  · intro h
    rw [← h, storedP_bit, storedP_bit]; simp
  · intro h
    refine byte_ext fun i hi => ?_
    rw [storedP_bit]
    rcases lt_eight hi with rfl | rfl | rfl | rfl | rfl | rfl | rfl | rfl <;> simp_all

theorem storedP_stored (v : Byte) : storedP (storedP v) = storedP v := by
  rw [stored_iff, storedP_bit, storedP_bit]; simp

/-- A new P that has the old one's bits 5 and 4 is as stored as the old one. -/
theorem stored_of_bits {p q : Byte} (h5 : q.getLsbD 5 = p.getLsbD 5) (h4 : q.getLsbD 4 = p.getLsbD 4)
    (h : storedP p = p) : storedP q = q := by
  rw [stored_iff] at h ⊢; rwa [h5, h4]

theorem pCNZ_stored {c : Bool} {v p : Byte} (h : storedP p = p) : storedP (pCNZ c v p) = pCNZ c v p :=
  stored_of_bits (by rw [pCNZ_bit]; simp) (by rw [pCNZ_bit]; simp) h

theorem withNZ_stored {v p : Byte} (h : storedP p = p) : storedP (withNZ v p) = withNZ v p :=
  stored_of_bits (by rw [withNZ_bit]; simp) (by rw [withNZ_bit]; simp) h

theorem adcFlags_stored {a m p : Byte} (h : storedP p = p) :
    storedP (adcFlags a m p) = adcFlags a m p :=
  stored_of_bits (by rw [adcFlags_bit]; simp) (by rw [adcFlags_bit]; simp) h

theorem compareFlags_stored {r m p : Byte} (h : storedP p = p) :
    storedP (compareFlags r m p) = compareFlags r m p := by
  rw [compareFlags_eq]; exact pCNZ_stored h

theorem bitFlags_stored {a m p : Byte} (h : storedP p = p) :
    storedP (bitFlags a m p) = bitFlags a m p :=
  stored_of_bits (by rw [bitFlags_bit]; simp) (by rw [bitFlags_bit]; simp) h

theorem withI_stored {p : Byte} (h : storedP p = p) : storedP (withI p) = withI p :=
  stored_of_bits (by rw [withI_bit]; simp) (by rw [withI_bit]; simp) h

/-! ### Instructions -/

/-- A property of the machine that changes of CPU registers (which leave P in its stored form, if it
was) and bus accesses keep. -/
structure ExecClosed (P : State → Prop) : Prop where
  cpu : ∀ s c, P s → (storedP s.cpu.p = s.cpu.p → storedP c.p = c.p) → P { s with cpu := c }
  read : ∀ s a, P s → P (memRead a s).2
  write : ∀ s a v, P s → P (memWrite a v s)

section Closed

variable {P : State → Prop} (hP : ExecClosed P)
include hP

theorem ExecClosed.readPair (s : State) (lo hi : Word) (h : P s) : P (memReadPair lo hi s).2 :=
  hP.read _ _ (hP.read _ _ h)

theorem ExecClosed.resolve (m : AddrMode) (s : State) (h : P s) : P (resolve m s).state := by
  cases m
  case indX b => exact hP.readPair _ _ _ h
  case indY b => exact hP.readPair _ _ _ h
  all_goals exact h

theorem ExecClosed.readOperand (m : ReadMode) (s : State) (h : P s) : P (readOperand m s).state := by
  cases m
  case imm b => exact h
  case mem am => exact hP.read _ _ (hP.resolve _ _ h)

theorem ExecClosed.retire (len n : Nat) (s : State) (h : P s) : P (retire len n s) :=
  hP.cpu _ _ (hP.cpu _ _ h id) id

theorem ExecClosed.setFlags (p : Byte) (s : State) (h : P s)
    (hp : storedP s.cpu.p = s.cpu.p → storedP p = p) : P (setFlags p s) := hP.cpu _ _ h hp

theorem ExecClosed.setNZ (v : Byte) (s : State) (h : P s) : P (setNZ v s) :=
  hP.setFlags _ _ h withNZ_stored

theorem ExecClosed.push (v : Byte) (s : State) (h : P s) : P (push v s) :=
  hP.cpu _ _ (hP.write _ _ _ h) id

theorem ExecClosed.pull (s : State) (h : P s) : P (pull s).2 :=
  hP.read _ _ (hP.cpu _ _ h id)

theorem ExecClosed.pushWord (w : Word) (s : State) (h : P s) : P (pushWord w s) :=
  hP.push _ _ (hP.push _ _ h)

theorem ExecClosed.pullWord (s : State) (h : P s) : P (pullWord s).2 := hP.pull _ (hP.pull _ h)

theorem ExecClosed.enterInterrupt (v ret : Word) (b : Bool) (s : State) (h : P s) :
    P (enterInterrupt v ret b s) :=
  hP.cpu _ _ (hP.readPair _ _ _ (hP.setFlags _ _ (hP.push _ _ (hP.pushWord _ _ h)) withI_stored)) id

theorem ExecClosed.serviceNmi (s : State) (h : P s) : P (serviceNmi s) :=
  hP.cpu _ _ (hP.cpu _ _ (hP.enterInterrupt _ _ _ _ h) id) id

theorem ExecClosed.serviceIrq (s : State) (h : P s) : P (serviceIrq s) :=
  hP.cpu _ _ (hP.enterInterrupt _ _ _ _ h) id

theorem ExecClosed.readInstr {m : ReadMode} {base : Nat} {f : Byte → State → State} {s t : State}
    (hf : ∀ v s, P s → P (f v s)) (h : P s) (ht : readInstr m base f s = .next t) : P t := by
  cases ht; exact hP.retire _ _ _ (hf _ _ (hP.readOperand _ _ h))

theorem ExecClosed.storeInstr {m : AddrMode} {base : Nat} {v : Byte} {s t : State}
    (h : P s) (ht : storeInstr m base v s = .next t) : P t := by
  cases ht; exact hP.retire _ _ _ (hP.write _ _ _ (hP.resolve _ _ h))

theorem ExecClosed.rmwInstr {m : AddrMode} {base : Nat} {f : Byte → Byte → Byte × Byte} {s t : State}
    (hf : ∀ v p, storedP p = p → storedP (f v p).2 = (f v p).2) (h : P s)
    (ht : rmwInstr m base f s = .next t) : P t := by
  cases ht
  refine hP.retire _ _ _ (hP.setFlags _ _ (hP.write _ _ _ (hP.read _ _ (hP.resolve _ _ h))) ?_)
  simpa using hf _ _

theorem ExecClosed.accInstr {f : Byte → Byte → Byte × Byte} {s t : State}
    (hf : ∀ v p, storedP p = p → storedP (f v p).2 = (f v p).2) (h : P s)
    (ht : accInstr f s = .next t) : P t := by
  cases ht; exact hP.retire _ _ _ (hP.setFlags _ _ (hP.cpu _ _ h id) (hf _ _))

theorem ExecClosed.regInstr {f : State → State} {s t : State} (hf : ∀ s, P s → P (f s)) (h : P s)
    (ht : regInstr f s = .next t) : P t := by
  cases ht; exact hP.retire _ _ _ (hf _ h)

theorem ExecClosed.branchInstr {c : Bool} {b : Byte} {s t : State} (h : P s)
    (ht : branchInstr c b s = .next t) : P t := by
  rw [branchInstr_eq] at ht; cases ht; exact hP.cpu _ _ h id

/-- The effects of the reading instructions are changes of CPU registers. -/
theorem ExecClosed.readOps (v : Byte) (s : State) (h : P s) :
    P (opLda v s) ∧ P (opLdx v s) ∧ P (opLdy v s) ∧ P (opAdc v s) ∧ P (opSbc v s) ∧ P (opAnd v s) ∧
      P (opOra v s) ∧ P (opEor v s) ∧ P (opBit v s) ∧ P (opCmp v s) ∧ P (opCpx v s) ∧ P (opCpy v s) :=
  ⟨hP.setNZ _ _ (hP.cpu _ _ h id), hP.setNZ _ _ (hP.cpu _ _ h id), hP.setNZ _ _ (hP.cpu _ _ h id),
    hP.setFlags _ _ (hP.cpu _ _ h id) adcFlags_stored,
    hP.setFlags _ _ (hP.cpu _ _ h id) adcFlags_stored,
    hP.setNZ _ _ (hP.cpu _ _ h id), hP.setNZ _ _ (hP.cpu _ _ h id), hP.setNZ _ _ (hP.cpu _ _ h id),
    hP.setFlags _ _ h bitFlags_stored, hP.setFlags _ _ h compareFlags_stored,
    hP.setFlags _ _ h compareFlags_stored, hP.setFlags _ _ h compareFlags_stored⟩

end Closed

/-- The computations of the read-modify-write instructions leave P in its stored form. -/
theorem rmwOps_stored (v p : Byte) (h : storedP p = p) :
    storedP (aslOp v p).2 = (aslOp v p).2 ∧ storedP (lsrOp v p).2 = (lsrOp v p).2 ∧
      storedP (rolOp v p).2 = (rolOp v p).2 ∧ storedP (rorOp v p).2 = (rorOp v p).2 ∧
      storedP (incOp v p).2 = (incOp v p).2 ∧ storedP (decOp v p).2 = (decOp v p).2 := by
  rw [aslOp_eq, lsrOp_eq, rolOp_eq, rorOp_eq, incOp_eq, decOp_eq]
  exact ⟨pCNZ_stored h, pCNZ_stored h, pCNZ_stored h, pCNZ_stored h, pCNZ_stored h, pCNZ_stored h⟩

/-- Every instruction keeps what register changes and bus accesses keep. -/
theorem ExecClosed.exec {P : State → Prop} (hP : ExecClosed P) {i : Instr} {s t : State} (h : P s)
    (ht : exec i s = .next t) : P t := by
  have op := hP.readOps
  have rm := rmwOps_stored
  cases i <;> simp only [Machine.exec] at ht
  case tax => exact hP.regInstr (fun s h => (op s.cpu.a s h).2.1) h ht
  case tay => exact hP.regInstr (fun s h => (op s.cpu.a s h).2.2.1) h ht
  case txa => exact hP.regInstr (fun s h => (op s.cpu.x s h).1) h ht
  case tya => exact hP.regInstr (fun s h => (op s.cpu.y s h).1) h ht
  case tsx => exact hP.regInstr (fun s h => (op s.cpu.sp s h).2.1) h ht
  case txs => refine hP.regInstr (fun s h => ?_) h ht; exact hP.cpu _ _ h id
  case inx | iny | dex | dey =>
    refine hP.regInstr (fun s h => ?_) h ht; exact hP.setNZ _ _ (hP.cpu _ _ h id)
  case pha => cases ht; exact hP.retire _ _ _ (hP.push _ _ h)
  case php => cases ht; exact hP.retire _ _ _ (hP.push _ _ h)
  case pla => cases ht; exact hP.retire _ _ _ (hP.setNZ _ _ (hP.cpu _ _ (hP.pull _ h) id))
  case plp => cases ht; exact hP.retire _ _ _ (hP.cpu _ _ (hP.pull _ h) fun _ => storedP_stored _)
  case jmpAbs => cases ht; exact hP.cpu _ _ (hP.cpu _ _ h id) id
  case jmpInd => cases ht; exact hP.cpu _ _ (hP.cpu _ _ (hP.readPair _ _ _ h) id) id
  case jsr => cases ht; exact hP.cpu _ _ (hP.cpu _ _ (hP.pushWord _ _ h) id) id
  case rts => cases ht; exact hP.cpu _ _ (hP.cpu _ _ (hP.pullWord _ h) id) id
  case brk => cases ht; exact hP.cpu _ _ (hP.enterInterrupt _ _ _ _ h) id
  case rti =>
    cases ht
    exact hP.cpu _ _ (hP.cpu _ _ (hP.pullWord _ (hP.cpu _ _ (hP.pull _ h) fun _ => storedP_stored _)) id)
      id
  case clc | sec | cli | sei | cld | sed | clv =>
    refine hP.regInstr (fun s h => hP.setFlags _ _ h (stored_of_bits ?_ ?_)) h ht
    all_goals first
      | (rw [withC_bit]; rfl) | (rw [withIFlag_bit]; rfl) | (rw [withD_bit]; rfl) | (rw [withV_bit]; rfl)
  case nop => exact hP.regInstr (fun s h => h) h ht
  case illegal op =>
    unfold execIllegal at ht
    split at ht
    · cases ht; exact hP.retire _ _ _ (hP.cpu _ _ h id)
    · cases ht
  case bcc | bcs | beq | bmi | bne | bpl | bvc | bvs => exact hP.branchInstr h ht
  case staZp | staZpX | staAbs | staAbsX | staAbsY | staIndX | staIndY | stxZp | stxZpY
      | stxAbs | styZp | styZpX | styAbs =>
    exact hP.storeInstr h ht
  case ldaImm | ldaZp | ldaZpX | ldaAbs | ldaAbsX | ldaAbsY | ldaIndX | ldaIndY =>
    exact hP.readInstr (fun v s h => (op v s h).1) h ht
  case ldxImm | ldxZp | ldxZpY | ldxAbs | ldxAbsY =>
    exact hP.readInstr (fun v s h => (op v s h).2.1) h ht
  case ldyImm | ldyZp | ldyZpX | ldyAbs | ldyAbsX =>
    exact hP.readInstr (fun v s h => (op v s h).2.2.1) h ht
  case adcImm | adcZp | adcZpX | adcAbs | adcAbsX | adcAbsY | adcIndX | adcIndY =>
    exact hP.readInstr (fun v s h => (op v s h).2.2.2.1) h ht
  case sbcImm | sbcZp | sbcZpX | sbcAbs | sbcAbsX | sbcAbsY | sbcIndX | sbcIndY =>
    exact hP.readInstr (fun v s h => (op v s h).2.2.2.2.1) h ht
  case andImm | andZp | andZpX | andAbs | andAbsX | andAbsY | andIndX | andIndY =>
    exact hP.readInstr (fun v s h => (op v s h).2.2.2.2.2.1) h ht
  case oraImm | oraZp | oraZpX | oraAbs | oraAbsX | oraAbsY | oraIndX | oraIndY =>
    exact hP.readInstr (fun v s h => (op v s h).2.2.2.2.2.2.1) h ht
  case eorImm | eorZp | eorZpX | eorAbs | eorAbsX | eorAbsY | eorIndX | eorIndY =>
    exact hP.readInstr (fun v s h => (op v s h).2.2.2.2.2.2.2.1) h ht
  case bitZp | bitAbs =>
    exact hP.readInstr (fun v s h => (op v s h).2.2.2.2.2.2.2.2.1) h ht
  case cmpImm | cmpZp | cmpZpX | cmpAbs | cmpAbsX | cmpAbsY | cmpIndX | cmpIndY =>
    exact hP.readInstr (fun v s h => (op v s h).2.2.2.2.2.2.2.2.2.1) h ht
  case cpxImm | cpxZp | cpxAbs =>
    exact hP.readInstr (fun v s h => (op v s h).2.2.2.2.2.2.2.2.2.2.1) h ht
  case cpyImm | cpyZp | cpyAbs =>
    exact hP.readInstr (fun v s h => (op v s h).2.2.2.2.2.2.2.2.2.2.2) h ht
  case aslZp | aslZpX | aslAbs | aslAbsX =>
    exact hP.rmwInstr (fun v p h => (rm v p h).1) h ht
  case lsrZp | lsrZpX | lsrAbs | lsrAbsX =>
    exact hP.rmwInstr (fun v p h => (rm v p h).2.1) h ht
  case rolZp | rolZpX | rolAbs | rolAbsX =>
    exact hP.rmwInstr (fun v p h => (rm v p h).2.2.1) h ht
  case rorZp | rorZpX | rorAbs | rorAbsX =>
    exact hP.rmwInstr (fun v p h => (rm v p h).2.2.2.1) h ht
  case incZp | incZpX | incAbs | incAbsX =>
    exact hP.rmwInstr (fun v p h => (rm v p h).2.2.2.2.1) h ht
  case decZp | decZpX | decAbs | decAbsX =>
    exact hP.rmwInstr (fun v p h => (rm v p h).2.2.2.2.2) h ht
  case aslA =>
    exact hP.accInstr (fun v p h => (rm v p h).1) h ht
  case lsrA =>
    exact hP.accInstr (fun v p h => (rm v p h).2.1) h ht
  case rolA =>
    exact hP.accInstr (fun v p h => (rm v p h).2.2.1) h ht
  case rorA =>
    exact hP.accInstr (fun v p h => (rm v p h).2.2.2.1) h ht

/-! ### Cycles -/

/-- The counter moves on by some number of cycles from 1 to 7 (R305, R320). -/
def TakesCycles (s t : State) : Prop :=
  ∃ n, 1 ≤ n ∧ n ≤ 7 ∧ t.cpu.cycles = s.cpu.cycles + BitVec.ofNat 32 n

theorem readInstr_cycles {m : ReadMode} {base : Nat} {f : Byte → State → State} {s t : State}
    (hf : ∀ v s, (f v s).cpu.cycles = s.cpu.cycles) (h1 : 1 ≤ base) (h6 : base ≤ 6)
    (ht : readInstr m base f s = .next t) : TakesCycles s t := by
  cases ht
  refine ⟨base + bitNat (readOperand m s).crossed, by omega, ?_, ?_⟩
  · unfold bitNat; split <;> omega
  · simp [retire, addCycles, setPC, hf]

theorem storeInstr_cycles {m : AddrMode} {base : Nat} {v : Byte} {s t : State}
    (h1 : 1 ≤ base) (h7 : base ≤ 7) (ht : storeInstr m base v s = .next t) : TakesCycles s t := by
  rw [storeInstr_eq] at ht; cases ht; exact ⟨base, h1, h7, rfl⟩

theorem rmwInstr_cycles {m : AddrMode} {base : Nat} {f : Byte → Byte → Byte × Byte} {s t : State}
    (h1 : 1 ≤ base) (h7 : base ≤ 7) (ht : rmwInstr m base f s = .next t) : TakesCycles s t := by
  rw [rmwInstr_eq] at ht; cases ht; exact ⟨base, h1, h7, rfl⟩

theorem regInstr_cycles {f : State → State} {s t : State} (hf : (f s).cpu.cycles = s.cpu.cycles)
    (ht : regInstr f s = .next t) : TakesCycles s t := by
  cases ht; exact ⟨2, by omega, by omega, by simp [retire, addCycles, setPC, hf]⟩

theorem branchInstr_cycles {c : Bool} {b : Byte} {s t : State} (ht : branchInstr c b s = .next t) :
    TakesCycles s t := by
  rw [branchInstr_eq] at ht; cases ht
  refine ⟨if c then if pageOf (branchTarget b s.cpu.pc) = pageOf (s.cpu.pc + 2) then 3 else 4 else 2,
    ?_, ?_, ?_⟩ <;> split_ifs <;> first | omega | rfl

/-- Every instruction takes from 1 to 7 cycles. -/
theorem exec_cycles {i : Instr} {s t : State} (ht : exec i s = .next t) : TakesCycles s t := by
  cases i <;> simp only [Machine.exec] at ht
  case staZp | staZpX | staAbs | staAbsX | staAbsY | staIndX | staIndY | stxZp | stxZpY
      | stxAbs | styZp | styZpX | styAbs =>
    exact storeInstr_cycles (ht := ht) (h1 := by decide) (h7 := by decide)
  case ldaImm | ldaZp | ldaZpX | ldaAbs | ldaAbsX | ldaAbsY | ldaIndX | ldaIndY | ldxImm
      | ldxZp | ldxZpY | ldxAbs | ldxAbsY | ldyImm | ldyZp | ldyZpX | ldyAbs | ldyAbsX | adcImm
      | adcZp | adcZpX | adcAbs | adcAbsX | adcAbsY | adcIndX | adcIndY | sbcImm | sbcZp
      | sbcZpX | sbcAbs | sbcAbsX | sbcAbsY | sbcIndX | sbcIndY | andImm | andZp | andZpX
      | andAbs | andAbsX | andAbsY | andIndX | andIndY | oraImm | oraZp | oraZpX | oraAbs
      | oraAbsX | oraAbsY | oraIndX | oraIndY | eorImm | eorZp | eorZpX | eorAbs | eorAbsX
      | eorAbsY | eorIndX | eorIndY | bitZp | bitAbs | cmpImm | cmpZp | cmpZpX | cmpAbs
      | cmpAbsX | cmpAbsY | cmpIndX | cmpIndY | cpxImm | cpxZp | cpxAbs | cpyImm | cpyZp
      | cpyAbs =>
    exact readInstr_cycles (ht := ht) (hf := by intros; rfl) (h1 := by decide) (h6 := by decide)
  case aslZp | aslZpX | aslAbs | aslAbsX | lsrZp | lsrZpX | lsrAbs | lsrAbsX | rolZp | rolZpX
      | rolAbs | rolAbsX | rorZp | rorZpX | rorAbs | rorAbsX | incZp | incZpX | incAbs
      | incAbsX | decZp | decZpX | decAbs | decAbsX =>
    exact rmwInstr_cycles (ht := ht) (h1 := by decide) (h7 := by decide)
  case aslA | lsrA | rolA | rorA =>
    exact ⟨2, by omega, by omega, by cases ht; rfl⟩
  case tax | tay | txa | tya | tsx | txs | inx | iny | dex | dey | clc | sec | cli | sei | cld | sed
      | clv | nop =>
    exact regInstr_cycles (ht := ht) (hf := by rfl)
  case bcc | bcs | beq | bmi | bne | bpl | bvc | bvs => exact branchInstr_cycles ht
  case pha | php =>
    cases ht; rw [push_eq]; exact ⟨3, by omega, by omega, rfl⟩
  case pla | plp =>
    cases ht; rw [pull_eq]; exact ⟨4, by omega, by omega, rfl⟩
  case jmpAbs => cases ht; exact ⟨3, by omega, by omega, rfl⟩
  case jmpInd w =>
    cases ht
    refine ⟨5, by omega, by omega, ?_⟩
    simp [addCycles, setPC, jumpTarget, memReadPair]
  case jsr => cases ht; rw [pushWord_eq]; exact ⟨6, by omega, by omega, rfl⟩
  case rts => cases ht; rw [pullWord_eq]; exact ⟨6, by omega, by omega, rfl⟩
  case brk =>
    cases ht
    refine ⟨7, by omega, by omega, ?_⟩
    have h := (enterInterrupt_entry (v := irqVector) (by decide) (by decide) (s.cpu.pc + 2) true s).2.1
    simp only [addCycles]; rw [h]
  case rti => cases ht; rw [returnFromInterrupt_eq]; exact ⟨6, by omega, by omega, rfl⟩
  case illegal op =>
    unfold execIllegal at ht
    split at ht
    · cases ht; exact ⟨1, by omega, by omega, rfl⟩
    · cases ht

end Sys2Proof.Machine
end

