-- ==== Sys2Proof/Laws/Scheduler.lean ====
section
/-! SUPPORT. What one scheduler step can do: the closure of a property under a whole step, and what
each part of the catch-up does to the counters and to the PPU's coordinate. -/

namespace Sys2Proof.Machine

/-- A property of the machine that every part of a step keeps. -/
structure StepClosed (P : State → Prop) : Prop extends ExecClosed P where
  stall : ∀ s n, P s → P { s with bus := { s.bus with stall := n } }
  edge : ∀ s b, P s → P { s with ppu := { s.ppu with nmiEdge := b } }
  sched : ∀ s c, P s → P { s with sched := c }
  ppu : ∀ s, P s → P (runPpu s)
  apu : ∀ s, P s → P (runApu s)
  dma : ∀ s b, P s → s.apu.dmc.dmaRequest = true → P { s with apu := dmaComplete b s.apu }
  capture : ∀ s f, P s → P (rewindCapture f s)

section Closed

variable {P : State → Prop} (hP : StepClosed P)
include hP

theorem StepClosed.fetch (s : State) (h : P s) : P (fetchInstr s).2 := by
  unfold fetchInstr
  simp only
  split
  · exact hP.read _ _ h
  · exact hP.read _ _ (hP.read _ _ h)
  · exact hP.read _ _ (hP.read _ _ (hP.read _ _ h))

theorem StepClosed.pendNmi (s : State) (h : P s) : P (pendNmi s) := hP.cpu _ _ h id

theorem StepClosed.takeEdge (s : State) (h : P s) : P (takeEdge s) := by
  unfold Machine.takeEdge
  have he := hP.edge _ false h
  simp only
  split_ifs
  · exact hP.pendNmi _ he
  · exact he
  · exact hP.sched _ _ he
  · exact h

theorem StepClosed.countNmi (s : State) (h : P s) : P (countNmi s) := by
  unfold Machine.countNmi
  simp only
  split_ifs
  · exact h
  · exact hP.pendNmi _ (hP.sched _ _ h)
  · exact hP.sched _ _ h

theorem StepClosed.tickPpuN (n : Nat) (s : State) (h : P s) : P (tickPpuN n s) := by
  induction n generalizing s with
  | zero => exact h
  | succ n ih => exact ih _ (hP.takeEdge _ (hP.countNmi _ (hP.ppu _ h)))

theorem StepClosed.serveDmc (s : State) (h : P s) : P (serveDmc s) := by
  unfold Machine.serveDmc
  split_ifs with hr
  · have hread := memRead_onlyReadEffects s.apu.dmc.curAddr s
    have hd : (memRead s.apu.dmc.curAddr s).2.apu.dmc.dmaRequest = true := by rw [hread]; exact hr
    exact hP.stall _ _ (hP.dma _ _ (hP.read _ _ h) hd)
  · exact h

theorem StepClosed.tickApuN (n : Nat) (s : State) (h : P s) : P (tickApuN n s) := by
  induction n generalizing s with
  | zero => exact h
  | succ n ih => exact ih _ (hP.serveDmc _ (hP.apu _ h))

theorem StepClosed.serviceInterrupt (s : State) (h : P s) : P (serviceInterrupt s).2 := by
  unfold Machine.serviceInterrupt
  split_ifs
  · exact hP.serviceNmi _ h
  · exact hP.serviceIrq _ h
  · exact h

theorem StepClosed.catchUp (n : Nat) (s : State) (h : P s) : P (catchUp n s) :=
  hP.sched _ _ (hP.tickApuN _ _ (hP.tickPpuN _ _ (hP.serviceInterrupt _ (hP.tickPpuN _ _
    (hP.cpu _ _ (hP.stall _ _ (hP.takeEdge _ h)) id)))))

/-- A step keeps what each of its parts keeps. -/
theorem StepClosed.step {s t : State} (h : P s) (ht : step s = .next t) : P t := by
  obtain ⟨u, hu, rfl⟩ := step_next ht
  exact hP.capture _ _ (hP.catchUp _ _ (hP.exec (hP.fetch _ h) hu))

end Closed

/-! ### The PPU's coordinate -/

/-- A PPU at the same coordinate of the same frame. -/
def SameDot (p q : Ppu) : Prop := q.scanline = p.scanline ∧ q.cycle = p.cycle ∧ q.frame = p.frame

theorem SameDot.trans {p q r : Ppu} (h : SameDot p q) (h' : SameDot q r) : SameDot p r :=
  ⟨h'.1.trans h.1, h'.2.1.trans h.2.1, h'.2.2.trans h.2.2⟩

/-- The work of a dot leaves the coordinate to `advance` (R810). -/
theorem ppuDot_sameDot (cart : Option Cartridge) (p : Ppu) : SameDot p (ppuDot cart p) := by
  have h1 : ∀ p, SameDot p (dotVblankSet p) := fun p => by
    unfold dotVblankSet; split <;> exact ⟨rfl, rfl, rfl⟩
  have h2 : ∀ p, SameDot p (dotPreRender p) := fun p => by
    unfold dotPreRender; split <;> exact ⟨rfl, rfl, rfl⟩
  have h3 : ∀ p, SameDot p (dotPixel cart p) := fun p => by
    unfold dotPixel; split <;> exact ⟨rfl, rfl, rfl⟩
  have h4 : ∀ p, SameDot p (dotIncX p) := fun p => by
    unfold dotIncX; split <;> exact ⟨rfl, rfl, rfl⟩
  have h5 : ∀ p, SameDot p (dotIncY p) := fun p => by
    unfold dotIncY; split <;> exact ⟨rfl, rfl, rfl⟩
  have h6 : ∀ p, SameDot p (dotCopyX p) := fun p => by
    unfold dotCopyX; split <;> exact ⟨rfl, rfl, rfl⟩
  have h7 : ∀ p, SameDot p (dotCopyY p) := fun p => by
    unfold dotCopyY; split <;> exact ⟨rfl, rfl, rfl⟩
  have h8 : ∀ p, SameDot p (dotEvaluate p) := fun p => by
    unfold dotEvaluate; split <;> exact ⟨rfl, rfl, rfl⟩
  have h9 : ∀ p, SameDot p (dotLatch p) := fun p => by
    unfold dotLatch; split <;> exact ⟨rfl, rfl, rfl⟩
  have h10 : ∀ p, SameDot p (dotSprites p) := fun p => by
    unfold dotSprites; split <;> exact ⟨rfl, rfl, rfl⟩
  exact (h1 _).trans ((h2 _).trans ((h3 _).trans ((h4 _).trans ((h5 _).trans ((h6 _).trans
    ((h7 _).trans ((h8 _).trans ((h9 _).trans (h10 _)))))))))

/-- The coordinate is on the frame (R810). -/
def OnFrame (p : Ppu) : Prop := p.scanline ≤ 261 ∧ p.cycle ≤ 340

/-- `q` is `n` dots after `p`, counted from frame 0 in 2^32 frames of 262 lines of 341 dots (R811). -/
def DotsLater (n : Nat) (p q : Ppu) : Prop :=
  OnFrame q ∧ dotNumber q % (2 ^ 32 * 89342) = (dotNumber p + n) % (2 ^ 32 * 89342)

theorem DotsLater.trans {m n : Nat} {p q r : Ppu} (h : DotsLater m p q) (h' : DotsLater n q r) :
    DotsLater (m + n) p r := by
  refine ⟨h'.1, ?_⟩
  have h1 := h.2
  have h2 := h'.2
  omega

theorem DotsLater.zero {p : Ppu} (h : OnFrame p) : DotsLater 0 p p := ⟨h, by rw [Nat.add_zero]⟩

theorem DotsLater.of_sameDot {n : Nat} {p q r : Ppu} (h : DotsLater n p q) (h' : SameDot q r) :
    DotsLater n p r := by
  obtain ⟨⟨h1, h2⟩, h3⟩ := h
  obtain ⟨e1, e2, e3⟩ := h'
  exact ⟨⟨by rw [e1]; exact h1, by rw [e2]; exact h2⟩, by unfold dotNumber at *; rw [e1, e2, e3]; exact h3⟩

/-- `advance()` is one dot (R810, R811). -/
theorem ppuAdvance_dot {p : Ppu} (h : OnFrame p) : DotsLater 1 p (ppuAdvance p) := by
  obtain ⟨h1, h2⟩ := h
  have hf := p.frame.isLt
  unfold ppuAdvance
  split_ifs with hc hl
  · exact ⟨⟨h1, hc⟩, by simp only [dotNumber]; omega⟩
  · refine ⟨⟨hl, by simp⟩, ?_⟩
    simp only [dotNumber]
    have : p.cycle = 340 := by omega
    omega
  · refine ⟨⟨by simp, by simp⟩, ?_⟩
    have hc' : p.cycle = 340 := by omega
    have hl' : p.scanline = 261 := by omega
    have h1 : (p.frame + 1).toNat = (p.frame.toNat + 1) % 2 ^ 32 := BitVec.toNat_add _ _
    simp only [dotNumber, hc', hl', h1]
    omega

/-- A PPU tick is one dot (R810, R811). -/
theorem ppuTick_dot (cart : Option Cartridge) {p : Ppu} (h : OnFrame p) :
    DotsLater 1 p (ppuTick cart p) := by
  have hd := ppuDot_sameDot cart p
  have hq : OnFrame (ppuDot cart p) := ⟨by rw [hd.1]; exact h.1, by rw [hd.2.1]; exact h.2⟩
  have h1 : DotsLater 0 p (ppuDot cart p) := (DotsLater.zero h).of_sameDot hd
  have h2 := h1.trans (ppuAdvance_dot hq)
  rwa [Nat.zero_add] at h2

/-! ### What instructions leave alone -/

theorem OnlyReadEffects.sameDot {s t : State} (h : OnlyReadEffects s t) : SameDot s.ppu t.ppu := by
  refine ⟨?_, ?_, ?_⟩ <;> rw [h]

/-- A register write leaves the PPU's coordinate alone. -/
theorem ppuRegWrite_sameDot (cart : Option Cartridge) (r : BitVec 3) (d : Byte) (p : Ppu) :
    SameDot p (ppuRegWrite cart r d p) := by
  unfold ppuRegWrite writeScroll writeAddr writeData ppuWriteMem
  simp only
  split <;> (try split_ifs) <;> exact ⟨rfl, rfl, rfl⟩

theorem memWrite_sameDot (a : Word) (v : Byte) (s : State) : SameDot s.ppu (memWrite a v s).ppu := by
  unfold memWrite writeEffect
  split
  case h_2 => exact ppuRegWrite_sameDot _ _ _ _
  case h_6 =>
    unfold oamDma
    have h := (oamDmaCopy_frame v 256 0 (latchBus v s)).1.sameDot
    generalize oamDmaCopy v 256 0 (latchBus v s) = u at h ⊢
    exact ⟨h.1, h.2.1, h.2.2⟩
  all_goals exact ⟨rfl, rfl, rfl⟩

/-- What no instruction touches: the scheduler, the parameters, the outputs, the PPU's coordinate. -/
structure SameOutside (s t : State) : Prop where
  sched : t.sched = s.sched
  params : t.params = s.params
  host : t.host = s.host
  dot : SameDot s.ppu t.ppu

theorem sameOutside_closed (s : State) : ExecClosed (SameOutside s) where
  cpu := fun _ _ h _ => ⟨h.sched, h.params, h.host, h.dot⟩
  read := fun t a h =>
    ⟨(memRead_sched a t).trans h.sched, (memRead_params a t).trans h.params,
      (memRead_host a t).trans h.host, h.dot.trans (memRead_onlyReadEffects a t).sameDot⟩
  write := fun t a v h =>
    ⟨(memWrite_sched a v t).trans h.sched, (memWrite_params a v t).trans h.params,
      (memWrite_host a v t).trans h.host, h.dot.trans (memWrite_sameDot a v t)⟩

theorem SameOutside.refl (s : State) : SameOutside s s := ⟨rfl, rfl, rfl, rfl, rfl, rfl⟩

theorem exec_sameOutside {i : Instr} {s t : State} (h : exec i s = .next t) : SameOutside s t :=
  (sameOutside_closed s).exec (.refl s) h

theorem serviceInterrupt_sameOutside (s : State) : SameOutside s (serviceInterrupt s).2 := by
  unfold serviceInterrupt
  split_ifs
  · exact (sameOutside_closed s).serviceNmi _ (.refl s)
  · exact (sameOutside_closed s).serviceIrq _ (.refl s)
  · exact .refl s

/-- The poll adds the cycles it reports to the counter (R706). -/
theorem serviceInterrupt_cycles (s : State) :
    (serviceInterrupt s).2.cpu.cycles = s.cpu.cycles + BitVec.ofNat 32 (serviceInterrupt s).1 := by
  unfold serviceInterrupt
  split_ifs
  · exact (serviceNmi_entry s).2.1
  · exact (serviceIrq_entry s).2.1
  · simp

/-! ### The parts of the catch-up -/

/-- What the PPU's side of a step leaves alone: everything but the PPU, the picture, the countdown
and the pending NMI. -/
structure PpuSide (s t : State) : Prop where
  cpu : t.cpu = { s.cpu with nmiPending := t.cpu.nmiPending }
  bus : t.bus = s.bus
  apu : t.apu = s.apu
  cart : t.cart = s.cart
  total : t.sched.totalCycles = s.sched.totalCycles
  params : t.params = s.params
  samples : t.host.samples = s.host.samples

theorem PpuSide.refl (s : State) : PpuSide s s := ⟨rfl, rfl, rfl, rfl, rfl, rfl, rfl⟩

theorem PpuSide.trans {s t u : State} (h : PpuSide s t) (h' : PpuSide t u) : PpuSide s u :=
  ⟨by rw [h'.cpu, h.cpu], h'.bus.trans h.bus, h'.apu.trans h.apu, h'.cart.trans h.cart,
    h'.total.trans h.total, h'.params.trans h.params, h'.samples.trans h.samples⟩

theorem takeEdge_side (s : State) : PpuSide s (takeEdge s) ∧ SameDot s.ppu (takeEdge s).ppu := by
  unfold takeEdge
  simp only
  split_ifs <;> exact ⟨⟨rfl, rfl, rfl, rfl, rfl, rfl, rfl⟩, rfl, rfl, rfl⟩

theorem countNmi_side (s : State) : PpuSide s (countNmi s) ∧ (countNmi s).ppu = s.ppu := by
  unfold countNmi
  simp only
  split_ifs <;> exact ⟨⟨rfl, rfl, rfl, rfl, rfl, rfl, rfl⟩, rfl⟩

theorem tickPpu_side (s : State) (h : OnFrame s.ppu) :
    PpuSide s (tickPpu s) ∧ DotsLater 1 s.ppu (tickPpu s).ppu := by
  have h1 : PpuSide s (runPpu s) := ⟨rfl, rfl, rfl, rfl, rfl, rfl, rfl⟩
  obtain ⟨h2, e2⟩ := countNmi_side (runPpu s)
  obtain ⟨h3, e3⟩ := takeEdge_side (countNmi (runPpu s))
  refine ⟨h1.trans (h2.trans h3), ?_⟩
  rw [e2] at e3
  exact (ppuTick_dot s.cart h).of_sameDot e3

theorem tickPpuN_side (n : Nat) (s : State) (h : OnFrame s.ppu) :
    PpuSide s (tickPpuN n s) ∧ DotsLater n s.ppu (tickPpuN n s).ppu := by
  induction n generalizing s with
  | zero => exact ⟨.refl s, .zero h⟩
  | succ n ih =>
    obtain ⟨h1, d1⟩ := tickPpu_side s h
    obtain ⟨h2, d2⟩ := ih (tickPpu s) d1.1
    refine ⟨h1.trans h2, ?_⟩
    have := d1.trans d2
    rwa [Nat.add_comm] at this

/-- What the APU's side of a step leaves alone: the CPU, the scheduler, the cartridge, the parameters
and the PPU's coordinate; it adds samples. -/
structure ApuSide (n : Nat) (s t : State) : Prop where
  cpu : t.cpu = s.cpu
  sched : t.sched = s.sched
  cart : t.cart = s.cart
  params : t.params = s.params
  dot : SameDot s.ppu t.ppu
  samples : t.host.samples.length = s.host.samples.length + n

theorem ApuSide.trans {m n : Nat} {s t u : State} (h : ApuSide m s t) (h' : ApuSide n t u) :
    ApuSide (m + n) s u :=
  ⟨h'.cpu.trans h.cpu, h'.sched.trans h.sched, h'.cart.trans h.cart, h'.params.trans h.params,
    h.dot.trans h'.dot, by rw [h'.samples, h.samples]; omega⟩

theorem tickApu_side (s : State) : ApuSide 1 s (tickApu s) := by
  have h1 : ApuSide 1 s (runApu s) := ⟨rfl, rfl, rfl, rfl, ⟨rfl, rfl, rfl⟩, rfl⟩
  refine h1.trans (n := 0) ?_
  unfold tickApu serveDmc
  split_ifs
  · have h := memRead_onlyReadEffects (runApu s).apu.dmc.curAddr (runApu s)
    refine ⟨h.cpu, h.sched, h.cart, h.params, ⟨?_, ?_, ?_⟩, ?_⟩
    · simp only; rw [h]
    · simp only; rw [h]
    · simp only; rw [h]
    · simp only; rw [h.host]; rfl
  · exact ⟨rfl, rfl, rfl, rfl, ⟨rfl, rfl, rfl⟩, rfl⟩

theorem tickApuN_side (n : Nat) (s : State) : ApuSide n s (tickApuN n s) := by
  induction n generalizing s with
  | zero => exact ⟨rfl, rfl, rfl, rfl, ⟨rfl, rfl, rfl⟩, rfl⟩
  | succ n ih =>
    have := (tickApu_side s).trans (ih (tickApu s))
    rwa [Nat.add_comm] at this

theorem rewindCapture_sameRest (f : BitVec 32) (s : State) :
    rewindCapture f s = { s with host := { s.host with rewindRing := (rewindCapture f s).host.rewindRing } } := by
  unfold rewindCapture; split_ifs <;> rfl

/-- The catch-up after an instruction of `n` cycles: the stall and the interrupt entry are added to
it, and every unit moves on by the sum (R1102, R1108). -/
theorem catchUp_counts (n : Nat) (s : State) (h : OnFrame s.ppu) :
    ∃ k, (catchUp n s).cpu.cycles = s.cpu.cycles + BitVec.ofNat 32 (s.bus.stall.toNat + k) ∧
      (catchUp n s).sched.totalCycles =
        s.sched.totalCycles + BitVec.ofNat 64 (n + s.bus.stall.toNat + k) ∧
      DotsLater (3 * (n + s.bus.stall.toNat + k)) s.ppu (catchUp n s).ppu ∧
      (catchUp n s).host.samples.length =
        s.host.samples.length + (n + s.bus.stall.toNat + k) := by
  obtain ⟨e1, d1⟩ := takeEdge_side s
  have hst : (takeEdge s).bus.stall = s.bus.stall := by rw [e1.bus]
  have hd1 : DotsLater 0 s.ppu (takeEdge s).ppu := (DotsLater.zero h).of_sameDot d1
  set m := n + s.bus.stall.toNat with hm
  obtain ⟨e2, d2⟩ := tickPpuN_side (3 * m) (takeStall (takeEdge s)) hd1.1
  set s2 := tickPpuN (3 * m) (takeStall (takeEdge s)) with hs2
  have o3 := serviceInterrupt_sameOutside s2
  have c3 := serviceInterrupt_cycles s2
  set k := (serviceInterrupt s2).1 with hk
  have hd3 : DotsLater (3 * m) s.ppu (serviceInterrupt s2).2.ppu := by
    have := (hd1.trans d2).of_sameDot o3.dot
    rwa [Nat.zero_add] at this
  obtain ⟨e4, d4⟩ := tickPpuN_side (3 * k) (serviceInterrupt s2).2 hd3.1
  have e5 := tickApuN_side (m + k) (tickPpuN (3 * k) (serviceInterrupt s2).2)
  have hc : catchUp n s =
      (let t := tickApuN (m + k) (tickPpuN (3 * k) (serviceInterrupt s2).2)
       { t with sched := { t.sched with totalCycles := t.sched.totalCycles + BitVec.ofNat 64 (m + k) } }) := by
    simp only [catchUp, hst, ← hm, ← hs2, ← hk]
  refine ⟨k, ?_, ?_, ?_, ?_⟩
  · rw [hc]
    simp only
    rw [e5.cpu, e4.cpu]
    simp only
    rw [c3, e2.cpu]
    simp only [takeStall, addCycles]
    rw [hst, e1.cpu, BitVec.add_assoc, BitVec.ofNat_add]
  · rw [hc]
    simp only
    rw [e5.sched, e4.total, o3.sched, e2.total]
    simp only [takeStall, addCycles]
    rw [e1.total]
  · rw [hc]
    have := (hd3.trans d4).of_sameDot e5.dot
    rwa [← Nat.mul_add] at this
  · rw [hc]
    simp only
    rw [e5.samples, e4.samples, o3.host, e2.samples]
    simp only [takeStall, addCycles]
    rw [e1.samples]

end Sys2Proof.Machine
end

