-- ==== Sys2Proof/Laws/Invariant.lean ====
section
/-! SUPPORT. The invariant, unit by unit: what each operation of a unit keeps. -/

namespace Sys2Proof.Machine

/-! ### Indexes stay inside their arrays -/

theorem ntIndex_lt (cart : Option Cartridge) (p : Ppu) (a : Nat) : ntIndex cart p a < ntSize p := by
  simp only [ntIndex, ntSize]
  generalize nametablePage cart (BitVec.ofNat 2 ((a - 0x2000) % 0x1000 / 0x400)) = page
  have h : (a - 0x2000) % 0x1000 % 0x400 < 0x400 := Nat.mod_lt _ (by omega)
  cases p.ntFour
  · have : (page &&& if false = true then 3 else 1).toNat < 2 := by revert page; decide
    simp only [Bool.false_eq_true, if_false] at this ⊢
    omega
  · have := (page &&& if true = true then 3 else 1).isLt
    simp only [if_true] at this ⊢
    omega

theorem paletteIndex_lt (a : Nat) : paletteIndex a < 32 := by
  unfold paletteIndex
  simp only
  split_ifs <;> omega

theorem chrSize_pos (c : Cartridge) : 8192 ≤ chrSize c ∧ chrSize c % 8192 = 0 := by
  unfold chrSize
  split_ifs with h
  · omega
  · have : c.nchr.toNat ≠ 0 := fun e => h (BitVec.eq_of_toNat_eq e)
    omega

theorem chrOffset_lt (c : Cartridge) (a : Nat) : chrOffset c a < chrSize c := by
  obtain ⟨h1, h2⟩ := chrSize_pos c
  unfold chrOffset
  split
  · exact Nat.mod_lt _ (by omega)
  · have hb : chrBanks c * 4096 = chrSize c := by unfold chrBanks; omega
    have h4 : ∀ r high, serialChrBank r (chrBanks c) high < chrBanks c := fun r high => by
      unfold serialChrBank; split_ifs <;> exact Nat.mod_lt _ (by unfold chrBanks; omega)
    have := h4 ‹_› (decide (0x1000 ≤ a))
    omega

/-! ### The PPU -/

/-- The part of the PPU's invariant that is about its memories. -/
structure Ppu.Memories (p : Ppu) : Prop where
  oam_wf : Memory.wf p.oam
  oam_within : Memory.within 256 p.oam
  nt_wf : Memory.wf p.ntRam
  nt_within : Memory.within (ntSize p) p.ntRam
  palette_wf : Memory.wf p.palette
  palette_within : Memory.within 32 p.palette
  palette_six : ∀ c ∈ p.palette, c.2.toNat ≤ 0x3F

/-- The part that is about the coordinate and the sprite lists. -/
structure Ppu.Lists (p : Ppu) : Prop where
  scanline_le : p.scanline ≤ 261
  cycle_le : p.cycle ≤ 340
  next_le : p.sprNext.length ≤ 8
  cur_le : p.sprCur.length ≤ 8
  next_nil : p.cycle ≤ 257 → p.sprNext = []

theorem Ppu.inv_iff (p : Ppu) : p.Inv ↔ p.Memories ∧ p.Lists :=
  ⟨fun ⟨h1, h2, h3, h4, h5, h6, h7, h8, h9, h10, h11, h12⟩ =>
      ⟨⟨h1, h2, h3, h4, h5, h6, h7⟩, h8, h9, h10, h11, h12⟩,
    fun ⟨⟨h1, h2, h3, h4, h5, h6, h7⟩, h8, h9, h10, h11, h12⟩ =>
      ⟨h1, h2, h3, h4, h5, h6, h7, h8, h9, h10, h11, h12⟩⟩

theorem Ppu.Memories.of_eq {p q : Ppu} (h : p.Memories) (h1 : q.oam = p.oam) (h2 : q.ntRam = p.ntRam)
    (h3 : q.palette = p.palette) (h4 : q.ntFour = p.ntFour) : q.Memories := by
  obtain ⟨a, b, c, d, e, f, g⟩ := h
  have hs : ntSize q = ntSize p := by unfold ntSize; rw [h4]
  exact ⟨h1 ▸ a, h1 ▸ b, h2 ▸ c, by rw [h2, hs]; exact d, h3 ▸ e, h3 ▸ f, h3 ▸ g⟩

theorem Ppu.Lists.of_eq {p q : Ppu} (h : p.Lists) (h1 : SameDot p q) (h2 : q.sprNext = p.sprNext)
    (h3 : q.sprCur = p.sprCur) : q.Lists := by
  obtain ⟨a, b, c, d, e⟩ := h
  exact ⟨by rw [h1.1]; exact a, by rw [h1.2.1]; exact b, h2 ▸ c, h3 ▸ d,
    by rw [h1.2.1, h2]; exact e⟩

/-- A byte of OAM stored keeps the invariant. -/
theorem Ppu.Inv.setOam {p : Ppu} (h : p.Inv) (i v : Byte) :
    ({ p with oam := memSet p.oam i.toNat v } : Ppu).Inv := by
  obtain ⟨h1, h2, h3, h4, h5, h6, h7, h8, h9, h10, h11, h12⟩ := h
  exact ⟨memSet_wf h1, memSet_within i.isLt h2, h3, h4, h5, h6, h7, h8, h9, h10, h11, h12⟩

theorem sixBits_le (d : Byte) : (d &&& 0x3F).toNat ≤ 0x3F := by
  rw [BitVec.toNat_and]; exact Nat.and_le_right

theorem ppuWriteMem_inv (cart : Option Cartridge) {p : Ppu} (h : p.Inv) (a : BitVec 14) (d : Byte) :
    (ppuWriteMem cart p a d).Inv := by
  unfold ppuWriteMem
  obtain ⟨h1, h2, h3, h4, h5, h6, h7, h8, h9, h10, h11, h12⟩ := h
  split_ifs
  · exact ⟨h1, h2, h3, h4, h5, h6, h7, h8, h9, h10, h11, h12⟩
  · exact ⟨h1, h2, memSet_wf h3, memSet_within (ntIndex_lt _ _ _) h4, h5, h6, h7, h8, h9, h10, h11, h12⟩
  · exact ⟨h1, h2, h3, h4, memSet_wf h5, memSet_within (paletteIndex_lt _) h6,
      memSet_forall (P := fun v => v.toNat ≤ 0x3F) (sixBits_le d) h7, h8, h9, h10, h11, h12⟩

/-- A PPU that differs in registers only. -/
theorem Ppu.Inv.of_eq {p q : Ppu} (h : p.Inv) (h1 : q.oam = p.oam) (h2 : q.ntRam = p.ntRam)
    (h3 : q.palette = p.palette) (h4 : q.ntFour = p.ntFour) (h5 : SameDot p q)
    (h6 : q.sprNext = p.sprNext) (h7 : q.sprCur = p.sprCur) : q.Inv :=
  (Ppu.inv_iff q).2 ⟨((Ppu.inv_iff p).1 h).1.of_eq h1 h2 h3 h4, ((Ppu.inv_iff p).1 h).2.of_eq h5 h6 h7⟩

theorem ppuRegWrite_inv (cart : Option Cartridge) (r : BitVec 3) (d : Byte) {p : Ppu} (h : p.Inv) :
    (ppuRegWrite cart r d p).Inv ∧ (ppuRegWrite cart r d p).ntFour = p.ntFour := by
  have hl : ({ p with ioLatch := d } : Ppu).Inv := h.of_eq rfl rfl rfl rfl ⟨rfl, rfl, rfl⟩ rfl rfl
  unfold ppuRegWrite
  simp only
  split
  case h_1 => exact ⟨hl.of_eq rfl rfl rfl rfl ⟨rfl, rfl, rfl⟩ rfl rfl, rfl⟩
  case h_2 => exact ⟨hl.of_eq rfl rfl rfl rfl ⟨rfl, rfl, rfl⟩ rfl rfl, rfl⟩
  case h_3 => exact ⟨hl.of_eq rfl rfl rfl rfl ⟨rfl, rfl, rfl⟩ rfl rfl, rfl⟩
  case h_4 => exact ⟨(hl.setOam p.oamaddr d).of_eq rfl rfl rfl rfl ⟨rfl, rfl, rfl⟩ rfl rfl, rfl⟩
  case h_5 =>
    unfold writeScroll
    simp only
    split_ifs <;> exact ⟨hl.of_eq rfl rfl rfl rfl ⟨rfl, rfl, rfl⟩ rfl rfl, rfl⟩
  case h_6 =>
    unfold writeAddr
    simp only
    split_ifs <;> exact ⟨hl.of_eq rfl rfl rfl rfl ⟨rfl, rfl, rfl⟩ rfl rfl, rfl⟩
  case h_7 =>
    refine ⟨(ppuWriteMem_inv cart hl (p.v.setWidth 14) d).of_eq rfl rfl rfl rfl ⟨rfl, rfl, rfl⟩ rfl rfl, ?_⟩
    unfold writeData ppuWriteMem
    simp only
    split_ifs <;> rfl
  case h_8 => exact ⟨hl, rfl⟩

/-- The dot's work before the sprite lists: it leaves the lists and the memories alone, or appends at
most eight sprites at dot 257. -/
theorem spritesFrom_length (oam : Memory) (h : SpriteHeight) (L n i : Nat) :
    (spritesFrom oam h L n i).length ≤ n := by
  induction n generalizing i with
  | zero => simp [spritesFrom]
  | succ n ih =>
    unfold spritesFrom
    split
    · simpa using ih (i + 1)
    · exact (ih (i + 1)).trans (by omega)

/-- The memories and the sprite lists are the same. -/
def SameLists (p q : Ppu) : Prop :=
  q.oam = p.oam ∧ q.ntRam = p.ntRam ∧ q.palette = p.palette ∧ q.ntFour = p.ntFour ∧
    q.sprNext = p.sprNext ∧ q.sprCur = p.sprCur

theorem SameLists.trans {p q r : Ppu} (h : SameLists p q) (h' : SameLists q r) : SameLists p r :=
  ⟨h'.1.trans h.1, h'.2.1.trans h.2.1, h'.2.2.1.trans h.2.2.1, h'.2.2.2.1.trans h.2.2.2.1,
    h'.2.2.2.2.1.trans h.2.2.2.2.1, h'.2.2.2.2.2.trans h.2.2.2.2.2⟩

theorem SameLists.inv {p q : Ppu} (h : p.Inv) (hl : SameLists p q) (hd : SameDot p q) : q.Inv :=
  h.of_eq hl.1 hl.2.1 hl.2.2.1 hl.2.2.2.1 hd hl.2.2.2.2.1 hl.2.2.2.2.2

/-- The part of a dot before sprite evaluation (R812). -/
theorem dotBefore_same (cart : Option Cartridge) (p : Ppu) :
    SameLists p (dotCopyY (dotCopyX (dotIncY (dotIncX (dotPixel cart (dotPreRender (dotVblankSet p))))))) ∧
      SameDot p (dotCopyY (dotCopyX (dotIncY (dotIncX (dotPixel cart (dotPreRender (dotVblankSet p))))))) := by
  have h1 : ∀ p, SameLists p (dotVblankSet p) ∧ SameDot p (dotVblankSet p) := fun p => by
    unfold dotVblankSet; split <;> exact ⟨⟨rfl, rfl, rfl, rfl, rfl, rfl⟩, rfl, rfl, rfl⟩
  have h2 : ∀ p, SameLists p (dotPreRender p) ∧ SameDot p (dotPreRender p) := fun p => by
    unfold dotPreRender; split <;> exact ⟨⟨rfl, rfl, rfl, rfl, rfl, rfl⟩, rfl, rfl, rfl⟩
  have h3 : ∀ p, SameLists p (dotPixel cart p) ∧ SameDot p (dotPixel cart p) := fun p => by
    unfold dotPixel; split <;> exact ⟨⟨rfl, rfl, rfl, rfl, rfl, rfl⟩, rfl, rfl, rfl⟩
  have h4 : ∀ p, SameLists p (dotIncX p) ∧ SameDot p (dotIncX p) := fun p => by
    unfold dotIncX; split <;> exact ⟨⟨rfl, rfl, rfl, rfl, rfl, rfl⟩, rfl, rfl, rfl⟩
  have h5 : ∀ p, SameLists p (dotIncY p) ∧ SameDot p (dotIncY p) := fun p => by
    unfold dotIncY; split <;> exact ⟨⟨rfl, rfl, rfl, rfl, rfl, rfl⟩, rfl, rfl, rfl⟩
  have h6 : ∀ p, SameLists p (dotCopyX p) ∧ SameDot p (dotCopyX p) := fun p => by
    unfold dotCopyX; split <;> exact ⟨⟨rfl, rfl, rfl, rfl, rfl, rfl⟩, rfl, rfl, rfl⟩
  have h7 : ∀ p, SameLists p (dotCopyY p) ∧ SameDot p (dotCopyY p) := fun p => by
    unfold dotCopyY; split <;> exact ⟨⟨rfl, rfl, rfl, rfl, rfl, rfl⟩, rfl, rfl, rfl⟩
  have step : ∀ {p q r : Ppu}, SameLists p q ∧ SameDot p q → SameLists q r ∧ SameDot q r →
      SameLists p r ∧ SameDot p r := fun h h' => ⟨h.1.trans h'.1, h.2.trans h'.2⟩
  exact step (h1 _) (step (h2 _) (step (h3 _) (step (h4 _) (step (h5 _) (step (h6 _) (h7 _))))))

/-- Sprite evaluation keeps the invariant but for the emptiness of the next list (R861). -/
theorem dotEvaluate_inv {p : Ppu} (h : p.Inv) :
    (dotEvaluate p).Memories ∧ SameDot p (dotEvaluate p) ∧ (dotEvaluate p).ntFour = p.ntFour ∧
      (dotEvaluate p).sprNext.length ≤ 8 ∧ (dotEvaluate p).sprCur = p.sprCur ∧
      (p.cycle ≤ 256 → (dotEvaluate p).sprNext = []) := by
  have hm := ((Ppu.inv_iff p).1 h).1
  unfold dotEvaluate
  split_ifs with hc
  · refine ⟨hm.of_eq rfl rfl rfl rfl, ⟨rfl, rfl, rfl⟩, rfl, ?_, rfl, fun hlt => by omega⟩
    simp only [evaluateSprites, h.next_nil (by omega), List.nil_append, List.length_take]
    omega
  · exact ⟨hm, ⟨rfl, rfl, rfl⟩, rfl, h.next_le, rfl, fun hlt => h.next_nil (by omega)⟩

/-- A PPU tick keeps the invariant and the size of the nametable RAM. -/
theorem ppuTick_inv (cart : Option Cartridge) {p : Ppu} (h : p.Inv) :
    (ppuTick cart p).Inv ∧ (ppuTick cart p).ntFour = p.ntFour := by
  obtain ⟨l1, d1⟩ := dotBefore_same cart p
  set q := dotCopyY (dotCopyX (dotIncY (dotIncX (dotPixel cart (dotPreRender (dotVblankSet p)))))) with hq
  have hqi : q.Inv := l1.inv h d1
  obtain ⟨m2, d2, n2, s2, c2, e2⟩ := dotEvaluate_inv hqi
  set r := dotEvaluate q with hr
  have hdot : ppuDot cart p = dotSprites (dotLatch r) := rfl
  have hl : ∀ r : Ppu, SameLists r (dotLatch r) ∧ SameDot r (dotLatch r) := fun r => by
    unfold dotLatch; split <;> exact ⟨⟨rfl, rfl, rfl, rfl, rfl, rfl⟩, rfl, rfl, rfl⟩
  obtain ⟨l3, d3⟩ := hl r
  set u := dotLatch r with hu
  have hcyc : u.cycle = p.cycle := d3.2.1.trans (d2.2.1.trans d1.2.1)
  have hscan : u.scanline = p.scanline := d3.1.trans (d2.1.trans d1.1)
  have hnt : u.ntFour = p.ntFour := l3.2.2.2.1.trans (n2.trans l1.2.2.2.1)
  have hum : u.Memories := m2.of_eq l3.1 l3.2.1 l3.2.2.1 l3.2.2.2.1
  have hus : u.sprNext.length ≤ 8 := by rw [l3.2.2.2.2.1]; exact s2
  have huc : u.sprCur.length ≤ 8 := by rw [l3.2.2.2.2.2, c2]; exact hqi.cur_le
  have hue : u.cycle ≤ 256 → u.sprNext = [] := by
    rw [l3.2.2.2.2.1, d3.2.1, d2.2.1]; exact e2
  have h8 := h.scanline_le
  have h9 := h.cycle_le
  have hcases : ∀ v : Ppu, v.Memories → v.ntFour = p.ntFour → v.cycle = p.cycle →
      v.scanline = p.scanline → v.sprNext.length ≤ 8 → v.sprCur.length ≤ 8 →
      (v.cycle ≤ 256 → v.sprNext = []) → (v.cycle = 340 → v.sprNext = []) →
      (ppuAdvance v).Inv ∧ (ppuAdvance v).ntFour = p.ntFour := by
    intro v hm hn hc hs h1 h2 h3 h4
    rw [Ppu.inv_iff]
    unfold ppuAdvance
    split_ifs with ha hb
    · exact ⟨⟨hm.of_eq rfl rfl rfl rfl, by simp only; omega, by simp only; omega, h1, h2, fun hlt =>
        h3 (by simp only at hlt; omega)⟩, hn⟩
    · exact ⟨⟨hm.of_eq rfl rfl rfl rfl, by simp only; omega, by simp, h1, h2, fun _ =>
        h4 (by omega)⟩, hn⟩
    · exact ⟨⟨hm.of_eq rfl rfl rfl rfl, by simp, by simp, h1, h2, fun _ => h4 (by omega)⟩, hn⟩
  unfold ppuTick
  rw [hdot]
  unfold dotSprites
  split_ifs with h340
  · exact hcases _ (hum.of_eq rfl rfl rfl rfl) hnt hcyc hscan (by simp) hus (fun _ => rfl) fun _ => rfl
  · exact hcases _ hum hnt hcyc hscan hus huc hue fun h => absurd h h340

/-! ### The picture -/

theorem drawPixel_inv {pic : Picture} (h : Picture.Inv pic) {l x : Nat} (px : Pixel) (hl : l < 240)
    (hx : x < 256) : Picture.Inv (drawPixel l x px pic) := by
  refine ⟨insertKey_rising h.1, fun line hline => ?_⟩
  rcases mem_insertKey hline with rfl | hm
  · refine ⟨hl, ?_⟩
    cases hk : lookupKey pic l with
    | none => simp [insertKey, hx]
    | some row =>
      have hr := h.2 _ (lookupKey_mem hk)
      simp only [Option.getD_some]
      refine ⟨insertKey_rising hr.2.1, fun c hc => ?_⟩
      rcases mem_insertKey hc with rfl | hc
      · exact hx
      · exact hr.2.2 c hc
  · exact h.2 line hm

theorem ppuDraw_inv (cart : Option Cartridge) (p : Ppu) {pic : Picture} (h : Picture.Inv pic) :
    Picture.Inv (ppuDraw cart p pic) := by
  unfold ppuDraw
  split_ifs with hv
  · simp only [visibleDot, Bool.and_eq_true, decide_eq_true_eq] at hv
    exact drawPixel_inv h _ (by omega) (by omega)
  · exact h

/-! ### The APU -/

/-- What the invariant of the APU says of the DMC. -/
structure Dmc.Inv (d : Dmc) : Prop where
  bits_ge : 1 ≤ d.bitsLeft
  bits_le : d.bitsLeft ≤ 8
  sampleLen_ge : 1 ≤ d.sampleLen.toNat
  sampleLen_le : d.sampleLen.toNat ≤ 4081
  remaining_le : d.remaining.toNat ≤ 4081
  curAddr_ge : 0x8000 ≤ d.curAddr.toNat
  startAddr_ge : 0xC000 ≤ d.startAddr.toNat
  request : d.dmaRequest = (d.bufferEmpty && decide (d.remaining ≠ 0))

/-- The frame counter is inside its sequence (R1033). -/
def CounterOk (u : Apu) : Prop := u.fsCounter.toNat < if u.fsMode then 37282 else 29830

theorem Apu.inv_iff (u : Apu) : u.Inv ↔ u.dmc.Inv ∧ u.noise.lfsr ≠ 0 ∧ CounterOk u :=
  ⟨fun ⟨h1, h2, h3, h4, h5, h6, h7, h8, h9, h10⟩ => ⟨⟨h1, h2, h3, h4, h5, h6, h7, h8⟩, h9, h10⟩,
    fun ⟨⟨h1, h2, h3, h4, h5, h6, h7, h8⟩, h9, h10⟩ => ⟨h1, h2, h3, h4, h5, h6, h7, h8, h9, h10⟩⟩

theorem Dmc.Inv.update {d : Dmc} (h1 : 1 ≤ d.bitsLeft) (h2 : d.bitsLeft ≤ 8)
    (h3 : 1 ≤ d.sampleLen.toNat) (h4 : d.sampleLen.toNat ≤ 4081) (h5 : d.remaining.toNat ≤ 4081)
    (h6 : 0x8000 ≤ d.curAddr.toNat) (h7 : 0xC000 ≤ d.startAddr.toNat) : (updateDmaRequest d).Inv :=
  ⟨h1, h2, h3, h4, h5, h6, h7, rfl⟩

theorem dmcTimer_inv {d : Dmc} (h : d.Inv) : (dmcTimer d).Inv := by
  obtain ⟨h1, h2, h3, h4, h5, h6, h7, h8⟩ := h
  unfold dmcTimer
  split_ifs
  · unfold dmcClock
    simp only
    split_ifs with hb
    · exact .update (by simp) (by simp) h3 h4 h5 h6 h7
    · exact .update (by simp) (by simp) h3 h4 h5 h6 h7
    · exact .update (by simp only; omega) (by simp only; omega) h3 h4 h5 h6 h7
  · exact ⟨h1, h2, h3, h4, h5, h6, h7, h8⟩

theorem dmcReceive_inv {d : Dmc} (b : Byte) (h : d.Inv) (hr : d.dmaRequest = true) :
    (dmcReceive b d).Inv := by
  obtain ⟨h1, h2, h3, h4, h5, h6, h7, h8⟩ := h
  rw [hr] at h8
  simp only [Bool.true_eq, Bool.and_eq_true, decide_eq_true_eq] at h8
  have hne : d.remaining.toNat ≠ 0 := fun e => h8.2 (BitVec.eq_of_toNat_eq e)
  have hrem : (d.remaining - 1).toNat ≤ 4081 := by
    rw [BitVec.toNat_sub]
    have : (1 : BitVec 16).toNat = 1 := rfl
    omega
  have hcur : 0x8000 ≤ (if d.curAddr = 0xFFFF then (0x8000 : Word) else d.curAddr + 1).toNat := by
    split_ifs with hc
    · decide
    · have hc' : d.curAddr.toNat ≠ 0xFFFF := fun e => hc (BitVec.eq_of_toNat_eq e)
      have : (1 : BitVec 16).toNat = 1 := rfl
      have := d.curAddr.isLt
      rw [BitVec.toNat_add]
      omega
  unfold dmcReceive
  simp only
  generalize (if d.curAddr = 0xFFFF then (0x8000 : Word) else d.curAddr + 1) = cur at hcur ⊢
  split_ifs
  · exact ⟨h1, h2, h3, h4, h4, by simp only; omega, h7, by simp⟩
  · exact ⟨h1, h2, h3, h4, hrem, hcur, h7, by simp⟩

theorem dmcEnable_inv {d : Dmc} (on : Bool) (h : d.Inv) : (dmcEnable on d).Inv := by
  obtain ⟨h1, h2, h3, h4, h5, h6, h7, h8⟩ := h
  unfold dmcEnable
  split_ifs
  · exact .update h1 h2 h3 h4 (by simp) h6 h7
  · exact .update h1 h2 h3 h4 h4 (by simp only; omega) h7
  · exact .update h1 h2 h3 h4 h5 h6 h7

theorem dmcWrite2_inv {d : Dmc} (v : Byte) (h : d.Inv) : (dmcWrite2 v d).Inv := by
  obtain ⟨h1, h2, h3, h4, h5, h6, h7, h8⟩ := h
  refine ⟨h1, h2, h3, h4, h5, h6, ?_, h8⟩
  have hv := v.isLt
  simp only [dmcWrite2, BitVec.toNat_add, BitVec.toNat_mul, BitVec.toNat_setWidth]
  have e1 : (0xC000 : Word).toNat = 0xC000 := rfl
  have e2 : (64 : Word).toNat = 64 := rfl
  rw [e1, e2]
  omega

theorem dmcWrite3_inv {d : Dmc} (v : Byte) (h : d.Inv) : (dmcWrite3 v d).Inv := by
  obtain ⟨h1, h2, h3, h4, h5, h6, h7, h8⟩ := h
  have hv := v.isLt
  have e : (16 * v.setWidth 16 + 1 : BitVec 16).toNat = 16 * v.toNat + 1 := by
    rw [BitVec.toNat_add, BitVec.toNat_mul, BitVec.toNat_setWidth]
    have e1 : (16 : BitVec 16).toNat = 16 := rfl
    have e2 : (1 : BitVec 16).toNat = 1 := rfl
    rw [e1, e2]
    omega
  exact ⟨h1, h2, by simp only [dmcWrite3, e]; omega, by simp only [dmcWrite3, e]; omega, h5, h6, h7, h8⟩

/-- The noise register is never 0 (R1040). -/
theorem lfsrNext_ne {m : Bool} {l : BitVec 15} (h : l ≠ 0) : lfsrNext m l ≠ 0 := by
  intro e
  apply h
  have hb : ∀ i, (lfsrNext m l).getLsbD i = false := fun i => by rw [e]; simp
  have hs : ∀ i, 1 ≤ i → i < 15 → l.getLsbD i = false := by
    intro i h1 h15
    have := hb (i - 1)
    simp only [lfsrNext, BitVec.getLsbD_or, BitVec.getLsbD_ushiftRight, Bool.or_eq_false_iff] at this
    rw [show 1 + (i - 1) = i by omega] at this
    exact this.1
  have h0 : l.getLsbD 0 = false := by
    have := hb 14
    simp only [lfsrNext, BitVec.getLsbD_or, Bool.or_eq_false_iff] at this
    have h2 := this.2
    rw [hs 6 (by omega) (by omega), hs 1 (by omega) (by omega)] at h2
    cases hl : l.getLsbD 0
    · rfl
    · rw [hl] at h2; simp at h2
  apply BitVec.eq_of_getLsbD_eq
  intro i hi
  rcases Nat.eq_zero_or_pos i with rfl | hp
  · simpa using h0
  · simpa using hs i hp hi

/-- What the frame sequencer's clocks leave alone. -/
def SameSequencer (u v : Apu) : Prop :=
  v.dmc = u.dmc ∧ v.noise.lfsr = u.noise.lfsr ∧ v.fsMode = u.fsMode ∧ v.fsInhibit = u.fsInhibit ∧
    v.fsCounter = u.fsCounter ∧ v.frameIrq = u.frameIrq ∧ v.dmcIrq = u.dmcIrq ∧ v.mixer = u.mixer

theorem quarterFrame_same (u : Apu) : SameSequencer u (quarterFrame u) :=
  ⟨rfl, rfl, rfl, rfl, rfl, rfl, rfl, rfl⟩

theorem halfFrame_same (u : Apu) : SameSequencer u (halfFrame u) :=
  ⟨rfl, rfl, rfl, rfl, rfl, rfl, rfl, rfl⟩

theorem SameSequencer.refl (u : Apu) : SameSequencer u u := ⟨rfl, rfl, rfl, rfl, rfl, rfl, rfl, rfl⟩

theorem SameSequencer.trans {u v w : Apu} (h : SameSequencer u v) (h' : SameSequencer v w) :
    SameSequencer u w := by
  obtain ⟨a, b, c, d, e, f, g, i⟩ := h
  obtain ⟨a', b', c', d', e', f', g', i'⟩ := h'
  exact ⟨a'.trans a, b'.trans b, c'.trans c, d'.trans d, e'.trans e, f'.trans f, g'.trans g, i'.trans i⟩

/-- The frame sequencer: it clocks units, counts, and sets the frame IRQ (R1033). -/
theorem frameSequencerStep_eq (u : Apu) :
    (frameSequencerStep u).dmc = u.dmc ∧ (frameSequencerStep u).noise.lfsr = u.noise.lfsr ∧
      (frameSequencerStep u).fsMode = u.fsMode ∧ (frameSequencerStep u).fsInhibit = u.fsInhibit ∧
      (frameSequencerStep u).mixer = u.mixer ∧ (frameSequencerStep u).dmcIrq = u.dmcIrq ∧
      (frameSequencerStep u).fsCounter =
        (if (u.fsCounter + 1).toNat = (if u.fsMode then 37282 else 29830) then 0 else u.fsCounter + 1) ∧
      (frameSequencerStep u).frameIrq =
        (u.frameIrq || (!u.fsMode && decide ((u.fsCounter + 1).toNat = 29829) && !u.fsInhibit)) := by
  have hq : ∀ (c : Prop) [Decidable c] (u : Apu), SameSequencer u (if c then quarterFrame u else u) :=
    fun c _ u => by split; exacts [quarterFrame_same u, .refl u]
  have hh : ∀ (c : Prop) [Decidable c] (u : Apu),
      SameSequencer u (if c then halfFrame (quarterFrame u) else u) :=
    fun c _ u => by split; exacts [(quarterFrame_same u).trans (halfFrame_same _), .refl u]
  unfold frameSequencerStep
  simp only
  set n := (u.fsCounter + 1).toNat with hn
  set u1 : Apu := { u with fsCounter := u.fsCounter + 1 } with hu1
  cases hm : u.fsMode
  · simp only [Bool.false_eq_true, if_false, fourStep]
    obtain ⟨a, b, c, d, e, f, g, i⟩ := (hq (n = 7457 ∨ n = 22371) u1).trans (hh (n = 14913 ∨ n = 29829) _)
    set u2 := (if n = 14913 ∨ n = 29829 then
      halfFrame (quarterFrame (if n = 7457 ∨ n = 22371 then quarterFrame u1 else u1))
      else if n = 7457 ∨ n = 22371 then quarterFrame u1 else u1) with hu2
    rw [d]
    have hi : u1.fsInhibit = u.fsInhibit := rfl
    rw [hi]
    by_cases h9 : n = 29829
    · have h0 : ¬n = 29830 := by omega
      simp only [h9, decide_true, Bool.not_false, Bool.true_and, true_and,
        Nat.reduceEqDiff, if_false]
      cases hv : u.fsInhibit
      · simp only [Bool.not_false, if_true, Bool.or_true]
        exact ⟨a, b, by simp [c, hu1, hm], by simp, i, g, e, trivial⟩
      · simp only [Bool.not_true, Bool.false_eq_true, if_false, Bool.or_false]
        exact ⟨a, b, by simp [c, hu1, hm], by simp [d, hu1, hv], i, g, e, f⟩
    · simp only [h9, false_and, if_false, decide_false, Bool.and_false, Bool.false_and, Bool.or_false]
      split_ifs with h0
      · exact ⟨a, b, by simp [c, hu1, hm], d, i, g, rfl, f⟩
      · exact ⟨a, b, by simp [c, hu1, hm], d, i, g, e, f⟩
  · simp only [if_true, fiveStep]
    obtain ⟨a, b, c, d, e, f, g, i⟩ := (hq (n = 7457 ∨ n = 22371) u1).trans (hh (n = 14913 ∨ n = 37281) _)
    set u2 := (if n = 14913 ∨ n = 37281 then
      halfFrame (quarterFrame (if n = 7457 ∨ n = 22371 then quarterFrame u1 else u1))
      else if n = 7457 ∨ n = 22371 then quarterFrame u1 else u1) with hu2
    simp only [Bool.not_true, Bool.false_and, Bool.or_false]
    split_ifs with h0
    · exact ⟨a, b, by simp [c, hu1, hm], d, i, g, rfl, f⟩
    · exact ⟨a, b, by simp [c, hu1, hm], d, i, g, e, f⟩

/-- An APU tick keeps the invariant. -/
theorem apuTick_inv (silent : Bool) {u : Apu} (h : u.Inv) : (apuTick silent u).1.Inv := by
  rw [Apu.inv_iff] at h ⊢
  obtain ⟨hd, hl, hc⟩ := h
  obtain ⟨e1, e2, e3, -, -, -, e5, -⟩ := frameSequencerStep_eq u
  refine ⟨?_, ?_, ?_⟩
  · show (dmcTimer (frameSequencerStep u).dmc).Inv
    rw [e1]; exact dmcTimer_inv hd
  · show (noiseTimer (frameSequencerStep u).noise).lfsr ≠ 0
    unfold noiseTimer
    split_ifs
    · exact lfsrNext_ne (by rw [e2]; exact hl)
    · rw [e2]; exact hl
  · show (frameSequencerStep u).fsCounter.toNat < if (frameSequencerStep u).fsMode then 37282 else 29830
    rw [e5, e3]
    unfold CounterOk at hc
    have hs : (u.fsCounter + 1).toNat = u.fsCounter.toNat + 1 := by
      rw [BitVec.toNat_add]
      have h1 : (1 : BitVec 16).toNat = 1 := rfl
      rw [h1]
      cases hm : u.fsMode <;> simp [hm] at hc <;> omega
    rw [hs]
    cases hm : u.fsMode <;> simp only [hm, Bool.false_eq_true, if_false, if_true] at hc ⊢ <;> split_ifs
    · simp
    · rw [hs]; omega
    · simp
    · rw [hs]; omega

theorem dmaComplete_inv {u : Apu} (b : Byte) (h : u.Inv) (hr : u.dmc.dmaRequest = true) :
    (dmaComplete b u).Inv := by
  rw [Apu.inv_iff] at h ⊢
  exact ⟨dmcReceive_inv b h.1 hr, h.2.1, h.2.2⟩

/-- A register write keeps the APU's invariant. -/
theorem apuWrite_inv (a : Word) (d : Byte) {u : Apu} (h : u.Inv) : (apuWrite a d u).Inv := by
  rw [Apu.inv_iff] at h ⊢
  obtain ⟨hd, hl, hc⟩ := h
  unfold apuWrite
  split
  case h_15 => exact ⟨⟨hd.1, hd.2, hd.3, hd.4, hd.5, hd.6, hd.7, hd.8⟩, hl, hc⟩
  case h_16 => exact ⟨⟨hd.1, hd.2, hd.3, hd.4, hd.5, hd.6, hd.7, hd.8⟩, hl, hc⟩
  case h_17 => exact ⟨dmcWrite2_inv d hd, hl, hc⟩
  case h_18 => exact ⟨dmcWrite3_inv d hd, hl, hc⟩
  case h_19 => exact ⟨dmcEnable_inv _ hd, hl, hc⟩
  case h_20 =>
    unfold apuWriteFrame CounterOk
    simp only
    have key : ∀ b : Bool, (0 : BitVec 16).toNat < if b then 37282 else 29830 := by decide
    by_cases h7 : d.getLsbD 7 = true
    · rw [if_pos h7]; exact ⟨hd, hl, key _⟩
    · rw [if_neg h7]; exact ⟨hd, hl, key _⟩
  all_goals exact ⟨hd, hl, hc⟩

/-! ### The cartridge -/

theorem chrWrite_inv {params : Params} {cart : Option Cartridge} (a : Nat) (d : Byte)
    (h : ∀ c, cart = some c → c.Inv params) :
    ∀ c, chrWrite cart a d = some c → c.Inv params := by
  intro c hc
  unfold chrWrite at hc
  split at hc
  · cases hc
  · rename_i c0
    cases hc
    have h0 := h c0 rfl
    split_ifs
    · obtain ⟨h1, h2, h3, h4, h5, h6, h7, h8⟩ := h0
      exact ⟨h1, h2, h3, memSet_wf h4, memSet_within (chrOffset_lt _ _) h5, h6, h7, h8⟩
    · exact h0

theorem serialShiftIn_count (a : Word) (d : Byte) {r : SerialRegs} (h : r.count ≤ 4) :
    (serialShiftIn a d r).count ≤ 4 := by
  unfold serialShiftIn
  simp only
  split_ifs
  · simp
  · simp only; omega

theorem mapperWrite_inv {params : Params} {cart : Option Cartridge} (a : Word) (d : Byte)
    (h : ∀ c, cart = some c → c.Inv params) :
    ∀ c, mapperWrite params cart a d = some c → c.Inv params := by
  intro c hc
  unfold mapperWrite at hc
  split at hc
  · cases hc
  · rename_i c0
    cases hc
    have h0 := h c0 rfl
    split_ifs with h1 h2 h3
    · exact h0
    · obtain ⟨i1, i2, i3, i4, i5, i6, i7, i8⟩ := h0
      have hp : params.prgRamPresent = true := by
        unfold prgRamEnabled at h3
        exact (Bool.and_eq_true _ _ ▸ h3).1
      refine ⟨i1, i2, i3, i4, i5, memSet_wf i6, memSet_within ?_ i7, i8⟩
      rw [if_pos hp]; omega
    · exact h0
    · unfold prgWrite
      split
      · exact h0
      · rename_i r hr
        obtain ⟨i1, i2, i3, i4, i5, i6, i7, i8⟩ := h0
        rw [hr] at i8
        refine ⟨i1, i2, i3, i4, i5, i6, i7, ?_⟩
        simp only [mapperRegs] at i8 ⊢
        split_ifs
        · simp [serialReset]
        · exact serialShiftIn_count a d i8

/-- Writes keep the header: the four-screen flag above all. -/
theorem cartWrite_fourScreen {params : Params} {cart : Option Cartridge} (a : Word) (k : Nat) (d : Byte) :
    (∀ c, mapperWrite params cart a d = some c → ∃ c0, cart = some c0 ∧ c.fourScreen = c0.fourScreen) ∧
      ∀ c, chrWrite cart k d = some c → ∃ c0, cart = some c0 ∧ c.fourScreen = c0.fourScreen := by
  constructor
  · intro c hc
    unfold mapperWrite at hc
    split at hc
    · cases hc
    · rename_i c0
      cases hc
      refine ⟨c0, rfl, ?_⟩
      split_ifs <;> first | rfl | (unfold prgWrite; split <;> rfl)
  · intro c hc
    unfold chrWrite at hc
    split at hc
    · cases hc
    · rename_i c0
      cases hc
      refine ⟨c0, rfl, ?_⟩
      split_ifs <;> rfl

/-! ### The whole machine -/

theorem OnlyReadEffects.ppu_inv {s t : State} (h : OnlyReadEffects s t) (hi : s.ppu.Inv) : t.ppu.Inv := by
  rw [h]; exact hi.of_eq rfl rfl rfl rfl ⟨rfl, rfl, rfl⟩ rfl rfl

/-- Reads keep the invariant. -/
theorem OnlyReadEffects.inv {s t : State} (h : OnlyReadEffects s t) (hi : s.Inv) : t.Inv := by
  have hp := h.ppu_inv hi.ppu
  have hnt : t.ppu.ntFour = s.ppu.ntFour := by rw [h]
  have hu : t.apu.Inv := by
    have := (Apu.inv_iff _).1 hi.apu
    rw [h, Apu.inv_iff]; exact this
  refine ⟨by rw [h.cpu]; exact hi.cpu, ⟨by rw [h.ram]; exact hi.bus.1, by rw [h.ram]; exact hi.bus.2⟩,
    hp, hu, by rw [h.host]; exact hi.host, ?_⟩
  rw [h.cart, h.params, hnt]
  exact hi.cart

theorem latchBus_inv {s : State} (v : Byte) (h : s.Inv) : (latchBus v s).Inv :=
  (latchBus_onlyReadEffects v s).inv h

theorem ramIndex_lt (a : Word) : ramIndex a < 2048 := Nat.mod_lt _ (by decide)

theorem oamDmaCopy_inv (d : Byte) (n i : Nat) {s : State} (h : s.Inv) : (oamDmaCopy d n i s).Inv := by
  induction n generalizing i s with
  | zero => exact h
  | succ n ih =>
    unfold oamDmaCopy
    have hr := (memRead_onlyReadEffects (wordOf d (BitVec.ofNat 8 i)) s).inv h
    exact ih (i + 1) ⟨hr.cpu, hr.bus, hr.ppu.setOam _ _, hr.apu, hr.host, hr.cart⟩

/-- Writes keep the invariant. -/
theorem memWrite_inv (a : Word) (v : Byte) {s : State} (h : s.Inv) : (memWrite a v s).Inv := by
  unfold memWrite
  have hl := latchBus_inv v h
  generalize latchBus v s = u at hl ⊢
  obtain ⟨h1, h2, h3, h4, h5, h6⟩ := hl
  unfold writeEffect
  split
  case h_1 => exact ⟨h1, ⟨memSet_wf h2.1, memSet_within (ramIndex_lt a) h2.2⟩, h3, h4, h5, h6⟩
  case h_2 =>
    obtain ⟨hp, hn⟩ := ppuRegWrite_inv u.cart (a.setWidth 3) v h3
    refine ⟨h1, h2, hp, h4, h5, fun c hc => ?_⟩
    simp only at hc ⊢
    rw [hn]
    unfold ppuRegWriteCart ppuWriteCart at hc
    split_ifs at hc
    · obtain ⟨c0, e0, e1⟩ := (cartWrite_fourScreen (params := u.params) a _ v).2 c hc
      exact ⟨chrWrite_inv _ v (fun c hc => (h6 c hc).1) c hc, e1.trans (h6 c0 e0).2⟩
    · exact h6 c hc
    · exact h6 c hc
  case h_3 => exact ⟨h1, h2, h3, apuWrite_inv a v h4, h5, h6⟩
  case h_4 => exact ⟨h1, h2, h3, apuWrite_inv a v h4, h5, h6⟩
  case h_5 => exact ⟨h1, h2, h3, apuWrite_inv a v h4, h5, h6⟩
  case h_6 =>
    unfold oamDma
    have := oamDmaCopy_inv v 256 0 ⟨h1, h2, h3, h4, h5, h6⟩
    generalize oamDmaCopy v 256 0 u = w at this ⊢
    exact ⟨this.1, ⟨this.2.1, this.2.2⟩, this.3, this.4, this.5, this.6⟩
  case h_7 =>
    have : (ctrlWrite v u.bus).ram = u.bus.ram := by unfold ctrlWrite; simp only; split_ifs <;> rfl
    exact ⟨h1, ⟨by rw [this]; exact h2.1, by rw [this]; exact h2.2⟩, h3, h4, h5, h6⟩
  case h_8 => exact ⟨h1, h2, h3, h4, h5, h6⟩
  case h_9 =>
    refine ⟨h1, h2, h3, h4, h5, fun c hc => ?_⟩
    obtain ⟨c0, e0, e1⟩ := (cartWrite_fourScreen (params := u.params) a 0 v).1 c hc
    exact ⟨mapperWrite_inv a v (fun c hc => (h6 c hc).1) c hc, e1.trans (h6 c0 e0).2⟩

/-- The capture keeps the ring within its capacity (R1213). -/
theorem rewindCapture_inv (f : BitVec 32) {s : State} (h : s.Inv) : (rewindCapture f s).Inv := by
  unfold rewindCapture
  split_ifs
  · obtain ⟨h1, h2, h3, h4, h5, h6⟩ := h
    exact ⟨h1, h2, h3, h4, ⟨h5.1, h5.2, (List.length_take_le _ _)⟩, h6⟩
  · exact h

/-! ### The mixer -/

/-- A mixer whose filter state a tick has replaced by a finite value. -/
theorem Mixer.Inv.withFilter {m : Mixer} (h : m.Inv) {y : Binary64} (hy : f64Finite y = true) :
    ({ m with lpfY := y } : Mixer).Inv := ⟨h.1, h.2, h.3, h.4, h.5, h.6, hy⟩

/-- A register write leaves the mixer alone. -/
theorem apuWrite_mixer (a : Word) (d : Byte) (u : Apu) : (apuWrite a d u).mixer = u.mixer := by
  unfold apuWrite
  split <;> first | rfl | (unfold apuWriteFrame; simp only; split_ifs <;> rfl)

end Sys2Proof.Machine
end

