-- ==== Sys2Proof/Laws/Codec.lean ====
section
/-! SUPPORT. The serializer, field by field and region by region: a reader takes back exactly what the
writer of the same field puts, and what a reader accepts is what the writer puts (R1200-R1211). -/

namespace Sys2Proof.Machine

/-! ### Readers -/

/-- The reader takes the bytes `bs` off the front and gives `x`. -/
def Reads {α : Type} (g : Get α) (bs : List Byte) (x : α) : Prop := ∀ rest, g (bs ++ rest) = some (x, rest)

theorem get_pure {α : Type} (x : α) (bs : List Byte) : (pure x : Get α) bs = some (x, bs) := rfl

theorem get_bind {α β : Type} (g : Get α) (f : α → Get β) (bs : List Byte) :
    (g >>= f) bs = (g bs).bind fun r => f r.1 r.2 := rfl

theorem Reads.bind {α β : Type} {g : Get α} {f : α → Get β} {bs cs : List Byte} {x : α} {y : β}
    (h : Reads g bs x) (h' : Reads (f x) cs y) : Reads (g >>= f) (bs ++ cs) y := by
  intro rest
  rw [get_bind, List.append_assoc, h]
  exact h' rest

theorem Reads.pure {α : Type} (x : α) : Reads (pure x : Get α) [] x := fun _ => rfl

theorem Reads.check {ok : Bool} (h : ok = true) {α : Type} {f : Unit → Get α} {bs : List Byte} {x : α}
    (h' : Reads (f ()) bs x) : Reads (Machine.check ok >>= f) bs x := by
  intro rest
  rw [get_bind, Machine.check, if_pos h]
  exact h' rest

/-- The last field of a record: the reader ends there. -/
theorem Reads.map {α β : Type} {g : Get α} {f : α → β} {bs : List Byte} {x : α} (h : Reads g bs x) :
    Reads (g >>= fun a => Pure.pure (f a)) bs (f x) := by
  have := h.bind (Reads.pure (f x)) (f := fun a => Pure.pure (f a))
  rwa [List.append_nil] at this

/-! ### Numbers -/

@[simp] theorem putNat_length (n v : Nat) : (putNat n v).length = n := by
  induction n generalizing v with
  | zero => rfl
  | succ n ih => simp [putNat, ih]

theorem getNat_putNat (n v : Nat) (h : v < 256 ^ n) : Reads (getNat n) (putNat n v) v := by
  induction n generalizing v with
  | zero =>
    intro rest
    have : v = 0 := by simpa using h
    subst this; rfl
  | succ n ih =>
    intro rest
    have hv : v / 256 < 256 ^ n := by
      rw [Nat.pow_succ] at h
      exact Nat.div_lt_of_lt_mul (by rwa [Nat.mul_comm])
    simp only [putNat, List.cons_append, getNat, ih _ hv rest, Option.map_some, BitVec.toNat_ofNat]
    have := Nat.mod_add_div v 256
    simp only [Nat.reducePow]
    rw [this]

theorem natOfBytes_putNat (n v : Nat) (h : v < 256 ^ n) : natOfBytes (putNat n v) = v := by
  induction n generalizing v with
  | zero =>
    have : v = 0 := by simpa using h
    subst this; rfl
  | succ n ih =>
    have hv : v / 256 < 256 ^ n := by
      rw [Nat.pow_succ] at h
      exact Nat.div_lt_of_lt_mul (by rwa [Nat.mul_comm])
    simp only [putNat, natOfBytes, ih _ hv, BitVec.toNat_ofNat]
    have := Nat.mod_add_div v 256
    simp only [Nat.reducePow]
    omega

theorem putNat_natOfBytes (bs : List Byte) : putNat bs.length (natOfBytes bs) = bs := by
  induction bs with
  | nil => rfl
  | cons b bs ih =>
    have hb := b.isLt
    simp only [List.length_cons, putNat, natOfBytes]
    have h1 : (b.toNat + 256 * natOfBytes bs) / 256 = natOfBytes bs := by omega
    rw [h1, ih]
    congr 1
    apply BitVec.eq_of_toNat_eq
    rw [BitVec.toNat_ofNat]
    omega

/-- What a number reader accepts is what the writer puts. -/
theorem getNat_exact {n : Nat} {bs rest : List Byte} {v : Nat} (h : getNat n bs = some (v, rest)) :
    bs = putNat n v ++ rest ∧ v < 256 ^ n := by
  induction n generalizing bs v rest with
  | zero => simp only [getNat, Option.some.injEq, Prod.mk.injEq] at h; simp [putNat, h.1.symm, h.2]
  | succ n ih =>
    cases bs with
    | nil => simp [getNat] at h
    | cons b bs =>
      simp only [getNat, Option.map_eq_some_iff] at h
      obtain ⟨⟨w, r⟩, h1, h2⟩ := h
      obtain ⟨e, hw⟩ := ih h1
      simp only [Prod.mk.injEq] at h2
      obtain ⟨rfl, rfl⟩ := h2
      have hb := b.isLt
      refine ⟨?_, ?_⟩
      · simp only [putNat, List.cons_append]
        have h1 : (b.toNat + 256 * w) / 256 = w := by omega
        rw [h1, ← e]
        congr 1
        apply BitVec.eq_of_toNat_eq
        rw [BitVec.toNat_ofNat]
        omega
      · rw [Nat.pow_succ]; omega

/-! ### Fields -/

theorem getBV_putBV {w n : Nat} (v : BitVec w) (h : 2 ^ w ≤ 256 ^ n) :
    Reads (getBV w n) (putBV n v) v := by
  intro rest
  rw [getBV, putBV, getNat_putNat n v.toNat (v.isLt.trans_le h) rest]
  simp [v.isLt]

theorem getBit_putBit (b : Bool) : Reads getBit (putBit b) b := by
  intro rest; cases b <;> rfl

theorem getIn_putNat {n lo hi v : Nat} (h : v < 256 ^ n) (h1 : lo ≤ v) (h2 : v ≤ hi) :
    Reads (getIn n lo hi) (putNat n v) v := by
  intro rest
  rw [getIn, getNat_putNat n v h rest]
  simp [h1, h2]

theorem getBytes_append {n : Nat} {bs : List Byte} (h : bs.length = n) : Reads (getBytes n) bs bs := by
  intro rest
  subst h
  simp [getBytes]

theorem getMem_memBytes {m : Memory} {n : Nat} {mx : Byte} (h : Memory.wf m) (hn : Memory.within n m)
    (hm : ∀ c ∈ m, c.2.toNat ≤ mx.toNat) : Reads (getMem n mx) (memBytes m n) m := by
  intro rest
  rw [getMem, getBytes_append (memBytes_length m n) rest]
  have : (memBytes m n).all (fun b => decide (b.toNat ≤ mx.toNat)) = true := by
    rw [List.all_eq_true]
    intro b hb
    obtain ⟨i, -, rfl⟩ := List.mem_map.1 hb
    rw [decide_eq_true_eq, memGet]
    cases hk : lookupKey m i with
    | none => simp
    | some v => exact hm _ (lookupKey_mem hk)
  simp only [Option.bind_some, this, if_true, memOfBytes_memBytes h hn]

theorem byte_le_FF (b : Byte) : b.toNat ≤ (0xFF : Byte).toNat := Nat.le_of_lt_succ b.isLt

/-! ### What a reader accepts -/

/-- What the reader accepts is what the writer puts. -/
def Exact {α : Type} (g : Get α) (put : α → List Byte) : Prop :=
  ∀ bs x rest, g bs = some (x, rest) → bs = put x ++ rest

theorem get_bind_eq {α β : Type} {g : Get α} {f : α → Get β} {bs rest : List Byte} {y : β} :
    (g >>= f) bs = some (y, rest) ↔ ∃ x mid, g bs = some (x, mid) ∧ f x mid = some (y, rest) := by
  rw [get_bind, Option.bind_eq_some_iff]
  exact ⟨fun ⟨⟨x, m⟩, h1, h2⟩ => ⟨x, m, h1, h2⟩, fun ⟨x, m, h1, h2⟩ => ⟨⟨x, m⟩, h1, h2⟩⟩

theorem get_check_eq {ok : Bool} {bs mid : List Byte} {u : Unit} :
    Machine.check ok bs = some (u, mid) ↔ ok = true ∧ mid = bs := by
  unfold Machine.check
  split_ifs with h <;> simp_all [eq_comm]

theorem getBV_exact (w n : Nat) : Exact (getBV w n) (putBV n) := by
  intro bs x rest h
  simp only [getBV, Option.bind_eq_some_iff] at h
  obtain ⟨⟨v, r⟩, h1, h2⟩ := h
  split_ifs at h2 with hv
  simp only [Option.some.injEq, Prod.mk.injEq] at h2
  obtain ⟨rfl, rfl⟩ := h2
  rw [putBV, BitVec.toNat_ofNat, Nat.mod_eq_of_lt hv]
  exact (getNat_exact h1).1

theorem getBit_exact : Exact getBit putBit := by
  intro bs x rest h
  simp only [getBit, Option.bind_eq_some_iff] at h
  obtain ⟨⟨v, r⟩, h1, h2⟩ := h
  split_ifs at h2 with hv
  simp only [Option.some.injEq, Prod.mk.injEq] at h2
  obtain ⟨rfl, rfl⟩ := h2
  rw [(getNat_exact h1).1]
  interval_cases v <;> rfl

theorem getIn_exact {n lo hi : Nat} {bs rest : List Byte} {v : Nat}
    (h : getIn n lo hi bs = some (v, rest)) : bs = putNat n v ++ rest ∧ lo ≤ v ∧ v ≤ hi := by
  simp only [getIn, Option.bind_eq_some_iff] at h
  obtain ⟨⟨w, r⟩, h1, h2⟩ := h
  split_ifs at h2 with hv
  simp only [Option.some.injEq, Prod.mk.injEq] at h2
  obtain ⟨rfl, rfl⟩ := h2
  exact ⟨(getNat_exact h1).1, hv⟩

theorem getBytes_exact {n : Nat} {bs x rest : List Byte} (h : getBytes n bs = some (x, rest)) :
    bs = x ++ rest ∧ x.length = n := by
  unfold getBytes at h
  split_ifs at h with hn
  simp only [Option.some.injEq, Prod.mk.injEq] at h
  obtain ⟨rfl, rfl⟩ := h
  simp [hn]

theorem getMem_exact {n : Nat} {mx : Byte} {bs rest : List Byte} {m : Memory}
    (h : getMem n mx bs = some (m, rest)) : bs = memBytes m n ++ rest := by
  simp only [getMem, Option.bind_eq_some_iff] at h
  obtain ⟨⟨v, r⟩, h1, h2⟩ := h
  split_ifs at h2
  simp only [Option.some.injEq, Prod.mk.injEq] at h2
  obtain ⟨rfl, rfl⟩ := h2
  obtain ⟨e, hl⟩ := getBytes_exact h1
  rw [e, ← hl, memBytes_memOfBytes]

/-! ### Regions: what is put is read back -/

theorem getCpu_putCpu {c : Cpu} (h : c.Inv) : Reads getCpu (putCpu c) c := by
  unfold getCpu putCpu
  simp only [List.append_assoc]
  refine (getBV_putBV _ (by decide)).bind <| (getBV_putBV _ (by decide)).bind <|
    (getBV_putBV _ (by decide)).bind <| (getBV_putBV _ (by decide)).bind <|
    (getBV_putBV _ (by decide)).bind <| (getBV_putBV _ (by decide)).bind <|
    Reads.check (by simp [h.stored]) <| (getBV_putBV _ (by decide)).bind <|
    (getBit_putBit _).bind <| (getBit_putBit _).bind <| (getBV_putBV _ (by decide)).map

theorem getBus_putBus {b : Bus} (h : b.Inv) : Reads getBus (putBus b) b := by
  unfold getBus putBus
  simp only [List.append_assoc]
  exact (getMem_memBytes h.1 h.2 fun c _ => byte_le_FF c.2).bind <| (getBV_putBV _ (by decide)).bind <|
    (getBit_putBit _).bind <| (getBV_putBV _ (by decide)).bind <| (getBV_putBV _ (by decide)).bind <|
    (getBV_putBV _ (by decide)).bind <| (getBV_putBV _ (by decide)).bind <|
    (getBV_putBV _ (by decide)).map

theorem getSprite_putSprite (e : SpriteEntry) : Reads getSprite (putSprite e) e := by
  obtain ⟨i, y, t, a, x, r, h⟩ := e
  unfold getSprite putSprite
  simp only [List.append_assoc]
  refine (getBV_putBV _ (by decide)).bind <| (getBV_putBV _ (by decide)).bind <|
    (getBV_putBV _ (by decide)).bind <| (getBV_putBV _ (by decide)).bind <|
    (getBV_putBV _ (by decide)).bind <| (getBV_putBV _ (by decide)).bind ?_
  cases h
  · rw [← List.append_nil (putNat 1 (heightLines .h8))]
    exact (getNat_putNat 1 8 (by decide)).bind (.check (by decide) (.pure _))
  · rw [← List.append_nil (putNat 1 (heightLines .h16))]
    exact (getNat_putNat 1 16 (by decide)).bind (.check (by decide) (.pure _))

theorem getSlots_put (l : List SpriteEntry) :
    Reads (getSlots l.length) (l.map putSprite).flatten l := by
  induction l with
  | nil => exact .pure _
  | cons e l ih =>
    simp only [List.length_cons, getSlots, List.map_cons, List.flatten_cons]
    exact (getSprite_putSprite e).bind ih.map

theorem getSprites_putSprites {l : List SpriteEntry} (h : l.length ≤ 8) :
    Reads getSprites (putSprites l) l := by
  unfold getSprites putSprites
  rw [List.append_assoc]
  refine (getIn_putNat (by simp only [Nat.reducePow]; omega) (by omega) h).bind <|
    (getSlots_put l).bind ?_
  rw [← List.append_nil (List.replicate _ _)]
  exact (getBytes_append (by simp)).bind (.check (by simp) (.pure _))

theorem getPpu_putPpu {p : Ppu} (h : p.Inv) : Reads getPpu (putPpu p) p := by
  unfold getPpu putPpu
  simp only [List.append_assoc]
  have hs : ntSize p = 2048 ∨ ntSize p = 4096 := by unfold ntSize; cases p.ntFour <;> simp
  have hf : (ntSize p == 4096) = p.ntFour := by unfold ntSize; cases p.ntFour <;> rfl
  have h1 := h.scanline_le
  have h2 := h.cycle_le
  refine (getBV_putBV _ (by decide)).bind <| (getBV_putBV _ (by decide)).bind <|
    (getBit_putBit _).bind <| (getBit_putBit _).bind <| (getBit_putBit _).bind <|
    (getBV_putBV _ (by decide)).bind <|
    (getMem_memBytes h.oam_wf h.oam_within fun c _ => byte_le_FF c.2).bind <|
    (getBV_putBV _ (by decide)).bind <| (getBV_putBV _ (by decide)).bind <|
    (getBV_putBV _ (by decide)).bind <| (getBit_putBit _).bind <|
    (getBV_putBV _ (by decide)).bind <| (getBV_putBV _ (by decide)).bind <|
    (getNat_putNat 2 (ntSize p) (by simp only [Nat.reducePow]; omega)).bind <|
    Reads.check (by rcases hs with e | e <;> simp [e]) <|
    (getMem_memBytes h.nt_wf h.nt_within fun c _ => byte_le_FF c.2).bind <|
    (getMem_memBytes (mx := 0x3F) h.palette_wf h.palette_within h.palette_six).bind <|
    (getIn_putNat (by simp only [Nat.reducePow]; omega) (by omega) h1).bind <|
    (getIn_putNat (by simp only [Nat.reducePow]; omega) (by omega) h2).bind <|
    (getBV_putBV _ (by decide)).bind <| (getBit_putBit _).bind <|
    (getBV_putBV _ (by decide)).bind <| (getBV_putBV _ (by decide)).bind <|
    (getSprites_putSprites h.next_le).bind ?_
  have := (getSprites_putSprites h.cur_le).map (f := fun cur => { p with sprCur := cur })
  rw [hf]
  exact this

theorem getPulse_putPulse (c : Pulse) : Reads getPulse (putPulse c) c := by
  unfold getPulse putPulse
  simp only [List.append_assoc]
  exact (getBit_putBit _).bind <| (getBV_putBV _ (by decide)).bind <| (getBit_putBit _).bind <|
    (getBit_putBit _).bind <| (getBV_putBV _ (by decide)).bind <| (getBit_putBit _).bind <|
    (getBV_putBV _ (by decide)).bind <| (getBV_putBV _ (by decide)).bind <| (getBit_putBit _).bind <|
    (getBV_putBV _ (by decide)).bind <| (getBit_putBit _).bind <| (getBV_putBV _ (by decide)).bind <|
    (getBit_putBit _).bind <| (getBV_putBV _ (by decide)).bind <| (getBV_putBV _ (by decide)).bind <|
    (getBV_putBV _ (by decide)).bind <| (getBV_putBV _ (by decide)).bind <|
    (getBV_putBV _ (by decide)).map

theorem getTriangle_putTriangle (c : Triangle) : Reads getTriangle (putTriangle c) c := by
  unfold getTriangle putTriangle
  simp only [List.append_assoc]
  exact (getBit_putBit _).bind <| (getBit_putBit _).bind <| (getBV_putBV _ (by decide)).bind <|
    (getBV_putBV _ (by decide)).bind <| (getBit_putBit _).bind <| (getBV_putBV _ (by decide)).bind <|
    (getBV_putBV _ (by decide)).bind <| (getBV_putBV _ (by decide)).bind <|
    (getBV_putBV _ (by decide)).map

theorem getNoise_putNoise {c : Noise} (h : c.lfsr ≠ 0) : Reads getNoise (putNoise c) c := by
  unfold getNoise putNoise
  simp only [List.append_assoc]
  exact (getBit_putBit _).bind <| (getBit_putBit _).bind <| (getBit_putBit _).bind <|
    (getBV_putBV _ (by decide)).bind <| (getBit_putBit _).bind <| (getBV_putBV _ (by decide)).bind <|
    (getBV_putBV _ (by decide)).bind <| (getBit_putBit _).bind <| (getBV_putBV _ (by decide)).bind <|
    (getBV_putBV _ (by decide)).bind <| (getBV_putBV _ (by decide)).bind <|
    Reads.check (by simpa using h) <| (getBV_putBV _ (by decide)).map

theorem putBV_eq_putNat {w : Nat} (n : Nat) (v : BitVec w) : putBV n v = putNat n v.toNat := rfl

theorem getDmc_putDmc {d : Dmc} (h : d.Inv) : Reads getDmc (putDmc d) d := by
  unfold getDmc putDmc
  simp only [List.append_assoc]
  rw [putBV_eq_putNat 2 d.sampleLen, putBV_eq_putNat 2 d.remaining]
  have h1 := h.sampleLen_ge
  have h2 := h.sampleLen_le
  have h3 := h.remaining_le
  have h4 := h.bits_ge
  have h5 := h.bits_le
  refine (getBit_putBit _).bind <| (getBit_putBit _).bind <| (getBV_putBV _ (by decide)).bind <|
    (getBV_putBV _ (by decide)).bind <| (getBV_putBV _ (by decide)).bind <|
    (getBV_putBV _ (by decide)).bind <|
    (getIn_putNat (by simp only [Nat.reducePow]; omega) h1 h2).bind <|
    (getBV_putBV _ (by decide)).bind <|
    (getIn_putNat (by simp only [Nat.reducePow]; omega) (by omega) h3).bind <|
    (getBV_putBV _ (by decide)).bind <| (getBit_putBit _).bind <| (getBV_putBV _ (by decide)).bind <|
    (getIn_putNat (by simp only [Nat.reducePow]; omega) h4 h5).bind <| (getBit_putBit _).bind ?_
  have := (getBit_putBit d.dmaRequest).map (f := fun r => { d with dmaRequest := r })
  rw [BitVec.ofNat_toNat, BitVec.ofNat_toNat, BitVec.setWidth_eq, BitVec.setWidth_eq]
  exact this

theorem getVolume_put {v : Binary64} (h : f64InUnit v = true) : Reads getVolume (putBV 8 v) v := by
  unfold getVolume
  rw [← List.append_nil (putBV 8 v)]
  exact (getBV_putBV _ (by decide)).bind (.check h (.pure _))

theorem getMixer_putMixer {m : Mixer} (h : m.Inv) : Reads getMixer (putMixer m) m := by
  unfold getMixer putMixer
  simp only [List.append_assoc]
  exact (getBV_putBV _ (by decide)).bind <| Reads.check h.lpfY <| (getVolume_put h.volP1).bind <|
    (getVolume_put h.volP2).bind <| (getVolume_put h.volT).bind <| (getVolume_put h.volN).bind <|
    (getVolume_put h.volD).bind <| (getVolume_put h.master).bind <| (getBit_putBit _).bind <|
    (getBit_putBit _).map

theorem getApu_putApu {u : Apu} (h : u.Inv) (hm : u.mixer.Inv) : Reads getApu (putApu u) u := by
  unfold getApu putApu
  simp only [List.append_assoc]
  obtain ⟨hd, hl, hc⟩ := (Apu.inv_iff u).1 h
  have hf : u.fsCounter.toNat ≤ 37281 := by
    unfold CounterOk at hc; split_ifs at hc <;> omega
  rw [putBV_eq_putNat 2 u.fsCounter]
  refine (getPulse_putPulse _).bind <| (getPulse_putPulse _).bind <| (getTriangle_putTriangle _).bind <|
    (getNoise_putNoise hl).bind <| (getDmc_putDmc hd).bind <| (getBit_putBit _).bind <|
    (getBit_putBit _).bind <|
    (getIn_putNat (by simp only [Nat.reducePow]; omega) (by omega) hf).bind <|
    (getBit_putBit _).bind <| (getBit_putBit _).bind <| (getBit_putBit _).bind ?_
  have := (getMixer_putMixer hm).map (f := fun m => { u with mixer := m })
  rw [BitVec.ofNat_toNat, BitVec.setWidth_eq]
  exact this

theorem getSerial_putSerial {r : SerialRegs} (h : r.count ≤ 4) : Reads getSerial (putSerial r) r := by
  unfold getSerial putSerial
  simp only [List.append_assoc]
  exact (getBV_putBV _ (by decide)).bind <|
    (getIn_putNat (by simp only [Nat.reducePow]; omega) (by omega) h).bind <|
    (getBV_putBV _ (by decide)).bind <| (getBV_putBV _ (by decide)).bind <|
    (getBV_putBV _ (by decide)).bind <| (getBV_putBV _ (by decide)).map

theorem getSched_putSched (s : Sched) : Reads getSched (putSched s) s := by
  unfold getSched putSched
  exact (getBV_putBV _ (by decide)).bind (getBV_putBV _ (by decide)).map

theorem putCartId_length (params : Params) (c : Cartridge) : (putCartId params c).length = 5 := by
  simp [putCartId, putBV, putBit]

/-! ### Regions: what is accepted is what is put -/

theorem getCpu_exact : Exact getCpu putCpu := by
  intro bs x rest h
  unfold getCpu at h
  repeat
    (have hx := get_bind_eq.1 h
     clear h
     obtain ⟨_, _, h1, h⟩ := hx
     first
     | have e := getBV_exact _ _ _ _ _ h1; clear h1; subst e
     | have e := getBit_exact _ _ _ h1; clear h1; subst e
     | have e := (get_check_eq.1 h1).2; clear h1; subst e)
  cases h
  simp only [putCpu, List.append_assoc]

theorem getBus_exact : Exact getBus putBus := by
  intro bs x rest h
  unfold getBus at h
  obtain ⟨ram, bs1, h1, h2⟩ := get_bind_eq.1 h
  rw [getMem_exact h1]
  clear h h1
  rename _ => h
  repeat
    (have hx := get_bind_eq.1 h
     clear h
     obtain ⟨_, _, h1, h⟩ := hx
     first
     | have e := getBV_exact _ _ _ _ _ h1; clear h1; subst e
     | have e := getBit_exact _ _ _ h1; clear h1; subst e)
  cases h
  simp only [putBus, List.append_assoc]

theorem getSprite_exact : Exact getSprite putSprite := by
  intro bs x rest h
  unfold getSprite at h
  obtain ⟨i, m1, h1, h⟩ := get_bind_eq.1 h
  obtain ⟨y, m2, h2, h⟩ := get_bind_eq.1 h
  obtain ⟨tl, m3, h3, h⟩ := get_bind_eq.1 h
  obtain ⟨at', m4, h4, h⟩ := get_bind_eq.1 h
  obtain ⟨xp, m5, h5, h⟩ := get_bind_eq.1 h
  obtain ⟨r, m6, h6, h⟩ := get_bind_eq.1 h
  obtain ⟨v, m7, h7, h⟩ := get_bind_eq.1 h
  obtain ⟨_, m8, h8, hk⟩ := get_bind_eq.1 h
  obtain ⟨hv, rfl⟩ := get_check_eq.1 h8
  cases hk
  rw [getBV_exact _ _ _ _ _ h1, getBV_exact _ _ _ _ _ h2, getBV_exact _ _ _ _ _ h3,
    getBV_exact _ _ _ _ _ h4, getBV_exact _ _ _ _ _ h5, getBV_exact _ _ _ _ _ h6, (getNat_exact h7).1]
  simp only [putSprite, List.append_assoc]
  have hv' : v = 8 ∨ v = 16 := by simpa using hv
  rcases hv' with rfl | rfl <;> rfl

theorem getSlots_exact {n : Nat} {bs rest : List Byte} {l : List SpriteEntry}
    (h : getSlots n bs = some (l, rest)) : bs = (l.map putSprite).flatten ++ rest ∧ l.length = n := by
  induction n generalizing bs l with
  | zero => cases h; exact ⟨rfl, rfl⟩
  | succ n ih =>
    unfold getSlots at h
    obtain ⟨e, m1, h1, h⟩ := get_bind_eq.1 h
    obtain ⟨l', m2, h2, h⟩ := get_bind_eq.1 h
    cases h
    obtain ⟨e1, e2⟩ := ih h2
    rw [getSprite_exact _ _ _ h1, e1]
    simp [e2]

theorem getSprites_exact : Exact getSprites putSprites := by
  intro bs x rest h
  unfold getSprites at h
  obtain ⟨n, m1, h1, h⟩ := get_bind_eq.1 h
  obtain ⟨l, m2, h2, h⟩ := get_bind_eq.1 h
  obtain ⟨pad, m3, h3, h⟩ := get_bind_eq.1 h
  obtain ⟨_, m4, h4, hk⟩ := get_bind_eq.1 h
  obtain ⟨hp, rfl⟩ := get_check_eq.1 h4
  cases hk
  obtain ⟨e2, hl⟩ := getSlots_exact h2
  obtain ⟨e3, hlen⟩ := getBytes_exact h3
  have hz : pad = List.replicate (7 * (8 - n)) 0 := by
    rw [← hlen]
    refine List.eq_replicate_iff.2 ⟨rfl, fun b hb => ?_⟩
    simpa using List.all_eq_true.1 hp b hb
  rw [(getIn_exact h1).1, e2, e3, hz]
  simp [putSprites, hl]

theorem getPpu_exact : Exact getPpu putPpu := by
  intro bs x rest h
  unfold getPpu at h
  obtain ⟨a1, m1, h1, k1⟩ := get_bind_eq.1 h; clear h
  obtain ⟨a2, m2, h2, k2⟩ := get_bind_eq.1 k1; clear k1
  obtain ⟨a3, m3, h3, k3⟩ := get_bind_eq.1 k2; clear k2
  obtain ⟨a4, m4, h4, k4⟩ := get_bind_eq.1 k3; clear k3
  obtain ⟨a5, m5, h5, k5⟩ := get_bind_eq.1 k4; clear k4
  obtain ⟨a6, m6, h6, k6⟩ := get_bind_eq.1 k5; clear k5
  obtain ⟨a7, m7, h7, k7⟩ := get_bind_eq.1 k6; clear k6
  obtain ⟨a8, m8, h8, k8⟩ := get_bind_eq.1 k7; clear k7
  obtain ⟨a9, m9, h9, k9⟩ := get_bind_eq.1 k8; clear k8
  obtain ⟨a10, m10, h10, k10⟩ := get_bind_eq.1 k9; clear k9
  obtain ⟨a11, m11, h11, k11⟩ := get_bind_eq.1 k10; clear k10
  obtain ⟨a12, m12, h12, k12⟩ := get_bind_eq.1 k11; clear k11
  obtain ⟨a13, m13, h13, k13⟩ := get_bind_eq.1 k12; clear k12
  obtain ⟨n, m14, h14, k14⟩ := get_bind_eq.1 k13; clear k13
  obtain ⟨_, m15, h15, k15⟩ := get_bind_eq.1 k14; clear k14
  obtain ⟨hn, rfl⟩ := get_check_eq.1 h15
  obtain ⟨a16, m16, h16, k16⟩ := get_bind_eq.1 k15; clear k15
  obtain ⟨a17, m17, h17, k17⟩ := get_bind_eq.1 k16; clear k16
  obtain ⟨a18, m18, h18, k18⟩ := get_bind_eq.1 k17; clear k17
  obtain ⟨a19, m19, h19, k19⟩ := get_bind_eq.1 k18; clear k18
  obtain ⟨a20, m20, h20, k20⟩ := get_bind_eq.1 k19; clear k19
  obtain ⟨a21, m21, h21, k21⟩ := get_bind_eq.1 k20; clear k20
  obtain ⟨a22, m22, h22, k22⟩ := get_bind_eq.1 k21; clear k21
  obtain ⟨a23, m23, h23, k23⟩ := get_bind_eq.1 k22; clear k22
  obtain ⟨a24, m24, h24, k24⟩ := get_bind_eq.1 k23; clear k23
  obtain ⟨a25, m25, h25, k25⟩ := get_bind_eq.1 k24; clear k24
  have hn' : n = 2048 ∨ n = 4096 := by simpa using hn
  rw [get_pure, Option.some.injEq, Prod.mk.injEq] at k25
  obtain ⟨e, rfl⟩ := k25
  have hs : ntSize x = n := by
    rw [← e, ntSize]; rcases hn' with rfl | rfl <;> rfl
  rw [getBV_exact _ _ _ _ _ h1, getBV_exact _ _ _ _ _ h2, getBit_exact _ _ _ h3, getBit_exact _ _ _ h4,
    getBit_exact _ _ _ h5, getBV_exact _ _ _ _ _ h6, getMem_exact h7, getBV_exact _ _ _ _ _ h8,
    getBV_exact _ _ _ _ _ h9, getBV_exact _ _ _ _ _ h10, getBit_exact _ _ _ h11,
    getBV_exact _ _ _ _ _ h12, getBV_exact _ _ _ _ _ h13, (getNat_exact h14).1, getMem_exact h16,
    getMem_exact h17, (getIn_exact h18).1, (getIn_exact h19).1, getBV_exact _ _ _ _ _ h20,
    getBit_exact _ _ _ h21, getBV_exact _ _ _ _ _ h22, getBV_exact _ _ _ _ _ h23,
    getSprites_exact _ _ _ h24, getSprites_exact _ _ _ h25]
  subst e
  unfold putPpu
  dsimp only
  generalize ntSize _ = size at hs ⊢
  subst hs
  simp only [List.append_assoc]

theorem getPulse_exact : Exact getPulse putPulse := by
  intro bs x rest h
  unfold getPulse at h
  repeat
    (have hx := get_bind_eq.1 h
     clear h
     obtain ⟨_, _, h1, h⟩ := hx
     first
     | have e := getBV_exact _ _ _ _ _ h1; clear h1; subst e
     | have e := getBit_exact _ _ _ h1; clear h1; subst e)
  cases h
  simp only [putPulse, List.append_assoc]

theorem getTriangle_exact : Exact getTriangle putTriangle := by
  intro bs x rest h
  unfold getTriangle at h
  repeat
    (have hx := get_bind_eq.1 h
     clear h
     obtain ⟨_, _, h1, h⟩ := hx
     first
     | have e := getBV_exact _ _ _ _ _ h1; clear h1; subst e
     | have e := getBit_exact _ _ _ h1; clear h1; subst e)
  cases h
  simp only [putTriangle, List.append_assoc]

theorem getNoise_exact : Exact getNoise putNoise := by
  intro bs x rest h
  unfold getNoise at h
  repeat
    (have hx := get_bind_eq.1 h
     clear h
     obtain ⟨_, _, h1, h⟩ := hx
     first
     | have e := getBV_exact _ _ _ _ _ h1; clear h1; subst e
     | have e := getBit_exact _ _ _ h1; clear h1; subst e
     | have e := (get_check_eq.1 h1).2; clear h1; subst e)
  cases h
  simp only [putNoise, List.append_assoc]

theorem getSched_exact : Exact getSched putSched := by
  intro bs x rest h
  unfold getSched at h
  repeat
    (have hx := get_bind_eq.1 h
     clear h
     obtain ⟨_, _, h1, h⟩ := hx
     have e := getBV_exact _ _ _ _ _ h1; clear h1; subst e)
  cases h
  simp only [putSched, List.append_assoc]

theorem getDmc_exact : Exact getDmc putDmc := by
  intro bs x rest h
  unfold getDmc at h
  obtain ⟨a1, m1, h1, h⟩ := get_bind_eq.1 h
  obtain ⟨a2, m2, h2, h⟩ := get_bind_eq.1 h
  obtain ⟨a3, m3, h3, h⟩ := get_bind_eq.1 h
  obtain ⟨a4, m4, h4, h⟩ := get_bind_eq.1 h
  obtain ⟨a5, m5, h5, h⟩ := get_bind_eq.1 h
  obtain ⟨a6, m6, h6, h⟩ := get_bind_eq.1 h
  obtain ⟨a7, m7, h7, h⟩ := get_bind_eq.1 h
  obtain ⟨a8, m8, h8, h⟩ := get_bind_eq.1 h
  obtain ⟨a9, m9, h9, h⟩ := get_bind_eq.1 h
  obtain ⟨a10, m10, h10, h⟩ := get_bind_eq.1 h
  obtain ⟨a11, m11, h11, h⟩ := get_bind_eq.1 h
  obtain ⟨a12, m12, h12, h⟩ := get_bind_eq.1 h
  obtain ⟨a13, m13, h13, h⟩ := get_bind_eq.1 h
  obtain ⟨a14, m14, h14, h⟩ := get_bind_eq.1 h
  obtain ⟨a15, m15, h15, h⟩ := get_bind_eq.1 h
  cases h
  obtain ⟨e7, -, b7⟩ := getIn_exact h7
  obtain ⟨e9, -, b9⟩ := getIn_exact h9
  have s7 : (BitVec.ofNat 16 a7).toNat = a7 := by rw [BitVec.toNat_ofNat]; omega
  have s9 : (BitVec.ofNat 16 a9).toNat = a9 := by rw [BitVec.toNat_ofNat]; omega
  rw [getBit_exact _ _ _ h1, getBit_exact _ _ _ h2, getBV_exact _ _ _ _ _ h3, getBV_exact _ _ _ _ _ h4,
    getBV_exact _ _ _ _ _ h5, getBV_exact _ _ _ _ _ h6, e7, getBV_exact _ _ _ _ _ h8, e9,
    getBV_exact _ _ _ _ _ h10, getBit_exact _ _ _ h11, getBV_exact _ _ _ _ _ h12, (getIn_exact h13).1,
    getBit_exact _ _ _ h14, getBit_exact _ _ _ h15]
  simp only [putDmc, putBV_eq_putNat 2 (BitVec.ofNat 16 _), s7, s9, List.append_assoc]

theorem getVolume_exact : Exact getVolume (putBV 8) := by
  intro bs x rest h
  unfold getVolume at h
  obtain ⟨v, m1, h1, h⟩ := get_bind_eq.1 h
  obtain ⟨_, m2, h2, hk⟩ := get_bind_eq.1 h
  obtain ⟨-, rfl⟩ := get_check_eq.1 h2
  cases hk
  exact getBV_exact _ _ _ _ _ h1

theorem getMixer_exact : Exact getMixer putMixer := by
  intro bs x rest h
  unfold getMixer at h
  obtain ⟨a1, m1, h1, h⟩ := get_bind_eq.1 h
  obtain ⟨_, m2, h2, hk⟩ := get_bind_eq.1 h
  obtain ⟨-, rfl⟩ := get_check_eq.1 h2
  obtain ⟨a3, m3, h3, h⟩ := get_bind_eq.1 hk
  obtain ⟨a4, m4, h4, h⟩ := get_bind_eq.1 h
  obtain ⟨a5, m5, h5, h⟩ := get_bind_eq.1 h
  obtain ⟨a6, m6, h6, h⟩ := get_bind_eq.1 h
  obtain ⟨a7, m7, h7, h⟩ := get_bind_eq.1 h
  obtain ⟨a8, m8, h8, h⟩ := get_bind_eq.1 h
  obtain ⟨a9, m9, h9, h⟩ := get_bind_eq.1 h
  obtain ⟨a10, m10, h10, h⟩ := get_bind_eq.1 h
  cases h
  rw [getBV_exact _ _ _ _ _ h1, getVolume_exact _ _ _ h3, getVolume_exact _ _ _ h4,
    getVolume_exact _ _ _ h5, getVolume_exact _ _ _ h6, getVolume_exact _ _ _ h7,
    getVolume_exact _ _ _ h8, getBit_exact _ _ _ h9, getBit_exact _ _ _ h10]
  simp only [putMixer, List.append_assoc]

theorem getApu_exact : Exact getApu putApu := by
  intro bs x rest h
  unfold getApu at h
  obtain ⟨a1, m1, h1, h⟩ := get_bind_eq.1 h
  obtain ⟨a2, m2, h2, h⟩ := get_bind_eq.1 h
  obtain ⟨a3, m3, h3, h⟩ := get_bind_eq.1 h
  obtain ⟨a4, m4, h4, h⟩ := get_bind_eq.1 h
  obtain ⟨a5, m5, h5, h⟩ := get_bind_eq.1 h
  obtain ⟨a6, m6, h6, h⟩ := get_bind_eq.1 h
  obtain ⟨a7, m7, h7, h⟩ := get_bind_eq.1 h
  obtain ⟨a8, m8, h8, h⟩ := get_bind_eq.1 h
  obtain ⟨a9, m9, h9, h⟩ := get_bind_eq.1 h
  obtain ⟨a10, m10, h10, h⟩ := get_bind_eq.1 h
  obtain ⟨a11, m11, h11, h⟩ := get_bind_eq.1 h
  obtain ⟨a12, m12, h12, h⟩ := get_bind_eq.1 h
  cases h
  obtain ⟨e8, -, b8⟩ := getIn_exact h8
  have s8 : (BitVec.ofNat 16 a8).toNat = a8 := by rw [BitVec.toNat_ofNat]; omega
  rw [getPulse_exact _ _ _ h1, getPulse_exact _ _ _ h2, getTriangle_exact _ _ _ h3,
    getNoise_exact _ _ _ h4, getDmc_exact _ _ _ h5, getBit_exact _ _ _ h6, getBit_exact _ _ _ h7, e8,
    getBit_exact _ _ _ h9, getBit_exact _ _ _ h10, getBit_exact _ _ _ h11, getMixer_exact _ _ _ h12]
  simp only [putApu, putBV_eq_putNat 2 (BitVec.ofNat 16 _), s8, List.append_assoc]

theorem getSerial_exact : Exact getSerial putSerial := by
  intro bs x rest h
  unfold getSerial at h
  obtain ⟨a1, m1, h1, h⟩ := get_bind_eq.1 h
  obtain ⟨a2, m2, h2, h⟩ := get_bind_eq.1 h
  obtain ⟨a3, m3, h3, h⟩ := get_bind_eq.1 h
  obtain ⟨a4, m4, h4, h⟩ := get_bind_eq.1 h
  obtain ⟨a5, m5, h5, h⟩ := get_bind_eq.1 h
  obtain ⟨a6, m6, h6, h⟩ := get_bind_eq.1 h
  cases h
  rw [getBV_exact _ _ _ _ _ h1, (getIn_exact h2).1, getBV_exact _ _ _ _ _ h3, getBV_exact _ _ _ _ _ h4,
    getBV_exact _ _ _ _ _ h5, getBV_exact _ _ _ _ _ h6]
  simp only [putSerial, List.append_assoc]

/-! ### The blob -/

theorem putNat_le (n v : Nat) : natOfBytes (putNat n v) ≤ v := by
  induction n generalizing v with
  | zero => simp [putNat, natOfBytes]
  | succ n ih =>
    have := ih (v / 256)
    have h := Nat.mod_add_div v 256
    simp only [putNat, natOfBytes, BitVec.toNat_ofNat, Nat.reducePow]
    omega

/-- Cutting one well-formed region off a blob. -/
theorem splitRegions_cons {s : State} {r : Region} {rs : List Region} {body rest : List Byte}
    (hlen : body.length < 256 ^ 4) (hok : lengthOk s r body = true) :
    splitRegions s (r :: rs) (regionTag r ++ putNat 4 body.length ++ body ++ rest) =
      match splitRegions s rs rest with
      | .ok out => .ok (body :: out.1, out.2)
      | .error e => .error e := by
  have ht : (regionTag r).length = 4 := by cases r <;> rfl
  have h8 : (regionTag r ++ putNat 4 body.length).length = 8 := by simp [ht]
  conv_lhs => unfold splitRegions
  have e1 : (regionTag r ++ putNat 4 body.length ++ body ++ rest).take 4 = regionTag r := by
    rw [List.append_assoc, List.append_assoc, List.take_left' ht]
  have e2 : ((regionTag r ++ putNat 4 body.length ++ body ++ rest).drop 4).take 4 =
      putNat 4 body.length := by
    rw [List.append_assoc, List.append_assoc, List.drop_left' ht, List.take_left' (putNat_length _ _)]
  have e3 : (regionTag r ++ putNat 4 body.length ++ body ++ rest).drop 8 = body ++ rest := by
    rw [List.append_assoc, ← h8, List.drop_left]
  have e4 : ¬(regionTag r ++ putNat 4 body.length ++ body ++ rest).length < 8 := by
    simp only [List.length_append, ht, putNat_length]; omega
  rw [if_neg e4, if_neg (by rw [e1]; simp), e2, natOfBytes_putNat 4 _ hlen]
  simp only [e3]
  rw [if_neg (by simp), List.take_left, List.drop_left, hok]
  simp <;> rfl

/-- What the cutter accepts is the regions it gives, each under its tag and length. -/
theorem splitRegions_exact {s : State} {rs : List Region} {bs rest : List Byte} {out : List (List Byte)}
    (h : splitRegions s rs bs = .ok (out, rest)) :
    bs = (List.zipWith (fun r body => regionTag r ++ putNat 4 body.length ++ body) rs out).flatten ++ rest ∧
      List.Forall₂ (fun r body => lengthOk s r body = true) rs out := by
  induction rs generalizing bs out with
  | nil => cases h; exact ⟨rfl, .nil⟩
  | cons r rs ih =>
    unfold splitRegions at h
    split_ifs at h with h1 h2
    simp only at h
    split_ifs at h with h3 h4
    split at h
    · rename_i o ho
      cases h
      obtain ⟨e, hf⟩ := ih (out := o.1) ho
      set len := natOfBytes ((bs.drop 4).take 4) with hl
      have hlen : ((bs.drop 8).take len).length = len := by
        rw [List.length_take]; omega
      have hp : putNat 4 len = (bs.drop 4).take 4 := by
        have h4 : ((bs.drop 4).take 4).length = 4 := by
          rw [List.length_take, List.length_drop]; omega
        have := putNat_natOfBytes ((bs.drop 4).take 4)
        rwa [h4] at this
      refine ⟨?_, .cons (by simpa using h4) hf⟩
      simp only [List.zipWith_cons_cons, List.flatten_cons]
      rw [List.append_assoc _ _ o.2, ← e, hlen, hp, ← (not_not.1 h2)]
      rw [List.append_assoc, List.append_assoc, List.take_append_drop]
      have e8 : bs.drop 8 = (bs.drop 4).drop 4 := by rw [List.drop_drop]
      rw [e8, List.take_append_drop, List.take_append_drop]
    · cases h

/-! ### MAP0 -/

/-- The end of the MAP0 reader: the serial registers into the cartridge with its new memories. -/
def cartTail (c : Cartridge) (pr ch : Memory) : Get (Option Cartridge) := do
  let r ← getSerial
  match c.mapper with
  | .fixedBank =>
    check (r == mapperRegs .fixedBank)
    return some { c with prgRam := pr, chr := ch }
  | .serialShift _ => return some { c with prgRam := pr, chr := ch, mapper := .serialShift r }

/-- The MAP0 reader, its optional memories taken apart. -/
theorem getCart_some (params : Params) (c : Cartridge) (bs : List Byte) :
    getCart params (some c) bs =
      (getBytes 5 >>= fun _ =>
        if params.prgRamPresent then
          if chrIsRam c then getMem 8192 0xFF >>= fun pr => getMem 8192 0xFF >>= fun ch => cartTail c pr ch
          else getMem 8192 0xFF >>= fun pr => cartTail c pr c.chr
        else
          if chrIsRam c then getMem 8192 0xFF >>= fun ch => cartTail c c.prgRam ch
          else cartTail c c.prgRam c.chr) bs := by
  unfold getCart
  simp only
  rw [get_bind, get_bind]
  congr 1
  funext r
  cases params.prgRamPresent <;> cases chrIsRam c <;> rfl

/-- Two cartridges that the identifying bytes of MAP0 do not tell apart. -/
theorem cartTail_exact {params : Params} {c : Cartridge} {pr ch : Memory} {bs rest : List Byte}
    {out : Option Cartridge} (h : cartTail c pr ch bs = some (out, rest)) :
    ∃ d, out = some d ∧ d.prgRam = pr ∧ d.chr = ch ∧ putCartId params d = putCartId params c ∧
      chrIsRam d = chrIsRam c ∧ bs = putSerial (mapperRegs d.mapper) ++ rest := by
  obtain ⟨sr, m4, g4, k4⟩ := get_bind_eq.1 h
  have e4 := getSerial_exact _ _ _ g4
  cases hmap : c.mapper with
  | fixedBank =>
    simp only [hmap] at k4
    obtain ⟨_, m5, g5, k5⟩ := get_bind_eq.1 k4
    obtain ⟨q1, q2⟩ := get_check_eq.1 g5
    subst q2
    cases k5
    have q : sr = mapperRegs .fixedBank := by simpa using q1
    exact ⟨_, rfl, rfl, rfl, by simp [putCartId, hmap, mapperId, cartFlags], rfl, by rw [e4, q]⟩
  | serialShift r0 =>
    simp only [hmap] at k4
    cases k4
    exact ⟨_, rfl, rfl, rfl, by simp [putCartId, hmap, mapperId, cartFlags], rfl, e4⟩

/-- What the MAP0 reader accepts, on a body that names the cartridge, is what the writer puts. -/
theorem getCart_exact {params : Params} {cart out : Option Cartridge} {bs : List Byte}
    (hid : ∀ c, cart = some c → bs.take 5 = putCartId params c)
    (h : getCart params cart bs = some (out, [])) : bs = putCart params out := by
  cases cart with
  | none => cases h; rfl
  | some c =>
    have h5 := hid c rfl
    rw [getCart_some] at h
    obtain ⟨hd, m1, g1, k1⟩ := get_bind_eq.1 h
    obtain ⟨e1, l1⟩ := getBytes_exact g1
    have hhd : hd = putCartId params c := by rw [← h5, e1, List.take_left' l1]
    have fin : ∀ (pr ch : Memory) (m3 : List Byte), cartTail c pr ch m3 = some (out, []) →
        m1 = (if params.prgRamPresent then memBytes pr 8192 else []) ++
          ((if chrIsRam c then memBytes ch 8192 else []) ++ m3) → bs = putCart params out := by
      intro pr ch m3 h3 hm
      obtain ⟨d, rfl, q2, q3, q4, q5, q6⟩ := cartTail_exact (params := params) h3
      rw [e1, hm, hhd, q6]
      simp only [putCart, putCartMem, q2, q3, q4, q5, List.append_assoc, List.append_nil]
    clear h g1
    by_cases hq : params.prgRamPresent = true
    · rw [if_pos hq] at k1
      by_cases hr : chrIsRam c = true
      · rw [if_pos hr] at k1
        obtain ⟨pr, m2, g2, k2⟩ := get_bind_eq.1 k1
        obtain ⟨ch, m3, g3, k3⟩ := get_bind_eq.1 k2
        exact fin pr ch m3 k3 (by rw [if_pos hq, if_pos hr, getMem_exact g2, getMem_exact g3])
      · rw [if_neg hr] at k1
        obtain ⟨pr, m2, g2, k2⟩ := get_bind_eq.1 k1
        exact fin pr c.chr m2 k2 (by rw [if_pos hq, if_neg hr, getMem_exact g2, List.nil_append])
    · rw [if_neg hq] at k1
      by_cases hr : chrIsRam c = true
      · rw [if_pos hr] at k1
        obtain ⟨ch, m3, g3, k3⟩ := get_bind_eq.1 k1
        exact fin c.prgRam ch m3 k3 (by rw [if_neg hq, if_pos hr, getMem_exact g3, List.nil_append])
      · rw [if_neg hr] at k1
        exact fin c.prgRam c.chr m1 k1 (by rw [if_neg hq, if_neg hr, List.nil_append, List.nil_append])

/-- `d` is `c` but for its registers, its PRG-RAM and its CHR-RAM. -/
def SameRom (params : Params) (c d : Cartridge) : Prop :=
  d.nprg = c.nprg ∧ d.nchr = c.nchr ∧ d.prgRom = c.prgRom ∧ d.hdrMirror = c.hdrMirror ∧
    d.fourScreen = c.fourScreen ∧ d.battery = c.battery ∧ mapperId d.mapper = mapperId c.mapper ∧
    (chrIsRam c = true ∨ d.chr = c.chr) ∧ (params.prgRamPresent = true ∨ d.prgRam = c.prgRam)

theorem SameRom.cartId {params : Params} {c d : Cartridge} (h : SameRom params c d) :
    putCartId params d = putCartId params c := by
  obtain ⟨q1, q2, -, q4, q5, q6, q7, -, -⟩ := h
  simp only [putCartId, q7, q1, q2, cartFlags, q4, q5, q6]

theorem cartTail_put {params : Params} {c d : Cartridge} (h : SameRom params c d)
    (hc : (mapperRegs c.mapper).count ≤ 4) :
    Reads (cartTail d c.prgRam c.chr) (putSerial (mapperRegs c.mapper)) (some c) := by
  obtain ⟨q1, q2, q3, q4, q5, q6, q7, -, -⟩ := h
  unfold cartTail
  rw [← List.append_nil (putSerial _)]
  refine (getSerial_putSerial hc).bind ?_
  obtain ⟨cm, c2, c3, c4, c5, c6, c7, c8, c9⟩ := c
  obtain ⟨dm, d2, d3, d4, d5, d6, d7, d8, d9⟩ := d
  simp only at q1 q2 q3 q4 q5 q6 q7
  subst q1 q2 q3 q4 q5 q6
  cases cm <;> cases dm <;> simp [mapperId] at q7
  · exact Reads.check (by simp) (.pure _)
  · exact .pure _

/-- The MAP0 of a cartridge is read back by a machine that holds the same ROM. -/
theorem getCart_putCart {params : Params} {c d : Cartridge} (h : SameRom params c d)
    (hc : c.Inv params) : Reads (getCart params (some d)) (putCart params (some c)) (some c) := by
  intro rest
  rw [getCart_some]
  have hcr : chrIsRam d = chrIsRam c := by simp [chrIsRam, h.2.1]
  have tail := cartTail_put h hc.count_le
  have hch : chrIsRam c = true → Reads (getMem 8192 0xFF) (memBytes c.chr 8192) c.chr := fun hr => by
    have hw := hc.chr_within
    have h0 : c.nchr = 0 := by simpa [chrIsRam] using hr
    rw [chrSize, if_pos h0] at hw
    exact getMem_memBytes hc.chr_wf hw fun c _ => byte_le_FF c.2
  have hpr : params.prgRamPresent = true → Reads (getMem 8192 0xFF) (memBytes c.prgRam 8192) c.prgRam :=
    fun hq => by
      have hw := hc.prgRam_within
      rw [if_pos hq] at hw
      exact getMem_memBytes hc.prgRam_wf hw fun c _ => byte_le_FF c.2
  have hd1 : ¬chrIsRam c = true → d.chr = c.chr := fun hr => h.2.2.2.2.2.2.2.1.resolve_left hr
  have hd2 : ¬params.prgRamPresent = true → d.prgRam = c.prgRam := fun hq => h.2.2.2.2.2.2.2.2.resolve_left hq
  simp only [putCart, putCartMem, List.append_assoc]
  rw [hcr]
  have main : Reads
      (if params.prgRamPresent then
          if chrIsRam c then getMem 8192 0xFF >>= fun pr => getMem 8192 0xFF >>= fun ch => cartTail d pr ch
          else getMem 8192 0xFF >>= fun pr => cartTail d pr d.chr
        else
          if chrIsRam c then getMem 8192 0xFF >>= fun ch => cartTail d d.prgRam ch
          else cartTail d d.prgRam d.chr)
      ((if params.prgRamPresent then memBytes c.prgRam 8192 else []) ++
        ((if chrIsRam c then memBytes c.chr 8192 else []) ++ putSerial (mapperRegs c.mapper)))
      (some c) := by
    by_cases hq : params.prgRamPresent = true <;> by_cases hr : chrIsRam c = true
    · rw [if_pos hq, if_pos hr, if_pos hq, if_pos hr]
      exact (hpr hq).bind ((hch hr).bind tail)
    · rw [if_pos hq, if_neg hr, if_pos hq, if_neg hr, List.nil_append, hd1 hr]
      exact (hpr hq).bind tail
    · rw [if_neg hq, if_pos hr, if_neg hq, if_pos hr, List.nil_append, hd2 hq]
      exact (hch hr).bind tail
    · rw [if_neg hq, if_neg hr, if_neg hq, if_neg hr, List.nil_append, List.nil_append, hd1 hr, hd2 hq]
      exact tail
  have := (getBytes_append (putCartId_length params c)).bind (f := fun _ => _) main rest
  simpa only [List.append_assoc] using this

/-! ### Sizes (R1202-R1207) -/

theorem putSprites_length {l : List SpriteEntry} (h : l.length ≤ 8) : (putSprites l).length = 57 := by
  have hl : ∀ l : List SpriteEntry, ((l.map putSprite).flatten).length = 7 * l.length := by
    intro l
    induction l with
    | nil => rfl
    | cons e l ih =>
      simp only [List.map_cons, List.flatten_cons, List.length_append, List.length_cons, ih]
      simp only [putSprite, putBV, List.length_append, putNat_length]
      omega
  simp only [putSprites, List.length_append, putNat_length, hl, List.length_replicate]
  omega

@[simp] theorem putBV_length {w : Nat} (n : Nat) (v : BitVec w) : (putBV n v).length = n := putNat_length _ _

@[simp] theorem putBit_length (b : Bool) : (putBit b).length = 1 := rfl

theorem putCpu_length (c : Cpu) : (putCpu c).length = 17 := by simp [putCpu]

theorem putBus_length (b : Bus) : (putBus b).length = 2058 := by simp [putBus]

theorem putSched_length (s : Sched) : (putSched s).length = 9 := by simp [putSched]

theorem putPulse_length (c : Pulse) : (putPulse c).length = 20 := by
  simp only [putPulse, List.length_append, putBV_length, putBit_length]

theorem putTriangle_length (c : Triangle) : (putTriangle c).length = 11 := by
  simp only [putTriangle, List.length_append, putBV_length, putBit_length]

theorem putNoise_length (c : Noise) : (putNoise c).length = 14 := by
  simp only [putNoise, List.length_append, putBV_length, putBit_length]

theorem putDmc_length (d : Dmc) : (putDmc d).length = 20 := by
  simp only [putDmc, List.length_append, putBV_length, putBit_length, putNat_length]

theorem putMixer_length (m : Mixer) : (putMixer m).length = 58 := by
  simp only [putMixer, List.length_append, putBV_length, putBit_length]

theorem putApu_length (u : Apu) : (putApu u).length = 150 := by
  simp only [putApu, List.length_append, putPulse_length, putTriangle_length, putNoise_length,
    putDmc_length, putMixer_length, putBV_length, putBit_length]

theorem putPpu_length {p : Ppu} (h : p.Inv) : (putPpu p).length = 430 + ntSize p := by
  unfold putPpu
  generalize ntSize p = size
  rw [List.length_append, List.length_append (bs := putSprites p.sprNext), putSprites_length h.next_le,
    putSprites_length h.cur_le]
  simp only [List.length_append, putBV_length, putBit_length, putNat_length, memBytes_length]
  omega

/-- The field N of PPU0 (R1204) is at its offset 270. -/
theorem putPpu_size (p : Ppu) : natOfBytes (((putPpu p).drop 270).take 2) = ntSize p := by
  have hs : ntSize p < 256 ^ 2 := by unfold ntSize; split_ifs <;> decide
  obtain ⟨pre, post, hp, hl⟩ : ∃ pre post, putPpu p = pre ++ (putNat 2 (ntSize p) ++ post) ∧ pre.length = 270 := by
    refine ⟨putBV 1 p.ctrl ++ putBV 1 p.mask ++ putBit p.vblank ++ putBit p.s0hit ++ putBit p.ovf ++
      putBV 1 p.oamaddr ++ memBytes p.oam 256 ++ putBV 2 p.v ++ putBV 2 p.t ++ putBV 1 p.x ++
      putBit p.w ++ putBV 1 p.readBuffer ++ putBV 1 p.ioLatch,
      memBytes p.ntRam (ntSize p) ++ (memBytes p.palette 32 ++ (putNat 2 p.scanline ++ (putNat 2 p.cycle ++
        (putBV 4 p.frame ++ (putBit p.nmiEdge ++ (putBV 2 p.lineV ++ (putBV 1 p.lineX ++
        (putSprites p.sprNext ++ putSprites p.sprCur)))))))), ?_, ?_⟩
    · unfold putPpu
      generalize ntSize p = size
      simp only [List.append_assoc]
    · simp only [List.length_append, putBV_length, putBit_length, memBytes_length]
  rw [hp, List.drop_left' hl, List.take_left' (putNat_length _ _), natOfBytes_putNat _ _ hs]

theorem putCart_length (params : Params) (c : Cartridge) :
    (putCart params (some c)).length =
      11 + (if params.prgRamPresent then 8192 else 0) + (if chrIsRam c then 8192 else 0) := by
  simp only [putCart, List.length_append, putCartId_length, putCartMem, putSerial, putBV_length,
    putNat_length]
  split_ifs <;> simp only [memBytes_length, List.length_nil]

end Sys2Proof.Machine
end

