-- ==== Sys2Proof/Laws/Mixer.lean ====
section
/-! SUPPORT. The reals of the mixer stay finite (`63_apu` R1054): bounds of the rounding, of the
tables, of a mixed value and of the filter. -/

namespace Sys2Proof.Machine

/-- Rounding does not pass an integer bound. -/
theorem roundHalfEven_le {num den k : Nat} (h : num ≤ den * k) (hd : 0 < den) :
    roundHalfEven num den ≤ k := by
  have hq : num / den ≤ k := (Nat.div_le_iff_le_mul_add_pred hd).2 (by omega)
  have hm := Nat.div_add_mod num den
  unfold roundHalfEven
  simp only
  by_cases he : num / den = k
  · have hr : num % den = 0 := by rw [he] at hm; omega
    rw [if_neg (by rw [hr]; omega)]; omega
  · split <;> omega

/-- Rounding does not pass an integer bound even from a little less than half above it. -/
theorem roundHalfEven_le' {num den k : Nat} (h : 2 * num < den * (2 * k + 1)) (hd : 0 < den) :
    roundHalfEven num den ≤ k := by
  have hm := Nat.div_add_mod num den
  have hq : num / den ≤ k := by
    have : num < den * (k + 1) := by nlinarith
    exact Nat.lt_succ_iff.1 ((Nat.div_lt_iff_lt_mul hd).2 (by rw [Nat.mul_comm]; exact this))
  unfold roundHalfEven
  simp only
  by_cases he : num / den = k
  · have hr : 2 * (num % den) < den := by rw [he] at hm; nlinarith
    rw [if_neg (by omega)]; omega
  · split <;> omega

/-- The integer part is below the binade that its exponent names. -/
theorem lt_pow_log {q : Nat} : q < 2 ^ (q.log2 - 52 + 53) :=
  lt_of_lt_of_le Nat.lt_log2_self (Nat.pow_le_pow_right (by decide) (by omega))

/-- The first magnitude that does not round to a finite value, doubled, in smallest steps. -/
def overflowBound : Nat := (2 ^ 54 - 1) * 2 ^ 2045

theorem pow_lt_overflowBound : 2 * 2 ^ 2097 < overflowBound := by
  have h : (2 : Nat) ^ 2097 = 2 ^ 52 * 2 ^ 2045 := pow_add 2 52 2045
  have hp : 0 < (2 : Nat) ^ 2045 := Nat.two_pow_pos _
  unfold overflowBound
  rw [h]
  generalize (2 : Nat) ^ 2045 = B at *
  omega

theorem overflowBound_le : overflowBound ≤ 2 * 2 ^ 2098 := by
  have h : (2 : Nat) ^ 2098 = 2 ^ 53 * 2 ^ 2045 := pow_add 2 53 2045
  unfold overflowBound
  rw [h]
  generalize (2 : Nat) ^ 2045 = B at *
  omega

theorem overflowBound_pos : 0 < overflowBound := lt_of_le_of_lt (Nat.zero_le _) pow_lt_overflowBound

theorem roundHalfEven_le_pow (num : Nat) {den : Nat} (hd : 0 < den) :
    roundHalfEven num (den * 2 ^ ((num / den).log2 - 52)) ≤ 2 ^ 53 := by
  apply roundHalfEven_le _ (by positivity)
  have h := @lt_pow_log (num / den)
  rw [Nat.div_lt_iff_lt_mul hd, pow_add] at h
  nlinarith

/-- The largest magnitude of the format, in smallest steps. -/
def maxMag : Nat := (2 ^ 53 - 1) * 2 ^ 2045

theorem maxMag_lt : 2 * maxMag + 4 * 2 ^ 1077 < overflowBound := by
  have h : (2 : Nat) ^ 2045 = 2 ^ 1077 * 2 ^ 968 := pow_add 2 1077 968
  have h4 : 8 * 2 ^ 1077 ≤ 2 ^ 968 * (2 : Nat) ^ 1077 :=
    Nat.mul_le_mul_right _ (le_trans (by decide) (Nat.pow_le_pow_right (by decide) (by decide : 3 ≤ 968)))
  have hp : 0 < (2 : Nat) ^ 1077 := Nat.two_pow_pos _
  rw [Nat.mul_comm] at h4
  rw [Nat.mul_comm (2 ^ 968), ← h] at h4
  unfold overflowBound maxMag
  generalize (2 : Nat) ^ 2045 = B at *
  generalize (2 : Nat) ^ 1077 = C at *
  omega

/-- The exponent part and significand that a rounding makes, when no overflow occurs. -/
theorem f64Round_bits {num den : Nat} (hd : 0 < den) (h : 2 * num < den * overflowBound) :
    ((num / den).log2 - 52) * 2 ^ 52 + roundHalfEven num (den * 2 ^ ((num / den).log2 - 52)) <
      2047 * 2 ^ 52 := by
  have hq : num / den < 2 ^ 2098 := by
    rw [Nat.div_lt_iff_lt_mul hd]
    have := overflowBound_le
    generalize overflowBound = B at *
    generalize (2 : Nat) ^ 2098 = C at *
    nlinarith
  have he : (num / den).log2 - 52 ≤ 2045 := by
    by_cases hz : num / den = 0
    · simp [hz]
    · have := (Nat.log2_lt hz).2 hq
      omega
  have hm := roundHalfEven_le_pow num hd
  by_cases h5 : (num / den).log2 - 52 = 2045
  · rw [h5]
    have : roundHalfEven num (den * 2 ^ 2045) ≤ 2 ^ 53 - 1 := by
      apply roundHalfEven_le' _ (by positivity)
      calc 2 * num < den * overflowBound := h
        _ = den * 2 ^ 2045 * (2 * (2 ^ 53 - 1) + 1) := by
          rw [overflowBound, show 2 * (2 ^ 53 - 1) + 1 = 2 ^ 54 - 1 from rfl, Nat.mul_comm (2 ^ 54 - 1), ← Nat.mul_assoc]
    omega
  · omega

/-- The fields of a pattern put together from a sign and the other 63 bits. -/
theorem f64_fields (neg : Bool) {n : Nat} (h : n < 2 ^ 63) :
    f64Neg (BitVec.ofNat 64 (n + if neg then 2 ^ 63 else 0)) = neg ∧
      f64Exp (BitVec.ofNat 64 (n + if neg then 2 ^ 63 else 0)) = n / 2 ^ 52 ∧
      f64Frac (BitVec.ofNat 64 (n + if neg then 2 ^ 63 else 0)) = n % 2 ^ 52 := by
  have hn : (if neg then 2 ^ 63 else 0 : Nat) = 2 ^ 63 * neg.toNat := by cases neg <;> rfl
  have hb : neg.toNat ≤ 1 := Bool.toNat_le neg
  rw [hn]
  refine ⟨?_, ?_, ?_⟩
  · unfold f64Neg
    rw [BitVec.getLsbD_ofNat, Nat.testBit_eq_decide_div_mod_eq]
    have : (n + 2 ^ 63 * neg.toNat) / 2 ^ 63 % 2 = neg.toNat := by omega
    rw [this]; cases neg <;> rfl
  · simp only [f64Exp, BitVec.toNat_setWidth, BitVec.toNat_ushiftRight, BitVec.toNat_ofNat,
      Nat.shiftRight_eq_div_pow]
    omega
  · simp only [f64Frac, BitVec.toNat_setWidth, BitVec.toNat_ofNat]
    omega

/-- The significand has its top bit unless the exponent part is 0. -/
theorem le_roundHalfEven {num den : Nat} (hd : 0 < den) (he : (num / den).log2 - 52 ≠ 0) :
    2 ^ 52 ≤ roundHalfEven num (den * 2 ^ ((num / den).log2 - 52)) := by
  have hz : num / den ≠ 0 := fun h => he (by rw [h]; rfl)
  have hl := Nat.log2_self_le hz
  have h1 : 2 ^ 52 ≤ num / (den * 2 ^ ((num / den).log2 - 52)) := by
    rw [← Nat.div_div_eq_div_mul, Nat.le_div_iff_mul_le (by positivity), ← pow_add]
    exact le_trans (Nat.pow_le_pow_right (by decide) (by omega)) hl
  unfold roundHalfEven
  simp only
  split <;> omega

/-- What a rounding gives when it does not overflow. -/
theorem f64Round_spec (neg : Bool) {num den : Nat} (hd : 0 < den)
    (h : 2 * num < den * overflowBound) :
    f64Finite (f64Round neg num den) = true ∧ f64Neg (f64Round neg num den) = neg ∧
      f64Mag (f64Round neg num den) =
        roundHalfEven num (den * 2 ^ ((num / den).log2 - 52)) * 2 ^ ((num / den).log2 - 52) := by
  have hb := f64Round_bits hd h
  have hm := roundHalfEven_le_pow num hd
  have hl := @le_roundHalfEven num den hd
  unfold f64Round
  simp only
  rw [Nat.min_eq_left (le_of_lt hb)]
  obtain ⟨h1, h2, h3⟩ := f64_fields neg (lt_trans hb (by decide))
  generalize (num / den).log2 - 52 = e at *
  generalize roundHalfEven num (den * 2 ^ e) = m at *
  refine ⟨?_, h1, ?_⟩
  · unfold f64Finite
    rw [h2]
    have : (e * 2 ^ 52 + m) / 2 ^ 52 ≠ 2047 := by omega
    simpa using this
  · unfold f64Mag
    rw [h2, h3]
    by_cases h53 : m = 2 ^ 53
    · have a1 : (e * 2 ^ 52 + m) / 2 ^ 52 = e + 2 := by omega
      have a2 : (e * 2 ^ 52 + m) % 2 ^ 52 = 0 := by omega
      rw [a1, a2, if_neg (by omega), h53]
      rw [show e + 2 - 1 = e + 1 by omega, pow_succ 2 e]; ring
    · by_cases h52 : 2 ^ 52 ≤ m
      · have a1 : (e * 2 ^ 52 + m) / 2 ^ 52 = e + 1 := by omega
        have a2 : 2 ^ 52 + (e * 2 ^ 52 + m) % 2 ^ 52 = m := by omega
        rw [a1, a2, if_neg (by omega), Nat.add_sub_cancel]
      · have e0 : e = 0 := by
          by_contra hne
          exact h52 (hl hne)
        subst e0
        have a1 : (0 * 2 ^ 52 + m) / 2 ^ 52 = 0 := by omega
        rw [a1, if_pos rfl]
        omega

/-- Rounding does not pass a power of two. -/
theorem f64Round_mag_le (neg : Bool) {num den K : Nat} (hd : 0 < den) (hK : K ≤ 2097)
    (h : num ≤ den * 2 ^ K) :
    f64Finite (f64Round neg num den) = true ∧ f64Neg (f64Round neg num den) = neg ∧
      f64Mag (f64Round neg num den) ≤ 2 ^ K := by
  have hfin : 2 * num < den * overflowBound := by
    have h1 : 2 * 2 ^ K ≤ 2 * 2 ^ 2097 := Nat.mul_le_mul_left _ (Nat.pow_le_pow_right (by decide) hK)
    have h2 := pow_lt_overflowBound
    nlinarith
  obtain ⟨h1, h2, h3⟩ := f64Round_spec neg hd hfin
  refine ⟨h1, h2, ?_⟩
  rw [h3]
  have he : (num / den).log2 - 52 ≤ K := by
    by_cases hz : num / den = 0
    · simp [hz]
    · have hq : num / den ≤ 2 ^ K := Nat.div_le_of_le_mul h
      have hlt : num / den < 2 ^ (K + 1) := lt_of_le_of_lt hq (Nat.pow_lt_pow_right (by decide) (by omega))
      have := (Nat.log2_lt hz).2 hlt
      omega
  generalize (num / den).log2 - 52 = e at *
  have hm : roundHalfEven num (den * 2 ^ e) ≤ 2 ^ (K - e) := by
    apply roundHalfEven_le _ (by positivity)
    rw [Nat.mul_assoc, ← pow_add, Nat.add_sub_cancel' he]
    exact h
  calc _ ≤ 2 ^ (K - e) * 2 ^ e := Nat.mul_le_mul_right _ hm
    _ = 2 ^ K := by rw [← pow_add, Nat.sub_add_cancel he]

/-- A finite magnitude is at most the largest. -/
theorem f64Mag_le {b : Binary64} (h : f64Finite b = true) : f64Mag b ≤ maxMag := by
  have h1 : f64Exp b ≠ 2047 := by simpa [f64Finite] using h
  have h2 : f64Exp b < 2048 := by unfold f64Exp; exact BitVec.isLt _
  have h3 : f64Frac b < 2 ^ 52 := by unfold f64Frac; exact BitVec.isLt _
  unfold f64Mag maxMag
  split
  · calc f64Frac b ≤ (2 ^ 53 - 1) * 1 := by omega
      _ ≤ _ := Nat.mul_le_mul_left _ Nat.one_le_two_pow
  · exact Nat.mul_le_mul (by omega) (Nat.pow_le_pow_right (by decide) (by omega))

/-- The integer of a finite value that is not negative. -/
theorem f64Int_of_not_neg {b : Binary64} (h : f64Neg b = false) : f64Int b = f64Mag b := by
  simp [f64Int, h]

theorem f64Int_of_neg {b : Binary64} (h : f64Neg b = true) : f64Int b = -(f64Mag b : Int) := by
  simp [f64Int, h]

/-- A value in [0, 1] has a magnitude of at most 1, and its integer is its magnitude. -/
theorem f64InUnit_mag {b : Binary64} (h : f64InUnit b = true) :
    f64Mag b ≤ f64One ∧ f64Int b = f64Mag b := by
  simp only [f64InUnit, Bool.and_eq_true, decide_eq_true_eq] at h
  obtain ⟨⟨-, h1⟩, h2⟩ := h
  generalize f64One = k at *
  unfold f64Int at *
  split at h1 <;> simp_all

theorem f64One_pos : 0 < f64One := Nat.two_pow_pos _

/-- The product of a value in [0, 1] and a finite value is finite, with the signs multiplied. -/
theorem f64Mul_unit {a b : Binary64} (ha : f64Mag a ≤ f64One) (hb : f64Finite b = true) :
    f64Finite (f64Mul a b) = true ∧ f64Neg (f64Mul a b) = (f64Neg a ^^ f64Neg b) := by
  unfold f64Mul
  have h1 := Nat.mul_le_mul ha (f64Mag_le hb)
  have h2 : 2 * maxMag < overflowBound := lt_of_le_of_lt (Nat.le_add_right _ _) maxMag_lt
  have h := f64Round_spec (f64Neg a ^^ f64Neg b) (num := f64Mag a * f64Mag b) f64One_pos (by
    have h3 := Nat.mul_lt_mul_of_pos_left h2 f64One_pos
    refine lt_of_le_of_lt ?_ h3
    rw [Nat.mul_left_comm f64One]
    exact Nat.mul_le_mul_left 2 h1)
  exact ⟨h.1, h.2.1⟩

/-- Its magnitude is within the power of two that the other factor is. -/
theorem f64Mul_unit_mag {a b : Binary64} {K : Nat} (ha : f64Mag a ≤ f64One) (hK : K ≤ 2097)
    (hb : f64Mag b ≤ 2 ^ K) : f64Mag (f64Mul a b) ≤ 2 ^ K :=
  (f64Round_mag_le _ f64One_pos hK (Nat.mul_le_mul ha hb)).2.2

/-- A sum within a power of two: finite, not above it, and of the sign of the exact sum. -/
theorem f64Add_le {a b : Binary64} {K : Nat} (hK : K ≤ 2097)
    (h : (f64Int a + f64Int b).natAbs ≤ 2 ^ K) :
    f64Finite (f64Add a b) = true ∧ f64Mag (f64Add a b) ≤ 2 ^ K ∧
      f64Neg (f64Add a b) =
        if f64Int a + f64Int b = 0 then f64Neg a && f64Neg b else decide (f64Int a + f64Int b < 0) := by
  have := f64Round_mag_le
    (if f64Int a + f64Int b = 0 then f64Neg a && f64Neg b else decide (f64Int a + f64Int b < 0))
    (den := 1) (by decide) hK (by simpa using h)
  exact ⟨this.1, this.2.2, this.2.1⟩

/-- The absolute value of an integer is the magnitude. -/
theorem f64Int_natAbs (b : Binary64) : (f64Int b).natAbs = f64Mag b := by
  unfold f64Int
  split <;> simp

/-- The magnitude of a value, by its exponent field. -/
theorem f64Mag_le_pow {b : Binary64} {K : Nat} (h : f64Exp b + 52 ≤ K) : f64Mag b ≤ 2 ^ K := by
  have h3 : f64Frac b < 2 ^ 52 := by unfold f64Frac; exact BitVec.isLt _
  unfold f64Mag
  split
  · exact le_trans (le_of_lt h3) (Nat.pow_le_pow_right (by decide) (by omega))
  · calc _ ≤ 2 ^ 53 * 2 ^ (f64Exp b - 1) := Nat.mul_le_mul_right _ (by omega)
      _ = 2 ^ (53 + (f64Exp b - 1)) := (pow_add _ _ _).symm
      _ ≤ _ := Nat.pow_le_pow_right (by decide) (by omega)

theorem pow_le_f64Mag {b : Binary64} {K : Nat} (h0 : f64Exp b ≠ 0) (h : K ≤ f64Exp b + 51) :
    2 ^ K ≤ f64Mag b := by
  unfold f64Mag
  rw [if_neg h0]
  calc 2 ^ K ≤ 2 ^ (52 + (f64Exp b - 1)) := Nat.pow_le_pow_right (by decide) (by omega)
    _ = 2 ^ 52 * 2 ^ (f64Exp b - 1) := pow_add _ _ _
    _ ≤ _ := Nat.mul_le_mul_right _ (by omega)

/-- 1.0 lies in [0, 1] and is not 0. -/
theorem f64_one : f64InUnit 0x3FF0000000000000 = true ∧ f64Mag 0x3FF0000000000000 ≠ 0 := by
  have he : f64Exp 0x3FF0000000000000 = 1023 := by decide
  have hf : f64Frac 0x3FF0000000000000 = 0 := by decide
  have hm : f64Mag 0x3FF0000000000000 = f64One := by
    unfold f64Mag f64One
    rw [he, hf, if_neg (by decide), Nat.add_zero]
    have : ∀ n k : Nat, n = 52 + k → 2 ^ 52 * 2 ^ k = 2 ^ n := by
      rintro _ k rfl
      exact (pow_add 2 52 k).symm
    exact this 1074 _ rfl
  refine ⟨?_, by rw [hm]; exact Nat.ne_of_gt (Nat.two_pow_pos _)⟩
  unfold f64InUnit
  rw [f64Int_of_not_neg (by decide), hm,
    show f64Finite 0x3FF0000000000000 = true from by decide]
  generalize f64One = k
  simp

/-- Rounding zero gives zero. -/
theorem f64Round_zero (neg : Bool) {den : Nat} (hd : 0 < den) : f64Mag (f64Round neg 0 den) = 0 := by
  have hB := overflowBound_pos
  have hs := @f64Round_spec neg 0 den hd
  generalize overflowBound = B at *
  rw [(hs (by rw [Nat.mul_zero]; exact Nat.mul_pos hd hB)).2.2]
  have hz := @roundHalfEven_le 0 (den * 2 ^ ((0 / den).log2 - 52)) 0 (Nat.zero_le _)
    (Nat.mul_pos hd (Nat.two_pow_pos _))
  rw [Nat.le_zero.1 hz, Nat.zero_mul]

/-- Products of powers of two with equal sums of exponents. -/
theorem two_pow_mul_congr {a b c d : Nat} (h : a + b = c + d) :
    (2 : Nat) ^ a * 2 ^ b = 2 ^ c * 2 ^ d := by
  rw [← pow_add, ← pow_add, h]

/-- A quotient within a power of two. -/
theorem f64Div_le {a b : Binary64} {K : Nat} (hb : 0 < f64Mag b) (hK : K ≤ 2097)
    (h : f64Mag a * f64One ≤ f64Mag b * 2 ^ K) :
    f64Neg (f64Div a b) = (f64Neg a ^^ f64Neg b) ∧ f64Mag (f64Div a b) ≤ 2 ^ K :=
  (f64Round_mag_le _ hb hK h).2

/-- Rounding an integer does not fall below a power of two. -/
theorem f64Round_le_mag (neg : Bool) {num K L : Nat} (h : 2 ^ K ≤ num) (hL : num ≤ 2 ^ L)
    (hL2 : L ≤ 2097) : 2 ^ K ≤ f64Mag (f64Round neg num 1) := by
  have hfin : 2 * num < 1 * overflowBound := by
    rw [Nat.one_mul]
    have h1 : 2 ^ L ≤ 2 ^ 2097 := Nat.pow_le_pow_right (by decide) hL2
    have h2 := pow_lt_overflowBound
    exact lt_of_le_of_lt (Nat.mul_le_mul_left 2 (le_trans hL h1)) h2
  rw [(f64Round_spec neg Nat.one_pos hfin).2.2]
  have hl := @le_roundHalfEven num 1 Nat.one_pos
  generalize (num / 1).log2 - 52 = e at *
  have hm : num / (1 * 2 ^ e) ≤ roundHalfEven num (1 * 2 ^ e) := by
    unfold roundHalfEven
    simp only
    split <;> omega
  rcases Nat.lt_or_ge K e with hKe | hKe
  · calc 2 ^ K ≤ 1 * 2 ^ e := by
          rw [Nat.one_mul]; exact Nat.pow_le_pow_right (by decide) (by omega)
      _ ≤ _ := Nat.mul_le_mul_right _ (le_trans (by decide) (hl (by omega)))
  · calc 2 ^ K = 2 ^ (K - e) * 2 ^ e := by rw [← pow_add, Nat.sub_add_cancel hKe]
      _ ≤ _ := Nat.mul_le_mul_right _ (le_trans (by
          rw [Nat.one_mul, Nat.le_div_iff_mul_le (by positivity), ← pow_add, Nat.sub_add_cancel hKe]
          exact h) hm)

/-- A table entry `c / (k / n + 100)` with `c` below 256 and `k` below 65536 lies between 0 and 4. -/
theorem tableEntry_bound {c k : Binary64} {n : Nat} (h1 : n ≠ 0) (h2 : n ≤ 255)
    (hc : f64Neg c = false) (hk : f64Neg k = false) (hc2 : f64Mag c ≤ 2 ^ 1082)
    (hk2 : f64Mag k ≤ 2 ^ 1090) :
    f64Neg (f64Div c (f64Add (f64Div k (f64OfNat n)) 0x4059000000000000)) = false ∧
      f64Mag (f64Div c (f64Add (f64Div k (f64OfNat n)) 0x4059000000000000)) ≤ 2 ^ 1076 := by
  have hone : f64One = 2 ^ 1074 := rfl
  have hn1 : f64One ≤ f64Mag (f64OfNat n) := by
    refine f64Round_le_mag (L := 1082) false ?_ ?_ (by decide)
    · exact Nat.le_mul_of_pos_left _ (by omega)
    · calc n * f64One ≤ 2 ^ 8 * 2 ^ 1074 := Nat.mul_le_mul_right _ (by omega)
        _ = 2 ^ 1082 := (pow_add 2 8 1074).symm
  have hn2 : f64Neg (f64OfNat n) = false := by
    refine (f64Round_mag_le (K := 1082) false Nat.one_pos (by decide) ?_).2.1
    calc n * f64One ≤ 2 ^ 8 * 2 ^ 1074 := Nat.mul_le_mul_right _ (by omega)
      _ = 1 * 2 ^ 1082 := by rw [Nat.one_mul]; exact (pow_add 2 8 1074).symm
  obtain ⟨q1, q2⟩ := f64Div_le (a := k) (b := f64OfNat n) (K := 1090)
    (lt_of_lt_of_le f64One_pos hn1) (by decide) (by
      rw [Nat.mul_comm]; exact Nat.mul_le_mul hn1 hk2)
  rw [hk, hn2, Bool.false_xor] at q1
  generalize f64Div k (f64OfNat n) = q at *
  have hh : f64Neg 0x4059000000000000 = false := by decide
  have hh1 : 2 ^ 1080 ≤ f64Mag 0x4059000000000000 := pow_le_f64Mag (by decide) (by decide)
  have hh2 : f64Mag 0x4059000000000000 ≤ 2 ^ 1090 := f64Mag_le_pow (by decide)
  have hint : f64Int q + f64Int 0x4059000000000000 =
      (f64Mag q + f64Mag 0x4059000000000000 : Nat) := by
    rw [f64Int_of_not_neg q1, f64Int_of_not_neg hh]; rfl
  have hsum : f64Mag q + f64Mag 0x4059000000000000 ≤ 2 ^ 1091 := by
    calc _ ≤ 2 ^ 1090 + 2 ^ 1090 := Nat.add_le_add q2 hh2
      _ = 2 ^ 1091 := by rw [pow_succ 2 1090, Nat.mul_two]
  have hd1 : 2 ^ 1080 ≤ f64Mag (f64Add q 0x4059000000000000) := by
    unfold f64Add
    simp only
    rw [hint, Int.natAbs_natCast]
    exact f64Round_le_mag _ (le_trans hh1 (Nat.le_add_left _ _)) hsum (by decide)
  have hd2 : f64Neg (f64Add q 0x4059000000000000) = false := by
    have := (f64Add_le (a := q) (b := 0x4059000000000000) (K := 1091) (by decide) (by
      rw [hint, Int.natAbs_natCast]; exact hsum)).2.2
    rw [this, hint, q1, hh]
    split
    · rfl
    · exact decide_eq_false (by
        generalize f64Mag q + f64Mag 0x4059000000000000 = z
        omega)
  have hr := f64Div_le (a := c) (b := f64Add q 0x4059000000000000) (K := 1076)
    (lt_of_lt_of_le (Nat.two_pow_pos _) hd1) (by decide) (by
      calc f64Mag c * f64One ≤ 2 ^ 1082 * f64One := Nat.mul_le_mul_right _ hc2
        _ = 2 ^ 1080 * 2 ^ 1076 := by rw [hone]; exact two_pow_mul_congr rfl
        _ ≤ _ := Nat.mul_le_mul_right _ hd1)
  exact ⟨by rw [hr.1, hc, hd2]; rfl, hr.2⟩

/-- The tables' entries lie between 0 and 4. -/
theorem pulseTable_bound {n : Nat} (h : n ≤ 255) :
    f64Neg (pulseTable n) = false ∧ f64Mag (pulseTable n) ≤ 2 ^ 1076 := by
  unfold pulseTable
  split
  · exact ⟨by decide, f64Mag_le_pow (by decide)⟩
  · exact tableEntry_bound ‹_› h (by decide) (by decide) (f64Mag_le_pow (by decide)) (f64Mag_le_pow (by decide))

theorem tndTable_bound {n : Nat} (h : n ≤ 255) :
    f64Neg (tndTable n) = false ∧ f64Mag (tndTable n) ≤ 2 ^ 1076 := by
  unfold tndTable
  split
  · exact ⟨by decide, f64Mag_le_pow (by decide)⟩
  · exact tableEntry_bound ‹_› h (by decide) (by decide) (f64Mag_le_pow (by decide)) (f64Mag_le_pow (by decide))

/-- A mixed value is not negative, and at most 8. -/
theorem mix_bound {m : Mixer} (h : f64InUnit m.master = true) (p1 p2 t n d : Nat) :
    0 ≤ f64Int (mix m p1 p2 t n d) ∧ f64Mag (mix m p1 p2 t n d) ≤ 2 ^ 1077 ∧
      f64Finite (mix m p1 p2 t n d) = true := by
  obtain ⟨a1, a2⟩ := pulseTable_bound (n := pulseIndex m p1 p2) (le_trans (Nat.min_le_left _ _) (by decide))
  obtain ⟨b1, b2⟩ := tndTable_bound (n := tndIndex m t n d) (le_trans (Nat.min_le_left _ _) (by decide))
  obtain ⟨hu, hi⟩ := f64InUnit_mag h
  unfold mix
  generalize pulseTable (pulseIndex m p1 p2) = a at *
  generalize tndTable (tndIndex m t n d) = b at *
  have hint : f64Int a + f64Int b = (f64Mag a + f64Mag b : Nat) := by
    rw [f64Int_of_not_neg a1, f64Int_of_not_neg b1]; rfl
  have hs := f64Add_le (a := a) (b := b) (K := 1077) (by decide) (by
    rw [hint, Int.natAbs_natCast, pow_succ 2 1076, Nat.mul_two]
    exact Nat.add_le_add a2 b2)
  have hneg : f64Neg (f64Add a b) = false := by
    rw [hs.2.2, hint, a1, b1]
    split
    · rfl
    · exact decide_eq_false (by omega)
  have hp := f64Mul_unit hu hs.1
  refine ⟨?_, f64Mul_unit_mag (K := 1077) hu (by decide) hs.2.1, hp.1⟩
  cases hm : f64Neg m.master
  · rw [f64Int_of_not_neg (by rw [hp.2, hm, hneg]; rfl)]
    exact Int.natCast_nonneg _
  · have h0 : f64Mag m.master = 0 := by
      rw [f64Int_of_neg hm] at hi
      generalize f64Mag m.master = k at *
      omega
    have hz : f64Mag (f64Mul m.master (f64Add a b)) = 0 := by
      unfold f64Mul
      rw [h0, Nat.zero_mul]
      exact f64Round_zero _ f64One_pos
    have ha := f64Int_natAbs (f64Mul m.master (f64Add a b))
    rw [hz] at ha
    rw [Int.natAbs_eq_zero.1 ha]

/-- The filter coefficient lies in (0, 1]. -/
theorem lpfAlpha_unit (hq : Bool) : f64InUnit (lpfAlpha hq) = true := by
  unfold lpfAlpha
  simp only
  generalize (if hq = true then Config.lpfAlphaHq else Config.lpfAlphaNormal) = a
  split
  · rename_i h; exact h.1
  · exact f64_one.1

/-- The other sign of a value. -/
theorem f64_flip (b : Binary64) :
    f64Neg (b ^^^ (1#64 <<< 63)) = !f64Neg b ∧ f64Mag (b ^^^ (1#64 <<< 63)) = f64Mag b := by
  have h1 : f64Exp (b ^^^ (1#64 <<< 63)) = f64Exp b := by
    unfold f64Exp
    rw [BitVec.ushiftRight_xor_distrib, BitVec.setWidth_xor,
      show (1#64 <<< 63 >>> 52).setWidth 11 = 0#11 by decide, BitVec.xor_zero]
  have h2 : f64Frac (b ^^^ (1#64 <<< 63)) = f64Frac b := by
    unfold f64Frac
    rw [BitVec.setWidth_xor, show (1#64 <<< 63).setWidth 52 = 0#52 by decide, BitVec.xor_zero]
  refine ⟨by simp [f64Neg], ?_⟩
  unfold f64Mag
  rw [h1, h2]

/-- The integer of the other sign of a value. -/
theorem f64Int_flip (b : Binary64) : f64Int (b ^^^ (1#64 <<< 63)) = -f64Int b := by
  unfold f64Int
  rw [(f64_flip b).1, (f64_flip b).2]
  cases f64Neg b <;> simp

/-- A sum that does not overflow. -/
theorem f64Add_finite {a b : Binary64}
    (h : 2 * (f64Int a + f64Int b).natAbs < overflowBound) :
    f64Finite (f64Add a b) = true ∧
      f64Neg (f64Add a b) =
        if f64Int a + f64Int b = 0 then f64Neg a && f64Neg b else decide (f64Int a + f64Int b < 0) := by
  have := f64Round_spec
    (if f64Int a + f64Int b = 0 then f64Neg a && f64Neg b else decide (f64Int a + f64Int b < 0))
    (num := (f64Int a + f64Int b).natAbs) (den := 1) (by decide) (by rw [Nat.one_mul]; exact h)
  exact ⟨this.1, this.2.1⟩

/-- The filter coefficient has no sign. -/
theorem lpfAlpha_neg (hq : Bool) : f64Neg (lpfAlpha hq) = false := by
  have hi := (f64InUnit_mag (lpfAlpha_unit hq)).2
  have h0 : f64Mag (lpfAlpha hq) ≠ 0 := by
    unfold lpfAlpha
    simp only
    generalize (if hq = true then Config.lpfAlphaHq else Config.lpfAlphaNormal) = a
    split
    · rename_i h; exact h.2
    · exact f64_one.2
  by_contra hn
  rw [f64Int_of_neg (by simpa using hn)] at hi
  generalize f64Mag (lpfAlpha hq) = k at *
  omega

/-- The filter's next state is finite, for an input between 0 and 8 and any finite state. -/
theorem lpfNext_finite (hq : Bool) {x y : Binary64} (hx : 0 ≤ f64Int x) (hx2 : f64Mag x ≤ 2 ^ 1077)
    (hy : f64Finite y = true) : f64Finite (lpfNext hq x y) = true := by
  have ha := (f64InUnit_mag (lpfAlpha_unit hq)).1
  have han := lpfAlpha_neg hq
  have hymag := f64Mag_le hy
  have hB := maxMag_lt
  have hx3 := f64Int_natAbs x
  have hy3 := f64Int_natAbs y
  unfold lpfNext
  apply (f64Add_finite _).1
  have hD : f64Int x + f64Int (y ^^^ (1#64 <<< 63)) = f64Int x - f64Int y := by
    rw [f64Int_flip]; rfl
  have hd := f64Add_finite (a := x) (b := y ^^^ (1#64 <<< 63)) (by
    rw [hD]
    generalize maxMag = M at *
    generalize overflowBound = B at *
    generalize (2 : Nat) ^ 1077 = k at *
    omega)
  rw [hD] at hd
  have hp := f64Mul_unit ha hd.1
  have hpm := f64Mag_le hp.1
  have hp3 := f64Int_natAbs (f64Mul (lpfAlpha hq) (f64Sub x y))
  rw [han, Bool.false_xor] at hp
  by_cases c1 : f64Int x < f64Int y
  · have hn : f64Neg (f64Mul (lpfAlpha hq) (f64Sub x y)) = true := by
      unfold f64Sub
      rw [hp.2, hd.2, if_neg (by omega)]
      exact decide_eq_true (by omega)
    have hpi := f64Int_of_neg hn
    unfold f64Sub at *
    generalize f64Mag (f64Mul (lpfAlpha hq) (f64Add x (y ^^^ 1#64 <<< 63))) = q at *
    generalize f64Int (f64Mul (lpfAlpha hq) (f64Add x (y ^^^ 1#64 <<< 63))) = r at *
    generalize maxMag = M at *
    generalize overflowBound = B at *
    generalize (2 : Nat) ^ 1077 = k at *
    omega
  · by_cases c2 : f64Int y < 0
    · have hn : f64Neg (f64Mul (lpfAlpha hq) (f64Sub x y)) = false := by
        unfold f64Sub
        rw [hp.2, hd.2, if_neg (by omega)]
        exact decide_eq_false (by omega)
      have hpi := f64Int_of_not_neg hn
      unfold f64Sub at *
      generalize f64Mag (f64Mul (lpfAlpha hq) (f64Add x (y ^^^ 1#64 <<< 63))) = q at *
      generalize f64Int (f64Mul (lpfAlpha hq) (f64Add x (y ^^^ 1#64 <<< 63))) = r at *
      generalize maxMag = M at *
      generalize overflowBound = B at *
      generalize (2 : Nat) ^ 1077 = k at *
      omega
    · have hdm := (f64Add_le (a := x) (b := y ^^^ (1#64 <<< 63)) (K := 1077) (by decide) (by
        rw [hD]
        generalize (2 : Nat) ^ 1077 = k at *
        omega)).2.1
      have hpk := f64Mul_unit_mag (K := 1077) ha (by decide) hdm
      unfold f64Sub at *
      generalize f64Mag (f64Mul (lpfAlpha hq) (f64Add x (y ^^^ 1#64 <<< 63))) = q at *
      generalize f64Int (f64Mul (lpfAlpha hq) (f64Add x (y ^^^ 1#64 <<< 63))) = r at *
      generalize maxMag = M at *
      generalize overflowBound = B at *
      generalize (2 : Nat) ^ 1077 = k at *
      omega

/-- The filter keeps the mixer's reals as they should be, whatever the channels put out. -/
theorem filterMixer_mix_inv {m : Mixer} (h : m.Inv) (p1 p2 t n d : Nat) :
    (filterMixer m (mix m p1 p2 t n d)).Inv := by
  obtain ⟨h1, h2, -⟩ := mix_bound h.master p1 p2 t n d
  unfold filterMixer
  split
  · exact ⟨h.1, h.2, h.3, h.4, h.5, h.6, lpfNext_finite _ h1 h2 h.lpfY⟩
  · exact h

end Sys2Proof.Machine
end

