-- ==== Sys2Proof/Laws/PerInstr.lean ====
section
/-! SUPPORT. The encoding of each instruction: its bytes decode to it, with nothing left over. -/

namespace Sys2Proof.Laws.RoundTrip

/-- The bytes of a well-formed instruction decode to it, and it is as long as its opcode byte says
(R300, R301). -/
def Statement (i : Instr) : Prop :=
  i.wf = true → decode (encode i) = .ok (i, []) ∧
    (encode i).head?.map opcodeLength = some (encode i).length

theorem decode_byte {op : Byte} {f : Byte → Instr} (h : opcodeEntry op = .two f) (b : Byte) :
    decode [op, b] = .ok (f b, []) ∧ [op, b].head?.map opcodeLength = some [op, b].length := by
  have hl : opcodeLength op = 2 := by simp [opcodeLength, h]
  simp [decode_two hl, decodeBytes, h, hl]

theorem decode_word {op : Byte} {f : Word → Instr} (h : opcodeEntry op = .three f) (w : Word) :
    decode [op, loByte w, hiByte w] = .ok (f w, []) ∧
      [op, loByte w, hiByte w].head?.map opcodeLength = some [op, loByte w, hiByte w].length := by
  have hl : opcodeLength op = 3 := by simp [opcodeLength, h]
  simp [decode_three hl, decodeBytes, h, hl, Machine.wordOf_hiByte_loByte]


theorem ldaImm (b : Byte) : Statement (.ldaImm b) := fun _ => decode_byte rfl b
theorem ldaZp (b : Byte) : Statement (.ldaZp b) := fun _ => decode_byte rfl b
theorem ldaZpX (b : Byte) : Statement (.ldaZpX b) := fun _ => decode_byte rfl b
theorem ldaAbs (w : Word) : Statement (.ldaAbs w) := fun _ => decode_word rfl w
theorem ldaAbsX (w : Word) : Statement (.ldaAbsX w) := fun _ => decode_word rfl w
theorem ldaAbsY (w : Word) : Statement (.ldaAbsY w) := fun _ => decode_word rfl w
theorem ldaIndX (b : Byte) : Statement (.ldaIndX b) := fun _ => decode_byte rfl b
theorem ldaIndY (b : Byte) : Statement (.ldaIndY b) := fun _ => decode_byte rfl b
theorem ldxImm (b : Byte) : Statement (.ldxImm b) := fun _ => decode_byte rfl b
theorem ldxZp (b : Byte) : Statement (.ldxZp b) := fun _ => decode_byte rfl b
theorem ldxZpY (b : Byte) : Statement (.ldxZpY b) := fun _ => decode_byte rfl b
theorem ldxAbs (w : Word) : Statement (.ldxAbs w) := fun _ => decode_word rfl w
theorem ldxAbsY (w : Word) : Statement (.ldxAbsY w) := fun _ => decode_word rfl w
theorem ldyImm (b : Byte) : Statement (.ldyImm b) := fun _ => decode_byte rfl b
theorem ldyZp (b : Byte) : Statement (.ldyZp b) := fun _ => decode_byte rfl b
theorem ldyZpX (b : Byte) : Statement (.ldyZpX b) := fun _ => decode_byte rfl b
theorem ldyAbs (w : Word) : Statement (.ldyAbs w) := fun _ => decode_word rfl w
theorem ldyAbsX (w : Word) : Statement (.ldyAbsX w) := fun _ => decode_word rfl w
theorem staZp (b : Byte) : Statement (.staZp b) := fun _ => decode_byte rfl b
theorem staZpX (b : Byte) : Statement (.staZpX b) := fun _ => decode_byte rfl b
theorem staAbs (w : Word) : Statement (.staAbs w) := fun _ => decode_word rfl w
theorem staAbsX (w : Word) : Statement (.staAbsX w) := fun _ => decode_word rfl w
theorem staAbsY (w : Word) : Statement (.staAbsY w) := fun _ => decode_word rfl w
theorem staIndX (b : Byte) : Statement (.staIndX b) := fun _ => decode_byte rfl b
theorem staIndY (b : Byte) : Statement (.staIndY b) := fun _ => decode_byte rfl b
theorem stxZp (b : Byte) : Statement (.stxZp b) := fun _ => decode_byte rfl b
theorem stxZpY (b : Byte) : Statement (.stxZpY b) := fun _ => decode_byte rfl b
theorem stxAbs (w : Word) : Statement (.stxAbs w) := fun _ => decode_word rfl w
theorem styZp (b : Byte) : Statement (.styZp b) := fun _ => decode_byte rfl b
theorem styZpX (b : Byte) : Statement (.styZpX b) := fun _ => decode_byte rfl b
theorem styAbs (w : Word) : Statement (.styAbs w) := fun _ => decode_word rfl w
theorem tax : Statement .tax := fun _ => ⟨rfl, rfl⟩
theorem tay : Statement .tay := fun _ => ⟨rfl, rfl⟩
theorem txa : Statement .txa := fun _ => ⟨rfl, rfl⟩
theorem tya : Statement .tya := fun _ => ⟨rfl, rfl⟩
theorem tsx : Statement .tsx := fun _ => ⟨rfl, rfl⟩
theorem txs : Statement .txs := fun _ => ⟨rfl, rfl⟩
theorem pha : Statement .pha := fun _ => ⟨rfl, rfl⟩
theorem php : Statement .php := fun _ => ⟨rfl, rfl⟩
theorem pla : Statement .pla := fun _ => ⟨rfl, rfl⟩
theorem plp : Statement .plp := fun _ => ⟨rfl, rfl⟩
theorem adcImm (b : Byte) : Statement (.adcImm b) := fun _ => decode_byte rfl b
theorem adcZp (b : Byte) : Statement (.adcZp b) := fun _ => decode_byte rfl b
theorem adcZpX (b : Byte) : Statement (.adcZpX b) := fun _ => decode_byte rfl b
theorem adcAbs (w : Word) : Statement (.adcAbs w) := fun _ => decode_word rfl w
theorem adcAbsX (w : Word) : Statement (.adcAbsX w) := fun _ => decode_word rfl w
theorem adcAbsY (w : Word) : Statement (.adcAbsY w) := fun _ => decode_word rfl w
theorem adcIndX (b : Byte) : Statement (.adcIndX b) := fun _ => decode_byte rfl b
theorem adcIndY (b : Byte) : Statement (.adcIndY b) := fun _ => decode_byte rfl b
theorem sbcImm (b : Byte) : Statement (.sbcImm b) := fun _ => decode_byte rfl b
theorem sbcZp (b : Byte) : Statement (.sbcZp b) := fun _ => decode_byte rfl b
theorem sbcZpX (b : Byte) : Statement (.sbcZpX b) := fun _ => decode_byte rfl b
theorem sbcAbs (w : Word) : Statement (.sbcAbs w) := fun _ => decode_word rfl w
theorem sbcAbsX (w : Word) : Statement (.sbcAbsX w) := fun _ => decode_word rfl w
theorem sbcAbsY (w : Word) : Statement (.sbcAbsY w) := fun _ => decode_word rfl w
theorem sbcIndX (b : Byte) : Statement (.sbcIndX b) := fun _ => decode_byte rfl b
theorem sbcIndY (b : Byte) : Statement (.sbcIndY b) := fun _ => decode_byte rfl b
theorem andImm (b : Byte) : Statement (.andImm b) := fun _ => decode_byte rfl b
theorem andZp (b : Byte) : Statement (.andZp b) := fun _ => decode_byte rfl b
theorem andZpX (b : Byte) : Statement (.andZpX b) := fun _ => decode_byte rfl b
theorem andAbs (w : Word) : Statement (.andAbs w) := fun _ => decode_word rfl w
theorem andAbsX (w : Word) : Statement (.andAbsX w) := fun _ => decode_word rfl w
theorem andAbsY (w : Word) : Statement (.andAbsY w) := fun _ => decode_word rfl w
theorem andIndX (b : Byte) : Statement (.andIndX b) := fun _ => decode_byte rfl b
theorem andIndY (b : Byte) : Statement (.andIndY b) := fun _ => decode_byte rfl b
theorem oraImm (b : Byte) : Statement (.oraImm b) := fun _ => decode_byte rfl b
theorem oraZp (b : Byte) : Statement (.oraZp b) := fun _ => decode_byte rfl b
theorem oraZpX (b : Byte) : Statement (.oraZpX b) := fun _ => decode_byte rfl b
theorem oraAbs (w : Word) : Statement (.oraAbs w) := fun _ => decode_word rfl w
theorem oraAbsX (w : Word) : Statement (.oraAbsX w) := fun _ => decode_word rfl w
theorem oraAbsY (w : Word) : Statement (.oraAbsY w) := fun _ => decode_word rfl w
theorem oraIndX (b : Byte) : Statement (.oraIndX b) := fun _ => decode_byte rfl b
theorem oraIndY (b : Byte) : Statement (.oraIndY b) := fun _ => decode_byte rfl b
theorem eorImm (b : Byte) : Statement (.eorImm b) := fun _ => decode_byte rfl b
theorem eorZp (b : Byte) : Statement (.eorZp b) := fun _ => decode_byte rfl b
theorem eorZpX (b : Byte) : Statement (.eorZpX b) := fun _ => decode_byte rfl b
theorem eorAbs (w : Word) : Statement (.eorAbs w) := fun _ => decode_word rfl w
theorem eorAbsX (w : Word) : Statement (.eorAbsX w) := fun _ => decode_word rfl w
theorem eorAbsY (w : Word) : Statement (.eorAbsY w) := fun _ => decode_word rfl w
theorem eorIndX (b : Byte) : Statement (.eorIndX b) := fun _ => decode_byte rfl b
theorem eorIndY (b : Byte) : Statement (.eorIndY b) := fun _ => decode_byte rfl b
theorem bitZp (b : Byte) : Statement (.bitZp b) := fun _ => decode_byte rfl b
theorem bitAbs (w : Word) : Statement (.bitAbs w) := fun _ => decode_word rfl w
theorem cmpImm (b : Byte) : Statement (.cmpImm b) := fun _ => decode_byte rfl b
theorem cmpZp (b : Byte) : Statement (.cmpZp b) := fun _ => decode_byte rfl b
theorem cmpZpX (b : Byte) : Statement (.cmpZpX b) := fun _ => decode_byte rfl b
theorem cmpAbs (w : Word) : Statement (.cmpAbs w) := fun _ => decode_word rfl w
theorem cmpAbsX (w : Word) : Statement (.cmpAbsX w) := fun _ => decode_word rfl w
theorem cmpAbsY (w : Word) : Statement (.cmpAbsY w) := fun _ => decode_word rfl w
theorem cmpIndX (b : Byte) : Statement (.cmpIndX b) := fun _ => decode_byte rfl b
theorem cmpIndY (b : Byte) : Statement (.cmpIndY b) := fun _ => decode_byte rfl b
theorem cpxImm (b : Byte) : Statement (.cpxImm b) := fun _ => decode_byte rfl b
theorem cpxZp (b : Byte) : Statement (.cpxZp b) := fun _ => decode_byte rfl b
theorem cpxAbs (w : Word) : Statement (.cpxAbs w) := fun _ => decode_word rfl w
theorem cpyImm (b : Byte) : Statement (.cpyImm b) := fun _ => decode_byte rfl b
theorem cpyZp (b : Byte) : Statement (.cpyZp b) := fun _ => decode_byte rfl b
theorem cpyAbs (w : Word) : Statement (.cpyAbs w) := fun _ => decode_word rfl w
theorem incZp (b : Byte) : Statement (.incZp b) := fun _ => decode_byte rfl b
theorem incZpX (b : Byte) : Statement (.incZpX b) := fun _ => decode_byte rfl b
theorem incAbs (w : Word) : Statement (.incAbs w) := fun _ => decode_word rfl w
theorem incAbsX (w : Word) : Statement (.incAbsX w) := fun _ => decode_word rfl w
theorem decZp (b : Byte) : Statement (.decZp b) := fun _ => decode_byte rfl b
theorem decZpX (b : Byte) : Statement (.decZpX b) := fun _ => decode_byte rfl b
theorem decAbs (w : Word) : Statement (.decAbs w) := fun _ => decode_word rfl w
theorem decAbsX (w : Word) : Statement (.decAbsX w) := fun _ => decode_word rfl w
theorem inx : Statement .inx := fun _ => ⟨rfl, rfl⟩
theorem iny : Statement .iny := fun _ => ⟨rfl, rfl⟩
theorem dex : Statement .dex := fun _ => ⟨rfl, rfl⟩
theorem dey : Statement .dey := fun _ => ⟨rfl, rfl⟩
theorem aslA : Statement .aslA := fun _ => ⟨rfl, rfl⟩
theorem aslZp (b : Byte) : Statement (.aslZp b) := fun _ => decode_byte rfl b
theorem aslZpX (b : Byte) : Statement (.aslZpX b) := fun _ => decode_byte rfl b
theorem aslAbs (w : Word) : Statement (.aslAbs w) := fun _ => decode_word rfl w
theorem aslAbsX (w : Word) : Statement (.aslAbsX w) := fun _ => decode_word rfl w
theorem lsrA : Statement .lsrA := fun _ => ⟨rfl, rfl⟩
theorem lsrZp (b : Byte) : Statement (.lsrZp b) := fun _ => decode_byte rfl b
theorem lsrZpX (b : Byte) : Statement (.lsrZpX b) := fun _ => decode_byte rfl b
theorem lsrAbs (w : Word) : Statement (.lsrAbs w) := fun _ => decode_word rfl w
theorem lsrAbsX (w : Word) : Statement (.lsrAbsX w) := fun _ => decode_word rfl w
theorem rolA : Statement .rolA := fun _ => ⟨rfl, rfl⟩
theorem rolZp (b : Byte) : Statement (.rolZp b) := fun _ => decode_byte rfl b
theorem rolZpX (b : Byte) : Statement (.rolZpX b) := fun _ => decode_byte rfl b
theorem rolAbs (w : Word) : Statement (.rolAbs w) := fun _ => decode_word rfl w
theorem rolAbsX (w : Word) : Statement (.rolAbsX w) := fun _ => decode_word rfl w
theorem rorA : Statement .rorA := fun _ => ⟨rfl, rfl⟩
theorem rorZp (b : Byte) : Statement (.rorZp b) := fun _ => decode_byte rfl b
theorem rorZpX (b : Byte) : Statement (.rorZpX b) := fun _ => decode_byte rfl b
theorem rorAbs (w : Word) : Statement (.rorAbs w) := fun _ => decode_word rfl w
theorem rorAbsX (w : Word) : Statement (.rorAbsX w) := fun _ => decode_word rfl w
theorem jmpAbs (w : Word) : Statement (.jmpAbs w) := fun _ => decode_word rfl w
theorem jmpInd (w : Word) : Statement (.jmpInd w) := fun _ => decode_word rfl w
theorem jsr (w : Word) : Statement (.jsr w) := fun _ => decode_word rfl w
theorem rts : Statement .rts := fun _ => ⟨rfl, rfl⟩
theorem bcc (b : Byte) : Statement (.bcc b) := fun _ => decode_byte rfl b
theorem bcs (b : Byte) : Statement (.bcs b) := fun _ => decode_byte rfl b
theorem beq (b : Byte) : Statement (.beq b) := fun _ => decode_byte rfl b
theorem bmi (b : Byte) : Statement (.bmi b) := fun _ => decode_byte rfl b
theorem bne (b : Byte) : Statement (.bne b) := fun _ => decode_byte rfl b
theorem bpl (b : Byte) : Statement (.bpl b) := fun _ => decode_byte rfl b
theorem bvc (b : Byte) : Statement (.bvc b) := fun _ => decode_byte rfl b
theorem bvs (b : Byte) : Statement (.bvs b) := fun _ => decode_byte rfl b
theorem clc : Statement .clc := fun _ => ⟨rfl, rfl⟩
theorem sec : Statement .sec := fun _ => ⟨rfl, rfl⟩
theorem cli : Statement .cli := fun _ => ⟨rfl, rfl⟩
theorem sei : Statement .sei := fun _ => ⟨rfl, rfl⟩
theorem cld : Statement .cld := fun _ => ⟨rfl, rfl⟩
theorem sed : Statement .sed := fun _ => ⟨rfl, rfl⟩
theorem clv : Statement .clv := fun _ => ⟨rfl, rfl⟩
theorem nop : Statement .nop := fun _ => ⟨rfl, rfl⟩
theorem brk : Statement .brk := fun _ => ⟨rfl, rfl⟩
theorem rti : Statement .rti := fun _ => ⟨rfl, rfl⟩
theorem illegal (op : Byte) : Statement (.illegal op) := fun h => by
  simp [encode, decode_one (illegal_length h), illegal_decode h, illegal_length h]

end Sys2Proof.Laws.RoundTrip
end

