-- ==== Sys2Proof/Tests/Slice0.lean ====
section
/-! SUPPORT. The model's own tests. The expected values are the spec's: the opcode table of
`30_encoding` R305, and the vectors W<n> and V<n> of `95_test_vectors`. Then one witness for the
hypotheses of every statement that has any. -/

namespace Sys2Proof.Tests

open Sys2Proof Sys2Proof.Machine

/-! ### Well-formed instructions -/

/-- The one check of `Instr.wf`: a byte that R306 does not list is no illegal opcode. -/
theorem test_wf_refuses_documented_byte : (Instr.illegal 0xEA).wf = false := by decide

theorem test_wf_refuses_last_documented : (Instr.illegal 0xFE).wf = false := by decide

theorem test_wf_refuses_brk_byte : (Instr.illegal 0x00).wf = false := by decide

theorem test_wf_accepts_illegal_bytes : (Instr.illegal 0x02).wf && (Instr.illegal 0xFF).wf = true := by decide

/-! ### Decoding: every row of R305, with operand byte 0xC5 or operand word 0x9234 -/

/-- Every listed word decodes to its instruction, with nothing left over. -/
def allDecode (l : List (List Byte × Instr)) : Bool :=
  l.all fun p => match decode p.1 with
    | .ok (i, rest) => decide (i = p.2) && rest.isEmpty
    | .error _ => false

theorem test_decode_load : allDecode
    [([0xA1, 0xC5], .ldaIndX 0xC5), ([0xA5, 0xC5], .ldaZp 0xC5), ([0xA9, 0xC5], .ldaImm 0xC5),
     ([0xAD, 0x34, 0x92], .ldaAbs 0x9234), ([0xB1, 0xC5], .ldaIndY 0xC5),
     ([0xB5, 0xC5], .ldaZpX 0xC5), ([0xB9, 0x34, 0x92], .ldaAbsY 0x9234),
     ([0xBD, 0x34, 0x92], .ldaAbsX 0x9234), ([0xA2, 0xC5], .ldxImm 0xC5),
     ([0xA6, 0xC5], .ldxZp 0xC5), ([0xAE, 0x34, 0x92], .ldxAbs 0x9234),
     ([0xB6, 0xC5], .ldxZpY 0xC5), ([0xBE, 0x34, 0x92], .ldxAbsY 0x9234),
     ([0xA0, 0xC5], .ldyImm 0xC5), ([0xA4, 0xC5], .ldyZp 0xC5),
     ([0xAC, 0x34, 0x92], .ldyAbs 0x9234), ([0xB4, 0xC5], .ldyZpX 0xC5),
     ([0xBC, 0x34, 0x92], .ldyAbsX 0x9234)] = true := by decide

theorem test_decode_store : allDecode
    [([0x81, 0xC5], .staIndX 0xC5), ([0x85, 0xC5], .staZp 0xC5),
     ([0x8D, 0x34, 0x92], .staAbs 0x9234), ([0x91, 0xC5], .staIndY 0xC5),
     ([0x95, 0xC5], .staZpX 0xC5), ([0x99, 0x34, 0x92], .staAbsY 0x9234),
     ([0x9D, 0x34, 0x92], .staAbsX 0x9234), ([0x86, 0xC5], .stxZp 0xC5),
     ([0x8E, 0x34, 0x92], .stxAbs 0x9234), ([0x96, 0xC5], .stxZpY 0xC5),
     ([0x84, 0xC5], .styZp 0xC5), ([0x8C, 0x34, 0x92], .styAbs 0x9234),
     ([0x94, 0xC5], .styZpX 0xC5)] = true := by decide

theorem test_decode_transfer : allDecode
    [([0x48], .pha), ([0x08], .php), ([0x68], .pla), ([0x28], .plp), ([0xAA], .tax),
     ([0xA8], .tay), ([0xBA], .tsx), ([0x8A], .txa), ([0x9A], .txs), ([0x98], .tya)] = true := by decide

theorem test_decode_adc_sbc : allDecode
    [([0x61, 0xC5], .adcIndX 0xC5), ([0x65, 0xC5], .adcZp 0xC5), ([0x69, 0xC5], .adcImm 0xC5),
     ([0x6D, 0x34, 0x92], .adcAbs 0x9234), ([0x71, 0xC5], .adcIndY 0xC5),
     ([0x75, 0xC5], .adcZpX 0xC5), ([0x79, 0x34, 0x92], .adcAbsY 0x9234),
     ([0x7D, 0x34, 0x92], .adcAbsX 0x9234), ([0xE1, 0xC5], .sbcIndX 0xC5),
     ([0xE5, 0xC5], .sbcZp 0xC5), ([0xE9, 0xC5], .sbcImm 0xC5),
     ([0xED, 0x34, 0x92], .sbcAbs 0x9234), ([0xF1, 0xC5], .sbcIndY 0xC5),
     ([0xF5, 0xC5], .sbcZpX 0xC5), ([0xF9, 0x34, 0x92], .sbcAbsY 0x9234),
     ([0xFD, 0x34, 0x92], .sbcAbsX 0x9234)] = true := by decide

theorem test_decode_logic1 : allDecode
    [([0x21, 0xC5], .andIndX 0xC5), ([0x25, 0xC5], .andZp 0xC5), ([0x29, 0xC5], .andImm 0xC5),
     ([0x2D, 0x34, 0x92], .andAbs 0x9234), ([0x31, 0xC5], .andIndY 0xC5),
     ([0x35, 0xC5], .andZpX 0xC5), ([0x39, 0x34, 0x92], .andAbsY 0x9234),
     ([0x3D, 0x34, 0x92], .andAbsX 0x9234), ([0x24, 0xC5], .bitZp 0xC5),
     ([0x2C, 0x34, 0x92], .bitAbs 0x9234), ([0x41, 0xC5], .eorIndX 0xC5),
     ([0x45, 0xC5], .eorZp 0xC5), ([0x49, 0xC5], .eorImm 0xC5),
     ([0x4D, 0x34, 0x92], .eorAbs 0x9234), ([0x51, 0xC5], .eorIndY 0xC5),
     ([0x55, 0xC5], .eorZpX 0xC5), ([0x59, 0x34, 0x92], .eorAbsY 0x9234),
     ([0x5D, 0x34, 0x92], .eorAbsX 0x9234), ([0x01, 0xC5], .oraIndX 0xC5),
     ([0x05, 0xC5], .oraZp 0xC5), ([0x09, 0xC5], .oraImm 0xC5),
     ([0x0D, 0x34, 0x92], .oraAbs 0x9234), ([0x11, 0xC5], .oraIndY 0xC5),
     ([0x15, 0xC5], .oraZpX 0xC5)] = true := by decide

theorem test_decode_logic2 : allDecode
    [([0x19, 0x34, 0x92], .oraAbsY 0x9234), ([0x1D, 0x34, 0x92], .oraAbsX 0x9234)] = true := by decide

theorem test_decode_compare : allDecode
    [([0xC1, 0xC5], .cmpIndX 0xC5), ([0xC5, 0xC5], .cmpZp 0xC5), ([0xC9, 0xC5], .cmpImm 0xC5),
     ([0xCD, 0x34, 0x92], .cmpAbs 0x9234), ([0xD1, 0xC5], .cmpIndY 0xC5),
     ([0xD5, 0xC5], .cmpZpX 0xC5), ([0xD9, 0x34, 0x92], .cmpAbsY 0x9234),
     ([0xDD, 0x34, 0x92], .cmpAbsX 0x9234), ([0xE0, 0xC5], .cpxImm 0xC5),
     ([0xE4, 0xC5], .cpxZp 0xC5), ([0xEC, 0x34, 0x92], .cpxAbs 0x9234),
     ([0xC0, 0xC5], .cpyImm 0xC5), ([0xC4, 0xC5], .cpyZp 0xC5),
     ([0xCC, 0x34, 0x92], .cpyAbs 0x9234)] = true := by decide

theorem test_decode_step : allDecode
    [([0xC6, 0xC5], .decZp 0xC5), ([0xCE, 0x34, 0x92], .decAbs 0x9234),
     ([0xD6, 0xC5], .decZpX 0xC5), ([0xDE, 0x34, 0x92], .decAbsX 0x9234), ([0xCA], .dex),
     ([0x88], .dey), ([0xE6, 0xC5], .incZp 0xC5), ([0xEE, 0x34, 0x92], .incAbs 0x9234),
     ([0xF6, 0xC5], .incZpX 0xC5), ([0xFE, 0x34, 0x92], .incAbsX 0x9234), ([0xE8], .inx),
     ([0xC8], .iny)] = true := by decide

theorem test_decode_shift_left : allDecode
    [([0x06, 0xC5], .aslZp 0xC5), ([0x0A], .aslA), ([0x0E, 0x34, 0x92], .aslAbs 0x9234),
     ([0x16, 0xC5], .aslZpX 0xC5), ([0x1E, 0x34, 0x92], .aslAbsX 0x9234),
     ([0x26, 0xC5], .rolZp 0xC5), ([0x2A], .rolA), ([0x2E, 0x34, 0x92], .rolAbs 0x9234),
     ([0x36, 0xC5], .rolZpX 0xC5), ([0x3E, 0x34, 0x92], .rolAbsX 0x9234)] = true := by decide

theorem test_decode_shift_right : allDecode
    [([0x46, 0xC5], .lsrZp 0xC5), ([0x4A], .lsrA), ([0x4E, 0x34, 0x92], .lsrAbs 0x9234),
     ([0x56, 0xC5], .lsrZpX 0xC5), ([0x5E, 0x34, 0x92], .lsrAbsX 0x9234),
     ([0x66, 0xC5], .rorZp 0xC5), ([0x6A], .rorA), ([0x6E, 0x34, 0x92], .rorAbs 0x9234),
     ([0x76, 0xC5], .rorZpX 0xC5), ([0x7E, 0x34, 0x92], .rorAbsX 0x9234)] = true := by decide

theorem test_decode_jump_branch : allDecode
    [([0x90, 0xC5], .bcc 0xC5), ([0xB0, 0xC5], .bcs 0xC5), ([0xF0, 0xC5], .beq 0xC5),
     ([0x30, 0xC5], .bmi 0xC5), ([0xD0, 0xC5], .bne 0xC5), ([0x10, 0xC5], .bpl 0xC5),
     ([0x50, 0xC5], .bvc 0xC5), ([0x70, 0xC5], .bvs 0xC5), ([0x4C, 0x34, 0x92], .jmpAbs 0x9234),
     ([0x6C, 0x34, 0x92], .jmpInd 0x9234), ([0x20, 0x34, 0x92], .jsr 0x9234), ([0x60], .rts)] = true := by decide

theorem test_decode_flag_system : allDecode
    [([0x00], .brk), ([0x18], .clc), ([0xD8], .cld), ([0x58], .cli), ([0xB8], .clv),
     ([0xEA], .nop), ([0x40], .rti), ([0x38], .sec), ([0xF8], .sed), ([0x78], .sei)] = true := by decide

theorem test_decode_illegal : illegalBytes.all (fun op => allDecode [([op], .illegal op)]) = true := by
  decide

/-- The decoder refuses only a list that ends too soon. -/
theorem test_decode_refuses_short :
    (decode [], decode [0xA9], decode [0xAD, 0x34]) =
      (.error .noOpcode, .error (.missingOperand 0xA9), .error (.missingOperand 0xAD)) := by rfl

/-- A table word: the first byte is the least significant. -/
theorem test_decodeTableWord : decodeTableWord 24 0x12348D = some (.staAbs 0x1234) ∧
    decodeTableWord 16 0x80A9 = some (.ldaImm 0x80) ∧ decodeTableWord 8 0xAD = some (.ldaAbs 0) := by
  decide

/-! ### One instruction each, on a small state -/

/-- The state of the vectors: A = X = Y = 00, SP = FF, P = 24, PC = 8000, RAM all 00; changed by `f`. -/
def start (f : Cpu → Cpu) (ram : List (Nat × Byte)) : State :=
  { State.reset with
    cpu := f { Cpu.reset with pc := 0x8000 }
    bus := { Bus.reset with ram := ram.foldl (fun m c => memSet m c.1 c.2) [] } }

/-- The instruction of three bytes, at a state. -/
def run (b0 b1 b2 : Byte) (s : State) : Result := exec (decodeBytes b0 b1 b2) s

/-- A, X, Y, SP, P, PC and the cycles after the instruction. -/
def regs : Result → List Nat
  | .next s => [s.cpu.a.toNat, s.cpu.x.toNat, s.cpu.y.toNat, s.cpu.sp.toNat, s.cpu.p.toNat,
      s.cpu.pc.toNat, s.cpu.cycles.toNat]
  | _ => []

/-- A RAM byte after the instruction. -/
def ramAt (n : Nat) : Result → Option Byte
  | .next s => some (memGet s.bus.ram n)
  | _ => none

/-! Loads, stores, transfers (V1-V17) -/

theorem test_lda_zero : regs (run 0xA9 0x00 0 (start id [])) = [0, 0, 0, 0xFF, 0x26, 0x8002, 2] := by
  decide

theorem test_lda_zero_page_x_wraps :
    regs (run 0xB5 0xFF 0 (start (fun c => { c with x := 2 }) [(1, 0x5A)])) =
      [0x5A, 2, 0, 0xFF, 0x24, 0x8002, 4] := by decide

theorem test_lda_indirect_x_wraps :
    regs (run 0xA1 0xFF 0 (start id [(0xFF, 0x34), (0, 0x02), (0x234, 0x77)])) =
      [0x77, 0, 0, 0xFF, 0x24, 0x8002, 6] := by decide

theorem test_lda_absolute_x_crosses :
    regs (run 0xBD 0xFF 0x02 (start (fun c => { c with x := 1 }) [(0x300, 0x11)])) =
      [0x11, 1, 0, 0xFF, 0x24, 0x8003, 5] := by decide

theorem test_lda_absolute_x_wraps :
    regs (run 0xBD 0xFF 0xFF (start (fun c => { c with x := 2 }) [(1, 0x99)])) =
      [0x99, 2, 0, 0xFF, 0xA4, 0x8003, 5] := by decide

theorem test_lda_indirect_y_crosses :
    regs (run 0xB1 0x10 0 (start (fun c => { c with y := 1 }) [(0x10, 0xFF), (0x100, 0x42)])) =
      [0x42, 0, 1, 0xFF, 0x24, 0x8002, 6] := by decide

theorem test_lda_indirect_y_pointer_wraps :
    regs (run 0xB1 0xFF 0 (start id [(0, 0x03), (0x300, 0xA5)])) =
      [0xA5, 0, 0, 0xFF, 0xA4, 0x8002, 5] := by decide

theorem test_ldx_zero_page_y_wraps :
    regs (run 0xB6 0x80 0 (start (fun c => { c with y := 0x90 }) [(0x10, 0x10)])) =
      [0, 0x10, 0x90, 0xFF, 0x24, 0x8002, 4] := by decide

/-- R402: N from bit 7 of the operand. -/
theorem test_ldy_negative : regs (run 0xA0 0x80 0 (start id [])) = [0, 0, 0x80, 0xFF, 0xA4, 0x8002, 2] := by
  decide

theorem test_sta_absolute_x : let r := run 0x9D 0xFF 0x02 (start (fun c => { c with a := 0x55, x := 1 }) [])
    regs r = [0x55, 1, 0, 0xFF, 0x24, 0x8003, 5] ∧ ramAt 0x300 r = some 0x55 := by decide

theorem test_sta_indirect_y :
    let r := run 0x91 0x10 0 (start (fun c => { c with a := 0x5C, y := 1 }) [(0x10, 0xFF)])
    regs r = [0x5C, 0, 1, 0xFF, 0x24, 0x8002, 6] ∧ ramAt 0x100 r = some 0x5C := by decide

/-- V17: the store reaches the PPU control register through the bus. -/
theorem test_stx_ppuctrl :
    (match run 0x8E 0x00 0x20 (start (fun c => { c with x := 0x3C }) []) with
      | .next s => [s.ppu.ctrl.toNat, s.ppu.t.toNat, s.bus.openBus.toNat, s.cpu.cycles.toNat]
      | _ => []) = [0x3C, 0, 0x3C, 4] := by decide

/-- R405, R202: RAM is mirrored. -/
theorem test_sty_mirror : ramAt 0x05 (run 0x8C 0x05 0x18 (start (fun c => { c with y := 0x77 }) [])) =
    some 0x77 := by decide

theorem test_txa : regs (run 0x8A 0 0 (start (fun c => { c with x := 0xFF }) [])) =
    [0xFF, 0xFF, 0, 0xFF, 0xA4, 0x8001, 2] := by decide

theorem test_txs_no_flags : regs (run 0x9A 0 0 (start id [])) = [0, 0, 0, 0, 0x24, 0x8001, 2] := by decide

theorem test_tsx : regs (run 0xBA 0 0 (start (fun c => { c with sp := 0x80 }) [])) =
    [0, 0x80, 0, 0x80, 0xA4, 0x8001, 2] := by decide

theorem test_tay : regs (run 0xA8 0 0 (start id [])) = [0, 0, 0, 0xFF, 0x26, 0x8001, 2] := by decide

theorem test_tax : regs (run 0xAA 0 0 (start (fun c => { c with a := 0x81 }) [])) =
    [0x81, 0x81, 0, 0xFF, 0xA4, 0x8001, 2] := by decide

theorem test_tya : regs (run 0x98 0 0 (start (fun c => { c with y := 0x7F }) [])) =
    [0x7F, 0, 0x7F, 0xFF, 0x24, 0x8001, 2] := by decide

/-! Stack (V20-V24) -/

theorem test_pha_wraps : let r := run 0x48 0 0 (start (fun c => { c with a := 0x5A, sp := 0 }) [])
    regs r = [0x5A, 0, 0, 0xFF, 0x24, 0x8001, 3] ∧ ramAt 0x100 r = some 0x5A := by decide

theorem test_pla_wraps : regs (run 0x68 0 0 (start (fun c => { c with a := 1 }) [])) =
    [0, 0, 0, 0, 0x26, 0x8001, 4] := by decide

theorem test_php_break_bit : let r := run 0x08 0 0 (start (fun c => { c with sp := 0xFD, p := 0xE7 }) [])
    regs r = [0, 0, 0, 0xFC, 0xE7, 0x8001, 3] ∧ ramAt 0x1FD r = some 0xF7 := by decide

theorem test_plp_zero : regs (run 0x28 0 0 (start (fun c => { c with sp := 0xFC }) [])) =
    [0, 0, 0, 0xFD, 0x20, 0x8001, 4] := by decide

theorem test_plp_ones : regs (run 0x28 0 0 (start (fun c => { c with sp := 0xFC }) [(0x1FD, 0xFF)])) =
    [0, 0, 0, 0xFD, 0xEF, 0x8001, 4] := by decide

/-! Arithmetic and logic (V30-V55) -/

theorem test_adc_overflow : regs (run 0x69 0x50 0 (start (fun c => { c with a := 0x50 }) [])) =
    [0xA0, 0, 0, 0xFF, 0xE4, 0x8002, 2] := by decide

theorem test_adc_no_decimal : regs (run 0x69 0x01 0 (start (fun c => { c with a := 9, p := 0x2C }) [])) =
    [0x0A, 0, 0, 0xFF, 0x2C, 0x8002, 2] := by decide

theorem test_sbc_overflow : regs (run 0xE9 0x01 0 (start (fun c => { c with a := 0x80, p := 0x25 }) [])) =
    [0x7F, 0, 0, 0xFF, 0x65, 0x8002, 2] := by decide

theorem test_sbc_borrow_in : regs (run 0xE9 0x03 0 (start (fun c => { c with a := 5 }) [])) =
    [1, 0, 0, 0xFF, 0x25, 0x8002, 2] := by decide

theorem test_and : regs (run 0x29 0x0F 0 (start (fun c => { c with a := 0xF0 }) [])) =
    [0, 0, 0, 0xFF, 0x26, 0x8002, 2] := by decide

theorem test_ora : regs (run 0x09 0x01 0 (start (fun c => { c with a := 0x80 }) [])) =
    [0x81, 0, 0, 0xFF, 0xA4, 0x8002, 2] := by decide

theorem test_eor : regs (run 0x49 0xFF 0 (start (fun c => { c with a := 0xFF }) [])) =
    [0, 0, 0, 0xFF, 0x26, 0x8002, 2] := by decide

theorem test_cmp_carry : regs (run 0xC9 0x00 0 (start (fun c => { c with a := 0xFF }) [])) =
    [0xFF, 0, 0, 0xFF, 0xA5, 0x8002, 2] := by decide

theorem test_cmp_no_carry : regs (run 0xC9 0x80 0 (start id [])) = [0, 0, 0, 0xFF, 0xA4, 0x8002, 2] := by
  decide

theorem test_cpx : regs (run 0xE0 0x20 0 (start (fun c => { c with x := 0x10 }) [])) =
    [0, 0x10, 0, 0xFF, 0xA4, 0x8002, 2] := by decide

theorem test_cpy : regs (run 0xC0 0x10 0 (start (fun c => { c with y := 0x20 }) [])) =
    [0, 0, 0x20, 0xFF, 0x25, 0x8002, 2] := by decide

theorem test_bit_sets : regs (run 0x24 0x40 0 (start id [(0x40, 0xC0)])) =
    [0, 0, 0, 0xFF, 0xE6, 0x8002, 3] := by decide

theorem test_bit_clears :
    regs (run 0x24 0x40 0 (start (fun c => { c with a := 0xFF, p := 0xE4 }) [(0x40, 0x3F)])) =
      [0xFF, 0, 0, 0xFF, 0x24, 0x8002, 3] := by decide

theorem test_inc_wraps_in_zero_page :
    let r := run 0xF6 0xFF 0 (start (fun c => { c with x := 1 }) [(0, 0x7F)])
    regs r = [0, 1, 0, 0xFF, 0xA4, 0x8002, 6] ∧ ramAt 0 r = some 0x80 := by decide

theorem test_inc_mirror : let r := run 0xFE 0x34 0x12 (start (fun c => { c with x := 1 }) [(0x235, 0xFE)])
    regs r = [0, 1, 0, 0xFF, 0xA4, 0x8003, 7] ∧ ramAt 0x235 r = some 0xFF := by decide

theorem test_dec_wraps : let r := run 0xC6 0x10 0 (start id [])
    regs r = [0, 0, 0, 0xFF, 0xA4, 0x8002, 5] ∧ ramAt 0x10 r = some 0xFF := by decide

theorem test_inx_wraps : regs (run 0xE8 0 0 (start (fun c => { c with x := 0xFF }) [])) =
    [0, 0, 0, 0xFF, 0x26, 0x8001, 2] := by decide

theorem test_dey_wraps : regs (run 0x88 0 0 (start id [])) = [0, 0, 0xFF, 0xFF, 0xA4, 0x8001, 2] := by decide

/-- R512. -/
theorem test_iny : regs (run 0xC8 0 0 (start (fun c => { c with y := 0x7F }) [])) =
    [0, 0, 0x80, 0xFF, 0xA4, 0x8001, 2] := by decide

/-- R513. -/
theorem test_dex : regs (run 0xCA 0 0 (start (fun c => { c with x := 1 }) [])) =
    [0, 0, 0, 0xFF, 0x26, 0x8001, 2] := by decide

/-! Shifts and rotates (V60-V66) -/

theorem test_lsr : regs (run 0x4A 0 0 (start (fun c => { c with a := 1 }) [])) =
    [0, 0, 0, 0xFF, 0x27, 0x8001, 2] := by decide

theorem test_asl : regs (run 0x0A 0 0 (start (fun c => { c with a := 0x81 }) [])) =
    [2, 0, 0, 0xFF, 0x25, 0x8001, 2] := by decide

theorem test_ror : regs (run 0x6A 0 0 (start (fun c => { c with a := 1, p := 0x25 }) [])) =
    [0x80, 0, 0, 0xFF, 0xA5, 0x8001, 2] := by decide

theorem test_rol : regs (run 0x2A 0 0 (start (fun c => { c with a := 0x80 }) [])) =
    [0, 0, 0, 0xFF, 0x27, 0x8001, 2] := by decide

theorem test_asl_memory : let r := run 0x1E 0x34 0x12 (start (fun c => { c with x := 1 }) [(0x235, 0x40)])
    regs r = [0, 1, 0, 0xFF, 0xA4, 0x8003, 7] ∧ ramAt 0x235 r = some 0x80 := by decide

theorem test_ror_memory : let r := run 0x66 0x10 0 (start (fun c => { c with p := 0x25 }) [(0x10, 1)])
    regs r = [0, 0, 0, 0xFF, 0xA5, 0x8002, 5] ∧ ramAt 0x10 r = some 0x80 := by decide

theorem test_rol_memory : let r := run 0x26 0x10 0 (start (fun c => { c with p := 0x25 }) [(0x10, 0x80)])
    regs r = [0, 0, 0, 0xFF, 0x25, 0x8002, 5] ∧ ramAt 0x10 r = some 1 := by decide

/-! Control transfer (V70-V80) -/

theorem test_jmp_indirect_page_wrap :
    regs (run 0x6C 0xFF 0x02 (start id [(0x200, 0x90), (0x300, 0x12)])) =
      [0, 0, 0, 0xFF, 0x24, 0x9000, 5] := by decide

theorem test_jmp : regs (run 0x4C 0x34 0x12 (start id [])) = [0, 0, 0, 0xFF, 0x24, 0x1234, 3] := by decide

theorem test_jsr_stack_wraps : let r := run 0x20 0x00 0x90 (start (fun c => { c with sp := 0 }) [])
    regs r = [0, 0, 0, 0xFE, 0x24, 0x9000, 6] ∧ ramAt 0x100 r = some 0x80 ∧ ramAt 0x1FF r = some 2 := by
  decide

theorem test_rts_wraps :
    regs (run 0x60 0 0 (start (fun c => { c with sp := 0xFD }) [(0x1FE, 0xFF), (0x1FF, 0xFF)])) =
      [0, 0, 0, 0xFF, 0x24, 0, 6] := by decide

theorem test_bne_taken : regs (run 0xD0 0x05 0 (start id [])) = [0, 0, 0, 0xFF, 0x24, 0x8007, 3] := by decide

theorem test_bne_not_taken : regs (run 0xD0 0x05 0 (start (fun c => { c with p := 0x26 }) [])) =
    [0, 0, 0, 0xFF, 0x26, 0x8002, 2] := by decide

theorem test_beq_zero_offset : regs (run 0xF0 0x00 0 (start (fun c => { c with p := 0x26 }) [])) =
    [0, 0, 0, 0xFF, 0x26, 0x8002, 3] := by decide

theorem test_bcs_to_itself : regs (run 0xB0 0xFE 0 (start (fun c => { c with p := 0x25 }) [])) =
    [0, 0, 0, 0xFF, 0x25, 0x8000, 3] := by decide

theorem test_bvs_wraps : regs (run 0x70 0x20 0 (start (fun c => { c with p := 0x64, pc := 0xFFF0 }) [])) =
    [0, 0, 0, 0xFF, 0x64, 0x12, 4] := by decide

theorem test_bcc_backwards : regs (run 0x90 0x80 0 (start id [])) =
    [0, 0, 0, 0xFF, 0x24, 0x7F82, 4] := by decide

/-- R609 and R603 at the place of V78, where the rule and the vector differ (log 15): the page is that
of PCnext, so the branch takes 3 cycles. -/
theorem test_bpl : regs (run 0x10 0x00 0 (start (fun c => { c with pc := 0x80FE }) [])) =
    [0, 0, 0, 0xFF, 0x24, 0x8100, 3] := by decide

/-- R607. -/
theorem test_bmi : regs (run 0x30 0x7F 0 (start (fun c => { c with p := 0xA4 }) [])) =
    [0, 0, 0, 0xFF, 0xA4, 0x8081, 3] := by decide

/-- R610. -/
theorem test_bvc_not_taken : regs (run 0x50 0x7F 0 (start (fun c => { c with p := 0x64 }) [])) =
    [0, 0, 0, 0xFF, 0x64, 0x8002, 2] := by decide

/-! Flags and system (V85-V92) -/

/-- V85: each clearing instruction from P = E7. -/
theorem test_clear_flags : [0x18, 0x58, 0xB8, 0xD8].map (fun op : Byte =>
      (regs (run op 0 0 (start (fun c => { c with p := 0xEF }) []))).getD 4 0) =
    [0xEE, 0xEB, 0xAF, 0xE7] := by decide

/-- V86: each setting instruction from P = 20. -/
theorem test_set_flags : [0x38, 0x78, 0xF8].map (fun op : Byte =>
      (regs (run op 0 0 (start (fun c => { c with p := 0x20 }) []))).getD 4 0) =
    [0x21, 0x24, 0x28] := by decide

theorem test_nop : regs (run 0xEA 0 0 (start id [])) = [0, 0, 0, 0xFF, 0x24, 0x8001, 2] := by decide

/-- V88, with no cartridge: the vector bytes are the open-bus latch, the pushed P. -/
theorem test_brk : let r := run 0x00 0 0 (start (fun c => { c with p := 0x20 }) [])
    regs r = [0, 0, 0, 0xFC, 0x24, 0x3030, 7] ∧ ramAt 0x1FF r = some 0x80 ∧ ramAt 0x1FE r = some 2 ∧
      ramAt 0x1FD r = some 0x30 := by decide

theorem test_rti :
    regs (run 0x40 0 0 (start (fun c => { c with sp := 0xFC }) [(0x1FD, 0xC3), (0x1FE, 0x34), (0x1FF, 0x12)])) =
      [0, 0, 0, 0xFF, 0xE3, 0x1234, 6] := by decide

theorem test_illegal_fallback :
    regs (run 0x02 0 0 (start id [])) = [0, 0, 0, 0xFF, 0x24, 0x8001, 1] ∧
    (match run 0x02 0 0 (start id []) with
      | .next s => s.cpu.illegalSeen && decide (s.cpu.illegalCount = 1)
      | _ => false) = true := by decide

/-- The same machine under ILLEGAL_OPCODE_MODE = Fault. -/
def faultMode (s : State) : State := { s with params := { s.params with illegalOpcodeMode := .fault } }

theorem test_illegal_fault : run 0x02 0 0 (faultMode (start id [])) = .fault (.illegalOpcode 0x02 0x8000) := by
  rfl

/-! ### The other units (V100-V202) -/

/-- W2: two PPUSTATUS reads. -/
theorem test_ppustatus :
    let p : Ppu := { Ppu.reset with vblank := true, w := true, ioLatch := 0x15 }
    ((readStatus p).1, (readStatus p).2.vblank, (readStatus p).2.w, (readStatus (readStatus p).2).1) =
      (0x95, false, false, 0x15) := by decide

/-- V110: two PPUSCROLL writes. -/
theorem test_ppuscroll :
    let p := writeScroll 0x7D Ppu.reset
    (p.t, p.x, p.w, (writeScroll 0x5E p).t, (writeScroll 0x5E p).w) = (0x000F, 5, true, 0x616F, false) := by
  decide

/-- V112: a sprite palette entry that is the background's. -/
theorem test_palette_mirror :
    let p := writeData none 0x2A { Ppu.reset with v := 0x3F10 }
    (memGet p.palette 0, p.v) = (0x2A, 0x3F11) := by decide

/-- V113: a palette read. -/
theorem test_palette_read :
    let r := readData none { Ppu.reset with v := 0x3F00, palette := [(0, 0x0F)], ioLatch := 0xC5 }
    (r.1, r.2.v) = (0xCF, 0x3F01) := by decide

/-- V119 and V120: the NMI edge of a PPUCTRL write. -/
theorem test_nmi_edge : (writeCtrl 0x80 { Ppu.reset with vblank := true }).nmiEdge &&
    !(writeCtrl 0x80 { Ppu.reset with vblank := true, ctrl := 0x80 }).nmiEdge = true := by decide

/-- V132: ten reads of a controller. -/
theorem test_controller :
    let b := ctrlWrite 0 (ctrlWrite 1 { Bus.reset with ctrlButtons0 := 0x09 })
    (List.range 10).map (fun k => ctrlValue0 (ctrlShiftOut0^[k] b)) =
      [0x41, 0x40, 0x40, 0x41, 0x40, 0x40, 0x40, 0x40, 0x41, 0x41] := by decide

/-- V148: the shift register of the serial mapper. -/
theorem test_serial_shift :
    let r0 : SerialRegs := ⟨0, 0, 0x0C, 0, 0, 0⟩
    let r1 := serialShiftIn 0xE000 0 r0
    let r2 := serialShiftIn 0xE000 1 r1
    let r3 := serialShiftIn 0xE000 0 r2
    let r4 := serialShiftIn 0xE000 0 r3
    let r5 := serialShiftIn 0xE000 0 r4
    ((r1.shift, r1.count), (r2.shift, r2.count), (r3.shift, r3.count), (r4.shift, r4.count)) =
      ((0, 1), (0x10, 2), (8, 3), (4, 4)) ∧ r5 = ⟨0, 0, 0x0C, 0, 0, 2⟩ := by decide

/-- V168-V170: sweep targets. -/
theorem test_sweep :
    let c : Pulse := { Pulse.reset with timerPeriod := 0x100, sweep := { Sweep.reset with shift := 1, neg := true } }
    (sweepTarget .one c, sweepTarget .two c) = (0x7F, 0x80) ∧
    muted .one { Pulse.reset with timerPeriod := 0x7FF } = true ∧
    muted .one { Pulse.reset with timerPeriod := 0x600, sweep := { Sweep.reset with shift := 1 } } = true := by
  decide

/-- V167: the noise register. -/
theorem test_lfsr : lfsrNext false 1 = 0x4000 := by decide

/-- W7: the DMC level. -/
theorem test_dmc_level :
    let d : Dmc := { Dmc.reset with silence := false }
    [({ d with level := 0x7E, shift := 1 } : Dmc), { d with level := 0x7D, shift := 1 }, { d with level := 1 },
      { d with level := 2 }, { d with level := 0x40, shift := 1, silence := true }, { d with level := 0x7F }].map
      (fun d => (dmcClock d).level) = [0x7E, 0x7F, 1, 0, 0x40, 0x7D] := by decide

/-- V171-V173: the DMC's address and length. -/
theorem test_dmc_address :
    ((dmcWrite2 0xFF Dmc.reset).startAddr, (dmcWrite3 0xFF Dmc.reset).sampleLen, (dmcWrite3 0 Dmc.reset).sampleLen,
      (dmcReceive 0 { Dmc.reset with curAddr := 0xFFFF, remaining := 2 }).curAddr) =
      (0xFFC0, 0xFF1, 1, 0x8000) := by decide

/-- W6: pulse_table[30] = 0x1.07b160c4b3c54p-2. -/
theorem test_pulse_table : pulseTable 30 = 0x3FD07B160C4B3C54 := by decide +kernel

/-- V141-V145: the first failing check of `load_rom`. -/
theorem test_rom_checks :
    let rom (l : List Byte) : List Byte := l ++ List.replicate 8 0
    (romProblem (rom [0x4E, 0x45, 0x53, 0x1B, 1, 1, 0, 0]), romProblem (rom [0x4E, 0x45, 0x53, 0x1A, 0, 1, 0x40, 0]),
      romProblem (rom [0x4E, 0x45, 0x53, 0x1A, 1, 1, 0x40, 0]), romProblem (rom [0x4E, 0x45, 0x53, 0x1A, 1, 1, 0, 0])) =
      (some .malformedHeader, some .zeroSizePrg, some (.unsupportedMapper 4), some .truncatedImage) := by decide

/-- V100: an NMI entry, with no cartridge: the vector bytes are the open-bus latch, the pushed P. -/
theorem test_nmi_entry :
    let s := serviceInterrupt (start (fun c => { c with p := 0x20, nmiPending := true }) [])
    (s.1, regs (.next s.2), ramAt 0x1FF (.next s.2), ramAt 0x1FD (.next s.2)) =
      (7, [0, 0, 0, 0xFC, 0x24, 0x2020, 7], some 0x80, some 0x20) := by decide

/-- V101: a masked IRQ is not taken. -/
theorem test_irq_masked :
    (serviceInterrupt { start id [] with apu := { Apu.create with frameIrq := true } }).1 = 0 := by decide

/-- V180: a NOP step: 2 cycles, PPU at (0, 6), total 2. -/
theorem test_step_nop :
    (match step (State.reset.withFetchWord 8 0xEA) with
      | .next s => [s.sched.totalCycles.toNat, s.ppu.scanline, s.ppu.cycle, s.cpu.pc.toNat, s.host.samples.length]
      | _ => []) = [2, 0, 6, 1, 2] := by decide +kernel

/-- V196: `set_register(5, FF)`. -/
theorem test_set_register : getRegister 5 (setRegister 5 0xFF State.reset).2 = 0xEF := by decide

/-- R116, R802, R1006: reset lists no memory, in canonical form. -/
theorem test_reset_memory : Memory.wf State.reset.bus.ram ∧ Memory.wf State.reset.ppu.oam ∧
    Memory.wf State.reset.ppu.ntRam ∧ Memory.wf State.reset.ppu.palette := by decide

/-! ### Witnesses: for every statement with hypotheses, states and operands that meet them together -/

/-- The result is a next state. -/
def goesOn : Result → Bool
  | .next _ => true
  | _ => false

theorem goesOn_next {r : Result} (h : goesOn r = true) : ∃ t, r = .next t := by
  cases r with
  | next t => exact ⟨t, rfl⟩
  | fault f => simp [goesOn] at h
  | refused f => simp [goesOn] at h

theorem witness_DecodeEncode : (Instr.illegal 0xFF).wf = true ∧ (Instr.ldaAbs 0xFFFF).wf = true := by decide

theorem witness_EncodeDecode :
    decode [0x8D, 0xFF, 0xFF, 0x02] = .ok (.staAbs 0xFFFF, [0x02]) ∧ decode [0x02] = .ok (.illegal 0x02, []) := by
  exact ⟨rfl, rfl⟩

theorem witness_DecodingIsTotal : (0x02 : Byte) ∈ illegalBytes ∧ (0xFF : Byte) ∈ illegalBytes ∧
    (0x00 : Byte) ∉ illegalBytes ∧ (0xFE : Byte) ∉ illegalBytes := by decide

/-- The state right after reset, with a NOP where the next step fetches. -/
def nopState : State := State.reset.withFetchWord 8 0xEA

/-- At PC = 0xFFFF the fetch goes on at 0x0000 (R320, V93); with no cartridge the opcode is the latch. -/
def fetchState : State :=
  { start (fun c => { c with pc := 0xFFFF }) [(0, 0x80)] with bus := { Bus.reset with ram := [(0, 0x80)], openBus := 0xA9 } }

theorem witness_StepRunsDecodedInstruction :
    let r0 := memRead fetchState.cpu.pc fetchState
    let r1 := memRead (fetchState.cpu.pc + 1) r0.2
    let r2 := memRead (fetchState.cpu.pc + 2) r1.2
    decode [r0.1, r1.1, r2.1] = .ok (.ldaImm 0x80, [r2.1]) := by rfl

theorem witness_StepAdvancesEveryUnit :
    let s : State := { nopState with ppu := { Ppu.reset with scanline := 261, cycle := 340 } }
    s.ppu.scanline ≤ 261 ∧ s.ppu.cycle ≤ 340 ∧ ∃ t, step s = .next t :=
  ⟨by decide, by decide, goesOn_next (by decide +kernel)⟩

theorem witness_OnlyIllegalOpcodesStop :
    exec (.illegal 0xFF) (faultMode (start id [])) = .fault (.illegalOpcode 0xFF 0x8000) := rfl

theorem witness_FallbackRunsAreSafe : State.reset.params.illegalOpcodeMode = .fallback := rfl

theorem witness_IllegalOpcodeResult : (0x02 : Byte) ∈ illegalBytes ∧
    (start id []).params.illegalOpcodeMode = .fallback ∧
    (faultMode (start id [])).params.illegalOpcodeMode = .fault := by decide

theorem witness_DirectAddresses : (Instr.ldxZpY 0xFF).row = .read .ldx (.mem (.zpY 0xFF)) ∧
    (Instr.stxZpY 0xFF).row = .store .stx (.zpY 0xFF) := ⟨rfl, rfl⟩

theorem witness_OperandReadsKeepStorage :
    (∃ b, ReadMode.imm 0xFF = .imm b) ∧ ∃ am, ReadMode.mem (.absX 0xFFFF) = .mem am := ⟨⟨_, rfl⟩, ⟨_, rfl⟩⟩

/-- Every mnemonic has rows: the statements over `readRows`, `storeRows` and `rmwRows` speak of
instructions. -/
theorem witness_rows (b : Byte) (w : Word) :
    (∀ op : ReadOp, readRows op b w ≠ []) ∧ (∀ op : StoreOp, storeRows op b w ≠ []) ∧
      ∀ op : RmwOp, rmwRows op b w ≠ [] := by
  refine ⟨fun op => ?_, fun op => ?_, fun op => ?_⟩ <;> cases op <;> exact List.cons_ne_nil _ _

/-- A store to the last RAM mirror byte, and one outside RAM. -/
theorem witness_StoreFrame : (⟨0x8D, .staAbs 0x1FFF, .abs 0x1FFF, 3, 4, false⟩ : TableRow AddrMode) ∈
      storeRows .sta 0xFF (wordOf 0x1F 0xFF) ∧
    (resolve (.abs 0x1FFF) State.reset).ea.toNat < 0x2000 ∧ ¬(resolve (.abs 0x2000) State.reset).ea.toNat < 0x2000 :=
  ⟨.tail _ (.tail _ (.head _)), by decide, by decide⟩

theorem witness_ReadModifyWriteFrame : (⟨0xFE, .incAbsX 0x1FFF, .absX 0x1FFF, 3, 7, false⟩ : TableRow AddrMode) ∈
      rmwRows .inc 0xFF (wordOf 0x1F 0xFF) ∧
    (resolve (.absX 0x1FFF) State.reset).ea.toNat < 0x2000 :=
  ⟨.tail _ (.tail _ (.tail _ (.head _))), by decide⟩

theorem witness_ReturnFollowsCall : ∃ t, exec (.jsr 0x9000) (start id []) = .next t ∧ t.cpu.sp = t.cpu.sp ∧
    storedByte t .ram (stackCell 0xFF) = storedByte t .ram (stackCell 0xFF) ∧
    storedByte t .ram (stackCell (0xFF - 1)) = storedByte t .ram (stackCell (0xFF - 1)) :=
  ⟨_, rfl, rfl, rfl, rfl⟩

theorem witness_ReturnFollowsEntry (u : State) (h : u = (serviceInterrupt (start (fun c => { c with nmiPending := true }) [])).2) :
    let s := start (fun c => { c with nmiPending := true }) []
    storedP s.cpu.p = s.cpu.p ∧ InterruptEntry 0xFFFA 0x8000 false s u ∧ u.cpu.sp = u.cpu.sp ∧
      ∀ n, pushedCells 3 s.cpu.sp .ram n = true → storedByte u .ram n = storedByte u .ram n := by
  subst h
  exact ⟨by decide, serviceNmi_entry _ |>.1, rfl, fun _ _ => rfl⟩

/-- The three cases of the poll: NMI and IRQ together, an IRQ that I lets through, one that it masks. -/
theorem witness_InterruptServiceResult :
    let irq (p : Byte) (nmi : Bool) : State :=
      { start (fun c => { c with p := p, nmiPending := nmi }) [] with apu := { Apu.create with frameIrq := true } }
    ((irq 0x20 true).cpu.nmiPending = true) ∧
    ((irq 0x20 false).cpu.nmiPending = false ∧ (irq 0x20 false).apu.frameIrq = true ∧
      (irq 0x20 false).cpu.p.getLsbD 2 = false) ∧
    ((irq 0x24 false).cpu.nmiPending = false ∧ (irq 0x24 false).cpu.p.getLsbD 2 = true) := by decide

theorem witness_NmiCountdownExpires :
    let s (d : Nat) : State := { State.reset with sched := { Sched.reset with nmiCountdown := BitVec.ofNat 8 d } }
    1 ≤ 255 ∧ 255 ≤ 255 ∧ (s 255).params.nmiDelay ≠ 0 ∧ (s 255).sched.nmiCountdown = BitVec.ofNat 8 255 ∧
      (s 1).sched.nmiCountdown = BitVec.ofNat 8 1 := by decide

/-- The edge clauses: none, at once, merged into a running countdown or a pending NMI, a countdown of
the least and the greatest delay; then the VBlank set and the PPUCTRL write. -/
theorem witness_NmiCountdownExpires_edges :
    let s (delay : Nat) (edge : Bool) (cd : Byte) (pending : Bool) (ctrl : Byte) : State :=
      { State.reset with
        params := { Params.default with nmiDelay := delay, pendingNmiMergesEdge := true }
        ppu := { Ppu.reset with nmiEdge := edge, ctrl := ctrl, vblank := true, scanline := 241, cycle := 1 }
        sched := { Sched.reset with nmiCountdown := cd }
        cpu := { Cpu.reset with nmiPending := pending } }
    let idle (t : State) : Prop := t.sched.nmiCountdown = 0 ∧ t.cpu.nmiPending = false
    let merged (t : State) : Prop := t.sched.nmiCountdown ≠ 0 ∨
      (t.params.pendingNmiMergesEdge = true ∧ t.cpu.nmiPending = true)
    (s 0 false 0 false 0).ppu.nmiEdge = false ∧
    ((s 0 true 0 false 0).ppu.nmiEdge = true ∧ (s 0 true 0 false 0).params.nmiDelay = 0) ∧
    ((s 2 true 1 false 0).params.nmiDelay ≠ 0 ∧ merged (s 2 true 1 false 0) ∧ merged (s 2 true 0 true 0) ∧
      ¬merged (s 2 true 0 false 0)) ∧
    (1 ≤ (s 1 true 0 false 0).params.nmiDelay ∧ (s 255 true 0 false 0).params.nmiDelay ≤ 255 ∧
      idle (s 1 true 0 false 0) ∧ idle (s 255 true 0 false 0)) ∧
    (idle (s 255 false 0 false 0x80) ∧ (s 255 false 0 false 0x80).ppu.scanline = 241 ∧
      (s 255 false 0 false 0x80).ppu.cycle = 1 ∧ (s 255 false 0 false 0x80).ppu.ctrl.getLsbD 7 = true) ∧
    ((s 0 false 0 false 0x7F).ppu.vblank = true ∧ (s 0 false 0 false 0x7F).ppu.ctrl.getLsbD 7 = false ∧
      (0x80 : Byte).getLsbD 7 = true) := by decide

/-- An edge while an NMI is pending: no countdown by R703 and R1104, one of the delay by R1103; with
none pending there is one in both readings. -/
theorem test_nmi_edge_pending :
    let s (merges pending : Bool) : State :=
      { State.reset with
        params := { Params.default with pendingNmiMergesEdge := merges }
        ppu := { Ppu.reset with nmiEdge := true }
        cpu := { Cpu.reset with nmiPending := pending } }
    ((takeEdge (s true true)).sched.nmiCountdown, (takeEdge (s true true)).ppu.nmiEdge,
      (takeEdge (s false true)).sched.nmiCountdown, (takeEdge (s true false)).sched.nmiCountdown) =
      (0, false, 2, 2) := by decide

/-- R1039 and R1036: the level of sequence step 0 is 15; a length of 0 holds it or silences it. -/
theorem test_triangle_out :
    let c (n : Byte) : Triangle := { Triangle.reset with length := n }
    (triangleOut false (c 0), triangleOut true (c 0), triangleOut true (c 1)) = (15, 0, 15) := by decide

/-- A cartridge of one PRG bank, all 0x00, with CHR-RAM. -/
def smallCart (m : Mapper) : Cartridge :=
  { mapper := m, nprg := 1, nchr := 0, prgRom := [], chr := [], prgRam := [], hdrMirror := .horizontal,
    fourScreen := false, battery := false }

def withCart (m : Mapper) (s : State) : State := { s with cart := some (smallCart m) }

/-- An image of one PRG bank: a header and `n` more bytes. -/
def image (nprg f6 : Byte) (n : Nat) : List Byte :=
  [0x4E, 0x45, 0x53, 0x1A, nprg, 0, f6, 0, 0, 0, 0, 0, 0, 0, 0, 0] ++ List.replicate n 0

theorem image_getD (nprg f6 : Byte) (n : Nat) :
    (image nprg f6 n).getD 4 0 = nprg ∧ (image nprg f6 n).getD 5 0 = 0 ∧ (image nprg f6 n).getD 6 0 = f6 ∧
      (image nprg f6 n).getD 7 0 = 0 ∧ (image nprg f6 n).take 4 = [0x4E, 0x45, 0x53, 0x1A] ∧
      (image nprg f6 n).length = 16 + n := by
  refine ⟨rfl, rfl, rfl, rfl, rfl, ?_⟩
  rw [image, List.length_append, List.length_replicate]
  rfl

theorem image_loads (s : State) : ∃ t, loadRom (image 1 0 16384) none s = .ok t := by
  obtain ⟨h4, h5, h6, h7, ht, hl⟩ := image_getD 1 0 16384
  have hp : romProblem (image 1 0 16384) = none := by
    unfold romProblem
    simp only [h4, h5, h6, h7, ht, hl]
    decide
  unfold loadRom
  rw [hp]
  exact ⟨_, rfl⟩

theorem witness_ResetVectorProperty :
    (mapperRead (withCart .fixedBank State.reset).params (withCart .fixedBank State.reset).cart 0xFFFC = some 0 ∧
      mapperRead (withCart .fixedBank State.reset).params (withCart .fixedBank State.reset).cart 0xFFFD = some 0) ∧
    ((image 1 0 16384).getD 4 0 = 1 ∧ ((image 1 0 16384).getD 6 0).getLsbD 2 = false ∧
      romMapperId ((image 1 0 16384).getD 6 0) ((image 1 0 16384).getD 7 0) = 0 ∧
      ∃ t, loadRom (image 1 0 16384) none State.reset = .ok t) :=
  ⟨⟨rfl, rfl⟩, rfl, rfl, rfl, image_loads _⟩

theorem witness_RamReadAfterWrite : (0x1FFF : Word).toNat < 0x2000 ∧ (0x07FF : Word).toNat < 0x2000 ∧
    (0x07FF : Word).toNat % 0x800 = (0x1FFF : Word).toNat % 0x800 := by decide

theorem witness_OamDmaCopies : (0x1F : Byte).toNat < 0x20 ∧ 255 < 256 := by decide

theorem witness_ControllerReads : (0x01 : Byte).getLsbD 0 = true ∧ (0xFE : Byte).getLsbD 0 = false ∧ 7 < 8 ∧ ¬8 < 8 := by
  decide

/-- The first and the last mirror of PPUSTATUS. -/
theorem witness_StatusRead : (0x2000 ≤ (0x2002 : Word).toNat ∧ (0x2002 : Word).toNat ≤ 0x3FFF ∧ (0x2002 : Word).toNat % 8 = 2) ∧
    (0x2000 ≤ (0x3FFA : Word).toNat ∧ (0x3FFA : Word).toNat ≤ 0x3FFF ∧ (0x3FFA : Word).toNat % 8 = 2) := by decide

theorem witness_AddressAndScrollWrites : State.reset.ppu.w = false := rfl

/-- A byte of each kind that a PPUDATA write reaches, at the ends of its range. -/
theorem witness_DataWrite :
    vramCell (withCart .fixedBank State.reset) 0x1FFF = some (.chr, 0x1FFF) ∧
    vramCell (withCart .fixedBank State.reset) 0x2000 = some (.nametable, 0) ∧
    vramCell (withCart .fixedBank State.reset) 0x3EFF = some (.nametable, 0x6FF) ∧
    vramCell (withCart .fixedBank State.reset) 0x3F10 = some (.palette, 0) ∧
    vramCell (withCart .fixedBank State.reset) 0x3FFF = some (.palette, 0x1F) := by decide

/-- The clause in numbers: a cartridge whose nametable RAM has the size it asks for. -/
theorem witness_DataWrite_cells :
    (withCart .fixedBank State.reset).cart = some (smallCart .fixedBank) ∧
    (smallCart .fixedBank).fourScreen = (withCart .fixedBank State.reset).ppu.ntFour := by decide

/-- A byte of CHR-RAM and the pattern range with and without a cartridge. -/
theorem witness_DataRead :
    vramCell (withCart .fixedBank State.reset) 0x0000 = some (.chr, 0) ∧
    vramCell State.reset 0x3F00 = some (.palette, 0) ∧ (0x1FFF : BitVec 14).toNat < 0x2000 := by decide

/-- Each register at the first and the last mirror. -/
theorem witness_RegisterWrites :
    0x2000 ≤ (0x2000 : Word).toNat ∧ (0x3FFF : Word).toNat ≤ 0x3FFF ∧
    (List.range 8).map (fun k => (0x2000 + k) % 8) = [0, 1, 2, 3, 4, 5, 6, 7] ∧
    (List.range 8).map (fun k => (0x3FF8 + k) % 8) = [0, 1, 2, 3, 4, 5, 6, 7] ∧
    (6 : Nat) ∈ [0, 1, 3, 5, 6] := by decide

theorem witness_FrameLength : Ppu.reset.scanline ≤ 261 ∧ Ppu.reset.cycle ≤ 340 ∧
    ({ Ppu.reset with scanline := 261, cycle := 340 } : Ppu).scanline ≤ 261 ∧ (89342 = 89342) := by decide

theorem witness_VblankWindow :
    let p : Ppu := { Ppu.reset with scanline := 241, cycle := 1 }
    p.scanline = 241 ∧ p.cycle = 1 ∧ 1 ≤ 6820 ∧ 6820 ≤ 6821 ∧ 6821 ≤ 6821 := by decide

/-- Line 0 with an OAM of zeros: all 64 sprites are in range, eight are found and the ninth overflows. -/
theorem witness_SpriteEvaluation :
    (evaluateSprites Ppu.reset).sprNext.length = 8 ∧ (evaluateSprites Ppu.reset).ovf = true := by decide

theorem witness_SerialBankSwitch :
    let r : SerialRegs := ⟨0x1F, 4, 0, 0, 0, 0x1F⟩
    let s := withCart (.serialShift r) State.reset
    s.cart = some (smallCart (.serialShift r)) ∧ (smallCart (.serialShift r)).mapper = .serialShift r ∧
    1 ≤ (smallCart (.serialShift r)).nprg.toNat ∧ 0x8000 ≤ (0x8000 : Word).toNat ∧ 0xE000 ≤ (0xE000 : Word).toNat ∧
    (0x80 : Byte).getLsbD 7 = true ∧ (0x01 : Byte).getLsbD 7 = false ∧ (0x00 : Byte).getLsbD 7 = false ∧
    (0x01 : Byte).getLsbD 0 = (0xF : BitVec 4).getLsbD 0 ∧ (0x01 : Byte).getLsbD 0 = (0xF : BitVec 4).getLsbD 1 ∧
    (0x01 : Byte).getLsbD 0 = (0xF : BitVec 4).getLsbD 2 ∧ (0x01 : Byte).getLsbD 0 = (0xF : BitVec 4).getLsbD 3 ∧
    (0x00 : Byte).getLsbD 0 = false := by decide

/-- An image for each clause: a wrong header, no PRG bank, mapper 4, one byte short, one byte too
long, and a valid one. -/
theorem witness_RomChecksInOrder :
    (([] : List Byte).length < 16) ∧
    ((image 0 0 0).length = 16 + 0 ∧ (image 0 0 0).getD 4 0 = 0) ∧
    ((image 1 0x40 0).getD 4 0 ≠ 0 ∧ romMapperId ((image 1 0x40 0).getD 6 0) ((image 1 0x40 0).getD 7 0) = 4) ∧
    ((image 1 0 16383).getD 4 0 ≠ 0 ∧ romMapperId ((image 1 0 16383).getD 6 0) ((image 1 0 16383).getD 7 0) = 0 ∧
      (image 1 0 16383).length < romLength 1 0 0) ∧
    (romMapperId ((image 1 0x10 16385).getD 6 0) ((image 1 0x10 16385).getD 7 0) = 1 ∧
      romLength 1 0 0x10 < (image 1 0x10 16385).length) ∧
    (image 1 0 16384).length = romLength 1 0 0 := by
  simp only [(image_getD _ _ _).2.2.2.2.2]
  decide

/-- Each clause at the ends of the level's range. -/
theorem witness_DmcLevelLaw :
    let d (l : BitVec 7) (b : Byte) (q : Bool) : Dmc := { Dmc.reset with level := l, shift := b, silence := q }
    (d 127 1 true).silence = true ∧
    ((d 126 1 false).silence = false ∧ (d 126 1 false).shift.getLsbD 0 = true) ∧
    ((d 1 0 false).silence = false ∧ (d 1 0 false).shift.getLsbD 0 = false) := by decide

theorem witness_FrameSequence :
    let u (m : Bool) : Apu := { Apu.create with fsMode := m }
    (u false).fsCounter = 0 ∧ (u false).fsMode = false ∧ 29830 ≤ 29830 ∧
      (u true).fsCounter = 0 ∧ (u true).fsMode = true ∧ 37282 ≤ 37282 := by decide

theorem witness_HostAccessors : 9 ≤ 9 ∧ 8 ≤ 8 ∧ 2 ≤ 2 := by decide

theorem nopState_inv : nopState.Inv where
  cpu := ⟨by decide⟩
  bus := ⟨by decide, by decide⟩
  ppu := ⟨by decide, by decide, by decide, by decide, by decide, by decide, by decide, by decide, by decide,
    by decide, by decide, fun _ => rfl⟩
  apu := ⟨by decide, by decide, by decide, by decide, by decide, by decide, by decide, by decide, by decide, by decide⟩
  host := ⟨⟨by decide, by decide⟩, by decide, Nat.zero_le _⟩
  cart := fun c h => by cases h

theorem nopState_mixer : nopState.apu.mixer.Inv :=
  ⟨f64_one.1, f64_one.1, f64_one.1, f64_one.1, f64_one.1, f64_one.1, by decide⟩

theorem nopState_runs : ∃ t, step nopState = .next t := goesOn_next (by decide +kernel)

theorem witness_StepKeepsInvariant : nopState.Inv ∧ ∃ t, step nopState = .next t :=
  ⟨nopState_inv, nopState_runs⟩

theorem witness_StepKeepsRealsFinite : nopState.apu.mixer.Inv ∧ ∃ t, step nopState = .next t :=
  ⟨nopState_mixer, nopState_runs⟩

theorem witness_LoadAfterSave : nopState.Inv ∧ nopState.apu.mixer.Inv ∧
    State.reset.params = nopState.params ∧ SameCartridge nopState State.reset :=
  ⟨nopState_inv, nopState_mixer, rfl, rfl⟩

/-- The blob is accepted. -/
def loads (blob : List Byte) (s : State) : Bool := match load blob s with | .ok _ => true | .error _ => false

theorem loads_ok {blob : List Byte} {s : State} (h : loads blob s = true) : ∃ t, load blob s = .ok t := by
  unfold loads at h
  split at h
  · exact ⟨_, ‹_›⟩
  · simp at h

theorem witness_SaveAfterLoad : ∃ t, load (save nopState) nopState = .ok t := loads_ok (by decide +kernel)

end Sys2Proof.Tests
end

section
/-! SUPPORT. Proofs of the encoding statements: the opcode map, and the addresses of the operand modes
(`30_encoding` R302-R306, R324-R332). -/

namespace Sys2Proof

/-! ### The opcode map (R302, R304, R306) -/

/-- The instruction is none of the illegal ones. -/
def Instr.documented : Instr → Bool
  | .illegal _ => false
  | _ => true

theorem Instr.ne_illegal_of_documented {i : Instr} (h : i.documented = true) (q : Byte) : i ≠ .illegal q := by
  rintro rfl
  cases h

/-- The cell of the map is empty. -/
def OpcodeEntry.isIll : OpcodeEntry → Bool
  | .ill => true
  | _ => false

/-- What a cell makes of its operand is a documented instruction; an empty cell makes nothing. -/
def OpcodeEntry.documented (b : Byte) (w : Word) : OpcodeEntry → Bool
  | .one i => i.documented
  | .two f => (f b).documented
  | .three f => (f w).documented
  | .ill => true

/-- The operands stay variables: a cell's constructor alone decides. -/
theorem opcodeMap_documented (b : Byte) (w : Word) : opcodeMap.all (·.documented b w) = true := by
  simp only [opcodeMap, List.all_append, Bool.and_eq_true]
  and_intros <;> rfl

theorem opcodeEntry_documented (op b : Byte) (w : Word) : (opcodeEntry op).documented b w = true := by
  rw [opcodeEntry, List.getD_eq_getElem?_getD]
  cases h : opcodeMap[op.toNat]? with
  | none => rfl
  | some e => exact List.all_eq_true.1 (opcodeMap_documented b w) e (List.mem_of_getElem? h)

/-- R306 lists the bytes of the empty cells, in ascending order. -/
theorem illegalBytes_eq_filter :
    illegalBytes = ((List.range 256).map (BitVec.ofNat 8)).filter fun op => (opcodeEntry op).isIll := by
  decide +kernel

/-- The empty cells are at the bytes R306 lists, and nowhere else. -/
theorem opcodeEntry_isIll (op : Byte) : (opcodeEntry op).isIll = illegalBytes.contains op := by
  have hop : op ∈ (List.range 256).map (BitVec.ofNat 8) :=
    List.mem_map.2 ⟨op.toNat, List.mem_range.2 op.isLt, BitVec.ofNat_toNat 8 op⟩
  rw [Bool.eq_iff_iff, List.contains_iff_mem, illegalBytes_eq_filter, List.mem_filter]
  exact (and_iff_right hop).symm

theorem decodeBytes_documented {op : Byte} (h : op ∉ illegalBytes) (b1 b2 : Byte) :
    (decodeBytes op b1 b2).documented = true := by
  have hdoc := opcodeEntry_documented op b1 (wordOf b2 b1)
  have hill : (opcodeEntry op).isIll = false := by
    rw [opcodeEntry_isIll]; simpa using h
  unfold decodeBytes
  cases he : opcodeEntry op with
  | ill => rw [he] at hill; cases hill
  | one i => rwa [he] at hdoc
  | two f => rwa [he] at hdoc
  | three f => rwa [he] at hdoc

/-- Three bytes are enough for every opcode byte; those past the length are left (R300, R301). -/
theorem decode_three_bytes (op b1 b2 : Byte) :
    decode [op, b1, b2] = .ok (decodeBytes op b1 b2, [b1, b2].drop (opcodeLength op - 1)) := by
  rcases opcodeLength_cases op with h | h | h
  · rw [decode_one h, decodeBytes_one h b1 b2, h]; rfl
  · rw [decode_two h, decodeBytes_two h b1 b2, h]; rfl
  · rw [decode_three h, h]; rfl

theorem illegalBytes_nodup : illegalBytes.Nodup := by decide +kernel

theorem documentedBytes_count :
    ((List.range 256).filter fun n => !illegalBytes.contains (BitVec.ofNat 8 n)).length = 151 := by
  simp only [← opcodeEntry_isIll]
  decide +kernel

/-- Settles O4: three bytes always decode, and the empty cells of the map are those of R306. -/
theorem decodingIsTotal : Obligations.DecodingIsTotal := by
  refine ⟨fun op b1 b2 => ⟨_, _, decode_three_bytes op b1 b2, ?_, fun h => ?_, fun h q => ?_⟩,
    illegalBytes_nodup, rfl, documentedBytes_count⟩
  · simp
  · have hc : illegalBytes.contains op = true := by simpa using h
    rw [illegal_decode hc, illegal_length hc]
    exact ⟨rfl, rfl⟩
  · exact Instr.ne_illegal_of_documented (decodeBytes_documented h b1 b2) q

namespace Machine

/-! ### Direct addresses (R324-R329) -/

/-- The sum of two bytes as an address stays in the zero page. -/
theorem toNat_zeroPage_add (b r : Byte) : ((b + r).setWidth 16 : Word).toNat = (b.toNat + r.toNat) % 256 := by
  rw [BitVec.toNat_setWidth_of_le (by decide), BitVec.toNat_add]

theorem toNat_word_add_byte (w : Word) (r : Byte) :
    (w + r.setWidth 16).toNat = (w.toNat + r.toNat) % 65536 := by
  rw [BitVec.toNat_add, BitVec.toNat_setWidth_of_le (by decide)]

/-- An indexed word in numbers: the sum modulo 65536, crossed when the page changes (R328, R329). -/
theorem pageDiffers_word_add_byte (w : Word) (r : Byte) :
    pageDiffers w (w + r.setWidth 16) =
      decide (w.toNat / 256 ≠ (w.toNat + r.toNat) % 65536 / 256) := by
  rw [pageDiffers_eq, pageOf, pageOf, toNat_word_add_byte]

/-- The row does not use `zp,Y`, or is one of LDX and STX (R327). -/
def zpYOnlyLdxStx : Row → Bool
  | .read op (.mem (.zpY _)) => op == .ldx
  | .store op (.zpY _) => op == .stx
  | .rmw _ (.zpY _) => false
  | _ => true

theorem row_zpYOnlyLdxStx (i : Instr) : zpYOnlyLdxStx i.row = true := by
  cases i <;> rfl

/-- Settles O9, mode by mode; the last part is read off the rows of R305. -/
theorem directAddresses : Obligations.DirectAddresses := by
  refine ⟨fun b1 b2 s => ?_, fun i b => ⟨fun op h => ?_, fun op h => ?_, fun op h => ?_⟩⟩
  · have hw : (wordOf b2 b1).toNat = b1.toNat + 256 * b2.toNat := wordOf_toNat b2 b1
    simp only [← hw]
    refine ⟨?zp, ?zpX, ?zpY, ?abs, ?absX, ?absY⟩
    case zp => exact ⟨BitVec.toNat_setWidth_of_le (by decide), rfl, rfl, rfl⟩
    case zpX => exact ⟨toNat_zeroPage_add b1 s.cpu.x, rfl, rfl, rfl⟩
    case zpY => exact ⟨toNat_zeroPage_add b1 s.cpu.y, rfl, rfl, rfl⟩
    case abs => exact ⟨rfl, rfl, rfl, rfl⟩
    case absX => exact ⟨toNat_word_add_byte _ s.cpu.x, pageDiffers_word_add_byte _ s.cpu.x, rfl, rfl⟩
    case absY => exact ⟨toNat_word_add_byte _ s.cpu.y, pageDiffers_word_add_byte _ s.cpu.y, rfl, rfl⟩
  all_goals
    have hrow := row_zpYOnlyLdxStx i
    rw [h] at hrow
  · exact eq_of_beq hrow
  · exact eq_of_beq hrow
  · cases hrow

/-! ### Indirect addresses (R331, R332) -/

/-- The word at a pointer in the zero page, its second address wrapped. -/
def zeroPageWord (s : State) (n : Nat) : Word :=
  wordOf (memGet s.bus.ram ((n + 1) % 256)) (memGet s.bus.ram (n % 256))

theorem zeroPageWord_toNat (s : State) (n : Nat) :
    (zeroPageWord s n).toNat =
      (memGet s.bus.ram (n % 256)).toNat + 256 * (memGet s.bus.ram ((n + 1) % 256)).toNat :=
  wordOf_toNat _ _

/-- The pointer reads of both indirect modes: the word, and the latch at its high byte. -/
theorem memReadPair_pointer (b : Byte) (s : State) {n : Nat} (hn : b.toNat = n % 256) :
    memReadPair (b.setWidth 16) ((b + 1).setWidth 16) s =
      (zeroPageWord s n, latchBus (memGet s.bus.ram ((n + 1) % 256)) s) := by
  have hsucc : (b + 1).toNat = (n + 1) % 256 := by
    rw [BitVec.toNat_add, hn]; simp
  rw [memReadPair_zeroPage, hn, hsucc, zeroPageWord]

theorem resolve_indX (b : Byte) (s : State) :
    resolve (.indX b) s =
      { ea := zeroPageWord s (b.toNat + s.cpu.x.toNat)
        crossed := false
        state := latchBus (memGet s.bus.ram ((b.toNat + s.cpu.x.toNat + 1) % 256)) s } := by
  simp only [resolve, memReadPair_pointer (b + s.cpu.x) s (BitVec.toNat_add b s.cpu.x)]

theorem resolve_indY (b : Byte) (s : State) :
    resolve (.indY b) s =
      { ea := zeroPageWord s b.toNat + s.cpu.y.setWidth 16
        crossed := pageDiffers (zeroPageWord s b.toNat) (zeroPageWord s b.toNat + s.cpu.y.setWidth 16)
        state := latchBus (memGet s.bus.ram ((b.toNat + 1) % 256)) s } := by
  simp only [resolve, memReadPair_pointer b s (Nat.mod_eq_of_lt b.isLt).symm]

/-- Settles O10, from the closed forms of the two modes. -/
theorem indirectAddresses : Obligations.IndirectAddresses := by
  intro b s
  simp only [resolve_indX, resolve_indY, ← zeroPageWord_toNat, true_and]
  exact ⟨rfl, toNat_word_add_byte _ _, pageDiffers_eq _ _, rfl⟩

end Machine

end Sys2Proof
end

section
/-! SUPPORT. Proofs of the loads, stores and transfers (`40_load_store_transfer` R400-R411): every row
of R305 is one frame of its kind, and the frame's closed form gives the claim. -/

namespace Sys2Proof.Machine

/-! ### The rows of the reading mnemonics -/

/-- The effect of a reading mnemonic, given its operand. -/
def readOp : ReadOp → Byte → State → State
  | .lda => opLda
  | .ldx => opLdx
  | .ldy => opLdy
  | .adc => opAdc
  | .sbc => opSbc
  | .and => opAnd
  | .ora => opOra
  | .eor => opEor
  | .bit => opBit
  | .cmp => opCmp
  | .cpx => opCpx
  | .cpy => opCpy

/-- The modes that can cross a page (R328, R329, R332). -/
def mayCross : ReadMode → Bool
  | .mem (.absX _) => true
  | .mem (.absY _) => true
  | .mem (.indY _) => true
  | _ => false

theorem readOperand_crossed_of_not_mayCross {m : ReadMode} (h : mayCross m = false) (s : State) :
    (readOperand m s).crossed = false := by
  cases m with
  | imm b => rfl
  | mem am =>
    cases am
    case absX | absY | indY => cases h
    all_goals rfl

/-- What R305 says of a row of the reading mnemonic `op`, in terms of the model: the opcode byte is
its own, length and penalty are those of its mode, and it executes as a read with the effect of `op`. -/
structure ReadRowSpec (op : ReadOp) (b1 b2 : Byte) (r : TableRow ReadMode) : Prop where
  decodes : decodeBytes r.opcode b1 b2 = r.instr
  length : readLength r.mode = r.length
  penalty : mayCross r.mode = r.penalty
  exec_eq : ∀ s, exec r.instr s = readInstr r.mode r.cycles (readOp op) s

theorem readRows_spec (op : ReadOp) (b1 b2 : Byte) :
    ∀ r ∈ readRows op b1 (wordOf b2 b1), ReadRowSpec op b1 b2 r := by
  cases op
  all_goals
    simp only [readRows, List.forall_mem_cons, List.not_mem_nil, false_imp_iff, implies_true,
      and_true]
    and_intros
  all_goals exact ⟨rfl, rfl, rfl, fun _ => rfl⟩

/-- A row whose effect on its operand is one on CPU registers other than PC and the counter: its bytes
decode to it, and it ends in `afterRead` with those registers. -/
theorem exec_readRow {op : ReadOp} {b1 b2 : Byte} {r : TableRow ReadMode} {s : State} {c : Cpu}
    (hr : r ∈ readRows op b1 (wordOf b2 b1))
    (hf : readOp op (readOperand r.mode s).value (readOperand r.mode s).state =
      { (readOperand r.mode s).state with cpu := c })
    (hpc : c.pc = s.cpu.pc) (hcy : c.cycles = s.cpu.cycles) :
    decodeBytes r.opcode b1 b2 = r.instr ∧
      exec r.instr s = .next (afterRead r (readOperand r.mode s) s c) := by
  obtain ⟨hdec, hlen, hpen, hexec⟩ := readRows_spec op b1 b2 r hr
  refine ⟨hdec, (hexec s).trans ?_⟩
  exact readInstr_eq r (readOp op) s c hlen r.cycles rfl
    (fun h => readOperand_crossed_of_not_mayCross (hpen.trans h) s) hf hpc hcy

/-! ### Loads (R400-R402) -/

theorem opLda_eq (v : Byte) (s : State) :
    opLda v s = { s with cpu := { s.cpu with a := v, p := pNZ v s.cpu.p } } := by
  rw [← withNZ_eq]; rfl

theorem opLdx_eq (v : Byte) (s : State) :
    opLdx v s = { s with cpu := { s.cpu with x := v, p := pNZ v s.cpu.p } } := by
  rw [← withNZ_eq]; rfl

theorem opLdy_eq (v : Byte) (s : State) :
    opLdy v s = { s with cpu := { s.cpu with y := v, p := pNZ v s.cpu.p } } := by
  rw [← withNZ_eq]; rfl

/-- Settles O12: each row is a read with the load's effect, and reading the operand keeps the CPU. -/
theorem loadResult : Obligations.LoadResult := by
  refine fun b1 b2 s => ⟨fun r hr => ?lda, fun r hr => ?ldx, fun r hr => ?ldy⟩
  case lda => exact exec_readRow hr (by rw [readOp, opLda_eq, readOperand_cpu]) rfl rfl
  case ldx => exact exec_readRow hr (by rw [readOp, opLdx_eq, readOperand_cpu]) rfl rfl
  case ldy => exact exec_readRow hr (by rw [readOp, opLdy_eq, readOperand_cpu]) rfl rfl

/-! ### Stores (R403-R405) -/

/-- The register a store writes. -/
def storedRegister (op : StoreOp) (c : Cpu) : Byte :=
  match op with
  | .sta => c.a
  | .stx => c.x
  | .sty => c.y

/-- What R305 says of a row of the store `op`, in terms of the model: the opcode byte, the length, and
the register it stores in the row's cycles. -/
structure StoreRowSpec (op : StoreOp) (b1 b2 : Byte) (r : TableRow AddrMode) : Prop where
  decodes : decodeBytes r.opcode b1 b2 = r.instr
  length : modeLength r.mode = r.length
  exec_eq : ∀ s, exec r.instr s = storeInstr r.mode r.cycles (storedRegister op s.cpu) s

theorem storeRows_spec (op : StoreOp) (b1 b2 : Byte) :
    ∀ r ∈ storeRows op b1 (wordOf b2 b1), StoreRowSpec op b1 b2 r := by
  cases op
  all_goals
    simp only [storeRows, List.forall_mem_cons, List.not_mem_nil, false_imp_iff, implies_true,
      and_true]
    and_intros
  all_goals exact ⟨rfl, rfl, fun _ => rfl⟩

/-- A store row in closed form: one write at the effective address, and the CPU retired with the row's
length and cycles. -/
theorem exec_storeRow {op : StoreOp} {b1 b2 : Byte} {r : TableRow AddrMode}
    (hr : r ∈ storeRows op b1 (wordOf b2 b1)) (s : State) :
    exec r.instr s =
      .next { memWrite (resolve r.mode s).ea (storedRegister op s.cpu) (resolve r.mode s).state with
        cpu := retired r.length r.cycles s.cpu } := by
  obtain ⟨-, hlen, hexec⟩ := storeRows_spec op b1 b2 r hr
  rw [hexec, storeInstr_eq, hlen]

/-- Settles O13, from the closed form of a store row. -/
theorem storeResult : Obligations.StoreResult :=
  fun op b1 b2 s r hr => ⟨(storeRows_spec op b1 b2 r hr).decodes, exec_storeRow hr s⟩

/-! ### Transfers (R406-R411) -/

/-- Settles O15: a transfer is a load of the source register, and TXS writes SP alone. -/
theorem transferResult : Obligations.TransferResult := by
  intro s
  refine ⟨rfl, ?tax, rfl, ?tay, rfl, ?txa, rfl, ?tya, rfl, ?tsx, rfl, ?txs⟩
  case tax => exact regInstr_eq _ s _ (opLdx_eq s.cpu.a s)
  case tay => exact regInstr_eq _ s _ (opLdy_eq s.cpu.a s)
  case txa => exact regInstr_eq _ s _ (opLda_eq s.cpu.x s)
  case tya => exact regInstr_eq _ s _ (opLda_eq s.cpu.y s)
  case tsx => exact regInstr_eq _ s _ (opLdx_eq s.cpu.sp s)
  case txs => exact regInstr_eq (fun t => setSP t.cpu.x t) s _ rfl

end Sys2Proof.Machine
end

section
/-! SUPPORT. Proofs of the stack instructions (`41_stack` R450-R453): each is one push or one pull, and
the closed forms of those give the claim. -/

namespace Sys2Proof.Machine

theorem retire_eq (len n : Nat) (s : State) : retire len n s = { s with cpu := retired len n s.cpu } := rfl

/-! ### Pushes (R450, R451) -/

/-- The pushed form of P for PHP and BRK (R108): bits 5 and 4 set. -/
theorem pushedP_true (p : Byte) : pushedP true p = (p &&& 0xCF) ||| 0x30 := by
  simp [pushedP, BitVec.or_assoc]

/-- A push and the end of its instruction, in closed form. -/
theorem retire_push (len n : Nat) (v : Byte) (s : State) :
    retire len n (push v s) =
      { s with
        cpu := retired len n { s.cpu with sp := s.cpu.sp - 1 }
        bus := { s.bus with openBus := v, ram := memSet s.bus.ram (stackCell s.cpu.sp) v } } := by
  rw [retire_eq, push_eq]

/-- The byte a push leaves at the old SP. -/
theorem storedByte_retire_push (len n : Nat) (v : Byte) (s : State) :
    storedByte (retire len n (push v s)) .ram (stackCell s.cpu.sp) = some v := by
  rw [retire_push, storedByte, memGet_memSet_same]

/-- The frame of a push: only the cell at the old SP can change. -/
theorem retire_push_sameStorageBut (len n : Nat) (v : Byte) (s : State) :
    SameStorageBut (pushedCells 1 s.cpu.sp) s (retire len n (push v s)) := by
  intro k i hout
  rw [retire_push]
  cases k
  case ram =>
    have hne : i ≠ stackCell s.cpu.sp := by simpa [pushedCells] using hout
    simp only [storedByte, memGet_memSet_ne hne]
  all_goals rfl

theorem retire_push_onlyStackEffects (len n : Nat) (v : Byte) (s : State) :
    OnlyStackEffects s (retire len n (push v s)) := by
  rw [retire_push]; rfl

/-- What a push instruction of the byte `v` does: registers, the byte, the frame. -/
theorem exec_push {i : Instr} {v : Byte} {s : State} (hexec : exec i s = .next (retire 1 3 (push v s))) :
    ∃ t, exec i s = .next t ∧ t.cpu = retired 1 3 { s.cpu with sp := s.cpu.sp - 1 } ∧
      storedByte t .ram (stackCell s.cpu.sp) = some v ∧
      SameStorageBut (pushedCells 1 s.cpu.sp) s t ∧ OnlyStackEffects s t :=
  ⟨_, hexec, by rw [retire_push], storedByte_retire_push 1 3 v s,
    retire_push_sameStorageBut 1 3 v s, retire_push_onlyStackEffects 1 3 v s⟩

/-- Settles O16: PHA pushes A, and PHP the pushed form of P. -/
theorem pushResult : Obligations.PushResult := by
  refine fun s => ⟨rfl, rfl, ?pha, ?php⟩
  case pha => exact exec_push rfl
  case php =>
    rw [← pushedP_true]
    exact exec_push rfl

/-! ### Pulls (R452, R453) -/

/-- Settles O17: PLA loads A with the pulled byte as LDA does, and PLP writes all of P with it. -/
theorem pullResult : Obligations.PullResult := by
  refine fun s => ⟨rfl, rfl, ?pla, ?plp⟩
  case pla =>
    calc exec .pla s
      _ = .next (retire 1 4 (opLda (pull s).1 (pull s).2)) := rfl
      _ = _ := by rw [opLda_eq, retire_eq, pull_eq]; rfl
  case plp =>
    calc exec .plp s
      _ = .next (retire 1 4 (setP (pull s).1 (pull s).2)) := rfl
      _ = _ := by rw [retire_eq, pull_eq]; rfl

end Sys2Proof.Machine
end

section
/-! SUPPORT. Proofs of arithmetic and logic (`42_arithmetic_logic` R500-R514, R520-R523) and of the
shifts and rotates (`43_shift_rotate` R550-R553): every row is one frame of its kind, with the flags
of its operation. -/

namespace Sys2Proof.Machine

/-! ### Effects on the CPU in closed form -/

theorem opAdc_eq (m : Byte) (s : State) :
    opAdc m s = { s with
      cpu := { s.cpu with a := adcResult s.cpu.a m s.cpu.p, p := adcFlags s.cpu.a m s.cpu.p } } := rfl

theorem opSbc_eq (m : Byte) (s : State) :
    opSbc m s = { s with
      cpu := { s.cpu with a := sbcResult s.cpu.a m s.cpu.p, p := sbcFlags s.cpu.a m s.cpu.p } } := rfl

theorem opBit_eq (m : Byte) (s : State) :
    opBit m s = { s with cpu := { s.cpu with p := bitFlags s.cpu.a m s.cpu.p } } := rfl

theorem opAnd_eq (m : Byte) (s : State) : opAnd m s = opLda (s.cpu.a &&& m) s := rfl

theorem opOra_eq (m : Byte) (s : State) : opOra m s = opLda (s.cpu.a ||| m) s := rfl

theorem opEor_eq (m : Byte) (s : State) : opEor m s = opLda (s.cpu.a ^^^ m) s := rfl

theorem opCmp_eq (m : Byte) (s : State) :
    opCmp m s = { s with
      cpu := { s.cpu with p := pCNZ (decide (m.toNat ≤ s.cpu.a.toNat)) (s.cpu.a - m) s.cpu.p } } := by
  rw [← compareFlags_eq]; rfl

theorem opCpx_eq (m : Byte) (s : State) :
    opCpx m s = { s with
      cpu := { s.cpu with p := pCNZ (decide (m.toNat ≤ s.cpu.x.toNat)) (s.cpu.x - m) s.cpu.p } } := by
  rw [← compareFlags_eq]; rfl

theorem opCpy_eq (m : Byte) (s : State) :
    opCpy m s = { s with
      cpu := { s.cpu with p := pCNZ (decide (m.toNat ≤ s.cpu.y.toNat)) (s.cpu.y - m) s.cpu.p } } := by
  rw [← compareFlags_eq]; rfl

/-- The model's decrement (R513, R514) is subtraction modulo 256. -/
theorem add_255_eq_sub_one (v : Byte) : v + 255 = v - 1 := by rw [BitVec.sub_eq_add_neg]; rfl

/-! ### A and the flags after ADC, SBC and BIT (R500, R501, R505, R520-R522) -/

/-- Bytes that agree on the bits of a mask are equal under it. -/
theorem and_eq_and_of_bits {p q mask : Byte}
    (h : ∀ i < 8, mask.getLsbD i = true → p.getLsbD i = q.getLsbD i) : p &&& mask = q &&& mask :=
  byte_ext fun i hi => by
    rw [BitVec.getLsbD_and, BitVec.getLsbD_and]
    cases hm : mask.getLsbD i with
    | false => rw [Bool.and_false, Bool.and_false]
    | true => rw [h i hi hm]

section Flags

variable (a m p : Byte)

theorem adcFlags_carry :
    (adcFlags a m p).getLsbD 0 = decide (256 ≤ a.toNat + m.toNat + bitNat (flagC p)) := by
  rw [adcFlags_bit]; rfl

theorem adcFlags_zero : (adcFlags a m p).getLsbD 1 = decide (adcResult a m p = 0) := by
  rw [adcFlags_bit, if_pos rfl, beq_eq_decide]

theorem adcFlags_negative : (adcFlags a m p).getLsbD 7 = (adcResult a m p).getLsbD 7 := by
  rw [adcFlags_bit]; rfl

theorem adcFlags_overflow :
    (adcFlags a m p).getLsbD 6 = decide (a.toInt + m.toInt + bitNat (flagC p) < -128 ∨
      127 < a.toInt + m.toInt + bitNat (flagC p)) := by
  rw [adcFlags_bit, ← adcV_iff]; rfl

/-- ADC keeps I, D and bits 4 and 5 (R500, R522). -/
theorem adcFlags_kept : adcFlags a m p &&& 0x3C = p &&& 0x3C :=
  and_eq_and_of_bits fun i _ hi => by
    rw [adcFlags_bit, if_neg, if_neg, if_neg, if_neg] <;> rintro rfl <;> exact absurd hi (by decide)

theorem bitNat_le_one (b : Bool) : bitNat b ≤ 1 := by cases b <;> decide

theorem sbcResult_toNat :
    (sbcResult a m p).toNat = (a.toNat + (255 - m.toNat) + bitNat (flagC p)) % 256 := by
  rw [sbcResult, adcResult_toNat, xorFF_toNat]

/-- C after SBC is "no borrow": the carry out of adding the complement. -/
theorem sbcFlags_carry :
    (sbcFlags a m p).getLsbD 0 = decide (m.toNat + (1 - bitNat (flagC p)) ≤ a.toNat) := by
  have hm := m.isLt
  have hc := bitNat_le_one (flagC p)
  rw [sbcFlags, adcFlags_carry, xorFF_toNat, decide_eq_decide]
  omega

theorem sbcFlags_overflow :
    (sbcFlags a m p).getLsbD 6 =
      decide (a.toInt - m.toInt - (1 - (bitNat (flagC p) : Int)) < -128 ∨
        127 < a.toInt - m.toInt - (1 - (bitNat (flagC p) : Int))) := by
  rw [sbcFlags, adcFlags_overflow, xorFF_toInt, decide_eq_decide]
  omega

/-- Z of BIT is that of A & M (R505). -/
theorem bitFlags_zero : (bitFlags a m p).getLsbD 1 = decide (a &&& m = 0) := by
  rw [bitFlags_bit]; exact beq_eq_decide _ _

theorem bitFlags_negative : (bitFlags a m p).getLsbD 7 = m.getLsbD 7 := by
  rw [bitFlags_bit]; rfl

theorem bitFlags_overflow : (bitFlags a m p).getLsbD 6 = m.getLsbD 6 := by
  rw [bitFlags_bit]; rfl

theorem bitFlags_kept : bitFlags a m p &&& 0x3D = p &&& 0x3D :=
  and_eq_and_of_bits fun i _ hi => by
    rw [bitFlags_bit, if_neg, if_neg, if_neg] <;> rintro rfl <;> exact absurd hi (by decide)

end Flags

/-! ### The rows of ADC, SBC and BIT -/

/-- An ADC row in closed form. -/
theorem exec_adcRow {b1 b2 : Byte} {r : TableRow ReadMode}
    (hr : r ∈ readRows .adc b1 (wordOf b2 b1)) (s : State) :
    let m := (readOperand r.mode s).value
    decodeBytes r.opcode b1 b2 = r.instr ∧
      exec r.instr s = .next (afterRead r (readOperand r.mode s) s { s.cpu with
        a := adcResult s.cpu.a m s.cpu.p, p := adcFlags s.cpu.a m s.cpu.p }) :=
  exec_readRow hr (by rw [readOp, opAdc_eq, readOperand_cpu]) rfl rfl

/-- An SBC row in closed form. -/
theorem exec_sbcRow {b1 b2 : Byte} {r : TableRow ReadMode}
    (hr : r ∈ readRows .sbc b1 (wordOf b2 b1)) (s : State) :
    let m := (readOperand r.mode s).value
    decodeBytes r.opcode b1 b2 = r.instr ∧
      exec r.instr s = .next (afterRead r (readOperand r.mode s) s { s.cpu with
        a := sbcResult s.cpu.a m s.cpu.p, p := sbcFlags s.cpu.a m s.cpu.p }) :=
  exec_readRow hr (by rw [readOp, opSbc_eq, readOperand_cpu]) rfl rfl

/-- A BIT row in closed form: A is kept. -/
theorem exec_bitRow {b1 b2 : Byte} {r : TableRow ReadMode}
    (hr : r ∈ readRows .bit b1 (wordOf b2 b1)) (s : State) :
    let m := (readOperand r.mode s).value
    decodeBytes r.opcode b1 b2 = r.instr ∧
      exec r.instr s = .next (afterRead r (readOperand r.mode s) s { s.cpu with
        p := bitFlags s.cpu.a m s.cpu.p }) :=
  exec_readRow hr (by rw [readOp, opBit_eq, readOperand_cpu]) rfl rfl

/-- Settles O21: P is that of `bitFlags`, and its bits give the claim. -/
theorem bitResult : Obligations.BitResult := by
  intro b1 b2 s r hr
  obtain ⟨hdec, hexec⟩ := exec_bitRow hr s
  exact ⟨hdec, _, hexec, bitFlags_zero .., bitFlags_negative .., bitFlags_overflow ..,
    bitFlags_kept ..⟩

/-! ### AND, ORA and EOR (R502-R504) -/

/-- Settles O20: each loads A with the combined byte, as LDA does with its operand. -/
theorem logicResult : Obligations.LogicResult := by
  refine fun b1 b2 s => ⟨fun r hr => ?and, fun r hr => ?ora, fun r hr => ?eor⟩
  case and => exact exec_readRow hr (by rw [readOp, opAnd_eq, opLda_eq, readOperand_cpu]) rfl rfl
  case ora => exact exec_readRow hr (by rw [readOp, opOra_eq, opLda_eq, readOperand_cpu]) rfl rfl
  case eor => exact exec_readRow hr (by rw [readOp, opEor_eq, opLda_eq, readOperand_cpu]) rfl rfl

/-! ### The compares (R506-R508, R523) -/

/-- Settles O22: each sets P alone, by the comparison of its register. -/
theorem compareResult : Obligations.CompareResult := by
  refine fun b1 b2 s => ⟨fun r hr => ?cmp, fun r hr => ?cpx, fun r hr => ?cpy⟩
  case cmp => exact exec_readRow hr (by rw [readOp, opCmp_eq, readOperand_cpu]) rfl rfl
  case cpx => exact exec_readRow hr (by rw [readOp, opCpx_eq, readOperand_cpu]) rfl rfl
  case cpy => exact exec_readRow hr (by rw [readOp, opCpy_eq, readOperand_cpu]) rfl rfl

/-! ### INX, INY, DEX and DEY (R511-R514) -/

/-- Settles O23: each loads its register with the next or the previous value. -/
theorem indexStepResult : Obligations.IndexStepResult := by
  intro s
  refine ⟨rfl, ?inx, rfl, ?iny, rfl, ?dex, rfl, ?dey⟩
  case inx => exact regInstr_eq (fun t => opLdx (t.cpu.x + 1) t) s _ (opLdx_eq _ s)
  case iny => exact regInstr_eq (fun t => opLdy (t.cpu.y + 1) t) s _ (opLdy_eq _ s)
  case dex =>
    rw [← add_255_eq_sub_one]
    exact regInstr_eq (fun t => opLdx (t.cpu.x + 255) t) s _ (opLdx_eq _ s)
  case dey =>
    rw [← add_255_eq_sub_one]
    exact regInstr_eq (fun t => opLdy (t.cpu.y + 255) t) s _ (opLdy_eq _ s)

/-! ### Read-modify-write (R509, R510, R550-R553) -/

/-- The computation of a read-modify-write mnemonic: result and P from the byte and P. -/
def rmwOp : RmwOp → Byte → Byte → Byte × Byte
  | .asl => aslOp
  | .lsr => lsrOp
  | .rol => rolOp
  | .ror => rorOp
  | .inc => incOp
  | .dec => decOp

theorem rmwOp_eq (op : RmwOp) (v p : Byte) :
    rmwOp op v p =
      ((rmwResult op v (flagC p)).1,
        pCNZ (rmwResult op v (flagC p)).2 (rmwResult op v (flagC p)).1 p) := by
  cases op
  case asl => exact aslOp_eq v p
  case lsr => exact lsrOp_eq v p
  case rol => exact rolOp_eq v p
  case ror => exact rorOp_eq v p
  case inc => exact incOp_eq v p
  case dec => exact decOp_eq v p

/-- What R305 says of a row of the read-modify-write mnemonic `op` on memory, in terms of the model:
the opcode byte, the length, and the computation in the row's cycles. -/
structure RmwRowSpec (op : RmwOp) (b1 b2 : Byte) (r : TableRow AddrMode) : Prop where
  decodes : decodeBytes r.opcode b1 b2 = r.instr
  length : modeLength r.mode = r.length
  exec_eq : ∀ s, exec r.instr s = rmwInstr r.mode r.cycles (rmwOp op) s

theorem rmwRows_spec (op : RmwOp) (b1 b2 : Byte) :
    ∀ r ∈ rmwRows op b1 (wordOf b2 b1), RmwRowSpec op b1 b2 r := by
  cases op
  all_goals
    simp only [rmwRows, List.forall_mem_cons, List.not_mem_nil, false_imp_iff, implies_true,
      and_true]
    and_intros
  all_goals exact ⟨rfl, rfl, fun _ => rfl⟩

/-- A read-modify-write row in closed form: one read and one write at the effective address, P from
the result and the carry, and the CPU retired with the row's length and cycles. -/
theorem exec_rmwRow {op : RmwOp} {b1 b2 : Byte} {r : TableRow AddrMode}
    (hr : r ∈ rmwRows op b1 (wordOf b2 b1)) (s : State) :
    let a := resolve r.mode s
    let v := memRead a.ea a.state
    let out := rmwResult op v.1 (flagC s.cpu.p)
    exec r.instr s =
      .next { memWrite a.ea out.1 v.2 with
        cpu := retired r.length r.cycles { s.cpu with p := pCNZ out.2 out.1 s.cpu.p } } := by
  obtain ⟨-, hlen, hexec⟩ := rmwRows_spec op b1 b2 r hr
  rw [hexec, rmwInstr_eq, hlen]
  simp only [rmwOp_eq]

/-- The accumulator form in closed form: the computation on A. -/
theorem accInstr_rmwOp (op : RmwOp) (s : State) :
    let out := rmwResult op s.cpu.a (flagC s.cpu.p)
    accInstr (rmwOp op) s =
      .next { s with
        cpu := retired 1 2 { s.cpu with a := out.1, p := pCNZ out.2 out.1 s.cpu.p } } := by
  simp only [accInstr_eq, rmwOp_eq]

/-- Settles O24, from the closed forms of a memory row and of the accumulator form. -/
theorem readModifyWriteResult : Obligations.ReadModifyWriteResult := by
  refine ⟨fun op b1 b2 s r hr => ⟨(rmwRows_spec op b1 b2 r hr).decodes, exec_rmwRow hr s⟩,
    fun s => ?acc⟩
  simp only [List.forall_mem_cons, List.not_mem_nil, false_imp_iff, implies_true, and_true]
  exact ⟨⟨rfl, accInstr_rmwOp .asl s⟩, ⟨rfl, accInstr_rmwOp .lsr s⟩,
    ⟨rfl, accInstr_rmwOp .rol s⟩, ⟨rfl, accInstr_rmwOp .ror s⟩⟩

end Sys2Proof.Machine

/-! ### ADC and SBC in every form (R500, R501)

Outside the model's namespace, where `adcResult` and `sbcResult` name the operations themselves. -/

namespace Sys2Proof
open Machine

/-- Settles O18: A and P are those of the model's ADC, whose result and flags give the claim. -/
theorem adcResult : Obligations.AdcResult := by
  intro b1 b2 s r hr
  obtain ⟨hdec, hexec⟩ := exec_adcRow hr s
  exact ⟨hdec, _, _, hexec, adcResult_toNat .., adcFlags_carry .., adcFlags_zero ..,
    adcFlags_negative .., adcFlags_overflow .., adcFlags_kept ..⟩

/-- Settles O19: SBC is ADC of the operand's complement, so Z, N and the kept bits are ADC's. -/
theorem sbcResult : Obligations.SbcResult := by
  intro b1 b2 s r hr
  obtain ⟨hdec, hexec⟩ := exec_sbcRow hr s
  exact ⟨hdec, _, _, hexec, sbcResult_toNat .., sbcFlags_carry .., adcFlags_zero ..,
    adcFlags_negative .., sbcFlags_overflow .., adcFlags_kept ..⟩

end Sys2Proof
end

section
/-! SUPPORT. Proofs of the jumps, calls, returns and branches (`44_control_transfer` R600-R611): the
CPU they leave, and what pushing a word and reading a pointer leave unchanged. -/

namespace Sys2Proof.Machine

/-! ### Jumps (R600, R333) -/

/-- The pointer of JMP (abs) by its bytes: the second address stays in the page (R333). -/
theorem jumpTarget_wordOf (hi lo : Byte) (s : State) :
    jumpTarget (wordOf hi lo) s = memReadPair (wordOf hi lo) (wordOf hi (lo + 1)) s := by
  rw [jumpTarget, hiByte_wordOf, loByte_wordOf]

/-- JMP (abs): the reads of the pointer, then PC and the cycles. -/
theorem exec_jmpInd (w : Word) (s : State) :
    exec (.jmpInd w) s =
      .next { (jumpTarget w s).2 with
        cpu := { s.cpu with pc := (jumpTarget w s).1, cycles := s.cpu.cycles + 5 } } := by
  have hcpu : (jumpTarget w s).2.cpu = s.cpu := (memReadPair_onlyReadEffects _ _ s).cpu
  rw [← hcpu]
  rfl

/-- Settles O26: the indirect form reads its pointer as a pair within one page. -/
theorem jumpResult : Obligations.JumpResult := by
  refine fun b1 b2 s => ⟨rfl, rfl, rfl, ?ind, memReadPair_onlyReadEffects _ _ s⟩
  rw [exec_jmpInd, jumpTarget_wordOf]
  rfl

/-! ### Calls and returns (R601, R602) -/

/-- Two pushes in a row write different cells. -/
theorem stackCell_sub_one_ne (sp : Byte) : stackCell (sp - 1) ≠ stackCell sp := fun h => by
  have := stackCell_injective h
  bv_omega

/-- The CPU holds no byte of storage. -/
theorem storedByte_withCpu (s : State) (c : Cpu) (k : Storage) (n : Nat) :
    storedByte { s with cpu := c } k n = storedByte s k n := by
  cases k <;> rfl

/-- The high byte is pushed first, at the old SP (R113). -/
theorem storedByte_pushWord_hiByte (w : Word) (s : State) :
    storedByte (pushWord w s) .ram (stackCell s.cpu.sp) = some (hiByte w) := by
  rw [pushWord_eq, storedByte, memGet_memSet_ne (stackCell_sub_one_ne _).symm, memGet_memSet_same]

/-- The low byte is pushed second, one below (R113). -/
theorem storedByte_pushWord_loByte (w : Word) (s : State) :
    storedByte (pushWord w s) .ram (stackCell (s.cpu.sp - 1)) = some (loByte w) := by
  rw [pushWord_eq, storedByte, memGet_memSet_same]

/-- The frame of a pushed word: only the two cells from the old SP down can change. -/
theorem pushWord_sameStorageBut (w : Word) (s : State) :
    SameStorageBut (pushedCells 2 s.cpu.sp) s (pushWord w s) := by
  intro k n hout
  rw [pushWord_eq]
  cases k
  case ram =>
    obtain ⟨hhi, hlo⟩ : n ≠ stackCell s.cpu.sp ∧ n ≠ stackCell (s.cpu.sp - 1) := by
      simpa [pushedCells] using hout
    simp only [storedByte, memGet_memSet_ne hlo, memGet_memSet_ne hhi]
  all_goals rfl

/-- JSR: the pushed word, then PC and the cycles. -/
theorem exec_jsr (w : Word) (s : State) :
    exec (.jsr w) s =
      .next { pushWord (s.cpu.pc + 2) s with
        cpu := { s.cpu with sp := s.cpu.sp - 2, pc := w, cycles := s.cpu.cycles + 6 } } := by
  have hcpu : (pushWord (s.cpu.pc + 2) s).cpu = { s.cpu with sp := s.cpu.sp - 2 } := by
    rw [pushWord_eq]
  calc exec (.jsr w) s
    _ = .next (addCycles 6 (setPC w (pushWord (s.cpu.pc + 2) s))) := rfl
    _ = _ := by simp only [addCycles, setPC, hcpu]; rfl

/-- RTS: two RAM bytes from the stack, the latch at the high one. -/
theorem exec_rts (s : State) :
    let lo := memGet s.bus.ram (stackCell (s.cpu.sp + 1))
    let hi := memGet s.bus.ram (stackCell (s.cpu.sp + 2))
    exec .rts s =
      .next { latchBus hi s with
        cpu := { s.cpu with
          sp := s.cpu.sp + 2, pc := wordOf hi lo + 1, cycles := s.cpu.cycles + 6 } } := by
  calc exec .rts s
    _ = .next (addCycles 6 (setPC ((pullWord s).1 + 1) (pullWord s).2)) := rfl
    _ = _ := by rw [pullWord_eq]; rfl

/-- Settles O27: JSR is a pushed word, whose bytes and frame are kept by the jump, and RTS a pulled
one. -/
theorem callAndReturnResult : Obligations.CallAndReturnResult := by
  refine fun b1 b2 s => ⟨rfl, rfl, ⟨_, exec_jsr _ s, rfl, ?hi, ?lo, ?frame, ?effects⟩, exec_rts s⟩
  case hi => rw [storedByte_withCpu, storedByte_pushWord_hiByte]
  case lo => rw [storedByte_withCpu, storedByte_pushWord_loByte]
  case frame =>
    intro k n hout
    rw [storedByte_withCpu, pushWord_sameStorageBut _ s k n hout]
  case effects => rw [pushWord_eq]; rfl

/-! ### Branches (R603-R611, R334) -/

/-- Settles O29: every row decodes to the model's branch on its own flag, whose closed form gives the
target and the cycles. -/
theorem branchResult : Obligations.BranchResult := by
  intro b1 b2 s r hr
  obtain ⟨hdec, hexec⟩ : decodeBytes r.1 b1 b2 = r.2.1 ∧
      exec r.2.1 s = branchInstr (branchTaken r.2.2 s.cpu.p) b1 s := by
    fin_cases hr
    all_goals exact ⟨rfl, rfl⟩
  exact ⟨hdec, branchTarget b1 s.cpu.pc, branchTarget_toNat b1 s.cpu.pc,
    hexec.trans (branchInstr_eq _ b1 s)⟩

end Sys2Proof.Machine
end

section
/-! SUPPORT. Proofs of the flag instructions and NOP (`45_flags_system` R650-R657): each writes P as one
mask of it, and that mask is the model's write of a single flag. -/

namespace Sys2Proof.Machine

/-! ### The write of one flag as one mask (R650-R656) -/

/-- Clearing the bits of a mask before setting them is no more than setting them. -/
theorem and_not_or_self (p m : Byte) : (p &&& ~~~m) ||| m = p ||| m :=
  byte_ext fun i hi => by
    rw [BitVec.getLsbD_or, BitVec.getLsbD_or, BitVec.getLsbD_and, BitVec.getLsbD_not]
    cases m.getLsbD i with
    | false => simp [hi]
    | true => simp

section FlagWrites

variable (p : Byte)

theorem withC_false : withC false p = p &&& 0xFE := BitVec.or_zero

theorem withC_true : withC true p = p ||| 0x01 := and_not_or_self p 0x01

theorem withIFlag_false : withIFlag false p = p &&& 0xFB := BitVec.or_zero

theorem withIFlag_true : withIFlag true p = p ||| 0x04 := and_not_or_self p 0x04

theorem withD_false : withD false p = p &&& 0xF7 := BitVec.or_zero

theorem withD_true : withD true p = p ||| 0x08 := and_not_or_self p 0x08

theorem withV_false : withV false p = p &&& 0xBF := BitVec.or_zero

end FlagWrites

/-! ### Flag instructions and NOP (R650-R657) -/

/-- Settles O30: every row decodes to the register instruction that writes its P; NOP writes P as it
is. -/
theorem flagInstructionResult : Obligations.FlagInstructionResult := by
  intro s
  rw [← withC_false, ← withC_true, ← withIFlag_false, ← withIFlag_true, ← withD_false, ← withD_true,
    ← withV_false]
  intro r hr
  obtain ⟨hdec, hexec⟩ : decodeBytes r.1 0 0 = r.2.1 ∧
      exec r.2.1 s = regInstr (setFlags r.2.2) s := by
    fin_cases hr
    all_goals exact ⟨rfl, rfl⟩
  exact ⟨hdec, hexec.trans (regInstr_eq _ s _ rfl)⟩

end Sys2Proof.Machine
end

section
/-! SUPPORT. Proof of the interrupt poll (`60_exceptions` R704-R706): one equation per branch of the
poll, beside what each service does. -/

namespace Sys2Proof.Machine

/-- The IRQ input is the wired OR of the two APU flags (R115, R702). -/
theorem irqLine_iff (u : Apu) : irqLine u = true ↔ u.frameIrq = true ∨ u.dmcIrq = true :=
  Iff.of_eq (Bool.or_eq_true _ _)

/-! ### The branches of the poll (R706) -/

section Poll

variable {s : State}

/-- A pending NMI is taken whatever the IRQ input and I are. -/
theorem serviceInterrupt_of_nmi (hn : s.cpu.nmiPending = true) :
    serviceInterrupt s = (7, serviceNmi s) :=
  if_pos hn

/-- With no NMI pending, an IRQ that I lets through is taken. -/
theorem serviceInterrupt_of_irq (hn : s.cpu.nmiPending = false) (hq : irqLine s.apu = true)
    (hi : flagI s.cpu.p = false) : serviceInterrupt s = (7, serviceIrq s) := by
  simp [serviceInterrupt, hn, hq, hi]

/-- With no NMI pending and the IRQ input low or masked, nothing happens. -/
theorem serviceInterrupt_of_none (hn : s.cpu.nmiPending = false)
    (h : irqLine s.apu = false ∨ flagI s.cpu.p = true) : serviceInterrupt s = (0, s) := by
  rcases h with hq | hi
  · simp [serviceInterrupt, hn, hq]
  · simp [serviceInterrupt, hn, hi]

end Poll

/-! ### The poll and the entry it takes (R704-R706) -/

/-- Settles O35: each case of the statement is one branch of the poll; the two services are entries
of 7 cycles, and the IRQ's leaves the pending NMI clear, as it was. -/
theorem interruptServiceResult : Obligations.InterruptServiceResult := by
  intro s
  refine ⟨fun hn => ?nmi, fun hn hq hi => ?irq, fun hn h => serviceInterrupt_of_none hn ?idle⟩
  case nmi =>
    obtain ⟨hentry, hcycles, hpending⟩ := serviceNmi_entry s
    rw [serviceInterrupt_of_nmi hn]
    exact ⟨hentry, hpending, rfl, hcycles⟩
  case irq =>
    obtain ⟨hentry, hcycles, hpending⟩ := serviceIrq_entry s
    rw [serviceInterrupt_of_irq hn ((irqLine_iff _).2 hq) hi]
    exact ⟨hentry, hpending.trans hn, rfl, hcycles⟩
  case idle => exact h.imp_left fun hq => Bool.eq_false_of_not_eq_true (hq ∘ (irqLine_iff _).1)

end Sys2Proof.Machine
end

section
/-! SUPPORT. Proofs of the PPU's time and of its registers of one write (`61_ppu` R810, R811, R830-R836,
R841, R842): a run of ticks is a run of dots, and an access at any mirror is one of the register. -/

namespace Sys2Proof.Machine

/-! ### Frames (R811) -/

/-- `n` PPU ticks are `n` dots (R810, R811). -/
theorem ppuTicks_dots (cart : Option Cartridge) {p : Ppu} (h : OnFrame p) (n : Nat) :
    DotsLater n p ((ppuTick cart)^[n] p) := by
  induction n with
  | zero => exact DotsLater.zero h
  | succ n ih =>
    rw [Function.iterate_succ_apply']
    exact ih.trans (ppuTick_dot cart ih.1)

/-- The number of the dot, modulo 2^32 frames, is the coordinate and the frame number (R811). -/
theorem sameDot_of_dotNumber {p q : Ppu} (hp : OnFrame p) (hq : OnFrame q)
    (h : dotNumber q % (2 ^ 32 * 89342) = dotNumber p % (2 ^ 32 * 89342)) : SameDot p q := by
  obtain ⟨hpl, hpc⟩ := hp
  obtain ⟨hql, hqc⟩ := hq
  have hpf := p.frame.isLt
  have hqf := q.frame.isLt
  unfold dotNumber at h
  exact ⟨by omega, by omega, BitVec.eq_of_toNat_eq (by omega)⟩

/-- The same coordinate one frame on is 262 · 341 dots later (R811). -/
theorem nextFrame_dots {p : Ppu} (h : OnFrame p) :
    DotsLater 89342 p { p with frame := p.frame + 1 } := by
  have hf : (p.frame + 1).toNat = (p.frame.toNat + 1) % 2 ^ 32 := BitVec.toNat_add _ _
  refine ⟨h, ?_⟩
  simp only [dotNumber, hf]
  omega

/-- Settles O46: `n` ticks are `n` dots, and after 89342 of them the dot is that of the same
coordinate one frame on. -/
theorem frameLength : Obligations.FrameLength := by
  intro cart p n hl hc
  have hp : OnFrame p := ⟨hl, hc⟩
  have hn := ppuTicks_dots cart hp n
  refine ⟨hn.1.1, hn.1.2, hn.2, fun hframe => ?_⟩
  subst hframe
  have hnext := nextFrame_dots hp
  exact sameDot_of_dotNumber hnext.1 hn.1 (hn.2.trans hnext.2.symm)

/-! ### The registers behind their mirrors (R202, R830) -/

section Mirrors

variable {a : Word} {d : Byte} {s : State}

theorem deviceOf_ppu : deviceOf a = .ppu ↔ 0x2000 ≤ a.toNat ∧ a.toNat ≤ 0x3FFF := by
  unfold deviceOf
  simp only
  constructor
  · intro h; split_ifs at h; omega
  · rintro ⟨hlo, hhi⟩; rw [if_neg (by omega), if_pos hhi]

/-- A PPU read acts on the PPU and sets the bus latch (R210, R212). -/
theorem memRead_of_ppu (h : deviceOf a = .ppu) :
    memRead a s =
      ((ppuRegRead s.cart (a.setWidth 3) s.ppu).1,
        { s with
          bus := { s.bus with openBus := (ppuRegRead s.cart (a.setWidth 3) s.ppu).1 }
          ppu := (ppuRegRead s.cart (a.setWidth 3) s.ppu).2 }) := by
  simp [memRead, readValue, readEffect, h, latchBus]

/-- A write of a register other than PPUDATA acts on the PPU alone and sets the bus latch (R211, R838). -/
theorem memWrite_of_ppu (h : deviceOf a = .ppu) (h7 : a.toNat % 8 ≠ 7) :
    memWrite a d s =
      { s with
        bus := { s.bus with openBus := d }
        ppu := ppuRegWrite s.cart (a.setWidth 3) d s.ppu } := by
  have hr : a.setWidth 3 ≠ 7#3 := fun e => h7 (by simpa using congrArg BitVec.toNat e)
  simp [memWrite, writeEffect, h, latchBus, ppuRegWriteCart, hr]

end Mirrors

/-! ### One register at a time (R830, R831) -/

section Registers

variable {cart : Option Cartridge} {r : BitVec 3} {d : Byte} {p : Ppu}

/-- The new value of `t` in fields: bits 14:12 and 9:0 of the old one around the nametable bits of
`d` (R833). -/
theorem writeCtrl_t_fields (d : Byte) (p : Ppu) :
    (writeCtrl d p).t = p.t.extractLsb' 12 3 ++ (d.setWidth 2 ++ p.t.setWidth 10) := by
  refine BitVec.eq_of_getLsbD_eq fun i hi => Eq.trans ?_ BitVec.getLsbD_append.symm
  simp only [writeCtrl, BitVec.getLsbD_append]
  interval_cases i <;> simp

/-- The same fields in numbers (R833). -/
theorem writeCtrl_t_toNat (d : Byte) (p : Ppu) :
    (writeCtrl d p).t.toNat =
      p.t.toNat / 4096 * 4096 + d.toNat % 4 * 1024 + p.t.toNat % 1024 := by
  rw [writeCtrl_t_fields, BitVec.toNat_append, BitVec.toNat_append,
    ← Nat.shiftLeft_add_eq_or_of_lt (BitVec.isLt _), ← Nat.shiftLeft_add_eq_or_of_lt (by omega)]
  simp only [Nat.shiftLeft_eq, BitVec.extractLsb'_toNat, BitVec.toNat_setWidth,
    Nat.shiftRight_eq_div_pow]
  omega

theorem ppuRegWrite_ctrl (h : r.toNat = 0) :
    ppuRegWrite cart r d p = writeCtrl d { p with ioLatch := d } := by simp [ppuRegWrite, h]

theorem ppuRegWrite_mask (h : r.toNat = 1) :
    ppuRegWrite cart r d p = { p with ioLatch := d, mask := d } := by simp [ppuRegWrite, h]

theorem ppuRegWrite_status (h : r.toNat = 2) :
    ppuRegWrite cart r d p = { p with ioLatch := d } := by simp [ppuRegWrite, h]

theorem ppuRegWrite_oamAddr (h : r.toNat = 3) :
    ppuRegWrite cart r d p = { p with ioLatch := d, oamaddr := d } := by simp [ppuRegWrite, h]

theorem ppuRegWrite_oamData (h : r.toNat = 4) :
    ppuRegWrite cart r d p = writeOamData d { p with ioLatch := d } := by simp [ppuRegWrite, h]

theorem ppuRegRead_oamData (h : r.toNat = 4) : ppuRegRead cart r p = readOamData p := by
  simp [ppuRegRead, h]

/-- The write-only registers read as the register latch (R841). -/
theorem ppuRegRead_writeOnly (h : r.toNat ∈ [0, 1, 3, 5, 6]) :
    ppuRegRead cart r p = (p.ioLatch, p) := by
  simp only [List.mem_cons, List.not_mem_nil, or_false] at h
  unfold ppuRegRead
  split
  case h_4 => rfl
  all_goals omega

end Registers

/-- Settles O60: at any mirror an access is one of the register, whose own equation gives the clause;
the frame of an OAMDATA write is that of every bus write. -/
theorem registerWrites : Obligations.RegisterWrites := by
  intro a d s hlo hhi
  have hdev : deviceOf a = .ppu := deviceOf_ppu.2 ⟨hlo, hhi⟩
  have hreg : (a.setWidth 3).toNat = a.toNat % 8 := BitVec.toNat_setWidth 3 a
  intro r t
  have hwrite (h7 : r ≠ 7) : t = _ := memWrite_of_ppu hdev h7
  refine ⟨fun hr => ?ctrl, fun hr => ?mask, fun hr => ?status, fun hr => ?oamAddr,
    fun hr => ?oamData, fun hr => ?writeOnly⟩
  case ctrl =>
    refine ⟨(writeCtrl d s.ppu).t, writeCtrl_t_toNat d s.ppu, ?_⟩
    rw [hwrite (by omega), ppuRegWrite_ctrl (hreg.trans hr), Bool.and_assoc, Bool.and_comm]
    rfl
  case mask => rw [hwrite (by omega), ppuRegWrite_mask (hreg.trans hr)]
  case status => rw [hwrite (by omega), ppuRegWrite_status (hreg.trans hr)]
  case oamAddr => rw [hwrite (by omega), ppuRegWrite_oamAddr (hreg.trans hr)]
  case oamData =>
    have hput : t = { s with
        bus := { s.bus with openBus := d }
        ppu := writeOamData d { s.ppu with ioLatch := d } } := by
      rw [hwrite (by omega), ppuRegWrite_oamData (hreg.trans hr)]
    refine ⟨by rw [hput]; rfl, ?stored, ?kept, ?read⟩
    case stored => simp [hput, storedByte, writeOamData]
    case kept =>
      intro k n hkn
      have hcells : writeCells s a k n = false := by simpa [writeCells, hdev, hreg.trans hr] using hkn
      exact memWrite_cells a d s k n hcells
    case read => rw [memRead_of_ppu hdev, ppuRegRead_oamData (hreg.trans hr)]; rfl
  case writeOnly => rw [memRead_of_ppu hdev, ppuRegRead_writeOnly (hreg.symm ▸ hr)]

end Sys2Proof.Machine
end

section
/-! SUPPORT. Proof of the serial mapper's bank switch (`62_mapper` R920-R926): the six writes act on the
serial registers alone, five data writes bring five bits into the PRG register, and in PRG mode 3 that
register names the bank at 0x8000. -/

namespace Sys2Proof.Machine

/-! ### The serial registers (R920, R921) -/

/-- The shift register after one data write: bit 0 of the byte enters at the top (R920). -/
def shiftedIn (d : Byte) (v : BitVec 5) : BitVec 5 := (v >>> 1) ||| ((d.setWidth 5 &&& 1) <<< 4)

theorem shiftedIn_getLsbD_four (d : Byte) (v : BitVec 5) :
    (shiftedIn d v).getLsbD 4 = d.getLsbD 0 := by
  simp [shiftedIn]

theorem shiftedIn_getLsbD_of_lt {i : Nat} (hi : i < 4) (d : Byte) (v : BitVec 5) :
    (shiftedIn d v).getLsbD i = v.getLsbD (i + 1) := by
  simp [shiftedIn, hi, Nat.add_comm 1 i]

/-- Five bits shifted in, least significant first, are the shift register whatever it held (R920). -/
theorem shiftedIn_five {v N : BitVec 5} {d1 d2 d3 d4 d5 : Byte}
    (h1 : d1.getLsbD 0 = N.getLsbD 0) (h2 : d2.getLsbD 0 = N.getLsbD 1)
    (h3 : d3.getLsbD 0 = N.getLsbD 2) (h4 : d4.getLsbD 0 = N.getLsbD 3)
    (h5 : d5.getLsbD 0 = N.getLsbD 4) :
    shiftedIn d5 (shiftedIn d4 (shiftedIn d3 (shiftedIn d2 (shiftedIn d1 v)))) = N := by
  refine BitVec.eq_of_getLsbD_eq fun i hi => ?_
  interval_cases i <;> simp only [shiftedIn_getLsbD_four, shiftedIn_getLsbD_of_lt, Nat.reduceAdd,
    Nat.reduceLT, h1, h2, h3, h4, h5]

section Registers

variable {a : Word} {r : SerialRegs}

/-- The first four data writes only shift and count (R920). -/
theorem serialShiftIn_of_count_lt (h : r.count < 4) (d : Byte) :
    serialShiftIn a d r = { r with shift := shiftedIn d r.shift, count := r.count + 1 } :=
  if_neg (by omega)

/-- The fifth data write, to 0xE000-0xFFFF, loads the PRG register and starts over (R920, R921). -/
theorem serialShiftIn_prg (h : r.count = 4) (ha : 0xE000 ≤ a.toNat) (d : Byte) :
    serialShiftIn a d r = { r with shift := 0, count := 0, prg := shiftedIn d r.shift } := by
  have hreg : ((a >>> 13) &&& 3).toNat = 3 := by
    rw [BitVec.toNat_and, BitVec.toNat_ushiftRight, Nat.shiftRight_eq_div_pow,
      show a.toNat / 2 ^ 13 = 7 by omega]
    rfl
  simp only [serialShiftIn, serialLoad, h, hreg, shiftedIn, Nat.reduceAdd, if_true]

/-- Five data writes of the bits of `N`, the last of them to 0xE000-0xFFFF, load `N` into the PRG
register and change no other but the shift register and its counter, which start over (R920, R921). -/
theorem serialShiftIn_five {N : BitVec 5} {a1 a2 a3 a4 a5 : Word} {d1 d2 d3 d4 d5 : Byte}
    (hc : r.count = 0) (ha : 0xE000 ≤ a5.toNat)
    (h1 : d1.getLsbD 0 = N.getLsbD 0) (h2 : d2.getLsbD 0 = N.getLsbD 1)
    (h3 : d3.getLsbD 0 = N.getLsbD 2) (h4 : d4.getLsbD 0 = N.getLsbD 3)
    (h5 : d5.getLsbD 0 = N.getLsbD 4) :
    serialShiftIn a5 d5 (serialShiftIn a4 d4 (serialShiftIn a3 d3 (serialShiftIn a2 d2
      (serialShiftIn a1 d1 r)))) = { r with shift := 0, count := 0, prg := N } := by
  simp [serialShiftIn_of_count_lt, serialShiftIn_prg, hc, ha, shiftedIn_five h1 h2 h3 h4 h5]

/-- The reset write sets PRG mode 3, whichever chr-mode behaviour the machine has (R920, D40). -/
theorem serialReset_prgMode (clearChrMode : Bool) :
    (serialReset clearChrMode r).control.getLsbD 2 = true ∧
      (serialReset clearChrMode r).control.getLsbD 3 = true := by
  cases clearChrMode <;> simp [serialReset]

/-- In PRG mode 3 the PRG register names the low bank and the last bank is high (R923). -/
theorem serialPrgBank_of_mode3 (h2 : r.control.getLsbD 2 = true) (h3 : r.control.getLsbD 3 = true)
    (n : Nat) (high : Bool) :
    serialPrgBank r n high = if high then n - 1 else r.prg.toNat % 16 % n := by
  have hmode : (r.control >>> 2) &&& 3 = 3 := by
    refine BitVec.eq_of_getLsbD_eq fun i hi => ?_
    interval_cases i <;> simp [h2, h3]
  have hprg : (r.prg &&& 0x0F).toNat = r.prg.toNat % 16 := Nat.and_two_pow_sub_one_eq_mod r.prg.toNat 4
  simp only [serialPrgBank, hmode, hprg]
  rfl

end Registers

/-! ### The bus (R903, R920, R923) -/

/-- The state's cartridge is `c` with the serial registers `r`. -/
def HasSerial (c : Cartridge) (r : SerialRegs) (s : State) : Prop :=
  s.cart = some { c with mapper := .serialShift r }

section Bus

variable {s : State} {c : Cartridge} {r : SerialRegs} {a : Word} {d : Byte}

/-- A bus write to 0x8000-0xFFFF is a write of the serial protocol (R903, R920). -/
theorem HasSerial.write (h : HasSerial c r s) (ha : 0x8000 ≤ a.toNat) :
    HasSerial c (if d.getLsbD 7 then serialReset s.params.mmc1ResetClearsChrMode r
      else serialShiftIn a d r) (memWrite a d s) := by
  have hd : deviceOf a = .mapper := deviceOf_mapper.2 (by omega)
  have hlow : ¬ a.toNat ≤ 0x5FFF := by omega
  have hram : ¬ a.toNat ≤ 0x7FFF := by omega
  unfold HasSerial at *
  simp [memWrite, writeEffect, hd, mapperWrite, h, hlow, hram, prgWrite]

theorem HasSerial.write_reset (h : HasSerial c r s) (ha : 0x8000 ≤ a.toNat)
    (hd : d.getLsbD 7 = true) :
    HasSerial c (serialReset s.params.mmc1ResetClearsChrMode r) (memWrite a d s) := by
  simpa only [hd, if_true] using h.write (d := d) ha

theorem HasSerial.write_data (h : HasSerial c r s) (ha : 0xE000 ≤ a.toNat)
    (hd : d.getLsbD 7 = false) :
    HasSerial c (serialShiftIn a d r) (memWrite a d s) := by
  simpa only [hd, Bool.false_eq_true, if_false] using
    h.write (d := d) (show 0x8000 ≤ a.toNat by omega)

/-- A bus read of 0x8000-0xFFFF is a read of the bank shown there (R903, R923). -/
theorem HasSerial.read (h : HasSerial c r s) (ha : 0x8000 ≤ a.toNat) :
    (memRead a s).1 = memGet c.prgRom
      (serialPrgBank r (prgBanks c) (decide (0xC000 ≤ a.toNat)) * 16384 + a.toNat % 0x4000) := by
  have hlow : ¬ a.toNat ≤ 0x5FFF := by omega
  have hram : ¬ a.toNat ≤ 0x7FFF := by omega
  unfold HasSerial at h
  rw [memRead_of_mapper (deviceOf_mapper.2 (by omega))]
  simp [mapperRead, h, hlow, hram, prgRead, prgOffset, prgBanks]

/-- The two windows in PRG mode 3 (R923). -/
theorem HasSerial.read_mode3 (h : HasSerial c r s) (h2 : r.control.getLsbD 2 = true)
    (h3 : r.control.getLsbD 3 = true) {o : Nat} (ho : o < 16384) :
    (memRead (BitVec.ofNat 16 (0x8000 + o)) s).1 =
        memGet c.prgRom (r.prg.toNat % 16 % c.nprg.toNat * 16384 + o) ∧
      (memRead (BitVec.ofNat 16 (0xC000 + o)) s).1 =
        memGet c.prgRom ((c.nprg.toNat - 1) * 16384 + o) := by
  have hlo : (BitVec.ofNat 16 (0x8000 + o)).toNat = 0x8000 + o := Nat.mod_eq_of_lt (by omega)
  have hhi : (BitVec.ofNat 16 (0xC000 + o)).toNat = 0xC000 + o := Nat.mod_eq_of_lt (by omega)
  constructor
  · rw [h.read (by omega), serialPrgBank_of_mode3 h2 h3, hlo, decide_eq_false (by omega),
      show (0x8000 + o) % 0x4000 = o by omega]
    rfl
  · rw [h.read (by omega), serialPrgBank_of_mode3 h2 h3, hhi, decide_eq_true (by omega),
      show (0xC000 + o) % 0x4000 = o by omega]
    rfl

end Bus

/-- Settles O49: the reset write sets PRG mode 3 and clears the counter, the five data writes load
`N` into the PRG register, and the reads follow from the mode. -/
theorem serialBankSwitch : Obligations.SerialBankSwitch := by
  intro s c r N a0 a1 a2 a3 a4 a5 d0 d1 d2 d3 d4 d5 hcart hmap _ ha0 ha1 ha2 ha3 ha4 ha5
    hd0 hd1 hd2 hd3 hd4 hd5 hb1 hb2 hb3 hb4 hb5 t
  have hs : HasSerial c r s := by rw [HasSerial, hcart, ← hmap]
  have hreset := hs.write_reset ha0 hd0
  have hfour := (((hreset.write_data ha1 hd1).write_data ha2 hd2).write_data ha3 hd3).write_data ha4 hd4
  have ht := hfour.write_data ha5 hd5
  rw [serialShiftIn_five (N := N.setWidth 5) rfl ha5 hb1 hb2 hb3 hb4 (by simpa using hb5)] at ht
  obtain ⟨hm2, hm3⟩ := serialReset_prgMode (r := r) s.params.mmc1ResetClearsChrMode
  have hprg : (N.setWidth 5).toNat = N.toNat := BitVec.toNat_setWidth_of_le (by decide)
  refine ⟨⟨_, ht, hprg, hm2, hm3, rfl, rfl⟩, fun o ho => ?_⟩
  have hread := ht.read_mode3 hm2 hm3 ho
  rwa [hprg, Nat.mod_eq_of_lt N.isLt] at hread

end Sys2Proof.Machine
end

section
/-! SUPPORT. Proof of the $4015 accesses (`63_apu` R1029, R1030): the status byte bit by bit, what
enabling does to the DMC, and the bus access as the APU's own operation. -/

namespace Sys2Proof.Machine

/-! ### The status byte (R1029) -/

/-- A mask that stands under a condition has its bits under that condition. -/
theorem getLsbD_ite_zero (c : Prop) [Decidable c] (mask : Byte) (k : Nat) :
    (if c then mask else 0).getLsbD k = (decide c && mask.getLsbD k) := by
  by_cases h : c <;> simp [h]

/-- Each condition of the status byte shows at the bit of its mask, and nowhere else (R1029). -/
theorem apuStatus_getLsbD (u : Apu) (k : Nat) :
    (apuStatus u).getLsbD k =
      (u.dmcIrq && (0x80 : Byte).getLsbD k || u.frameIrq && (0x40 : Byte).getLsbD k ||
        decide (u.dmc.remaining ≠ 0) && (0x10 : Byte).getLsbD k ||
        decide (u.noise.length ≠ 0) && (0x08 : Byte).getLsbD k ||
        decide (u.tri.length ≠ 0) && (0x04 : Byte).getLsbD k ||
        decide (u.p2.length ≠ 0) && (0x02 : Byte).getLsbD k ||
        decide (u.p1.length ≠ 0) && (0x01 : Byte).getLsbD k) := by
  simp only [apuStatus, BitVec.getLsbD_or, getLsbD_ite_zero, Bool.decide_eq_true]

/-! ### The DMC side of a write (R1030) -/

section Enable

variable {d : Dmc}

theorem dmcEnable_off : dmcEnable false d = updateDmaRequest { d with remaining := 0 } := rfl

theorem dmcEnable_idle (h : d.remaining = 0) :
    dmcEnable true d =
      updateDmaRequest { d with curAddr := d.startAddr, remaining := d.sampleLen } :=
  congrArg updateDmaRequest (if_pos h)

theorem dmcEnable_running (h : d.remaining ≠ 0) : dmcEnable true d = updateDmaRequest d :=
  congrArg updateDmaRequest (if_neg h)

variable (on : Bool) (d : Dmc)

/-- Disabling ends the sample, and enabling starts one when the DMC is idle (R1030). -/
theorem dmcEnable_remaining :
    (dmcEnable on d).remaining =
      if on = false then 0 else if d.remaining = 0 then d.sampleLen else d.remaining := by
  cases on
  · rfl
  · by_cases h : d.remaining = 0
    · rw [dmcEnable_idle h, if_neg (by decide), if_pos h]; rfl
    · rw [dmcEnable_running h, if_neg (by decide), if_neg h]; rfl

/-- The address goes back to the start of the sample exactly when one is started (R1030). -/
theorem dmcEnable_curAddr :
    (dmcEnable on d).curAddr = if on ∧ d.remaining = 0 then d.startAddr else d.curAddr := by
  cases on
  · rw [dmcEnable_off, if_neg (by simp)]; rfl
  · by_cases h : d.remaining = 0
    · rw [dmcEnable_idle h, if_pos ⟨rfl, h⟩]; rfl
    · rw [dmcEnable_running h, if_neg fun hc => h hc.2]; rfl

/-- The request is computed from the counter after the write (R1030, R1043). -/
theorem dmcEnable_dmaRequest :
    (dmcEnable on d).dmaRequest =
      (d.bufferEmpty && decide ((dmcEnable on d).remaining ≠ 0)) := by
  cases on
  · rfl
  · by_cases h : d.remaining = 0
    · rw [dmcEnable_idle h]; rfl
    · rw [dmcEnable_running h]; rfl

end Enable

/-! ### The bus accesses (R202, R210, R211) -/

/-- A read of $4015 gives the status byte, clears the frame IRQ and sets the bus latch (R210, R212,
R1029). -/
theorem memRead_apuStatus (s : State) :
    memRead 0x4015 s =
      (apuStatus s.apu,
        { s with
          bus := { s.bus with openBus := apuStatus s.apu }
          apu := { s.apu with frameIrq := false } }) :=
  rfl

/-- On the APU a write of $4015 is the status write (R211, R1030). -/
theorem memWrite_apuStatus_apu (v : Byte) (s : State) :
    (memWrite 0x4015 v s).apu = apuWriteStatus v s.apu :=
  rfl

/-- Settles O53: the read value is the status byte, whose masks are single bits; the write is the
status write, whose channel fields stand in its definition and whose DMC fields are those of
`dmcEnable`. -/
theorem apuStatusAccess : Obligations.ApuStatusAccess := by
  intro v s r u w
  have hr : r = _ := memRead_apuStatus s
  have hw : w = apuWriteStatus v u := memWrite_apuStatus_apu v s
  refine ⟨fun k hk => ?bits, by rw [hr], ?write⟩
  case bits =>
    rw [hr, apuStatus_getLsbD]
    interval_cases k <;> simp [u]
  case write =>
    rw [hw]
    exact ⟨rfl, rfl, rfl, rfl, rfl, rfl, rfl, rfl, rfl, rfl, dmcEnable_remaining _ _,
      dmcEnable_curAddr _ _, dmcEnable_dmaRequest _ _⟩

end Sys2Proof.Machine
end

section
/-! SUPPORT. Proofs of the reset statements (`70_reset_and_hazards` R1300-R1303): the whole effect of the
console reset, and the place of the reset vector in a 16 KiB image. -/

namespace Sys2Proof.Machine

/-! ### The console reset (R1300, R1302) -/

/-- The stored form of P with I set. -/
theorem storedP_withI (p : Byte) : storedP (withI p) = (p &&& 0xCF) ||| 0x24 := by
  have hmask : (0x04 : Byte) &&& 0xCF = 0x04 := rfl
  rw [storedP, withI, BitVec.and_or_distrib_right, hmask, BitVec.or_assoc]
  rfl

/-- Settles O37: PC and the latch come from the bus read of the vector, which lies in the mapper's
window, and P from the stored form with I set; the rest is what the definition writes out. -/
theorem resetResult : Obligations.ResetResult := by
  intro s
  have hlow : 0x4020 ≤ resetVector.toNat := by decide
  have hhigh : resetVector.toNat ≤ 0xFFFE := by decide
  rw [consoleReset, memRead16_vector hlow hhigh, storedP_withI]
  rfl

/-! ### The reset vector (R1303) -/

/-- Where the mapper drives both bytes of a vector, the latch does not matter (R203, R212). -/
theorem vectorRead_of_mapperRead {s : State} {v : Word} {lo hi : Byte}
    (hlo : mapperRead s.params s.cart v = some lo) (hhi : mapperRead s.params s.cart (v + 1) = some hi)
    (ob : Byte) : vectorRead s ob v = wordOf hi lo := by
  simp only [vectorRead, hlo, hhi, Option.getD_some]

theorem consoleReset_pc {s : State} {lo hi : Byte} (hlo : mapperRead s.params s.cart 0xFFFC = some lo)
    (hhi : mapperRead s.params s.cart 0xFFFD = some hi) : (consoleReset s).cpu.pc = wordOf hi lo := by
  rw [resetResult s]
  exact vectorRead_of_mapperRead hlo hhi _

theorem consoleReset_sp (s : State) : (consoleReset s).cpu.sp = 0xFF := by rw [resetResult s]

theorem consoleReset_flagI (s : State) : (consoleReset s).cpu.p.getLsbD 2 = true := by
  rw [resetResult s]
  simp

/-! ### The vector in a 16 KiB image (R903, R910, R930) -/

theorem loadRom_eq_ok {image : List Byte} {battery : Option (List Byte)} {s t : State}
    (h : loadRom image battery s = .ok t) :
    t = consoleReset
      { s with
        cart := some (romCartridge s.params image battery)
        ppu := { s.ppu with ntRam := [], ntFour := (romCartridge s.params image battery).fourScreen } } := by
  unfold loadRom at h
  split at h
  · cases h
  · exact (Except.ok.inj h).symm

/-- One PRG bank on the fixed-bank mapper: its byte `o` stands at 0xC000 + `o` (the upper mirror), and,
with no trainer, at 16 + `o` in the image. -/
theorem mapperRead_romCartridge_16k {image : List Byte} (hbanks : image.getD 4 0 = 1)
    (htrainer : (image.getD 6 0).getLsbD 2 = false)
    (hid : romMapperId (image.getD 6 0) (image.getD 7 0) = 0)
    (params : Params) (battery : Option (List Byte)) {a : Word} {o : Nat} (ha : a.toNat = 0xC000 + o) :
    mapperRead params (some (romCartridge params image battery)) a = some (image.getD (16 + o) 0) := by
  have hlow : ¬ a.toNat ≤ 0x5FFF := by omega
  have hram : ¬ a.toNat ≤ 0x7FFF := by omega
  have ho : o < 16384 := by omega
  have hoffset : prgOffset (romCartridge params image battery) a = o := by
    simp only [prgOffset, prgBanks, romCartridge, hid, hbanks, if_true, ha]
    change (0xC000 + o - 0x8000) % 16384 = o
    omega
  have hrom : (romCartridge params image battery).prgRom = memOfBytes ((image.drop 16).take 16384) := by
    simp only [romCartridge, hbanks, htrainer, Bool.false_eq_true, if_false]
    rfl
  have hbyte : memGet (romCartridge params image battery).prgRom o = image.getD (16 + o) 0 := by
    rw [hrom, memGet_memOfBytes, List.getD_eq_getElem?_getD, List.getElem?_take_of_lt ho,
      List.getElem?_drop, ← List.getD_eq_getElem?_getD]
  simp only [mapperRead, hlow, hram, if_false, prgRead, hoffset, hbyte]

/-- Settles O38: a good load is a reset with the image's cartridge in place, so its PC is the word the
mapper returns at the vector. -/
theorem resetVectorProperty : Obligations.ResetVectorProperty := by
  refine ⟨fun s lo hi hlo hhi => ⟨consoleReset_pc hlo hhi, consoleReset_sp s, consoleReset_flagI s⟩, ?_⟩
  intro image battery s t hbanks htrainer hid hload
  have hread := fun {a : Word} {o : Nat} =>
    mapperRead_romCartridge_16k (a := a) (o := o) hbanks htrainer hid s.params battery
  rw [loadRom_eq_ok hload]
  exact consoleReset_pc (hread rfl) (hread rfl)

end Sys2Proof.Machine
end

section
/-! SUPPORT. Proofs of the encoding statements of the whole decoder (`30_encoding` R300-R307): decode and
encode are inverse to each other. -/

namespace Sys2Proof

/-! ### What the decoder reads (R300, R301) -/

/-- The decoder reads an instruction off the bytes that its opcode byte asks for. -/
theorem decode_take (op b1 b2 : Byte) (rest : List Byte) :
    decode ([op, b1, b2].take (opcodeLength op) ++ rest) = .ok (decodeBytes op b1 b2, rest) := by
  rcases opcodeLength_cases op with hl | hl | hl <;> rw [hl]
  · exact (decode_one hl rest).trans (by rw [decodeBytes_one hl b1 b2])
  · exact (decode_two hl b1 rest).trans (by rw [decodeBytes_two hl b1 b2])
  · exact decode_three hl b1 b2 rest

/-- Every instruction the decoder gives was read so. -/
theorem decode_ok {bytes rest : List Byte} {i : Instr} (h : decode bytes = .ok (i, rest)) :
    ∃ op b1 b2, i = decodeBytes op b1 b2 ∧ bytes = [op, b1, b2].take (opcodeLength op) ++ rest := by
  unfold decode at h
  split at h
  · cases h
  · rename_i op tail
    split at h
    case h_1 hl => cases h; exact ⟨op, 0, 0, rfl, by rw [hl]; rfl⟩
    case h_2 b1 tail hl => cases h; exact ⟨op, b1, 0, rfl, by rw [hl]; rfl⟩
    case h_3 b1 b2 tail hl => cases h; exact ⟨op, b1, b2, rfl, by rw [hl]; rfl⟩
    case h_4 => cases h

/-! ### Decoding what was encoded -/

namespace Laws.RoundTrip

/-- Every instruction decodes from its own bytes: its constructor's law. -/
theorem statement (i : Instr) : Statement i :=
  Instr.rec (motive := Statement) ldaImm ldaZp ldaZpX ldaAbs ldaAbsX ldaAbsY ldaIndX ldaIndY ldxImm
    ldxZp ldxZpY ldxAbs ldxAbsY ldyImm ldyZp ldyZpX ldyAbs ldyAbsX staZp staZpX staAbs staAbsX staAbsY
    staIndX staIndY stxZp stxZpY stxAbs styZp styZpX styAbs tax tay txa tya tsx txs pha php pla plp
    adcImm adcZp adcZpX adcAbs adcAbsX adcAbsY adcIndX adcIndY sbcImm sbcZp sbcZpX sbcAbs sbcAbsX
    sbcAbsY sbcIndX sbcIndY andImm andZp andZpX andAbs andAbsX andAbsY andIndX andIndY oraImm oraZp
    oraZpX oraAbs oraAbsX oraAbsY oraIndX oraIndY eorImm eorZp eorZpX eorAbs eorAbsX eorAbsY eorIndX
    eorIndY bitZp bitAbs cmpImm cmpZp cmpZpX cmpAbs cmpAbsX cmpAbsY cmpIndX cmpIndY cpxImm cpxZp
    cpxAbs cpyImm cpyZp cpyAbs incZp incZpX incAbs incAbsX decZp decZpX decAbs decAbsX inx iny dex dey
    aslA aslZp aslZpX aslAbs aslAbsX lsrA lsrZp lsrZpX lsrAbs lsrAbsX rolA rolZp rolZpX rolAbs rolAbsX
    rorA rorZp rorZpX rorAbs rorAbsX jmpAbs jmpInd jsr rts bcc bcs beq bmi bne bpl bvc bvs clc sec cli
    sei cld sed clv nop brk rti illegal i

end Laws.RoundTrip

/-- Settles O2: an instruction's own bytes decode to it, and bytes after them do not matter. -/
theorem decodeEncode : Obligations.DecodeEncode := by
  intro i rest hwf
  obtain ⟨hdecode, -⟩ := Laws.RoundTrip.statement i hwf
  obtain ⟨op, b1, b2, rfl, hbytes⟩ := decode_ok hdecode
  rw [hbytes, List.append_nil]
  exact decode_take op b1 b2 rest

/-! ### Encoding what was decoded -/

/-- The bytes of the instruction that a cell of the map makes of the operands `b` or `w`. -/
def OpcodeEntry.encoding (b : Byte) (w : Word) : OpcodeEntry → List Byte
  | .one i => encode i
  | .two f => encode (f b)
  | .three f => encode (f w)
  | .ill => []

/-- The bytes that a cell of the map at opcode `op` is read from (R300). -/
def OpcodeEntry.source (b : Byte) (w : Word) (op : Byte) : OpcodeEntry → List Byte
  | .one _ => [op]
  | .two _ => [op, b]
  | .three _ => [op, loByte w, hiByte w]
  | .ill => []

/-- A row of the map has sixteen cells. -/
theorem opcodeRow_length :
    opcodeRow0.length = 16 ∧ opcodeRow1.length = 16 ∧ opcodeRow2.length = 16 ∧ opcodeRow3.length = 16 ∧
    opcodeRow4.length = 16 ∧ opcodeRow5.length = 16 ∧ opcodeRow6.length = 16 ∧ opcodeRow7.length = 16 ∧
    opcodeRow8.length = 16 ∧ opcodeRow9.length = 16 ∧ opcodeRowA.length = 16 ∧ opcodeRowB.length = 16 ∧
    opcodeRowC.length = 16 ∧ opcodeRowD.length = 16 ∧ opcodeRowE.length = 16 ∧ opcodeRowF.length = 16 := by
  decide

/-- The map and the encoder agree on every cell, row by row, whatever the operands. -/
theorem opcodeMap_encoding (b : Byte) (w : Word) :
    opcodeMap.map (·.encoding b w) =
      opcodeMap.zipIdx.map fun e => e.1.source b w (BitVec.ofNat 8 e.2) := by
  simp only [opcodeMap, List.map_append, List.zipIdx_append, List.length_append, opcodeRow_length,
    Nat.reduceAdd]
  repeat refine congrArg₂ (· ++ ·) ?_ rfl
  rfl

theorem opcodeMap_length : opcodeMap.length = 256 := by
  simp only [opcodeMap, List.length_append, opcodeRow_length, Nat.reduceAdd]

theorem opcodeEntry_encoding (op b : Byte) (w : Word) :
    (opcodeEntry op).encoding b w = (opcodeEntry op).source b w op := by
  have hlen : op.toNat < opcodeMap.length := by rw [opcodeMap_length]; exact op.isLt
  have hcell := congrArg (·[op.toNat]?) (opcodeMap_encoding b w)
  simp only [List.getElem?_map, List.getElem?_zipIdx, List.getElem?_eq_getElem hlen, Option.map_some,
    Option.some.injEq, Nat.zero_add, BitVec.ofNat_toNat, BitVec.setWidth_eq] at hcell
  rwa [opcodeEntry, List.getD_eq_getElem _ _ hlen]

theorem Instr.wf_of_documented {i : Instr} (h : i.documented = true) : i.wf = true := by
  cases i
  case illegal op => cases h
  all_goals rfl

/-- The instruction of an opcode byte and its operand bytes has those bytes. -/
theorem encode_decodeBytes (op b1 b2 : Byte) :
    (decodeBytes op b1 b2).wf = true ∧
      encode (decodeBytes op b1 b2) = [op, b1, b2].take (opcodeLength op) := by
  by_cases hill : op ∈ illegalBytes
  case pos =>
    have hmem : illegalBytes.contains op = true := by simpa using hill
    rw [illegal_decode hmem, illegal_length hmem]
    exact ⟨hmem, rfl⟩
  case neg =>
    refine ⟨Instr.wf_of_documented (decodeBytes_documented hill b1 b2), ?_⟩
    have hcell := opcodeEntry_encoding op b1 (wordOf b2 b1)
    have hnot := opcodeEntry_isIll op
    unfold decodeBytes opcodeLength
    cases he : opcodeEntry op with
    | ill => rw [he] at hnot; exact absurd (List.contains_iff_mem.1 hnot.symm) hill
    | one i => rwa [he] at hcell
    | two f => rwa [he] at hcell
    | three f => rw [he] at hcell; simpa [OpcodeEntry.encoding, OpcodeEntry.source] using hcell

/-- Settles O3: the decoder reads the bytes that the opcode byte asks for, and those are the
instruction's own. -/
theorem encodeDecode : Obligations.EncodeDecode := by
  intro bytes i rest h
  obtain ⟨op, b1, b2, rfl, rfl⟩ := decode_ok h
  obtain ⟨hwf, hencode⟩ := encode_decodeBytes op b1 b2
  exact ⟨hwf, by rw [hencode]⟩

/-- Settles O1: each word is of the length its opcode byte asks for, and its cell of the map is
evaluated. -/
theorem decodeSampleWords : Obligations.DecodeSampleWords := by
  and_intros <;> rfl

end Sys2Proof
end

section
/-! SUPPORT. Proofs of the statements about a whole step (`64_scheduler` R1102, R1108, `60_exceptions`
R700, R701): the invariants it keeps, the cycles it takes, and when it stops. -/

namespace Sys2Proof.Machine

/-! ### The invariant (R100-R116, R800, R900, R1000) -/

theorem runPpu_inv {s : State} (h : s.Inv) : (runPpu s).Inv := by
  obtain ⟨hcpu, hbus, hppu, hapu, hhost, hcart⟩ := h
  obtain ⟨hp, hnt⟩ := ppuTick_inv s.cart hppu
  exact ⟨hcpu, hbus, hp, hapu, ⟨ppuDraw_inv _ _ hhost.picture, hhost.pitch_ge, hhost.ring_le⟩,
    fun c hc => ⟨(hcart c hc).1, (hcart c hc).2.trans hnt.symm⟩⟩

theorem runApu_inv {s : State} (h : s.Inv) : (runApu s).Inv := by
  obtain ⟨hcpu, hbus, hppu, hapu, hhost, hcart⟩ := h
  exact ⟨hcpu, hbus, hppu, apuTick_inv _ hapu, ⟨hhost.picture, hhost.pitch_ge, hhost.ring_le⟩, hcart⟩

/-- Every part of a step keeps the invariant. -/
theorem inv_stepClosed : StepClosed State.Inv where
  cpu _ _ h hp := ⟨⟨hp h.cpu.stored⟩, h.bus, h.ppu, h.apu, h.host, h.cart⟩
  read s a h := (memRead_onlyReadEffects a s).inv h
  write _ a v h := memWrite_inv a v h
  stall _ _ h := ⟨h.cpu, ⟨h.bus.ram_wf, h.bus.ram_within⟩, h.ppu, h.apu, h.host, h.cart⟩
  edge _ _ h := ⟨h.cpu, h.bus, h.ppu.of_eq rfl rfl rfl rfl ⟨rfl, rfl, rfl⟩ rfl rfl, h.apu, h.host, h.cart⟩
  sched _ _ h := ⟨h.cpu, h.bus, h.ppu, h.apu, h.host, h.cart⟩
  ppu _ h := runPpu_inv h
  apu _ h := runApu_inv h
  dma _ b h hr := ⟨h.cpu, h.bus, h.ppu, dmaComplete_inv b h.apu hr, h.host, h.cart⟩
  capture _ f h := rewindCapture_inv f h

/-- Settles O58: a step keeps what each of its parts keeps. -/
theorem stepKeepsInvariant : Obligations.StepKeepsInvariant :=
  fun _ _ h ht => inv_stepClosed.step h ht

/-! ### The mixer's reals (R1005, R1054) -/

theorem memRead_mixer (a : Word) (s : State) : (memRead a s).2.apu.mixer = s.apu.mixer := by
  rw [memRead_onlyReadEffects a s]

theorem memWrite_mixer (a : Word) (v : Byte) (s : State) : (memWrite a v s).apu.mixer = s.apu.mixer := by
  unfold memWrite writeEffect
  split
  case h_3 | h_4 | h_5 => exact apuWrite_mixer a v s.apu
  case h_6 =>
    have hcopy := (oamDmaCopy_frame v 256 0 (latchBus v s)).1
    exact (congrArg (fun t : State => t.apu.mixer) hcopy :)
  all_goals rfl

theorem apuAdvance_mixer (u : Apu) : (apuAdvance u).mixer = u.mixer := by
  obtain ⟨-, -, -, -, hmixer, -⟩ := frameSequencerStep_eq u
  exact hmixer

/-- Every part of a step keeps the mixer's invariant; only the filter of the APU tick writes to it. -/
theorem mixer_stepClosed : StepClosed fun s => s.apu.mixer.Inv where
  cpu _ _ h _ := h
  read s a h := by rw [memRead_mixer]; exact h
  write s a v h := by rw [memWrite_mixer]; exact h
  stall _ _ h := h
  edge _ _ h := h
  sched _ _ h := h
  ppu _ h := h
  apu s h := filterMixer_mix_inv (m := (apuAdvance s.apu).mixer) (by rw [apuAdvance_mixer]; exact h) _ _ _ _ _
  dma _ _ h _ := h
  capture s f h := by rw [rewindCapture_sameRest]; exact h

/-- Settles O59: a step keeps what each of its parts keeps. -/
theorem stepKeepsRealsFinite : Obligations.StepKeepsRealsFinite :=
  fun _ _ h ht => mixer_stepClosed.step h ht

/-! ### The invariant at reset (R1300, R1301) -/

theorem memory_nil_wf : Memory.wf [] := ⟨.nil, by simp⟩

theorem memory_nil_within (n : Nat) : Memory.within n [] := by simp

/-- Settles O57: every memory and list is empty, every number is in its range, and the volumes are
1.0. -/
theorem resetMeetsInvariant : Obligations.ResetMeetsInvariant := by
  have hvol := f64_one.1
  refine ⟨⟨⟨by decide⟩, ⟨memory_nil_wf, memory_nil_within _⟩, ?ppu, ?apu, ?host, by simp [State.reset]⟩,
    ⟨hvol, hvol, hvol, hvol, hvol, hvol, by decide⟩⟩
  case ppu =>
    exact ⟨memory_nil_wf, memory_nil_within _, memory_nil_wf, memory_nil_within _, memory_nil_wf,
      memory_nil_within _, by simp [State.reset, Ppu.reset], by decide, by decide, by decide, by decide,
      fun _ => rfl⟩
  case apu => constructor <;> decide
  case host => exact ⟨⟨.nil, by simp [State.reset, HostSide.create]⟩, by decide, Nat.zero_le _⟩

/-! ### When a step stops (R700, R701) -/

/-- Every documented instruction completes, from every state. -/
theorem exec_next_of_documented {i : Instr} (h : i.documented = true) (s : State) :
    ∃ t, exec i s = .next t := by
  cases i
  case illegal op => cases h
  case bcc b | bcs b | beq b | bmi b | bne b | bpl b | bvc b | bvs b => exact ⟨_, branchInstr_eq _ b s⟩
  all_goals exact ⟨_, rfl⟩

theorem exec_illegal_fallback {s : State} (h : s.params.illegalOpcodeMode = .fallback) (op : Byte) :
    exec (.illegal op) s = .next (retire 1 1 (recordIllegal s)) := by
  simp [exec, execIllegal, h]

theorem exec_illegal_fault {s : State} (h : s.params.illegalOpcodeMode = .fault) (op : Byte) :
    exec (.illegal op) s = .fault (.illegalOpcode op s.cpu.pc) := by
  simp [exec, execIllegal, h]

/-- Settles O7: a documented instruction completes, and an illegal one does what its mode says. -/
theorem onlyIllegalOpcodesStop : Obligations.OnlyIllegalOpcodesStop := by
  intro i s
  by_cases hdoc : i.documented = true
  case pos =>
    obtain ⟨t, ht⟩ := exec_next_of_documented hdoc s
    rw [ht]
    exact ⟨nofun, nofun⟩
  case neg =>
    cases i
    case illegal op =>
      cases hmode : s.params.illegalOpcodeMode with
      | fallback =>
        rw [exec_illegal_fallback hmode]
        exact ⟨nofun, nofun⟩
      | fault =>
        rw [exec_illegal_fault hmode]
        exact ⟨fun _ h => ⟨op, rfl, rfl, by cases h; rfl⟩, nofun⟩
    all_goals exact absurd rfl hdoc

/-- Settles O33: the map has no instruction at an illegal byte, and its meaning is the mode's. -/
theorem illegalOpcodeResult : Obligations.IllegalOpcodeResult := by
  intro op hop b1 b2 s
  have hmem : illegalBytes.contains op = true := by simpa using hop
  exact ⟨illegal_decode hmem b1 b2, illegal_length hmem,
    fun h => (exec_illegal_fallback h op).trans (by rw [retire_eq]; rfl), fun h => exec_illegal_fault h op⟩

/-- No part of a step changes the parameters. -/
theorem params_stepClosed (p : Params) : StepClosed fun s => s.params = p where
  cpu _ _ h _ := h
  read s a h := (memRead_params a s).trans h
  write s a v h := (memWrite_params a v s).trans h
  stall _ _ h := h
  edge _ _ h := h
  sched _ _ h := h
  ppu _ h := h
  apu _ h := h
  dma _ _ h _ := h
  capture s f h := by rw [rewindCapture_sameRest]; exact h

theorem step_params {s t : State} (ht : step s = .next t) : t.params = s.params :=
  (params_stepClosed s.params).step rfl ht

/-- Under the fallback mode every instruction completes. -/
theorem exec_next_of_fallback {s : State} (h : s.params.illegalOpcodeMode = .fallback) (i : Instr) :
    ∃ t, exec i s = .next t := by
  by_cases hdoc : i.documented = true
  case pos => exact exec_next_of_documented hdoc s
  case neg =>
    cases i
    case illegal op => exact ⟨_, exec_illegal_fallback h op⟩
    all_goals exact absurd rfl hdoc

theorem step_next_of_fallback {s : State} (h : s.params.illegalOpcodeMode = .fallback) :
    ∃ t, step s = .next t := by
  have hfetch : (fetchInstr s).2.params = s.params := (fetchInstr_onlyReadEffects s).params
  obtain ⟨u, hu⟩ := exec_next_of_fallback (by rw [hfetch]; exact h) (fetchInstr s).1
  exact ⟨_, by rw [step, hu]⟩

theorem run_succ {M : Host.Core} {s t : M.State} (h : M.step s = .next t) (n : Nat) :
    M.run (n + 1) s = M.run n t := by
  rw [Host.Core.run, h]

/-- Settles O8: by induction on the number of steps; a step completes and keeps the mode. -/
theorem fallbackRunsAreSafe : Obligations.FallbackRunsAreSafe := by
  intro n
  induction n with
  | zero => exact fun s _ => ⟨s, rfl⟩
  | succ n ih =>
    intro s h
    obtain ⟨t, ht⟩ := step_next_of_fallback h
    obtain ⟨u, hu⟩ := ih t (by rw [step_params ht]; exact h)
    exact ⟨u, (run_succ (M := core) ht n).trans hu⟩

/-! ### What a step fetches and how long it takes (R320, R1102, R1108) -/

/-- The fetch reads as many bytes at PC as the opcode byte asks for, and decodes them. -/
theorem fetchInstr_eq (s : State) :
    let r0 := memRead s.cpu.pc s
    let r1 := memRead (s.cpu.pc + 1) r0.2
    let r2 := memRead (s.cpu.pc + 2) r1.2
    fetchInstr s = (decodeBytes r0.1 r1.1 r2.1,
      if opcodeLength r0.1 = 1 then r0.2 else if opcodeLength r0.1 = 2 then r1.2 else r2.2) := by
  intro r0 r1 r2
  unfold fetchInstr
  rcases opcodeLength_cases r0.1 with hl | hl | hl
  · rw [decodeBytes_one hl r1.1 r2.1]; simp [r0, hl]
  · rw [decodeBytes_two hl r1.1 r2.1]; simp [r0, r1, hl]
  · simp [r0, r1, r2, hl]

/-- Settles O5: the decoder leaves as many of the three bytes as the fetch does not read. -/
theorem stepRunsDecodedInstruction : Obligations.StepRunsDecodedInstruction := by
  intro s i rest r0 r1 r2 fetched h
  rw [decode_three_bytes] at h
  obtain ⟨rfl, rfl⟩ := Prod.mk.inj (Except.ok.inj h)
  have hfetch : fetchInstr s = (decodeBytes r0.1 r1.1 r2.1, fetched) := by
    rw [fetchInstr_eq s]
    rcases opcodeLength_cases r0.1 with hl | hl | hl <;> simp [fetched, hl, r0, r1, r2]
  have hcpu : fetched.cpu = s.cpu := by
    have := fetchInstr_cpu s
    rwa [hfetch] at this
  rw [step, hfetch]
  rfl

/-- Settles O6: the instruction takes its cycles, and the catch-up adds the stall and the interrupt
entry and moves every unit on by the sum. -/
theorem stepAdvancesEveryUnit : Obligations.StepAdvancesEveryUnit := by
  intro s t hscan hcyc ht
  obtain ⟨u, hu, rfl⟩ := step_next ht
  have hfetch := fetchInstr_onlyReadEffects s
  obtain ⟨hsched, -, hhost, hdot⟩ := exec_sameOutside hu
  obtain ⟨n, hn1, hn7, hcycles⟩ := exec_cycles hu
  rw [fetchInstr_cpu] at hcycles
  have hframe : OnFrame u.ppu := by
    obtain ⟨h1, h2, -⟩ := hfetch.sameDot.trans hdot
    exact ⟨by rw [h1]; exact hscan, by rw [h2]; exact hcyc⟩
  have hn : (u.cpu.cycles - s.cpu.cycles).toNat = n := by
    rw [hcycles, BitVec.add_comm, BitVec.add_sub_cancel, BitVec.toNat_ofNat]
    omega
  obtain ⟨k, hc, htot, ⟨-, hdots⟩, hsamples⟩ := catchUp_counts (u.cpu.cycles - s.cpu.cycles).toNat u hframe
  have hdotNumber : dotNumber u.ppu = dotNumber s.ppu := by
    obtain ⟨h1, h2, h3⟩ := hfetch.sameDot.trans hdot
    rw [dotNumber, dotNumber, h1, h2, h3]
  rw [hn] at hc htot hdots hsamples ⊢
  have hsame := rewindCapture_sameRest s.ppu.frame (catchUp n u)
  refine ⟨n + u.bus.stall.toNat + k, by omega, ?_, ?_, ?_, ?_⟩
  · rw [hsame, htot, hsched, hfetch.sched]
  · rw [hsame, hc, hcycles, BitVec.add_assoc, ← BitVec.ofNat_add, Nat.add_assoc]
  · rw [hsame, hdots, hdotNumber]
  · have : (rewindCapture s.ppu.frame (catchUp n u)).host.samples = (catchUp n u).host.samples := by
      unfold rewindCapture; split <;> rfl
    rw [this, hsamples, hhost, hfetch.host]

end Sys2Proof.Machine
end

section
/-! SUPPORT. Proofs of the save-state laws (`65_savestate_host` R1209-R1212): what `load` makes of a saved
blob, and what `save` makes of a loaded one. -/

namespace Sys2Proof.Machine

/-! ### The regions of a saved blob (R1201-R1207, R1210) -/

theorem SameCartridge.some_iff {s m : State} (h : SameCartridge s m) (c : Cartridge)
    (hc : s.cart = some c) : ∃ d, m.cart = some d ∧ SameRom s.params c d := by
  unfold SameCartridge at h
  cases hd : m.cart with
  | none => rw [hc, hd] at h; exact h.elim
  | some d => rw [hc, hd] at h; exact ⟨d, rfl, h⟩

theorem SameCartridge.none_iff {s m : State} (h : SameCartridge s m) (hc : s.cart = none) :
    m.cart = none ∧ m.ppu.ntFour = s.ppu.ntFour := by
  unfold SameCartridge at h
  cases hd : m.cart with
  | none => rw [hc, hd] at h; exact ⟨rfl, h⟩
  | some d => rw [hc, hd] at h; exact h.elim

section SameMachine

variable {s m : State} (h : s.Inv) (hp : m.params = s.params) (hcart : SameCartridge s m)
include h hcart

/-- The loading machine expects the nametable size that the saved one has. -/
theorem expectedNtSize_of_sameCartridge : expectedNtSize m = ntSize s.ppu := by
  cases hc : s.cart with
  | none =>
    obtain ⟨hm, hnt⟩ := hcart.none_iff hc
    simp only [expectedNtSize, hm, ntSize, hnt]
  | some c =>
    obtain ⟨d, hm, hrom⟩ := hcart.some_iff c hc
    obtain ⟨-, -, -, -, hfour, -⟩ := hrom
    simp only [expectedNtSize, hm, ntSize, hfour, (h.cart c hc).2]

omit h in
include hp in
/-- The loading machine expects the size of MAP0 that the saved one writes. -/
theorem mapSize_of_sameCartridge : (putCart s.params s.cart).length = mapSize m := by
  cases hc : s.cart with
  | none => simp only [putCart, mapSize, (hcart.none_iff hc).1, List.length_nil]
  | some c =>
    obtain ⟨d, hm, -, hchr, -⟩ := hcart.some_iff c hc
    have hram : chrIsRam d = chrIsRam c := by rw [chrIsRam, chrIsRam, hchr]
    simp only [putCart_length, mapSize, hm, hp, hram]

include hp in
/-- The loading machine accepts the size of every region. -/
theorem lengthOk_regionBody (r : Region) : lengthOk m r (regionBody s r) = true := by
  cases r with
  | cpu0 => simp only [lengthOk, regionBody, putCpu_length, beq_self_eq_true]
  | bus0 => simp only [lengthOk, regionBody, putBus_length, beq_self_eq_true]
  | ppu0 =>
    simp only [lengthOk, regionBody, putPpu_length h.ppu, putPpu_size,
      expectedNtSize_of_sameCartridge h hcart, beq_self_eq_true, Bool.and_true, decide_eq_true_eq]
    omega
  | apu0 => simp only [lengthOk, regionBody, putApu_length, beq_self_eq_true]
  | map0 => simp only [lengthOk, regionBody, mapSize_of_sameCartridge hp hcart, beq_self_eq_true]
  | sch0 => simp only [lengthOk, regionBody, putSched_length, beq_self_eq_true]

end SameMachine

/-- Every size that `load` accepts fits the length field. -/
theorem length_lt_of_lengthOk {s : State} {r : Region} {body : List Byte} (h : lengthOk s r body = true) :
    body.length < 256 ^ 4 := by
  have hnt : expectedNtSize s ≤ 4096 := by
    unfold expectedNtSize ntSize; split <;> split_ifs <;> decide
  have hmap : mapSize s ≤ 16395 := by
    unfold mapSize; split <;> (try split_ifs) <;> decide
  cases r <;> simp only [lengthOk, Bool.and_eq_true, beq_iff_eq] at h <;> omega

/-- The cutter gives back the bodies it was given, by induction on the regions. -/
theorem splitRegions_putRegions {s m : State} (hok : ∀ r, lengthOk m r (regionBody s r) = true)
    (rs : List Region) :
    splitRegions m rs (rs.map (putRegion s)).flatten = .ok (rs.map (regionBody s), []) := by
  induction rs with
  | nil => rfl
  | cons r rs ih =>
    have hcut := splitRegions_cons (rs := rs) (rest := (rs.map (putRegion s)).flatten)
      (length_lt_of_lengthOk (hok r)) (hok r)
    rw [ih] at hcut
    exact hcut

/-! ### The first law (R1212) -/

theorem readRegion_of_reads {α : Type} {r : Region} {g : Get α} {body : List Byte} {x : α}
    (h : Reads g body x) : readRegion r g body = .ok x := by
  have hread := h []
  rw [List.append_nil] at hread
  rw [readRegion, hread]

theorem getCart_reads {s m : State} (h : s.Inv) (hcart : SameCartridge s m) :
    Reads (getCart s.params m.cart) (putCart s.params s.cart) s.cart := by
  cases hc : s.cart with
  | none =>
    rw [(hcart.none_iff hc).1]
    exact .pure none
  | some c =>
    obtain ⟨d, hm, hrom⟩ := hcart.some_iff c hc
    rw [hm]
    exact getCart_putCart hrom (h.cart c hc).1

theorem cartMatches_putCart {s m : State} (hp : m.params = s.params) (hcart : SameCartridge s m) :
    cartMatches m (putCart s.params s.cart) = true := by
  cases hc : s.cart with
  | none => simp only [cartMatches, (hcart.none_iff hc).1, putCart, List.isEmpty_nil]
  | some c =>
    obtain ⟨d, hm, hrom⟩ := hcart.some_iff c hc
    have htake : (putCart s.params (some c)).take 5 = putCartId s.params c := by
      rw [putCart, List.append_assoc, List.take_left' (putCartId_length _ _)]
    simp only [cartMatches, hm, htake, hp, hrom.cartId, beq_self_eq_true]

/-- The six bodies of a saved state decode to it, in a machine with the same cartridge. -/
theorem decodeBodies_regionBodies {s m : State} (h : s.Inv) (hmixer : s.apu.mixer.Inv)
    (hp : m.params = s.params) (hcart : SameCartridge s m) :
    decodeBodies m (regionOrder.map (regionBody s)) = .ok { s with host := m.host } := by
  have hcpu : readRegion .cpu0 getCpu (putCpu s.cpu) = _ := readRegion_of_reads (getCpu_putCpu h.cpu)
  have hbus : readRegion .bus0 getBus (putBus s.bus) = _ := readRegion_of_reads (getBus_putBus h.bus)
  have hppu : readRegion .ppu0 getPpu (putPpu s.ppu) = _ := readRegion_of_reads (getPpu_putPpu h.ppu)
  have hapu : readRegion .apu0 getApu (putApu s.apu) = _ :=
    readRegion_of_reads (getApu_putApu h.apu hmixer)
  have hmap : readRegion .map0 (getCart s.params m.cart) (putCart s.params s.cart) = _ :=
    readRegion_of_reads (getCart_reads h hcart)
  have hsched : readRegion .sch0 getSched (putSched s.sched) = _ :=
    readRegion_of_reads (getSched_putSched s.sched)
  simp only [regionOrder, List.map_cons, List.map_nil, regionBody, decodeBodies, hcpu, hbus, hppu, hapu,
    hp, hmap, hsched]
  rfl

/-- Settles O54: the blob's marks are those `load` looks for, the cutter gives the saved bodies back, and
each body decodes to what was saved in it. -/
theorem loadAfterSave : Obligations.LoadAfterSave := by
  intro s m h hmixer hp hcart
  have hsplit := splitRegions_putRegions (lengthOk_regionBody h hp hcart) regionOrder
  have hblob : save s = [0x4D, 0x53, 0x41, 0x56, 1, 0] ++ (regionOrder.map (putRegion s)).flatten := rfl
  have hmagic : ¬((save s).length < 6 ∨ (save s).take 4 ≠ blobMagic) := by
    rw [hblob, List.length_append, not_or, not_not]
    exact ⟨by simp, rfl⟩
  have hversion : ¬((save s).drop 4).take 2 ≠ blobVersion := not_not.2 rfl
  have hbody : (save s).drop 6 = (regionOrder.map (putRegion s)).flatten := rfl
  rw [load, if_neg hmagic, if_neg hversion, hbody, hsplit]
  simp only [ne_eq, not_true_eq_false, if_false]
  have hmatch : cartMatches m ((regionOrder.map (regionBody s)).getD 4 []) = true :=
    cartMatches_putCart hp hcart
  rw [hmatch]
  exact decodeBodies_regionBodies h hmixer hp hcart

/-! ### The second law (R1212) -/

/-- A region that decodes is what its writer writes. -/
theorem readRegion_exact {α : Type} {r : Region} {g : Get α} {put : α → List Byte} {body : List Byte}
    {x : α} (hg : Exact g put) (h : readRegion r g body = .ok x) : body = put x := by
  unfold readRegion at h
  split at h
  · rename_i y heq
    cases h
    rw [hg _ _ _ heq, List.append_nil]
  · cases h

theorem getCart_of_readRegion {r : Region} {params : Params} {cart out : Option Cartridge}
    {body : List Byte} (h : readRegion r (getCart params cart) body = .ok out)
    (hid : ∀ c, cart = some c → body.take 5 = putCartId params c) : body = putCart params out := by
  unfold readRegion at h
  split at h
  · rename_i y heq
    cases h
    exact getCart_exact hid heq
  · cases h

theorem bind_eq_ok {ε α β : Type} {x : Except ε α} {f : α → Except ε β} {y : β} (h : x >>= f = .ok y) :
    ∃ a, x = .ok a ∧ f a = .ok y := by
  cases x with
  | error e => cases h
  | ok a => exact ⟨a, rfl, h⟩

/-- Bodies that decode are those of the state they decode to. -/
theorem decodeBodies_exact {s t : State} {bodies : List (List Byte)}
    (hid : ∀ c, s.cart = some c → (bodies.getD 4 []).take 5 = putCartId s.params c)
    (h : decodeBodies s bodies = .ok t) : bodies = regionOrder.map (regionBody t) := by
  unfold decodeBodies at h
  split at h
  · obtain ⟨cpu, hcpu, h⟩ := bind_eq_ok h
    obtain ⟨bus, hbus, h⟩ := bind_eq_ok h
    obtain ⟨ppu, hppu, h⟩ := bind_eq_ok h
    obtain ⟨apu, hapu, h⟩ := bind_eq_ok h
    obtain ⟨cart, hcart, h⟩ := bind_eq_ok h
    obtain ⟨sched, hsched, h⟩ := bind_eq_ok h
    cases h
    rw [readRegion_exact getCpu_exact hcpu, readRegion_exact getBus_exact hbus,
      readRegion_exact getPpu_exact hppu, readRegion_exact getApu_exact hapu,
      getCart_of_readRegion hcart hid, readRegion_exact getSched_exact hsched]
    rfl
  · cases h

theorem cartId_of_cartMatches {s : State} {body : List Byte} (h : cartMatches s body = true)
    (c : Cartridge) (hc : s.cart = some c) : body.take 5 = putCartId s.params c := by
  simpa only [cartMatches, hc, beq_iff_eq] using h

/-- Settles O55: a blob that `load` accepts is its marks and the regions it was cut into, and every body
is what its writer writes of the loaded state. -/
theorem saveAfterLoad : Obligations.SaveAfterLoad := by
  intro s t blob h
  unfold load at h
  split_ifs at h with hmagic hversion
  obtain ⟨-, hmagic⟩ := not_or.1 hmagic
  split at h
  · cases h
  · rename_i bodies rest hsplit
    split_ifs at h with hrest hmatch
    obtain ⟨hblob, -⟩ := splitRegions_exact hsplit
    have hid := cartId_of_cartMatches (by simpa using hmatch)
    have hbodies := decodeBodies_exact hid h
    have hmarks : blob = blobMagic ++ (blobVersion ++ blob.drop 6) := by
      rw [← not_not.1 hmagic, ← not_not.1 hversion, ← List.drop_drop (i := 2) (j := 4), List.take_append_drop,
        List.take_append_drop]
    rw [hmarks, hblob, not_not.1 hrest, hbodies, List.append_nil]
    rfl

end Sys2Proof.Machine
end

section
/-! SUPPORT. Proofs of the operand, frame and stack statements (`30_encoding` R321-R335, `20_memory`
R210-R216, `44_control_transfer` R601, R602, `45_flags_system` R658, R659): what an access leaves
unchanged, and returns that find the stack as an entry left it. -/

namespace Sys2Proof.Machine

/-! ### Frames -/

theorem SameStorage.but {s t u : State} {cells : Storage → Nat → Bool} (h : SameStorage s t)
    (h' : SameStorageBut cells t u) : SameStorageBut cells s u :=
  fun k n hn => (h' k n hn).trans (h k n)

theorem SameStorageBut.withCpu {s t : State} {cells : Storage → Nat → Bool} (h : SameStorageBut cells s t)
    (c : Cpu) : SameStorageBut cells s { t with cpu := c } :=
  fun k n hn => (storedByte_withCpu t c k n).trans (h k n hn)

/-- Settles O11: a mode with an immediate byte reads nothing, one with an address reads the bus there. -/
theorem operandReadsKeepStorage : Obligations.OperandReadsKeepStorage := by
  intro m s
  have hread := readOperand_onlyReadEffects m s
  refine ⟨fun b hm => ?imm, fun am hm => ?mem, hread, hread.sameStorage⟩
  case imm => subst hm; exact ⟨rfl, rfl, rfl⟩
  case mem => subst hm; exact ⟨rfl, rfl⟩

/-- Resolving an operand touches at most the bus latch: the pointer bytes are of RAM. -/
theorem resolve_latch (m : AddrMode) (s : State) : ∃ v, (resolve m s).state = latchBus v s := by
  cases m
  case indX b => exact ⟨_, by rw [resolve_indX]⟩
  case indY b => exact ⟨_, by rw [resolve_indY]⟩
  all_goals exact ⟨s.bus.openBus, rfl⟩

/-- A write of RAM at the resolved address: the byte stands there, and no other unit changes. -/
theorem memWrite_resolved_ram {a : Word} (ha : a.toNat < 0x2000) (ob v : Byte) (c : Cpu) (s : State) :
    let t : State := { memWrite a v (latchBus ob s) with cpu := c }
    storedByte t .ram (a.toNat % 0x800) = some v ∧ t.bus.openBus = v ∧
      t = { s with cpu := t.cpu, bus := { s.bus with ram := t.bus.ram, openBus := t.bus.openBus } } := by
  have hdev : deviceOf a = .ram := deviceOf_ram.2 (by omega)
  rw [memWrite_of_ram hdev]
  exact ⟨congrArg some memGet_memSet_same, rfl, rfl⟩

/-- Settles O14: a store is one bus write after the pointer reads, which keep storage. -/
theorem storeFrame : Obligations.StoreFrame := by
  intro op b1 b2 s r hr a v
  have hsame : SameStorage s a.state := (resolve_onlyReadEffects r.mode s).sameStorage
  have hframe : SameStorageBut (writeCells a.state a.ea) s (memWrite a.ea v a.state) :=
    hsame.but (memWrite_cells a.ea v a.state)
  refine ⟨_, exec_storeRow hr s, rfl, hframe.withCpu _, fun ha => ?_⟩
  obtain ⟨ob, hob⟩ := resolve_latch r.mode s
  rw [hob]
  exact memWrite_resolved_ram ha ob v _ s

/-- C, Z and N of P are the only bits that a read-modify-write result touches. -/
theorem pCNZ_kept (c : Bool) (v p : Byte) : pCNZ c v p &&& 0x7C = p &&& 0x7C := by
  refine and_eq_and_of_bits fun i hi hm => ?_
  rw [pCNZ_bit]
  rcases lt_eight hi with rfl | rfl | rfl | rfl | rfl | rfl | rfl | rfl
  exacts [absurd hm (by decide), absurd hm (by decide), rfl, rfl, rfl, rfl, rfl, absurd hm (by decide)]

/-- Settles O25: a row is one bus read and one bus write at the resolved address; on RAM the read sets the
latch alone, so the write is one of RAM on the state before. -/
theorem readModifyWriteFrame : Obligations.ReadModifyWriteFrame := by
  intro op b1 b2 s r hr a v out
  have hsame : SameStorage s v.2 :=
    ((resolve_onlyReadEffects r.mode s).trans (memRead_onlyReadEffects a.ea a.state)).sameStorage
  have hframe : SameStorageBut (writeCells v.2 a.ea) s (memWrite a.ea out.1 v.2) :=
    hsame.but (memWrite_cells a.ea out.1 v.2)
  refine ⟨_, exec_rmwRow hr s, rfl, pCNZ_kept _ _ _, hframe.withCpu _, fun ha => ?_⟩
  obtain ⟨ob, hob⟩ := resolve_latch r.mode s
  have hdev : deviceOf a.ea = .ram := deviceOf_ram.2 (by omega)
  have hv : v = (memGet s.bus.ram (a.ea.toNat % 0x800), latchBus (memGet s.bus.ram (a.ea.toNat % 0x800)) s) := by
    calc v
      _ = memRead a.ea (latchBus ob s) := by rw [← hob]
      _ = _ := memRead_of_ram hdev _
  have hwrite := memWrite_resolved_ram ha v.1 out.1
    (retired r.length r.cycles { s.cpu with p := pCNZ out.2 out.1 s.cpu.p }) s
  have hv2 : v.2 = latchBus v.1 s := by rw [hv]
  rw [← hv2] at hwrite
  obtain ⟨hbyte, -, hunits⟩ := hwrite
  exact ⟨congrArg Prod.fst hv, hbyte, hunits⟩

/-! ### Returns (R602, R659) -/

theorem memGet_ram_of_storedByte {s t : State} {n m : Nat} {v : Byte}
    (h : storedByte t .ram n = storedByte s .ram m) (hs : storedByte s .ram m = some v) :
    memGet t.bus.ram n = v := Option.some.inj (h.trans hs)

theorem sameStorage_latchBus_withCpu (v : Byte) (c : Cpu) (s : State) :
    SameStorage s { latchBus v s with cpu := c } := by
  intro k n
  cases k <;> rfl

/-- Settles O28: JSR leaves SP two lower and the address of its last byte in the two cells; RTS from there
reads the same two cells. -/
theorem returnFollowsCall : Obligations.ReturnFollowsCall := by
  intro w s t u ht hsp hhigh hlow
  rw [exec_jsr] at ht
  have ht : { pushWord (s.cpu.pc + 2) s with
      cpu := { s.cpu with sp := s.cpu.sp - 2, pc := w, cycles := s.cpu.cycles + 6 } } = t := by
    injection ht
  subst ht
  rw [storedByte_withCpu] at hhigh hlow
  have hhi := memGet_ram_of_storedByte hhigh (storedByte_pushWord_hiByte _ s)
  have hlo := memGet_ram_of_storedByte hlow (storedByte_pushWord_loByte _ s)
  have hsp1 : u.cpu.sp + 1 = s.cpu.sp - 1 := by rw [hsp]; bv_omega
  have hsp2 : u.cpu.sp + 2 = s.cpu.sp := by rw [hsp]; bv_omega
  refine ⟨_, exec_rts u, ?pc, hsp2, rfl, ?storage⟩
  case pc =>
    change wordOf (memGet u.bus.ram (stackCell (u.cpu.sp + 2)))
      (memGet u.bus.ram (stackCell (u.cpu.sp + 1))) + 1 = _
    rw [hsp1, hsp2, hhi, hlo, wordOf_hiByte_loByte]
    bv_omega
  case storage => exact sameStorage_latchBus_withCpu _ _ u

/-- RTI in closed form: three RAM bytes from the stack, the latch at the last of them. -/
theorem exec_rti (s : State) :
    let v := memGet s.bus.ram (stackCell (s.cpu.sp + 1))
    let lo := memGet s.bus.ram (stackCell (s.cpu.sp + 2))
    let hi := memGet s.bus.ram (stackCell (s.cpu.sp + 3))
    exec .rti s =
      .next { latchBus hi s with
        cpu := { s.cpu with
          sp := s.cpu.sp + 3, p := (v &&& 0xCF) ||| 0x20, pc := wordOf hi lo,
          cycles := s.cpu.cycles + 6 } } := by
  calc exec .rti s
    _ = .next (addCycles 6 (returnFromInterrupt s)) := rfl
    _ = _ := by rw [returnFromInterrupt_eq]; rfl

/-- Settles O32: the closed form of RTI. -/
theorem returnFromInterruptResult : Obligations.ReturnFromInterruptResult := fun s => ⟨rfl, exec_rti s⟩

/-- Settles O31: BRK is an interrupt entry with B = 1 and 7 cycles. -/
theorem breakResult : Obligations.BreakResult := by
  intro s
  obtain ⟨hentry, hcycles, hnmi⟩ :=
    enterInterrupt_entry (v := irqVector) (by decide) (by decide) (s.cpu.pc + 2) true s
  have hcount := hentry.withCounters (s.cpu.cycles + 7) s.cpu.nmiPending
  have hstate : addCycles 7 (enterInterrupt irqVector (s.cpu.pc + 2) true s) =
      { enterInterrupt irqVector (s.cpu.pc + 2) true s with
        cpu := { (enterInterrupt irqVector (s.cpu.pc + 2) true s).cpu with
          cycles := s.cpu.cycles + 7, nmiPending := s.cpu.nmiPending } } := by
    rw [addCycles, hcycles, ← hnmi]; rfl
  refine ⟨rfl, _, rfl, ?_⟩
  rw [hstate]
  exact ⟨hcount, rfl, rfl⟩

/-- The pushed form of P is pulled as its stored form, whatever B is (R107, R108). -/
theorem storedP_pushed (b : Bool) (p : Byte) :
    storedP ((p &&& 0xCF) ||| (if b then 0x30 else 0x20)) = storedP p := by
  refine byte_ext fun i hi => ?_
  rw [storedP_bit, storedP_bit, BitVec.getLsbD_or, BitVec.getLsbD_and]
  rcases lt_eight hi with rfl | rfl | rfl | rfl | rfl | rfl | rfl | rfl <;> cases b <;> simp

/-- Settles O34: the entry leaves SP three lower, and RTI from there reads the three cells it pushed. -/
theorem returnFollowsEntry : Obligations.ReturnFollowsEntry := by
  intro vector ret b s t u hstored hentry hsp hcells
  obtain ⟨hcpu, hhigh, hlow, hflags, -, -⟩ := hentry
  have hspt : t.cpu.sp = s.cpu.sp - 3 := by rw [hcpu]
  have hsp1 : u.cpu.sp + 1 = s.cpu.sp - 2 := by rw [hsp, hspt]; bv_omega
  have hsp2 : u.cpu.sp + 2 = s.cpu.sp - 1 := by rw [hsp, hspt]; bv_omega
  have hsp3 : u.cpu.sp + 3 = s.cpu.sp := by rw [hsp, hspt]; bv_omega
  have hsub : s.cpu.sp - 1 - 1 = s.cpu.sp - 2 := by bv_omega
  have hp := memGet_ram_of_storedByte (hcells _ (by rw [← hsub]; simp [pushedCells])) hflags
  have hlo := memGet_ram_of_storedByte (hcells _ (by simp [pushedCells])) hlow
  have hhi := memGet_ram_of_storedByte (hcells _ (by simp [pushedCells])) hhigh
  refine ⟨_, exec_rti u, ?pc, ?flags, hsp3, ?storage⟩
  case pc =>
    change wordOf (memGet u.bus.ram (stackCell (u.cpu.sp + 3)))
      (memGet u.bus.ram (stackCell (u.cpu.sp + 2))) = _
    rw [hsp2, hsp3, hhi, hlo, wordOf_hiByte_loByte]
  case flags =>
    change storedP (memGet u.bus.ram (stackCell (u.cpu.sp + 1))) = _
    rw [hsp1, hp, storedP_pushed, hstored]
  case storage => exact sameStorage_latchBus_withCpu _ _ u

end Sys2Proof.Machine
end

section
/-! SUPPORT. Proofs of the bus statements (`20_memory` R202, R210-R219): RAM, OAM DMA and the controller
ports. -/

namespace Sys2Proof.Machine

/-! ### CPU RAM (R202, R210-R214) -/

/-- Settles O39: below 0x2000 both accesses are of the folded cell. -/
theorem ramReadAfterWrite : Obligations.RamReadAfterWrite := by
  intro a c v s ha hc
  have hda : deviceOf a = .ram := deviceOf_ram.2 (by omega)
  have hdc : deviceOf c = .ram := deviceOf_ram.2 (by omega)
  refine ⟨?read, by rw [memRead_of_ram hdc], fun k n hkn => ?frame⟩
  case read =>
    rw [memRead_of_ram hdc, memRead_of_ram hdc, memWrite_of_ram hda]
    exact memGet_memSet
  case frame => exact memWrite_cells a v s k n (by simpa [writeCells, hda, ramIndex] using hkn)

/-! ### OAM DMA (R218) -/

theorem toNat_byte_add_ofNat (b : Byte) (i : Nat) : (b + BitVec.ofNat 8 i).toNat = (b.toNat + i) % 256 := by
  rw [BitVec.toNat_add, BitVec.toNat_ofNat]; omega

/-- A copy from a RAM page puts byte `j` of the page at OAMADDR + `j` for the bytes it copies, and leaves
the others. -/
theorem oamDmaCopy_oam {d : Byte} (hd : d.toNat < 0x20) (n i : Nat) (hni : i + n ≤ 256) (s : State) {j : Nat}
    (hj : j < 256) :
    memGet (oamDmaCopy d n i s).ppu.oam ((s.ppu.oamaddr.toNat + j) % 256) =
      if i ≤ j ∧ j < i + n then memGet s.bus.ram ((d.toNat * 256 + j) % 0x800)
      else memGet s.ppu.oam ((s.ppu.oamaddr.toNat + j) % 256) := by
  induction n generalizing i s with
  | zero => rw [if_neg (by omega)]; rfl
  | succ n ih =>
    have haddr : (wordOf d (BitVec.ofNat 8 i)).toNat = d.toNat * 256 + i := by
      rw [wordOf_toNat, BitVec.toNat_ofNat]; omega
    have hread : memRead (wordOf d (BitVec.ofNat 8 i)) s = _ :=
      memRead_of_ram (deviceOf_ram.2 (by omega)) s
    simp only [oamDmaCopy, hread, ramIndex, haddr, latchBus]
    have hrest := ih (i + 1) (by omega)
      { s with
        bus := { s.bus with openBus := memGet s.bus.ram ((d.toNat * 256 + i) % 0x800) }
        ppu := { s.ppu with
          oam := memSet s.ppu.oam (s.ppu.oamaddr + BitVec.ofNat 8 i).toNat
            (memGet s.bus.ram ((d.toNat * 256 + i) % 0x800)) } }
    rw [hrest, toNat_byte_add_ofNat, memGet_memSet]
    by_cases hij : j = i
    · subst hij
      simp
    · have hcell : (s.ppu.oamaddr.toNat + j) % 256 ≠ (s.ppu.oamaddr.toNat + i) % 256 := by omega
      have hrange : (i + 1 ≤ j ∧ j < i + 1 + n) ↔ (i ≤ j ∧ j < i + (n + 1)) := by omega
      simp only [hcell, if_false, hrange]

/-- Settles O40: the copy makes only reads but for OAM; the frame is that of every bus write. -/
theorem oamDmaCopies : Obligations.OamDmaCopies := by
  intro d s t
  obtain ⟨hcopy, -⟩ := oamDmaCopy_frame d 256 0 (latchBus d s)
  refine ⟨memWrite_cpu _ _ _, ?stall, hcopy.oamaddr, fun k n hkn => ?frame, fun hd i hi => ?copied⟩
  case stall => exact congrArg (· + 513) hcopy.stall
  case frame => exact memWrite_cells 0x4014 d s k n hkn
  case copied =>
    have hbyte := oamDmaCopy_oam hd 256 0 (by omega) (latchBus d s) hi
    rw [if_pos ⟨Nat.zero_le i, by omega⟩] at hbyte
    exact congrArg some hbyte

/-! ### The controller ports (R219) -/

/-- What a read leaves in a shift register: the next button at bit 0, and ones from above. -/
def shiftedOut (b : Byte) : Byte := (b >>> 1) ||| 0x80

theorem shiftedOut_getLsbD (b : Byte) {j : Nat} (hj : j < 8) :
    (shiftedOut b).getLsbD j = if j < 7 then b.getLsbD (j + 1) else true := by
  rw [shiftedOut, BitVec.getLsbD_or, BitVec.getLsbD_ushiftRight, Nat.add_comm 1 j]
  rcases lt_eight hj with rfl | rfl | rfl | rfl | rfl | rfl | rfl | rfl <;> simp

theorem shiftedOut_iterate_getLsbD (b : Byte) (k : Nat) {j : Nat} (hj : j < 8) :
    (shiftedOut^[k] b).getLsbD j = if j + k < 8 then b.getLsbD (j + k) else true := by
  induction k generalizing j with
  | zero => simp [hj]
  | succ k ih =>
    rw [Function.iterate_succ_apply', shiftedOut_getLsbD _ hj]
    by_cases h7 : j < 7
    · rw [if_pos h7, ih (by omega), show j + 1 + k = j + (k + 1) by omega]
    · rw [if_neg h7, if_neg (by omega)]

/-- The value of a port whose register has been read `k` times. -/
theorem portValue_iterate (b : Byte) (k : Nat) :
    0x40 ||| (shiftedOut^[k] b &&& 1) = 0x40 ||| (if k < 8 ∧ b.getLsbD k = false then 0 else 1) := by
  have hbit := shiftedOut_iterate_getLsbD b k (j := 0) (by decide)
  rw [Nat.zero_add] at hbit
  have hone : shiftedOut^[k] b &&& 1 = if (shiftedOut^[k] b).getLsbD 0 then 1 else 0 := by
    refine (BitVec.and_one_eq_setWidth_ofBool_getLsbD (x := shiftedOut^[k] b)).trans ?_
    cases (shiftedOut^[k] b).getLsbD 0 <;> rfl
  rw [hone, hbit]
  by_cases hk : k < 8
  · cases b.getLsbD k <;> simp [hk]
  · simp [hk]

section Ports

variable {s : State} (h : s.bus.ctrlStrobe = false)
include h

/-- A read of port 1 while the strobe is 0. -/
theorem memRead_ctrl0 :
    (memRead 0x4016 s).1 = 0x40 ||| (s.bus.ctrlShift0 &&& 1) ∧
      (memRead 0x4016 s).2.bus.ctrlStrobe = false ∧
      (memRead 0x4016 s).2.bus.ctrlShift0 = shiftedOut s.bus.ctrlShift0 := by
  have hread : memRead 0x4016 s =
      (ctrlValue0 s.bus, latchBus (ctrlValue0 s.bus) { s with bus := ctrlShiftOut0 s.bus }) := rfl
  rw [hread]
  simp [ctrlValue0, ctrlShiftOut0, latchBus, h, shiftedOut]

/-- A read of port 2 while the strobe is 0. -/
theorem memRead_ctrl1 :
    (memRead 0x4017 s).1 = 0x40 ||| (s.bus.ctrlShift1 &&& 1) ∧
      (memRead 0x4017 s).2.bus.ctrlStrobe = false ∧
      (memRead 0x4017 s).2.bus.ctrlShift1 = shiftedOut s.bus.ctrlShift1 := by
  have hread : memRead 0x4017 s =
      (ctrlValue1 s.bus, latchBus (ctrlValue1 s.bus) { s with bus := ctrlShiftOut1 s.bus }) := rfl
  rw [hread]
  simp [ctrlValue1, ctrlShiftOut1, latchBus, h, shiftedOut]

theorem reads_ctrl0 (k : Nat) :
    ((fun t => (memRead 0x4016 t).2)^[k] s).bus.ctrlStrobe = false ∧
      ((fun t => (memRead 0x4016 t).2)^[k] s).bus.ctrlShift0 = shiftedOut^[k] s.bus.ctrlShift0 := by
  induction k with
  | zero => exact ⟨h, rfl⟩
  | succ k ih =>
    obtain ⟨hstrobe, hshift⟩ := ih
    obtain ⟨-, hstrobe', hshift'⟩ := memRead_ctrl0 hstrobe
    simp only [Function.iterate_succ_apply']
    exact ⟨hstrobe', by rw [hshift', hshift]⟩

theorem reads_ctrl1 (k : Nat) :
    ((fun t => (memRead 0x4017 t).2)^[k] s).bus.ctrlStrobe = false ∧
      ((fun t => (memRead 0x4017 t).2)^[k] s).bus.ctrlShift1 = shiftedOut^[k] s.bus.ctrlShift1 := by
  induction k with
  | zero => exact ⟨h, rfl⟩
  | succ k ih =>
    obtain ⟨hstrobe, hshift⟩ := ih
    obtain ⟨-, hstrobe', hshift'⟩ := memRead_ctrl1 hstrobe
    simp only [Function.iterate_succ_apply']
    exact ⟨hstrobe', by rw [hshift', hshift]⟩

end Ports

/-- A write of 1 and then of 0 to the strobe loads both registers with the buttons. -/
theorem memWrite_strobe {v w : Byte} (hv : v.getLsbD 0 = true) (hw : w.getLsbD 0 = false) (s : State) :
    (memWrite 0x4016 w (memWrite 0x4016 v s)).bus =
      { s.bus with
        openBus := w
        ctrlStrobe := false
        ctrlShift0 := s.bus.ctrlButtons0
        ctrlShift1 := s.bus.ctrlButtons1 } := by
  have hwrite (x : Byte) (u : State) :
      (memWrite 0x4016 x u).bus = ctrlWrite x { u.bus with openBus := x } := rfl
  rw [hwrite, hwrite]
  simp only [ctrlWrite, hv, hw, Bool.or_true, Bool.true_or, if_true]

/-- Settles O41: the strobe loads the buttons, and each read shifts the next one to bit 0. -/
theorem controllerReads : Obligations.ControllerReads := by
  intro v w s k hv hw s0
  have hbus : s0.bus = _ := memWrite_strobe hv hw s
  have hstrobe : s0.bus.ctrlStrobe = false := by rw [hbus]
  obtain ⟨hstrobe0, hshift0⟩ := reads_ctrl0 hstrobe k
  obtain ⟨hstrobe1, hshift1⟩ := reads_ctrl1 hstrobe k
  obtain ⟨hvalue0, -⟩ := memRead_ctrl0 hstrobe0
  obtain ⟨hvalue1, -⟩ := memRead_ctrl1 hstrobe1
  rw [hvalue0, hvalue1, hshift0, hshift1, hbus]
  exact ⟨portValue_iterate _ k, portValue_iterate _ k⟩

end Sys2Proof.Machine
end

section
/-! SUPPORT. Proofs of the statements about the PPU's registers and memory (`61_ppu` R820-R844): PPUSTATUS,
PPUADDR, PPUSCROLL and PPUDATA. -/

namespace Sys2Proof.Machine

/-! ### PPUSTATUS (R832, R844) -/

theorem ppuRegRead_status {r : BitVec 3} (h : r.toNat = 2) (cart : Option Cartridge) (p : Ppu) :
    ppuRegRead cart r p = readStatus p := by simp [ppuRegRead, h]

theorem ppuStatus_getLsbD_seven (p : Ppu) : (ppuStatus p).getLsbD 7 = p.vblank := by
  unfold ppuStatus
  cases p.vblank <;> cases p.s0hit <;> cases p.ovf <;> simp

/-- Settles O42: at any mirror a read is one of PPUSTATUS, which clears the flag that the next one gives. -/
theorem statusRead : Obligations.StatusRead := by
  intro a s hlo hhi ha r
  have hdev : deviceOf a = .ppu := deviceOf_ppu.2 ⟨hlo, hhi⟩
  have hreg : (a.setWidth 3).toNat = 2 := (BitVec.toNat_setWidth 3 a).trans ha
  have hread (u : State) : memRead a u = (ppuStatus u.ppu, { u with
      bus := { u.bus with openBus := ppuStatus u.ppu }
      ppu := { u.ppu with vblank := false, w := false, ioLatch := ppuStatus u.ppu } }) := by
    rw [memRead_of_ppu hdev, ppuRegRead_status hreg, readStatus]
  refine ⟨hread s, ?_⟩
  rw [hread, ppuStatus_getLsbD_seven, hread]

/-! ### PPUADDR and PPUSCROLL (R837, R839) -/

/-- Two PPUADDR writes from a clear toggle: the six bits of the first over the second. -/
theorem writeAddr_writeAddr (d e : Byte) {p : Ppu} (h : p.w = false) (l : Byte) :
    writeAddr e { writeAddr d p with ioLatch := l } =
      { p with
        ioLatch := l
        v := (0 : BitVec 1) ++ (d.setWidth 6 ++ e)
        t := (0 : BitVec 1) ++ (d.setWidth 6 ++ e) } := by
  have hfields : ((p.t &&& (0x00FF : BitVec 15) ||| (d.setWidth 15 &&& (0x3F : BitVec 15)) <<< 8) &&&
      (0x7F00 : BitVec 15)) ||| e.setWidth 15 =
      (0 : BitVec 1) ++ (d.setWidth 6 ++ e) := by
    refine BitVec.eq_of_getLsbD_eq fun i hi => Eq.trans ?_ BitVec.getLsbD_append.symm
    simp only [BitVec.getLsbD_append]
    interval_cases i <;> simp
  simp only [writeAddr, h, Bool.false_eq_true, if_false, if_true, Nat.cast_ofNat, hfields]

/-- Two PPUSCROLL writes from a clear toggle, in fields: fine Y, the kept nametable, coarse Y, coarse X. -/
theorem writeScroll_writeScroll (d e : Byte) {p : Ppu} (h : p.w = false) (l : Byte) :
    writeScroll e { writeScroll d p with ioLatch := l } =
      { p with
        ioLatch := l
        t := e.setWidth 3 ++ (p.t.extractLsb' 10 2 ++ (e.extractLsb' 3 5 ++ d.extractLsb' 3 5))
        x := d.setWidth 3 } := by
  have hfields : ((p.t &&& ~~~0x001F#15 ||| (d >>> 3).setWidth 15) &&& ~~~0x73E0#15) |||
      ((e.setWidth 15 &&& 0x07) <<< 12) ||| (((e >>> 3).setWidth 15) <<< 5) =
      e.setWidth 3 ++ (p.t.extractLsb' 10 2 ++ (e.extractLsb' 3 5 ++ d.extractLsb' 3 5)) := by
    refine BitVec.eq_of_getLsbD_eq fun i hi => Eq.trans ?_ BitVec.getLsbD_append.symm
    simp only [BitVec.getLsbD_append]
    interval_cases i <;> simp
  simp only [writeScroll, h, Bool.false_eq_true, if_false, if_true, hfields]

/-- An appended pair in numbers. -/
theorem toNat_append_add {m n : Nat} (x : BitVec m) (y : BitVec n) :
    (x ++ y).toNat = x.toNat * 2 ^ n + y.toNat := by
  rw [BitVec.toNat_append, ← Nat.shiftLeft_add_eq_or_of_lt (BitVec.isLt _), Nat.shiftLeft_eq]

/-- Settles O43: the two writes in fields, and the fields in numbers. -/
theorem addressAndScrollWrites : Obligations.AddressAndScrollWrites := by
  intro d e s hw addr scroll
  have haddr : addr = _ := writeAddr_writeAddr d e (p := { s.ppu with ioLatch := d }) hw e
  have hscroll : scroll = _ := writeScroll_writeScroll d e (p := { s.ppu with ioLatch := d }) hw e
  rw [haddr, hscroll]
  refine ⟨?addr, rfl, hw, rfl, ?scroll, BitVec.toNat_setWidth 3 d, rfl, hw⟩
  case addr =>
    simp only [toNat_append_add, BitVec.toNat_setWidth]
    simp
  case scroll =>
    simp only [toNat_append_add, BitVec.extractLsb'_toNat, BitVec.toNat_setWidth, Nat.shiftRight_eq_div_pow]
    omega

/-! ### PPUDATA: reads (R821-R823, R838, R840) -/

/-- The 14-bit address of `v`. -/
theorem ofNat_v_mod (v : BitVec 15) : BitVec.ofNat 14 (v.toNat % 0x4000) = v.setWidth 14 := by
  apply BitVec.eq_of_toNat_eq
  simp

theorem vramStep_add (p : Ppu) :
    p.v + vramStep p = BitVec.ofNat 15 (p.v.toNat + if p.ctrl.getLsbD 2 then 32 else 1) := by
  unfold vramStep
  apply BitVec.eq_of_toNat_eq
  cases p.ctrl.getLsbD 2 <;> simp

/-- What the PPU reads at an address that can be written is the byte of storage there. -/
theorem storedByte_of_vramCell {s : State} {b : BitVec 14} {k : Storage} {n : Nat}
    (h : vramCell s b = some (k, n)) : storedByte s k n = some (ppuRead s.cart s.ppu b) := by
  unfold vramCell at h
  unfold ppuRead
  split_ifs at h ⊢
  · obtain ⟨c, hc, hcell⟩ := Option.bind_eq_some_iff.1 h
    split_ifs at hcell
    cases hcell
    simp only [storedByte, chrRead, hc, Option.map_some]
  · cases h; rfl
  · cases h; rfl

/-- A PPUDATA read in numbers. -/
theorem readData_eq (cart : Option Cartridge) (p : Ppu) :
    let a := p.v.toNat % 0x4000
    let r := if a < 0x3F00 then p.readBuffer
      else (p.ioLatch &&& 0xC0) ||| (ppuRead cart p (BitVec.ofNat 14 a) &&& 0x3F)
    readData cart p = (r, { p with
      readBuffer := ppuRead cart p (BitVec.ofNat 14 (if a < 0x3F00 then a else a - 0x1000))
      v := BitVec.ofNat 15 (p.v.toNat + if p.ctrl.getLsbD 2 then 32 else 1)
      ioLatch := r }) := by
  intro a r
  have ha : (p.v.setWidth 14).toNat = a := BitVec.toNat_setWidth 14 p.v
  have hbelow : ¬a < 0x3F00 → BitVec.ofNat 14 (a - 0x1000) = p.v.setWidth 14 - 0x1000 := fun h => by
    apply BitVec.eq_of_toNat_eq
    rw [BitVec.toNat_ofNat, BitVec.toNat_sub, ha, show (0x1000 : BitVec 14).toNat = 0x1000 from rfl]
    omega
  simp only [readData, ha, ← vramStep_add, r, show BitVec.ofNat 14 a = p.v.setWidth 14 from ofNat_v_mod p.v]
  by_cases h : a < 0x3F00
  · simp only [h, if_true, show BitVec.ofNat 14 a = p.v.setWidth 14 from ofNat_v_mod p.v]
  · simp only [h, if_false, hbelow h]

/-- Settles O44: the register's read in numbers; a bus read keeps storage. -/
theorem dataRead : Obligations.DataRead := by
  intro s
  refine ⟨?read, fun b => ⟨fun k n h => storedByte_of_vramCell h, fun hb => ?pattern⟩⟩
  case read =>
    have hread : memRead 0x2007 s = ((readData s.cart s.ppu).1, { s with
        bus := { s.bus with openBus := (readData s.cart s.ppu).1 }
        ppu := (readData s.cart s.ppu).2 }) := rfl
    refine ⟨?_, ?_, (memRead_onlyReadEffects 0x2007 s).sameStorage⟩ <;> rw [hread, readData_eq]
  case pattern =>
    rw [ppuRead, if_pos hb]
    cases s.cart <;> rfl

/-! ### PPUDATA: writes (R821-R823, R838, R905) -/

/-- The machine after a PPUDATA write. -/
theorem memWrite_data (d : Byte) (s : State) :
    memWrite 0x2007 d s = { s with
      bus := { s.bus with openBus := d }
      ppu := writeData s.cart d { s.ppu with ioLatch := d }
      cart := ppuWriteCart s.cart (s.ppu.v.setWidth 14) d } := rfl

section DataWrite

variable (d : Byte) (s : State)

/-- A PPUDATA write stores at the cell of `v`. -/
theorem storedByte_memWrite_data {k : Storage} {n : Nat} (h : vramCell s (s.ppu.v.setWidth 14) = some (k, n)) :
    storedByte (memWrite 0x2007 d s) k n = some (if k = .palette then d &&& 0x3F else d) := by
  unfold vramCell at h
  simp only [memWrite_data, writeData, ppuWriteMem, ppuWriteCart]
  by_cases h1 : (s.ppu.v.setWidth 14).toNat < 0x2000
  · simp only [h1, if_true] at h ⊢
    obtain ⟨c, hc, hcell⟩ := Option.bind_eq_some_iff.1 h
    by_cases hram : chrIsRam c = true
    · rw [if_pos hram] at hcell
      cases hcell
      simp [storedByte, chrWrite, hc, hram]
    · rw [if_neg hram] at hcell
      cases hcell
  · by_cases h2 : (s.ppu.v.setWidth 14).toNat < 0x3F00
    · simp only [h1, h2, if_false, if_true] at h ⊢
      cases h
      exact congrArg some memGet_memSet_same
    · simp only [h1, h2, if_false] at h ⊢
      cases h
      exact congrArg some memGet_memSet_same

/-- A PPUDATA write stores nowhere else. -/
theorem storedByte_memWrite_data_ne {k : Storage} {n : Nat}
    (h : vramCell s (s.ppu.v.setWidth 14) ≠ some (k, n)) :
    storedByte (memWrite 0x2007 d s) k n = storedByte s k n :=
  memWrite_cells 0x2007 d s k n (beq_eq_false_iff_ne.2 h)

/-- A PPUDATA write keeps the header and the banks. -/
theorem memWrite_data_cart :
    (s.cart = none ∧ (memWrite 0x2007 d s).cart = none) ∨
      ∃ c m, s.cart = some c ∧ (memWrite 0x2007 d s).cart = some { c with chr := m } ∧
        (chrIsRam c = false → m = c.chr) := by
  rw [memWrite_data]
  cases hc : s.cart with
  | none =>
    refine .inl ⟨rfl, ?_⟩
    simp only [ppuWriteCart, chrWrite, ite_self]
  | some c =>
    right
    by_cases hstore : (s.ppu.v.setWidth 14).toNat < 0x2000 ∧ chrIsRam c = true
    · obtain ⟨hlow, hram⟩ := hstore
      exact ⟨c, memSet c.chr (chrOffset c (s.ppu.v.setWidth 14).toNat) d, rfl,
        by simp only [ppuWriteCart, chrWrite, if_pos hlow, if_pos hram], fun h => by simp [h] at hram⟩
    · refine ⟨c, c.chr, rfl, ?_, fun _ => rfl⟩
      simp only [ppuWriteCart, chrWrite]
      split_ifs with hlow hram
      · exact absurd ⟨hlow, hram⟩ hstore
      all_goals rfl

/-- A PPUDATA write moves no cell to another address. -/
theorem vramCell_memWrite_data (b : BitVec 14) : vramCell (memWrite 0x2007 d s) b = vramCell s b := by
  have hnt : (memWrite 0x2007 d s).ppu.ntFour = s.ppu.ntFour := by
    rw [memWrite_data]; unfold writeData ppuWriteMem; split_ifs <;> rfl
  rcases memWrite_data_cart d s with ⟨hs, ht⟩ | ⟨c, m, hs, ht, -⟩
  · simp only [vramCell, ntIndex, hs, ht, hnt]
  · simp only [vramCell, ntIndex, hs, ht, hnt]
    rfl

/-- An address with no cell reads the same after a PPUDATA write: CHR-ROM and the empty pattern range. -/
theorem ppuRead_memWrite_data_of_none {b : BitVec 14} (h : vramCell s b = none) :
    ppuRead (memWrite 0x2007 d s).cart (memWrite 0x2007 d s).ppu b = ppuRead s.cart s.ppu b := by
  unfold vramCell at h
  split_ifs at h with hb
  rw [ppuRead, ppuRead, if_pos hb, if_pos hb]
  rcases memWrite_data_cart d s with ⟨hs, ht⟩ | ⟨c, m, hs, ht, hrom⟩
  · rw [hs, ht]
  · have hram : chrIsRam c = false := by
      rw [hs] at h
      simpa using h
    rw [hs, ht, hrom hram]

end DataWrite

/-- Only the palette's cells are read at 0x3F00 and above. -/
theorem palette_of_vramCell {s : State} {b : BitVec 14} {k : Storage} {n : Nat}
    (h : vramCell s b = some (k, n)) : k = .palette ↔ ¬b.toNat < 0x3F00 := by
  unfold vramCell at h
  split_ifs at h with h1 h2
  · obtain ⟨c, -, hcell⟩ := Option.bind_eq_some_iff.1 h
    split_ifs at hcell
    cases hcell
    simp; omega
  · cases h; simp [h2]
  · cases h; simp [h2]

/-- What the PPU reads after a PPUDATA write: the byte at every address of its cell, and what it read
before at every other one. -/
theorem ppuRead_memWrite_data (d : Byte) (s : State) (b : BitVec 14) :
    ppuRead (memWrite 0x2007 d s).cart (memWrite 0x2007 d s).ppu b =
      if vramCell s (s.ppu.v.setWidth 14) ≠ none ∧ vramCell s b = vramCell s (s.ppu.v.setWidth 14) then
        if b.toNat < 0x3F00 then d else d &&& 0x3F
      else ppuRead s.cart s.ppu b := by
  cases hb : vramCell s b with
  | none => rw [if_neg (fun h => h.1 h.2.symm), ppuRead_memWrite_data_of_none d s hb]
  | some cell =>
    obtain ⟨k, n⟩ := cell
    have hafter := storedByte_of_vramCell ((vramCell_memWrite_data d s b).trans hb)
    by_cases ha : vramCell s (s.ppu.v.setWidth 14) = some (k, n)
    · rw [storedByte_memWrite_data d s ha, Option.some.injEq] at hafter
      rw [ha, if_pos ⟨Option.some_ne_none _, rfl⟩, ← hafter]
      by_cases hlow : b.toNat < 0x3F00
      · rw [if_pos hlow, if_neg fun hk => (palette_of_vramCell hb).1 hk hlow]
      · rw [if_neg hlow, if_pos ((palette_of_vramCell hb).2 hlow)]
    · rw [storedByte_memWrite_data_ne d s ha, storedByte_of_vramCell hb, Option.some.injEq] at hafter
      rw [← hafter, if_neg (fun h => ha h.2.symm)]

/-- R905's page is the model's, kept inside the RAM that the cartridge asks for. -/
theorem mirrorPage_eq (c : Cartridge) (n : BitVec 2) :
    (cartNametablePage c n &&& if c.fourScreen then 3 else 1).toNat = mirrorPage c n.toNat := by
  have hlow : (n &&& 1 &&& 1).toNat = n.toNat % 2 := by revert n; decide
  have hhigh : (n >>> 1 &&& 1).toNat = n.toNat / 2 := by revert n; decide
  have hall : (n &&& 3).toNat = n.toNat := by revert n; decide
  unfold cartNametablePage mirrorPage
  cases c.fourScreen with
  | true => exact hall
  | false =>
    simp only [Bool.false_eq_true, if_false]
    cases c.mapper with
    | fixedBank => cases c.hdrMirror <;> simp only [reduceCtorEq, if_false, if_true, hhigh, hlow]
    | serialShift r =>
      have hmode : (r.control &&& 3).toNat = r.control.toNat % 4 := by
        rw [BitVec.toNat_and]; exact Nat.and_two_pow_sub_one_eq_mod _ 2
      have hlt : r.control.toNat % 4 < 4 := Nat.mod_lt _ (by decide)
      simp only [hmode]
      interval_cases r.control.toNat % 4
      · exact (by decide : ((0 : BitVec 2) &&& 1).toNat = 0)
      · exact (by decide : ((1 : BitVec 2) &&& 1).toNat = 1)
      · exact hlow
      · exact hhigh

/-- R822's entry is the model's index. -/
theorem paletteIndex_eq (a : Nat) : paletteIndex a = paletteCell (a % 0x20) := by
  unfold paletteIndex paletteCell
  simp only
  split_ifs <;> omega

/-- Settles O45: the cell of `v` is stored to and no other; an address reads its cell, or CHR-ROM. -/
theorem dataWrite : Obligations.DataWrite := by
  intro d s
  refine ⟨fun k n => storedByte_memWrite_data d s, fun k n => storedByte_memWrite_data_ne d s, ?v,
    ppuRead_memWrite_data d s, fun c b hc hfour => ?cells⟩
  case v =>
    rw [← vramStep_add, memWrite_data]
    rfl
  case cells =>
    unfold vramCell
    simp only [hc, Option.bind_some, chrIsRam, beq_iff_eq, ntIndex, nametablePage, ← hfour, mirrorPage_eq,
      paletteIndex_eq]
    have hpage : (b.toNat - 0x2000) % 0x1000 / 0x400 < 4 := by omega
    rw [BitVec.toNat_ofNat, Nat.mod_eq_of_lt hpage]
    by_cases h1 : b.toNat < 0x2000
    · simp only [h1, if_true]
    · simp only [h1, if_false]
      by_cases h2 : b.toNat < 0x3F00
      · rw [if_pos h2, if_pos h2, show (b.toNat - 0x2000) % 0x1000 / 0x400 = b.toNat / 0x400 % 4 by omega,
          show (b.toNat - 0x2000) % 0x1000 % 0x400 = b.toNat % 0x400 by omega]
      · rw [if_neg h2, if_neg h2]

end Sys2Proof.Machine
end

section
/-! SUPPORT. The PPU's VBlank window and its sprite evaluation, and the delivery of an NMI
(`61_ppu` sections 2 and 6, `64_scheduler` section 2). -/

namespace Sys2Proof.Machine

/-! ### The status flags over the VBlank lines -/

/-- What a dot off the visible lines can only change at (241, 1) and (261, 1), and its line. -/
def statusOf (p : Ppu) : Bool × Bool × Bool × Bool × Nat :=
  (p.vblank, p.nmiEdge, p.s0hit, p.ovf, p.scanline)

/-- Below the visible lines no work after the pixel touches the status flags. -/
theorem statusOf_dotAfterPixel {p : Ppu} (h : 240 ≤ p.scanline) :
    statusOf (dotAfterPixel p) = statusOf p := by
  have hincX : ∀ p, statusOf (dotIncX p) = statusOf p := fun p => by unfold dotIncX; split <;> rfl
  have hincY : ∀ p, statusOf (dotIncY p) = statusOf p := fun p => by unfold dotIncY; split <;> rfl
  have hcopyX : ∀ p, statusOf (dotCopyX p) = statusOf p := fun p => by unfold dotCopyX; split <;> rfl
  have hcopyY : ∀ p, statusOf (dotCopyY p) = statusOf p := fun p => by unfold dotCopyY; split <;> rfl
  have hlatch : ∀ p, statusOf (dotLatch p) = statusOf p := fun p => by unfold dotLatch; split <;> rfl
  have hspr : ∀ p, statusOf (dotSprites p) = statusOf p := fun p => by unfold dotSprites; split <;> rfl
  have hcopies : statusOf (dotCopyY (dotCopyX (dotIncY (dotIncX p)))) = statusOf p := by
    rw [hcopyY, hcopyX, hincY, hincX]
  have heval : ∀ q, statusOf q = statusOf p → dotEvaluate q = q := fun q hq => by
    have hline : q.scanline = p.scanline := congrArg (·.2.2.2.2) hq
    exact if_neg fun hc => by omega
  rw [dotAfterPixel, hspr, hlatch, heval _ hcopies, hcopies]

/-- Below the visible lines a dot's status flags are those of the two events of R813 and R814. -/
theorem statusOf_ppuDot (cart : Option Cartridge) {p : Ppu} (h : 240 ≤ p.scanline) :
    statusOf (ppuDot cart p) = statusOf (dotPreRender (dotVblankSet p)) := by
  have hline : (dotPreRender (dotVblankSet p)).scanline = p.scanline := by
    unfold dotPreRender dotVblankSet; split_ifs <;> rfl
  have hpixel : dotPixel cart (dotPreRender (dotVblankSet p)) = dotPreRender (dotVblankSet p) := by
    unfold dotPixel visibleDot
    rw [hline, decide_eq_false (by omega)]
    rfl
  rw [ppuDot, hpixel, statusOf_dotAfterPixel (by omega)]

/-- `advance()` leaves the status flags alone. -/
theorem ppuAdvance_status (p : Ppu) :
    (ppuAdvance p).vblank = p.vblank ∧ (ppuAdvance p).nmiEdge = p.nmiEdge ∧
      (ppuAdvance p).s0hit = p.s0hit ∧ (ppuAdvance p).ovf = p.ovf := by
  unfold ppuAdvance
  split_ifs <;> exact ⟨rfl, rfl, rfl, rfl⟩

/-- A tick below the visible lines: the status flags of its two events (R813, R814). -/
theorem ppuTick_status (cart : Option Cartridge) {p : Ppu} (h : 240 ≤ p.scanline) :
    (ppuTick cart p).vblank = (dotPreRender (dotVblankSet p)).vblank ∧
      (ppuTick cart p).nmiEdge = (dotPreRender (dotVblankSet p)).nmiEdge ∧
      (ppuTick cart p).s0hit = (dotPreRender (dotVblankSet p)).s0hit ∧
      (ppuTick cart p).ovf = (dotPreRender (dotVblankSet p)).ovf := by
  have hs := statusOf_ppuDot cart h
  simp only [statusOf, Prod.mk.injEq] at hs
  obtain ⟨hv, he, h0, ho, -⟩ := hs
  obtain ⟨av, ae, a0, ao⟩ := ppuAdvance_status (ppuDot cart p)
  exact ⟨av.trans hv, ae.trans he, a0.trans h0, ao.trans ho⟩

/-- The dot's place in its frame. -/
def framePlace (p : Ppu) : Nat := 341 * p.scanline + p.cycle

/-- Before the frame's last dot a tick moves one place on. -/
theorem framePlace_ppuTick (cart : Option Cartridge) {p : Ppu} (hc : p.cycle ≤ 340)
    (hl : framePlace p < 89341) :
    framePlace (ppuTick cart p) = framePlace p + 1 ∧ (ppuTick cart p).cycle ≤ 340 := by
  obtain ⟨hsl, hcy, -⟩ := ppuDot_sameDot cart p
  unfold framePlace at *
  unfold ppuTick ppuAdvance
  rw [hsl, hcy]
  split_ifs with h1 h2
  · exact ⟨by dsimp only; omega, h1⟩
  · exact ⟨by dsimp only; omega, Nat.zero_le _⟩
  · omega

/-- The tick at (241, 1) sets the VBlank flag and makes an edge as PPUCTRL bit 7 says (R813). -/
theorem ppuTick_at_vblankSet (cart : Option Cartridge) {p : Ppu} (hl : p.scanline = 241)
    (hc : p.cycle = 1) :
    (ppuTick cart p).vblank = true ∧
      (ppuTick cart p).nmiEdge = (p.nmiEdge || p.ctrl.getLsbD 7) := by
  obtain ⟨hv, he, -⟩ := ppuTick_status cart (p := p) (by omega)
  have hset : dotVblankSet p = { p with vblank := true, nmiEdge := p.nmiEdge || p.ctrl.getLsbD 7 } :=
    if_pos ⟨hl, hc⟩
  have hpre : dotPreRender (dotVblankSet p) = dotVblankSet p := by
    rw [hset]; exact if_neg fun h => by dsimp only at h; omega
  rw [hv, he, hpre, hset]
  exact ⟨rfl, rfl⟩

/-- The VBlank window, tick by tick: the place on the frame and the flags that stand there. -/
theorem vblank_iterate (cart : Option Cartridge) {p : Ppu} (hl : p.scanline = 241)
    (hc : p.cycle = 1) {n : Nat} (h1 : 1 ≤ n) (hn : n ≤ 6820) :
    framePlace ((ppuTick cart)^[n] p) = framePlace p + n ∧ ((ppuTick cart)^[n] p).cycle ≤ 340 ∧
      ((ppuTick cart)^[n] p).vblank = true ∧
      ((ppuTick cart)^[n] p).nmiEdge = (p.nmiEdge || p.ctrl.getLsbD 7) := by
  induction n, h1 using Nat.le_induction with
  | base =>
    obtain ⟨hplace, hcycle⟩ := framePlace_ppuTick cart (p := p) (by omega) (by unfold framePlace; omega)
    obtain ⟨hv, he⟩ := ppuTick_at_vblankSet cart hl hc
    exact ⟨hplace, hcycle, hv, he⟩
  | succ n h1 ih =>
    obtain ⟨hplace, hcycle, hv, he⟩ := ih (by omega)
    rw [Function.iterate_succ_apply']
    generalize (ppuTick cart)^[n] p = q at *
    have hq : 341 * q.scanline + q.cycle = 341 * 241 + 1 + n := by
      rw [← hl, ← hc]; exact hplace
    obtain ⟨hplace', hcycle'⟩ := framePlace_ppuTick cart (p := q) hcycle (hq.trans_lt (by omega))
    obtain ⟨sv, se, -⟩ := ppuTick_status cart (p := q) (by omega)
    have hset : dotVblankSet q = q := if_neg fun h => by omega
    have hpre : dotPreRender q = q := if_neg fun h => by omega
    rw [hset, hpre] at sv se
    exact ⟨by rw [hplace', hplace, Nat.add_assoc], hcycle', sv.trans hv, se.trans he⟩

/-- Settles O47: the flag stands for 6820 ticks and the tick at (261, 1) clears the three flags. -/
theorem vblankWindow : Obligations.VblankWindow := by
  intro cart p n hl hc h1 hn
  dsimp only
  rcases Nat.lt_or_ge n 6821 with hlt | hge
  · obtain ⟨-, -, hv, he⟩ := vblank_iterate cart hl hc h1 (by omega : n ≤ 6820)
    exact ⟨by rw [hv, decide_eq_true (by omega)], he, fun h => by omega⟩
  · obtain ⟨m, rfl⟩ : ∃ m, n = m + 1 := ⟨n - 1, by omega⟩
    obtain ⟨hplace, hcycle, -, he⟩ := vblank_iterate cart hl hc (n := m) (by omega) (by omega)
    rw [Function.iterate_succ_apply', decide_eq_false (by omega)]
    generalize (ppuTick cart)^[m] p = q at *
    unfold framePlace at hplace
    have hql : q.scanline = 261 := by omega
    have hqc : q.cycle = 1 := by omega
    obtain ⟨sv, se, s0, so⟩ := ppuTick_status cart (p := q) (by omega)
    have hset : dotVblankSet q = q := if_neg fun h => by omega
    have hpre : dotPreRender q = { q with vblank := false, s0hit := false, ovf := false } :=
      if_pos ⟨hql, hqc⟩
    rw [hset, hpre] at sv se s0 so
    exact ⟨sv, se.trans he, fun _ => ⟨s0, so⟩⟩

/-! ### Sprite evaluation -/

/-- Line `L` + 1 shows OAM sprite `i` (R861). -/
def spriteShows (oam : Memory) (h : SpriteHeight) (L i : Nat) : Bool :=
  decide ((memGet oam (4 * i)).toNat ≤ L ∧ L - (memGet oam (4 * i)).toNat < heightLines h)

/-- The entry that evaluation makes of OAM sprite `i` (R861). -/
def spriteEntryOf (oam : Memory) (h : SpriteHeight) (L i : Nat) : SpriteEntry where
  index := BitVec.ofNat 6 i
  y := memGet oam (4 * i)
  tile := memGet oam (4 * i + 1)
  attr := memGet oam (4 * i + 2)
  xpos := memGet oam (4 * i + 3)
  row := BitVec.ofNat 4 (L - (memGet oam (4 * i)).toNat)
  height := h

theorem spriteInRange_eq (oam : Memory) (h : SpriteHeight) (L i : Nat) :
    spriteInRange oam h L i =
      if spriteShows oam h L i then some (spriteEntryOf oam h L i) else none := by
  simp only [spriteInRange, spriteShows, decide_eq_true_eq]
  rfl

/-- The evaluation is a filter of the OAM indices, in order. -/
theorem spritesFrom_eq (oam : Memory) (h : SpriteHeight) (L n i : Nat) :
    spritesFrom oam h L n i =
      ((List.range' i n).filter (spriteShows oam h L)).map (spriteEntryOf oam h L) := by
  induction n generalizing i with
  | zero => rfl
  | succ n ih =>
    rw [spritesFrom, spriteInRange_eq, List.range'_succ, List.filter_cons]
    by_cases hi : spriteShows oam h L i
    · simp only [hi, if_true, ih, List.map_cons]
    · simp only [hi, if_false, ih, Bool.false_eq_true]

theorem heightLines_spriteHeight (p : Ppu) :
    heightLines (spriteHeight p) = if p.ctrl.getLsbD 5 then 16 else 8 := by
  unfold spriteHeight
  split_ifs <;> rfl

/-- A sprite that a line shows has a four-bit row. -/
theorem row_of_spriteShows {oam : Memory} {h : SpriteHeight} {L i : Nat}
    (hi : spriteShows oam h L i = true) :
    (spriteEntryOf oam h L i).row.toNat = L - (memGet oam (4 * i)).toNat := by
  have hlt : L - (memGet oam (4 * i)).toNat < heightLines h := (of_decide_eq_true hi).2
  have h16 : heightLines h ≤ 16 := by cases h <;> decide
  exact (BitVec.toNat_ofNat _ _).trans (Nat.mod_eq_of_lt (by omega))

theorem index_spriteEntryOf (oam : Memory) (h : SpriteHeight) (L : Nat) {i : Nat} (hi : i < 64) :
    (spriteEntryOf oam h L i).index.toNat = i :=
  (BitVec.toNat_ofNat _ _).trans (Nat.mod_eq_of_lt hi)

/-- Settles O48: the entries found are the filter's first eight, and a ninth overflows. -/
theorem spriteEvaluation : Obligations.SpriteEvaluation := by
  intro p found q
  have hfound : found = (List.range 64).filter (spriteShows p.oam (spriteHeight p) p.scanline) := by
    unfold spriteShows
    rw [heightLines_spriteHeight]
  have hfrom : spritesFrom p.oam (spriteHeight p) p.scanline 64 0 =
      found.map (spriteEntryOf p.oam (spriteHeight p) p.scanline) := by
    rw [spritesFrom_eq, ← List.range_eq_range', hfound]
  have hq : q =
      { p with
        sprNext := p.sprNext ++ (found.take 8).map (spriteEntryOf p.oam (spriteHeight p) p.scanline)
        ovf := p.ovf || decide (8 < found.length) } := by
    change evaluateSprites p = _
    rw [evaluateSprites, hfrom, List.length_map, List.map_take]
  have hmem : ∀ i ∈ found.take 8, i < 64 ∧
      spriteShows p.oam (spriteHeight p) p.scanline i = true := fun i hi => by
    obtain ⟨hr, hs⟩ := List.mem_filter.mp (hfound ▸ List.mem_of_mem_take hi)
    exact ⟨List.mem_range.mp hr, hs⟩
  clear_value found q
  subst hq
  rw [← heightLines_spriteHeight, List.drop_left]
  refine ⟨by rw [List.length_append, List.length_map, List.length_take], ?index, ?fields, rfl, rfl⟩
  case index =>
    rw [List.map_map]
    exact (List.map_congr_left fun i hi => index_spriteEntryOf _ _ _ (hmem i hi).1).trans
      (List.map_id _)
  case fields =>
    intro e he
    obtain ⟨i, hi, rfl⟩ := List.mem_map.mp he
    obtain ⟨hlt, hshow⟩ := hmem i hi
    rw [index_spriteEntryOf _ _ _ hlt]
    exact ⟨rfl, rfl, rfl, rfl, row_of_spriteShows hshow, rfl⟩

end Sys2Proof.Machine
end

section
/-! SUPPORT. The delivery of an NMI: the edge, the countdown and its expiry (`64_scheduler` R1103, R1104). -/

namespace Sys2Proof.Machine

/-! ### The edge -/

theorem takeEdge_of_noEdge {s : State} (h : s.ppu.nmiEdge = false) : takeEdge s = s :=
  if_neg (by rw [h]; decide)

/-- With no delay an edge makes the NMI pending at once. -/
theorem takeEdge_of_noDelay {s : State} (h : s.ppu.nmiEdge = true) (hd : s.params.nmiDelay = 0) :
    takeEdge s =
      { s with ppu := { s.ppu with nmiEdge := false }, cpu := { s.cpu with nmiPending := true } } := by
  unfold takeEdge
  rw [if_pos h]
  exact if_pos hd

theorem edgeMerged_iff (s : State) : edgeMerged s = true ↔ s.sched.nmiCountdown ≠ 0 ∨
    (s.params.pendingNmiMergesEdge = true ∧ s.cpu.nmiPending = true) := by
  simp only [edgeMerged, Bool.or_eq_true, Bool.and_eq_true, bne_iff_ne]

/-- A merged edge is taken and nothing else happens. -/
theorem takeEdge_of_merged {s : State} (h : s.ppu.nmiEdge = true) (hd : s.params.nmiDelay ≠ 0)
    (hm : edgeMerged s = true) : takeEdge s = { s with ppu := { s.ppu with nmiEdge := false } } := by
  unfold takeEdge
  rw [if_pos h]
  exact (if_neg hd).trans (if_pos hm)

/-- An edge that is not merged starts the countdown of the delay. -/
theorem takeEdge_of_started {s : State} (h : s.ppu.nmiEdge = true) (hd : s.params.nmiDelay ≠ 0)
    (hm : ¬edgeMerged s = true) : takeEdge s =
      { s with
        ppu := { s.ppu with nmiEdge := false }
        sched := { s.sched with nmiCountdown := BitVec.ofNat 8 s.params.nmiDelay } } := by
  unfold takeEdge
  rw [if_pos h]
  exact (if_neg hd).trans (if_neg hm)

/-- While a countdown runs, an edge changes the PPU alone. -/
theorem takeEdge_of_running {s : State} (hd : s.params.nmiDelay ≠ 0) (hr : s.sched.nmiCountdown ≠ 0) :
    (takeEdge s).cpu = s.cpu ∧ (takeEdge s).sched = s.sched ∧ (takeEdge s).params = s.params := by
  cases h : s.ppu.nmiEdge with
  | false => rw [takeEdge_of_noEdge h]; exact ⟨rfl, rfl, rfl⟩
  | true =>
    rw [takeEdge_of_merged h hd ((edgeMerged_iff s).mpr (Or.inl hr))]
    exact ⟨rfl, rfl, rfl⟩

/-- A pending NMI stays pending over an edge. -/
theorem takeEdge_pending {s : State} (h : s.cpu.nmiPending = true) :
    (takeEdge s).cpu.nmiPending = true := by
  cases he : s.ppu.nmiEdge with
  | false => rw [takeEdge_of_noEdge he]; exact h
  | true =>
    by_cases hd : s.params.nmiDelay = 0
    · rw [takeEdge_of_noDelay he hd]
    · by_cases hm : edgeMerged s = true
      · rw [takeEdge_of_merged he hd hm]; exact h
      · rw [takeEdge_of_started he hd hm]; exact h

/-! ### The countdown -/

/-- A tick of a countdown of at least two: one less, and no NMI made pending by it. -/
theorem tickPpu_of_running {s : State} (hd : s.params.nmiDelay ≠ 0) (hr : s.sched.nmiCountdown ≠ 0)
    (hr' : s.sched.nmiCountdown - 1 ≠ 0) :
    (tickPpu s).cpu.nmiPending = s.cpu.nmiPending ∧
      (tickPpu s).sched.nmiCountdown = s.sched.nmiCountdown - 1 ∧ (tickPpu s).params = s.params := by
  have hcount : countNmi (runPpu s) =
      { runPpu s with sched := { s.sched with nmiCountdown := s.sched.nmiCountdown - 1 } } :=
    (if_neg hr).trans (if_neg hr')
  obtain ⟨hcpu, hsched, hparams⟩ := takeEdge_of_running (s := countNmi (runPpu s))
    (by rw [hcount]; exact hd) (by rw [hcount]; exact hr')
  rw [hcount] at hcpu hsched hparams
  unfold tickPpu
  rw [hcount, hcpu, hsched, hparams]
  exact ⟨rfl, rfl, rfl⟩

/-- The tick of a countdown of one makes the NMI pending. -/
theorem tickPpu_of_expiring {s : State} (hr : s.sched.nmiCountdown = 1) :
    (tickPpu s).cpu.nmiPending = true := by
  have hrun : (runPpu s).sched.nmiCountdown = 1 := hr
  have hcount : (countNmi (runPpu s)).cpu.nmiPending = true := by
    unfold countNmi
    simp only [hrun]
    rfl
  exact takeEdge_pending hcount

/-- A countdown of `d` makes the NMI pending at the end of the `d`-th tick and no earlier (R1103). -/
theorem countdown_expires {d : Nat} (h1 : 1 ≤ d) (h255 : d ≤ 255) {s : State}
    (hd : s.params.nmiDelay ≠ 0) (hr : s.sched.nmiCountdown = BitVec.ofNat 8 d) :
    (∀ k < d, (tickPpuN k s).cpu.nmiPending = s.cpu.nmiPending ∧
      (tickPpuN k s).sched.nmiCountdown = BitVec.ofNat 8 (d - k)) ∧
      (tickPpuN d s).cpu.nmiPending = true := by
  induction d, h1 using Nat.le_induction generalizing s with
  | base =>
    refine ⟨fun k hk => ?_, tickPpu_of_expiring hr⟩
    obtain rfl : k = 0 := by omega
    exact ⟨rfl, hr⟩
  | succ d h1 ih =>
    have hne : s.sched.nmiCountdown ≠ 0 := by rw [hr]; bv_omega
    have hnext : s.sched.nmiCountdown - 1 = BitVec.ofNat 8 d := by rw [hr]; bv_omega
    have hne' : s.sched.nmiCountdown - 1 ≠ 0 := by rw [hnext]; bv_omega
    obtain ⟨hpend, hcount, hparams⟩ := tickPpu_of_running hd hne hne'
    obtain ⟨hbefore, hafter⟩ := ih (by omega) (s := tickPpu s) (by rw [hparams]; exact hd)
      (hcount.trans hnext)
    refine ⟨fun k hk => ?_, hafter⟩
    cases k with
    | zero => exact ⟨rfl, hr⟩
    | succ k =>
      obtain ⟨hp, hc⟩ := hbefore k (by omega)
      exact ⟨hp.trans hpend, by rw [Nat.add_sub_add_right]; exact hc⟩

/-- An edge at an idle machine is delivered the delay after it is taken, for every delay of a u8. -/
theorem edge_delivered {s : State} (h255 : s.params.nmiDelay ≤ 255)
    (hr : s.sched.nmiCountdown = 0) (hp : s.cpu.nmiPending = false) (he : s.ppu.nmiEdge = true) :
    (∀ k < s.params.nmiDelay, (tickPpuN k (takeEdge s)).cpu.nmiPending = false) ∧
      (tickPpuN s.params.nmiDelay (takeEdge s)).cpu.nmiPending = true := by
  by_cases hd : s.params.nmiDelay = 0
  · rw [hd, takeEdge_of_noDelay he hd]
    exact ⟨fun k hk => absurd hk (Nat.not_lt_zero k), rfl⟩
  · have hm : ¬edgeMerged s = true := by
      rw [edgeMerged_iff, hr, hp]
      simp
    rw [takeEdge_of_started he hd hm]
    obtain ⟨hbefore, hafter⟩ := countdown_expires (d := s.params.nmiDelay) (by omega) h255
      (s := { s with
        ppu := { s.ppu with nmiEdge := false }
        sched := { s.sched with nmiCountdown := BitVec.ofNat 8 s.params.nmiDelay } }) hd rfl
    exact ⟨fun k hk => (hbefore k hk).1.trans hp, hafter⟩

/-! ### Where edges come from -/

/-- The tick of the VBlank set at an idle machine takes its edge (R813). -/
theorem tickPpu_of_idle {s : State} (hr : s.sched.nmiCountdown = 0) :
    tickPpu s = takeEdge (runPpu s) := by
  unfold tickPpu
  rw [show countNmi (runPpu s) = runPpu s from if_pos hr]

/-- A PPUCTRL write that sets bit 7 while the VBlank flag is 1 makes an edge (R842). -/
theorem memWrite_ctrl_edge {d : Byte} {s : State} (hv : s.ppu.vblank = true)
    (hc : s.ppu.ctrl.getLsbD 7 = false) (hd : d.getLsbD 7 = true) :
    (memWrite 0x2000 d s).ppu.nmiEdge = true := by
  change (s.ppu.nmiEdge || (!s.ppu.ctrl.getLsbD 7 && d.getLsbD 7 && s.ppu.vblank)) = true
  rw [hv, hc, hd]
  exact Bool.or_true _

/-- Settles O36: an edge at an idle machine starts the countdown, which no tick stops or shortens. -/
theorem nmiCountdownExpires : Obligations.NmiCountdownExpires := by
  intro s delay idle merged taken
  refine ⟨fun d h1 h255 hd hr => countdown_expires h1 h255 hd hr, takeEdge_of_noEdge,
    fun he => ⟨takeEdge_of_noDelay he,
      fun hd hm => takeEdge_of_merged he hd ((edgeMerged_iff s).mpr hm),
      fun hd hm => takeEdge_of_started he hd fun h => hm ((edgeMerged_iff s).mp h),
      fun _ h255 hidle => edge_delivered h255 hidle.1 hidle.2 he⟩, ?vblank, ?ctrl⟩
  case vblank =>
    intro h255 hidle hl hc hctrl
    have hedge : (runPpu s).ppu.nmiEdge = true := by
      change (ppuTick s.cart s.ppu).nmiEdge = true
      rw [(ppuTick_at_vblankSet s.cart hl hc).2, hctrl, Bool.or_true]
    obtain ⟨hbefore, hafter⟩ := edge_delivered (s := runPpu s) h255 hidle.1 hidle.2 hedge
    rw [← tickPpu_of_idle hidle.1] at hbefore hafter
    refine ⟨fun k hk => ?_, hafter⟩
    cases k with
    | zero => exact hidle.2
    | succ k => exact hbefore k (Nat.lt_of_succ_le hk)
  case ctrl =>
    intro d h255 hidle hv hc hd
    exact edge_delivered (s := memWrite 0x2000 d s) h255 hidle.1 hidle.2 (memWrite_ctrl_edge hv hc hd)

end Sys2Proof.Machine
end

section
/-! SUPPORT. The host's register accessor and buttons (`65_savestate_host` R1221, R1222). -/

namespace Sys2Proof.Machine

/-! ### Cutting a value to a register's width -/

theorem setWidth_setWidth_eight (v : BitVec 32) : (v.setWidth 8).setWidth 32 = v &&& 0xFF := by
  refine BitVec.eq_of_getLsbD_eq fun i hi => ?_
  simp only [BitVec.getLsbD_setWidth, BitVec.getLsbD_and]
  interval_cases i <;> simp

theorem setWidth_setWidth_sixteen (v : BitVec 32) : (v.setWidth 16).setWidth 32 = v &&& 0xFFFF := by
  refine BitVec.eq_of_getLsbD_eq fun i hi => ?_
  simp only [BitVec.getLsbD_setWidth, BitVec.getLsbD_and]
  interval_cases i <;> simp

/-- P reads back cut to its byte and in its stored form (R107). -/
theorem setWidth_storedP (v : BitVec 32) :
    ((v.setWidth 8 &&& 0xCF) ||| 0x20).setWidth 32 = (v &&& 0xCF) ||| 0x20 := by
  rw [BitVec.setWidth_or, BitVec.setWidth_and, setWidth_setWidth_eight, BitVec.and_assoc]
  rfl

theorem getLsbD_zero_eq_decide (v : BitVec 32) : v.getLsbD 0 = decide (v.toNat % 2 = 1) := by
  rw [BitVec.getLsbD, Nat.testBit_zero]

theorem lowBit_eq (v : BitVec 32) : (if v.getLsbD 0 then 1 else 0 : BitVec 32) = v &&& 1 := by
  refine BitVec.eq_of_toNat_eq ?_
  rw [getLsbD_zero_eq_decide, BitVec.toNat_and, show (1 : BitVec 32).toNat = 2 ^ 1 - 1 from rfl,
    Nat.and_two_pow_sub_one_eq_mod]
  rcases Nat.mod_two_eq_zero_or_one v.toNat with h | h <;> simp [h]

/-! ### The accessor -/

/-- Setting one register leaves every other one as it was: two indices name two fields, or are one index. -/
theorem getRegister_setRegister_ne {i j : Nat} (h : j ≠ i) (v : BitVec 32) (s : State) :
    getRegister j (setRegister i v s).2 = getRegister j s := by
  unfold setRegister
  split <;> unfold getRegister <;> split <;> first | rfl | exact absurd rfl h

/-- Settles O56: one case per register. -/
theorem hostAccessors : Obligations.HostAccessors := by
  intro i port v mask s
  refine ⟨?get, ?set, fun hi => ⟨?readBack, fun j hj => getRegister_setRegister_ne hj v s⟩,
    rfl, rfl, ?port⟩
  case get =>
    match i with
    | 8 => cases h : s.cpu.illegalSeen <;> simp [getRegister, h]
    | 0 | 1 | 2 | 3 | 4 | 5 | 6 | 7 | _ + 9 => rfl
  case set =>
    match i with
    | 8 => rw [← getLsbD_zero_eq_decide]; rfl
    | 0 | 1 | 2 | 3 | 4 | 5 | 6 | 7 | _ + 9 => rfl
  case readBack =>
    match i with
    | 0 | 1 | 2 | 3 => exact setWidth_setWidth_eight v
    | 4 => exact setWidth_setWidth_sixteen v
    | 5 => exact setWidth_storedP v
    | 6 | 7 => rfl
    | 8 => exact lowBit_eq v
    | _ + 9 => omega
  case port =>
    intro hp
    match port with
    | _ + 2 => rfl

end Sys2Proof.Machine
end

section
/-! SUPPORT. The DMC's level and the frame sequencer's counter over one sequence (`63_apu` sections 4
and 5). -/

namespace Sys2Proof.Machine

/-! ### The level -/

theorem dmcClock_level (d : Dmc) : (dmcClock d).level = dmcLevelNext d := by
  unfold dmcClock
  dsimp only
  split_ifs <;> rfl

theorem dmcLevelNext_of_silence {d : Dmc} (h : d.silence = true) : dmcLevelNext d = d.level := if_pos h

/-- A 1 bit raises the level by 2 where that stays below 128. -/
theorem dmcLevelNext_up {d : Dmc} (hs : d.silence = false) (hb : d.shift.getLsbD 0 = true) :
    (dmcLevelNext d).toNat =
      if d.level.toNat + 2 ≤ 127 then d.level.toNat + 2 else d.level.toNat := by
  unfold dmcLevelNext
  rw [if_neg (by rw [hs]; decide), if_pos hb, apply_ite BitVec.toNat]
  refine ite_congr (propext ⟨fun h => by omega, fun h => by omega⟩) (fun h => ?_) fun _ => rfl
  exact BitVec.toNat_add_of_lt (show d.level.toNat + 2 < 128 by omega)

/-- A 0 bit lowers the level by 2 where that stays at least 0. -/
theorem dmcLevelNext_down {d : Dmc} (hs : d.silence = false) (hb : d.shift.getLsbD 0 = false) :
    (dmcLevelNext d).toNat = if 2 ≤ d.level.toNat then d.level.toNat - 2 else d.level.toNat := by
  unfold dmcLevelNext
  rw [if_neg (by rw [hs]; decide), if_neg (by rw [hb]; decide), apply_ite BitVec.toNat]
  exact ite_congr rfl (fun h => BitVec.toNat_sub_of_le (BitVec.le_def.mpr h)) fun _ => rfl

theorem dmcTimer_level (d : Dmc) :
    (dmcTimer d).level = if d.timer = 0 then (dmcClock d).level else d.level := by
  unfold dmcTimer
  split_ifs with h
  · rw [dmcClock_level, dmcClock_level]; rfl
  · rfl

theorem dmcReceive_level (b : Byte) (d : Dmc) : (dmcReceive b d).level = d.level := by
  unfold dmcReceive
  dsimp only
  split_ifs <;> rfl

theorem dmcEnable_level (on : Bool) (d : Dmc) : (dmcEnable on d).level = d.level := by
  unfold dmcEnable updateDmaRequest
  dsimp only
  split_ifs <;> rfl

theorem apuWriteFrame_dmc (v : Byte) (u : Apu) : (apuWriteFrame v u).dmc = u.dmc := by
  unfold apuWriteFrame
  dsimp only
  split_ifs <;> rfl

/-- Of the register writes $4011 alone changes the level. -/
theorem apuWrite_level_of_ne {a : Word} (h : a ≠ 0x4011) (v : Byte) (u : Apu) :
    (apuWrite a v u).dmc.level = u.dmc.level := by
  unfold apuWrite
  split
  case h_16 ha => exact absurd (BitVec.eq_of_toNat_eq ha) h
  case h_19 => exact dmcEnable_level _ _
  case h_20 => exact congrArg Dmc.level (apuWriteFrame_dmc v u)
  all_goals rfl

/-- The APU's tick runs the DMC's timer, which the frame sequencer leaves alone. -/
theorem apuTick_dmc (silent : Bool) (u : Apu) : (apuTick silent u).1.dmc = dmcTimer u.dmc := by
  change dmcTimer (frameSequencerStep u).dmc = dmcTimer u.dmc
  rw [(frameSequencerStep_eq u).1]

/-- Settles O51: the level moves with the DMC's clock, and of the rest only by the write of $4011. -/
theorem dmcLevelLaw : Obligations.DmcLevelLaw := by
  intro u d l
  have hl : l = (dmcLevelNext d).toNat := congrArg BitVec.toNat (dmcClock_level d)
  rw [hl]
  refine ⟨fun hs => by rw [dmcLevelNext_of_silence hs], dmcLevelNext_up, dmcLevelNext_down,
    fun silent => by rw [apuTick_dmc, dmcTimer_level], fun b => dmcReceive_level b d, fun a v => ?_⟩
  by_cases ha : a = 0x4011
  · rw [if_pos ha, ha]; rfl
  · rw [if_neg ha, apuWrite_level_of_ne ha]

/-! ### The frame sequence -/

/-- The ticks of one frame sequence (R1033). -/
def sequenceLength (u : Apu) : Nat := if u.fsMode then 37282 else 29830

/-- One APU tick, for the frame sequencer: its mode, and its counter and IRQ (R1032, R1033). -/
theorem apuTick_sequencer (silent : Bool) (u : Apu) :
    (apuTick silent u).1.fsMode = u.fsMode ∧ (apuTick silent u).1.fsInhibit = u.fsInhibit ∧
      (apuTick silent u).1.fsCounter =
        (if (u.fsCounter + 1).toNat = sequenceLength u then 0 else u.fsCounter + 1) ∧
      (apuTick silent u).1.frameIrq =
        (u.frameIrq || (!u.fsMode && decide ((u.fsCounter + 1).toNat = 29829) && !u.fsInhibit)) := by
  obtain ⟨-, -, hmode, hinhibit, -, -, hcounter, hirq⟩ := frameSequencerStep_eq u
  exact ⟨hmode, hinhibit, hcounter, hirq⟩

/-- The frame sequencer `n` ticks into a sequence. -/
theorem sequencer_iterate (silent : Bool) {u : Apu} (h0 : u.fsCounter = 0) {n : Nat}
    (hn : n ≤ sequenceLength u) :
    let v := (fun x => (apuTick silent x).1)^[n] u
    v.fsMode = u.fsMode ∧ v.fsInhibit = u.fsInhibit ∧ v.fsCounter.toNat = n % sequenceLength u ∧
      v.frameIrq = (u.frameIrq || (!u.fsMode && decide (29829 ≤ n) && !u.fsInhibit)) := by
  have hlen : sequenceLength u ≤ 37282 := by unfold sequenceLength; split_ifs <;> omega
  induction n with
  | zero => exact ⟨rfl, rfl, by rw [Nat.zero_mod, Function.iterate_zero_apply, h0]; rfl, by simp⟩
  | succ n ih =>
    obtain ⟨hmode, hinhibit, hcounter, hirq⟩ := ih (Nat.le_of_succ_le hn)
    rw [Function.iterate_succ_apply']
    generalize (fun x => (apuTick silent x).1)^[n] u = v at *
    rw [Nat.mod_eq_of_lt (Nat.lt_of_succ_le hn)] at hcounter
    have hnext : (v.fsCounter + 1).toNat = n + 1 := by
      rw [BitVec.toNat_add_of_lt (by rw [hcounter]; exact (by omega : n + 1 < 65536)), hcounter]
      rfl
    obtain ⟨smode, sinhibit, scounter, sirq⟩ := apuTick_sequencer silent v
    have hlv : sequenceLength v = sequenceLength u := by unfold sequenceLength; rw [hmode]
    refine ⟨smode.trans hmode, sinhibit.trans hinhibit, ?counter, ?irq⟩
    case counter =>
      rw [scounter, hnext, hlv]
      split_ifs with hend
      · rw [hend, Nat.mod_self]; rfl
      · rw [hnext, Nat.mod_eq_of_lt (Nat.lt_of_le_of_ne hn hend)]
    case irq =>
      have hstep : decide (29829 ≤ n + 1) = (decide (29829 ≤ n) || decide (n + 1 = 29829)) := by
        rw [← Bool.decide_or]; exact decide_eq_decide.mpr (by omega)
      rw [sirq, hnext, hirq, hmode, hinhibit, hstep, Bool.or_assoc, ← Bool.and_or_distrib_right,
        ← Bool.and_or_distrib_left]

/-- Settles O52: both modes of the sequencer's `n` ticks. -/
theorem frameSequence : Obligations.FrameSequence := by
  intro silent u n h0 v
  refine ⟨fun hmode hn => ?four, fun hmode hn => ?five⟩
  case four =>
    have hlen : sequenceLength u = 29830 := by rw [sequenceLength, hmode]; rfl
    obtain ⟨-, -, hcounter, hirq⟩ := sequencer_iterate silent h0 (hn.trans_eq hlen.symm)
    rw [hlen] at hcounter
    rw [hmode] at hirq
    exact ⟨hcounter, hirq⟩
  case five =>
    have hlen : sequenceLength u = 37282 := by rw [sequenceLength, hmode]; rfl
    obtain ⟨-, -, hcounter, hirq⟩ := sequencer_iterate silent h0 (hn.trans_eq hlen.symm)
    rw [hlen] at hcounter
    rw [hmode] at hirq
    exact ⟨hcounter, hirq.trans (Bool.or_false _)⟩

end Sys2Proof.Machine
end

section
/-! SUPPORT. Loading a ROM image (`62_mapper` section 4): its checks, and the cartridge it installs. -/

namespace Sys2Proof.Machine

/-! ### The host's operation -/

section LoadRom

variable {image : List Byte} {battery : Option (List Byte)} {s : State}

theorem hostCall_loadRom_error {e : RomError} (h : romProblem image = some e) :
    hostCall (.loadRom image battery) s = (.romError e, s) := by
  have hload : loadRom image battery s = .error e := by unfold loadRom; rw [h]
  simp only [hostCall, hload]

/-- The machine with an image's cartridge and its empty nametable RAM, before the reset (R930). -/
def withRom (image : List Byte) (battery : Option (List Byte)) (s : State) : State :=
  { s with
    cart := some (romCartridge s.params image battery)
    ppu := { s.ppu with ntRam := [], ntFour := (romCartridge s.params image battery).fourScreen } }

theorem hostCall_loadRom_ok (h : romProblem image = none) :
    hostCall (.loadRom image battery) s = (.ok, consoleReset (withRom image battery s)) := by
  have hload : loadRom image battery s = .ok (consoleReset (withRom image battery s)) := by
    unfold loadRom; rw [h]; rfl
  simp only [hostCall, hload]

end LoadRom

/-- A reset keeps the cartridge and the nametable RAM (R1302). -/
theorem consoleReset_keeps (s : State) : (consoleReset s).cart = s.cart ∧
    (consoleReset s).ppu.ntRam = s.ppu.ntRam ∧ (consoleReset s).ppu.ntFour = s.ppu.ntFour := by
  rw [resetResult s]
  exact ⟨rfl, rfl, rfl⟩

/-! ### The cartridge of an image -/

theorem mapperId_romCartridge (params : Params) {image : List Byte} (battery : Option (List Byte))
    (h : romMapperId (image.getD 6 0) (image.getD 7 0) = 0 ∨
      romMapperId (image.getD 6 0) (image.getD 7 0) = 1) :
    mapperId (romCartridge params image battery).mapper =
      (romMapperId (image.getD 6 0) (image.getD 7 0)).toNat := by
  unfold romCartridge
  dsimp only
  rcases h with h | h <;> rw [h] <;> rfl

theorem hdrMirror_romCartridge (params : Params) (image : List Byte) (battery : Option (List Byte)) :
    (romCartridge params image battery).hdrMirror = .vertical ↔ (image.getD 6 0).getLsbD 0 = true := by
  unfold romCartridge
  dsimp only
  split_ifs with h
  · exact iff_of_true rfl h
  · exact iff_of_false nofun h

theorem getD_drop_take (image : List Byte) (p n : Nat) {k : Nat} (hk : k < n) :
    ((image.drop p).take n).getD k 0 = image.getD (p + k) 0 := by
  rw [List.getD_eq_getElem?_getD, List.getElem?_take_of_lt hk, List.getElem?_drop,
    List.getD_eq_getElem?_getD]

/-- PRG-ROM is the image's bytes after the header and the trainer. -/
theorem memGet_romCartridge_prg (params : Params) (image : List Byte) (battery : Option (List Byte))
    {k : Nat} (hk : k < 16384 * (image.getD 4 0).toNat) :
    memGet (romCartridge params image battery).prgRom k =
      image.getD (16 + (if (image.getD 6 0).getLsbD 2 then 512 else 0) + k) 0 :=
  (memGet_memOfBytes _ k).trans (getD_drop_take _ _ _ hk)

/-- CHR is the image's bytes after PRG-ROM. -/
theorem memGet_romCartridge_chr (params : Params) (image : List Byte) (battery : Option (List Byte))
    (k : Nat) :
    memGet (romCartridge params image battery).chr k =
      image.getD (16 + (if (image.getD 6 0).getLsbD 2 then 512 else 0) +
        16384 * (image.getD 4 0).toNat + k) 0 := by
  refine (memGet_memOfBytes _ k).trans ?_
  rw [List.getD_eq_getElem?_getD, List.getElem?_drop, ← List.getD_eq_getElem?_getD]

/-! ### The checks in their order -/

/-- Settles O50: the chain of checks, branch by branch, and the cartridge that a good image gives. -/
theorem romChecksInOrder : Obligations.RomChecksInOrder := by
  intro image battery s nprg nchr f6 f7 id expect bad r
  have hproblem : romProblem image =
      if bad then some .malformedHeader
      else if nprg = 0 then some .zeroSizePrg
      else if id ≠ 0 ∧ id ≠ 1 then some (.unsupportedMapper id)
      else if image.length < expect then some .truncatedImage
      else if expect < image.length then some .oversizedImage
      else none := rfl
  have hknown (hid : id = 0 ∨ id = 1) : ¬(id ≠ 0 ∧ id ≠ 1) := fun h => hid.elim h.1 h.2
  refine ⟨fun hb => ?_, fun hb hn => ?_, fun hb hn h0 h1 => ?_, fun hb hn hid hlen => ?_,
    fun hb hn hid hlen => ?_, fun hb hn hid hlen => ?good⟩
  · exact hostCall_loadRom_error (by rw [hproblem, if_pos hb])
  · exact hostCall_loadRom_error (by rw [hproblem, if_neg hb, if_pos hn])
  · exact hostCall_loadRom_error (by rw [hproblem, if_neg hb, if_neg hn, if_pos ⟨h0, h1⟩])
  · exact hostCall_loadRom_error
      (by rw [hproblem, if_neg hb, if_neg hn, if_neg (hknown hid), if_pos hlen])
  · exact hostCall_loadRom_error (by
      rw [hproblem, if_neg hb, if_neg hn, if_neg (hknown hid), if_neg (Nat.lt_asymm hlen), if_pos hlen])
  case good =>
    have hnone : romProblem image = none := by
      rw [hproblem, if_neg hb, if_neg hn, if_neg (hknown hid), if_neg (by omega), if_neg (by omega)]
    have hr : r = _ := hostCall_loadRom_ok hnone
    obtain ⟨hcart, hram, hfour⟩ := consoleReset_keeps (withRom image battery s)
    rw [hr]
    refine ⟨rfl, romCartridge s.params image battery, hcart, rfl, rfl, mapperId_romCartridge _ _ hid,
      rfl, rfl, hdrMirror_romCartridge _ _ _, fun k hk => memGet_romCartridge_prg _ _ _ hk,
      fun k _ => memGet_romCartridge_chr _ _ _ k, hfour, fun n => ?_⟩
    unfold storedByte
    rw [hram]
    rfl

end Sys2Proof.Machine
end
